-- ==== Sys2Proof/Word.lean ====
section
/-! DEFINITION. The byte, the unit of every access of DCORE (20_memory.md R67). Wider registers are written
`BitVec n` where they stand; counts and cursors are `Nat`, as the spec's arithmetic is on naturals (00_scope.md R11). -/

namespace Sys2Proof

/-- One byte of IN, OUT, a window or the LZ table (R50 to R54, R67). -/
abbrev Byte := BitVec 8

end Sys2Proof
end

