-- ==== Sys2Proof/Config.lean ====
section
/-! DEFINITION. The implementation parameters of 00_scope.md R10 that are open, decided or from general knowledge, and
the one free value of the model. The default of each parameter is `Machine.defaultParameters` (Machine/Tables.lean).
`State` holds a `Config` that no step changes (60_exceptions.md R304). -/

namespace Sys2Proof

/-- The sort of the full rebuild, parameter `QT_RESORT` (43_quantum.md R210, 93 U14). -/
inductive Resort where
  | stable    -- the source's word: a stable sort, descending
  | exchange  -- the public decoders' exchange sort: for i < j, swap when f[i] < f[j]
deriving DecidableEq, Repr

/-- The parameters a model takes as arguments (00_scope.md R10). What a value other than the default means is said in log 9. -/
structure Config where
  /-- `QT_ZERO_FILL`: BRM at the end of input supplies zero bytes instead of failing (R136, D6). -/
  qtZeroFill : Bool
  /-- `QT_RESORT` (R210, D32). -/
  qtResort : Resort
  /-- `LZ_LEN_BIAS`, added to the 4-bit length field of a reference (R124, D33). -/
  lzLenBias : Nat
  /-- `N_CTX`: how many contexts of one engine may exist; `none` is unbounded (D36). -/
  nCtx : Option Nat
  /-- `MZ_DYN_LROOT`, requested root width of a dynamic block's literal/length table (D14). -/
  mzDynLroot : Nat
  /-- `MZ_DYN_DROOT`, requested root width of a dynamic block's distance table (D14). -/
  mzDynDroot : Nat
  /-- `MZ_CL_ROOT`, requested root width of the code-length table (D14). -/
  mzClRoot : Nat
  /-- `QT_REORDER_INIT`, initial value of a model's reorder counter (R201, D31). -/
  qtReorderInit : Nat
  /-- `QT_NLEN_SYMS`, entries of the length model `m6len` (R32, D31). -/
  qtNlenSyms : Nat
  /-- The cap on the size of `m4`: min(2w, this) entries (R32, D31). -/
  qtPosCap4 : Nat
  /-- The cap on the size of `m5`: min(2w, this) entries (R32, D31). -/
  qtPosCap5 : Nat
  /-- The cap on the size of `m6pos`: min(2w, this) entries. The default is the number of position slots, which is 2w at
  the largest window, so that the size is 2w for every window (R32, D31). -/
  qtPosCap6 : Nat
  /-- `ACC_WIDTH`, the width in bits of the accumulators of both readers (R131, R135, D3). -/
  accWidth : Nat
  /-- The largest sub-read of BRM in bits (R137, D5). -/
  brmSubRead : Nat
  /-- `LZ_FILL`, the byte the LZ table starts with (R248). -/
  lzFill : BitVec 8
deriving DecidableEq, Repr

/-- FREE VALUE: byte `i` of OUT after the `n`-th command that returned an error (93 U4: "any value"). Nothing constrains
it. DESIGN CHOICE of the form, log 7; safe. -/
opaque Config.freeByte (n i : Nat) : BitVec 8

end Sys2Proof
end

