-- ==== Sys2Proof/Machine/Tables.lean ====
section
/-! DEFINITION. The constants of DCORE: the default parameters of 00_scope.md R10, the constant tables of 30_encoding.md
R104 to R107 and R116, and the numbers of the rules of 43_quantum.md and 44_lzszdd.md. -/

namespace Sys2Proof.Machine

/-- The defaults of the parameters of R10. -/
def defaultParameters : Config :=
  { qtZeroFill := false, qtResort := .stable, lzLenBias := 2, nCtx := none,
    mzDynLroot := 9, mzDynDroot := 6, mzClRoot := 7,
    qtReorderInit := 4, qtNlenSyms := 27, qtPosCap4 := 24, qtPosCap5 := 36, qtPosCap6 := 42,
    accWidth := 32, brmSubRead := 16, lzFill := 0x20 }

/-! ## MZ -/

/-- `MZ_WSIZE`, the window capacity, and `MZ_MAX_OUT`, the largest output of a call (R10). -/
def mzWsize : Nat := 32768

/-- `MZ_NLIT_MAX` (R10). -/
def mzNlitMax : Nat := 288

/-- `MZ_NDIST_MAX` (R10). -/
def mzNdistMax : Nat := 32

/-- `MZ_SIG` (R10). -/
def mzSig : List Byte := [0x43, 0x4B]

/-- `MZ_FIXED_LROOT` (R10). -/
def mzFixedLroot : Nat := 7

/-- `MZ_FIXED_DROOT` (R10). -/
def mzFixedDroot : Nat := 5

/-- `CPLENS` and `CPLEXT`, base and extra bits of the length symbols 257..285 (R104). -/
def lengthTable : List (Nat × Nat) :=
  [(3, 0), (4, 0), (5, 0), (6, 0), (7, 0), (8, 0), (9, 0), (10, 0), (11, 1), (13, 1), (15, 1), (17, 1), (19, 2), (23, 2),
   (27, 2), (31, 2), (35, 3), (43, 3), (51, 3), (59, 3), (67, 4), (83, 4), (99, 4), (115, 4), (131, 5), (163, 5), (195, 5),
   (227, 5), (258, 0)]

/-- `CPDIST` and `CPDEXT`, base and extra bits of the distance symbols 0..29 (R105). -/
def distTable : List (Nat × Nat) :=
  [(1, 0), (2, 0), (3, 0), (4, 0), (5, 1), (7, 1), (9, 2), (13, 2), (17, 3), (25, 3), (33, 4), (49, 4), (65, 5), (97, 5),
   (129, 6), (193, 6), (257, 7), (385, 7), (513, 8), (769, 8), (1025, 9), (1537, 9), (2049, 10), (3073, 10), (4097, 11),
   (6145, 11), (8193, 12), (12289, 12), (16385, 13), (24577, 13)]

/-- `BORDER`, the order of the code-length-code lengths (R106). -/
def border : List Nat := [16, 17, 18, 0, 8, 7, 9, 6, 10, 5, 11, 4, 12, 3, 13, 2, 14, 1, 15]

/-- The code lengths of the fixed literal/length table (R107). -/
def fixedLL : List Nat :=
  List.replicate 144 8 ++ List.replicate 112 9 ++ List.replicate 24 7 ++ List.replicate 8 8

/-- The code lengths of the fixed distance table (R107). -/
def fixedD : List Nat := List.replicate 30 5

/-! ## QT -/

/-- `QT_WBITS_MIN` (R10). -/
def qtWbitsMin : Nat := 10

/-- `QT_WBITS_MAX` (R10). -/
def qtWbitsMax : Nat := 21

/-- `QT_NSEL`, entries of the selector model (R10). -/
def qtNsel : Nat := 7

/-- `QT_LIT_SYMS`, entries of a literal model (R10). -/
def qtLitSyms : Nat := 64

/-- `QT_BUMP` (R10, R208). -/
def qtBump : Nat := 8

/-- `QT_LIMIT`: a model rescales when its total is strictly greater (R10, R208). -/
def qtLimit : Nat := 3800

/-- `QT_REORDER_RELOAD` (R10, R210). -/
def qtReorderReload : Nat := 50

/-- `QPBASE` and `QEXTRA`, base and extra bits of the position slots 0..41 (R116). -/
def positionTable : List (Nat × Nat) :=
  [(0, 0), (1, 0), (2, 0), (3, 0), (4, 1), (6, 1), (8, 2), (12, 2), (16, 3), (24, 3), (32, 4), (48, 4), (64, 5), (96, 5),
   (128, 6), (192, 6), (256, 7), (384, 7), (512, 8), (768, 8), (1024, 9), (1536, 9), (2048, 10), (3072, 10), (4096, 11),
   (6144, 11), (8192, 12), (12288, 12), (16384, 13), (24576, 13), (32768, 14), (49152, 14), (65536, 15), (98304, 15),
   (131072, 16), (196608, 16), (262144, 17), (393216, 17), (524288, 18), (786432, 18), (1048576, 19), (1572864, 19)]

/-- `QLBASE` and `QLEXTRA`, base and extra bits of the length slots 0..26 (R116). -/
def lengthSlotTable : List (Nat × Nat) :=
  [(0, 0), (1, 0), (2, 0), (3, 0), (4, 0), (5, 0), (6, 1), (8, 1), (10, 1), (12, 1), (14, 2), (18, 2), (22, 2), (26, 2),
   (30, 3), (38, 3), (46, 3), (54, 3), (62, 4), (78, 4), (94, 4), (110, 4), (126, 5), (158, 5), (190, 5), (222, 5),
   (254, 0)]

/-! ## LZ -/

/-- `LZ_TSIZE` (R10). -/
def lzTsize : Nat := 4096

/-- `LZ_START`, the initial write cursor (R10, R248). -/
def lzStart : Nat := 0xFF0

/-- `LZ_MAGIC` (R10, R120). -/
def lzMagic : List Byte := [0x53, 0x5A, 0x44, 0x44, 0x88, 0xF0, 0x27, 0x33]

/-- `LZ_TYPE`, the one compression type, 'A' (R10, R120). -/
def lzType : Byte := 0x41

/-- The size of the SZDD header in bytes (R120). -/
def lzHeaderSize : Nat := 14

/-- Logical positions are 32 bits wide: they stay below this (R254). -/
def lzPositionLimit : Nat := 4294967296

end Sys2Proof.Machine
end

