-- ==== Sys2Proof/Syntax.lean ====
section
/-! DEFINITION. The elements DCORE fetches and executes: the 30 stream elements and the nine host commands of
spec/opcode_table.json, one constructor a row, with the operands of the notation R127 (30_encoding.md). -/

namespace Sys2Proof

/-- A command a host has issued (45_host_commands.md R261). A buffer is a byte list and its length is the list's (U5). -/
inductive HostCmd where
  | mzNew
  | mzDecode (ctx : Nat) (inp : List Byte) (outLen : Nat)
  | qtInit (ctx : Nat) (windowBits level : BitVec 8)
  | qtReset (ctx : Nat)
  | qtDecode (ctx : Nat) (inp : List Byte) (outLen : Nat)
  | lzInit (ctx : Nat) (hdr : List Byte)
  | lzReset (ctx : Nat)
  | lzSeek (ctx : Nat) (pos : BitVec 32)
  | lzDecode (ctx : Nat) (inp : List Byte) (outLen : Nat)
deriving DecidableEq, Repr

/-- The elements of the three stream grammars and the commands, one constructor per row of the opcode table (R129). -/
inductive Instr where
  -- MSZIP (R91 to R98)
  /-- `SIG`: the two bytes 43 4B. -/
  | sig
  /-- `BLK_STORED`: block header with type 0. -/
  | blkStored (final : Bool)
  /-- `BLK_FIXED`: block header with type 1. -/
  | blkFixed (final : Bool)
  /-- `BLK_DYNAMIC`: block header with type 2. -/
  | blkDynamic (final : Bool)
  /-- `BLK_RESERVED`: block header with type 3. -/
  | blkReserved (final : Bool)
  /-- `STORED_HDR`: the two 16-bit fields of a stored block, after the padding. -/
  | storedHdr (len nlen : BitVec 16)
  /-- `RAW`: one raw byte of a stored block. -/
  | raw (b : Byte)
  /-- `DYN_HDR`: the three counts and the `4 + hclen` code-length-code lengths, in `BORDER` order. -/
  | dynHdr (hlit hdist : BitVec 5) (hclen : BitVec 4) (clen : List (BitVec 3))
  /-- `CL`: the next code length. -/
  | cl (v : BitVec 4)
  /-- `CL16`: repeat the previous code length `rep` times (3..6). -/
  | cl16 (rep : Nat)
  /-- `CL17`: repeat code length 0 `rep` times (3..10). -/
  | cl17 (rep : Nat)
  /-- `CL18`: repeat code length 0 `rep` times (11..138). -/
  | cl18 (rep : Nat)
  /-- `LIT`: literal/length symbol 0..255. -/
  | lit (b : Byte)
  /-- `EOB`: literal/length symbol 256. -/
  | eob
  /-- `MATCH`: literal/length symbol 257..285 with its extra bits; `len` is the match length (3..258). -/
  | mtch (len : Nat)
  /-- `LL_RESERVED`: literal/length symbol 286 or 287. -/
  | llReserved (sym : Nat)
  /-- `DIST`: distance symbol 0..29 with its extra bits; `dist` is the distance (1..32768). -/
  | dist (dist : Nat)
  /-- `DIST_RESERVED`: distance symbol 30 or 31. -/
  | distReserved (sym : Nat)
  -- Quantum (R110, R111)
  /-- `CODE16`: the first 16 bits of a fresh stream. -/
  | code16 (c : BitVec 16)
  /-- `QLIT0`: selector 0 and its literal, 0x00..0x3F. -/
  | qlit0 (b : Byte)
  /-- `QLIT1`: selector 1 and its literal, 0x40..0x7F. -/
  | qlit1 (b : Byte)
  /-- `QLIT2`: selector 2 and its literal, 0x80..0xBF. -/
  | qlit2 (b : Byte)
  /-- `QLIT3`: selector 3 and its literal, 0xC0..0xFF. -/
  | qlit3 (b : Byte)
  /-- `QM3`: selector 4, a match of length 3 at offset `off`. -/
  | qm3 (off : Nat)
  /-- `QM4`: selector 5, a match of length 4 at offset `off`. -/
  | qm4 (off : Nat)
  /-- `QMV`: selector 6, a match of length `len` (5..259) at offset `off`. -/
  | qmv (len off : Nat)
  -- LZ/SZDD (R120 to R124)
  /-- `LZ_HDR`: the 14 header bytes; the magic and the type byte are fixed. -/
  | lzHdr (lastChar : Byte) (realLength : BitVec 32)
  /-- `FLAGS`: a flag byte. -/
  | flags (b : Byte)
  /-- `LZLIT`: a literal token. -/
  | lzlit (b : Byte)
  /-- `LZREF`: a reference token; `lenfield` is the 4-bit length field, without the bias. -/
  | lzref (off : BitVec 12) (lenfield : BitVec 4)
  -- Commands (R261)
  | mzNew
  | mzDecode (ctx : Nat) (inp : List Byte) (outLen : Nat)
  | qtInit (ctx : Nat) (windowBits level : BitVec 8)
  | qtReset (ctx : Nat)
  | qtDecode (ctx : Nat) (inp : List Byte) (outLen : Nat)
  | lzInit (ctx : Nat) (hdr : List Byte)
  | lzReset (ctx : Nat)
  | lzSeek (ctx : Nat) (pos : BitVec 32)
  | lzDecode (ctx : Nat) (inp : List Byte) (outLen : Nat)
deriving DecidableEq, Repr

end Sys2Proof
end

