-- ==== Sys2Proof/Machine/State.lean ====
section
/-! DEFINITION. The state of DCORE as plain data: the contexts of the three engines with every register, window and
table the spec names (10_state.md R20 to R57), the buffers and STATUS, the position of the command in progress, and the
queue of commands the host has issued. Also the error kinds (60_exceptions.md R280), the faults and the refusals. -/

namespace Sys2Proof.Machine

/-! ## How a command or a step can end -/

/-- The nine error kinds of DCORE (R280). Raising one ENDS THE COMMAND; it is a next state, not a fault. -/
inductive ErrKind where
  | invalidSignature
  | invalidBlockType
  | malformedHuffmanCode
  | invalidSymbol
  | lengthOverrun
  | corruptLength
  | corruptData
  | truncatedInput
  | unsupportedWindowSize
deriving DecidableEq, Repr

/-- The model's own stops on states no run reaches (R13: "a model that finds itself indexing out of range has a bug").
None is an error kind of DCORE. All are SAFE (log 13). -/
inductive Fault where
  /-- An index outside an element's declared range: a model's entry, a slot table, OUT past `out_len`. Raised by
  GetSymbol, the slot tables and RAW. Safe. -/
  | indexOutOfRange
  /-- A window byte nothing has written was read (U17: unreachable). Raised by window copies and by Extract. Safe. -/
  | unwrittenByte
  /-- A token fetch while a reference token is still being copied (R247). Raised by the LZ fetch. Safe. -/
  | referenceInProgress
deriving DecidableEq, Repr

/-- Why the model gives an element or a command no meaning. Each is a case the spec marks *refuse* (00_scope.md R19) or a
stream element outside its grammar (R90). All are SAFE. -/
inductive Refusal where
  /-- No meaning yet for the instruction of this mnemonic. Raised by `exec`'s refused arms. Safe. -/
  | notModelled (mnemonic : String)
  /-- A stream element where the command in progress does not take it (R90). Raised by the element meanings. Safe. -/
  | outOfPlace
  /-- A command while another is in progress (U1). Raised by the command meanings. Safe. -/
  | commandInProgress
  /-- A command on a context no successful init created (U2). Raised by the command meanings and the fetch. Safe. -/
  | noContext
  /-- A creating command when `N_CTX` contexts of the engine exist (U10). Raised by the creating commands. Safe. -/
  | tooManyContexts
  /-- An `LZ_DECODE` whose payload differs from the context's first (U8). Raised by LZ_DECODE. Safe. -/
  | lzPayloadChanged
  /-- `ctx.real` would pass 2^32 - 1 (U6). Raised by LZLIT, LZREF and LZ_DECODE. Safe. -/
  | lzPositionOverflow
deriving DecidableEq, Repr

/-- The result of a read from a stream: a value and the reader after it; an error kind of DCORE, with the reader as far
as it had come (R290 (4)); or a stop of the model. -/
inductive Got (σ α : Type) where
  | ok (a : α) (s : σ)
  | err (k : ErrKind) (s : σ)
  | bug (f : Fault)
deriving Repr

/-! ## Bit readers (R22, R23) -/

/-- BRL, the LSB-first reader (R22). -/
structure Brl where
  /-- `br.in_off` -/
  inOff : Nat
  /-- `br.acc`, of `ACC_WIDTH` bits: bit 0 is the next bit of the stream. A natural, because its width is a parameter. -/
  acc : Nat
  /-- `br.nbits` -/
  nbits : Nat
  /-- `br.zf`: a fetch past the end of IN was answered with a zero byte -/
  zf : Bool
deriving DecidableEq, Repr

/-- BRM, the MSB-first reader (R23). -/
structure Brm where
  /-- `bm.in_off` -/
  inOff : Nat
  /-- `bm.acc`, of `ACC_WIDTH` bits: the low `nbits` bits; bit `nbits - 1` is the next bit of the stream -/
  acc : Nat
  /-- `bm.nbits` -/
  nbits : Nat
deriving DecidableEq, Repr

/-! ## Memory and windows -/

/-- The byte spaces held inside contexts (R52, R53, R54). IN and OUT are byte lists (U5), LUT is `HufTable.arena`. The LZ
table carries the byte that fills it at the start, `LZ_FILL` (R10, R248). -/
inductive Space where
  | mzwin
  | qtwin
  | lztab (fill : Byte)
deriving DecidableEq, Repr

/-- The contents of a space: (index, byte) pairs in the canonical form of `Memory.wf` (Machine/Ops.lean). -/
abbrev Memory := List Host.Cell

/-- A sliding window: its bytes, the write cursor and the number of valid bytes (R25, R29). -/
structure Window where
  cells : Memory
  /-- `ctx.wpos` -/
  wpos : Nat
  /-- `ctx.valid` -/
  valid : Nat
deriving DecidableEq, Repr

/-! ## Huffman tables (R28, R157) -/

/-- An entry of a Huffman table (R157). -/
inductive HufEntry where
  | leaf (b sym : Nat)
  | link (b sub width : Nat)
  | invalid
deriving DecidableEq, Repr

/-- A Huffman table (R28). `arena` is the address space LUT (R55); its first subtable is the root. -/
structure HufTable where
  empty : Bool
  /-- The root width `T.m`. -/
  m : Nat
  arena : List (List HufEntry)
deriving DecidableEq, Repr

/-- The empty table: "valid, decodes nothing" (R150). R151 gives it nothing but the flag `empty`: the root width 0 and the
arena without a subtable are a DESIGN CHOICE (log 20), which nothing reads (R162). -/
def HufTable.none : HufTable := { empty := true, m := 0, arena := [] }

/-! ## The MZ context (R25) -/

/-- An MZ context (R25). -/
structure MzCtx where
  /-- `ctx.win`, `ctx.wpos`, `ctx.valid` -/
  win : Window
  /-- `ctx.produced` -/
  produced : Nat
  /-- `ctx.out_len` -/
  outLen : Nat
  /-- `ctx.br` -/
  br : Brl
  /-- `ctx.final` -/
  final : Bool
  /-- `ctx.btype` -/
  btype : BitVec 2
  /-- `ctx.nl` -/
  nl : Nat
  /-- `ctx.nd` -/
  nd : Nat
  /-- `ctx.nb` -/
  nb : Nat
  /-- `ctx.cl[0..18]` -/
  cl : List (BitVec 3)
  /-- `ctx.ll[0..]`: the entries this block has written so far; its length is the `i` of R182 (log 16) -/
  ll : List (BitVec 4)
  /-- `ctx.prev` -/
  prev : BitVec 4
  /-- `ctx.tc` -/
  tc : HufTable
  /-- `ctx.tl` -/
  tl : HufTable
  /-- `ctx.td` -/
  td : HufTable
deriving DecidableEq, Repr

/-- Where an `MZ_DECODE` stands: which stream element it fetches next (R170 to R187). -/
inductive MzPhase where
  | sig                  -- the two signature bytes
  | header               -- a block header
  | storedHdr            -- LEN and NLEN of a stored block
  | raw (left : Nat)     -- `left` raw bytes of a stored block
  | dynHdr               -- the counts of a dynamic block
  | codeLens             -- a code-length symbol
  | symbols              -- a literal/length symbol
  | distance (len : Nat) -- the distance symbol of a match of length `len`
deriving DecidableEq, Repr

/-! ## The QT context (R29, R31) -/

/-- A Quantum model (R31). `first` is the first symbol value, the third argument of ModelInit (R201). -/
structure QModel where
  n : Nat
  first : Nat
  /-- `m.sym[0..n-1]` -/
  sym : List Byte
  /-- `m.cum[0..n]` -/
  cum : List Nat
  /-- `m.reorder` -/
  reorder : Nat
  /-- `m.tabloc[first..first+n-1]`, at index `symbol - first` (log 17) -/
  tabloc : List Nat
deriving DecidableEq, Repr

/-- The names of the nine models (R32). -/
inductive QModelId where
  | m7 | m00 | m40 | m80 | mC0 | m4 | m5 | m6len | m6pos
deriving DecidableEq, Repr

/-- A QT context (R29). -/
structure QtCtx where
  /-- `ctx.wbits` -/
  wbits : Nat
  /-- `ctx.level` -/
  level : BitVec 4
  /-- `ctx.wsize` -/
  wsize : Nat
  /-- `ctx.win`, `ctx.wpos`, `ctx.valid` -/
  win : Window
  /-- The range coder's low, high and code registers. -/
  L : BitVec 16
  H : BitVec 16
  C : BitVec 16
  started : Bool
  fault : Bool
  m7 : QModel
  m00 : QModel
  m40 : QModel
  m80 : QModel
  mC0 : QModel
  m4 : QModel
  m5 : QModel
  m6len : QModel
  m6pos : QModel
  /-- `ctx.togo` -/
  togo : Nat
  /-- `ctx.bm` -/
  bm : Brm
deriving DecidableEq, Repr

/-- Where a `QT_DECODE` stands (R202 to R204). -/
inductive QtPhase where
  | start   -- the 16 bits of a fresh stream
  | tokens  -- a token
deriving DecidableEq, Repr

/-! ## The LZ context (R35, R44) -/

/-- An LZ context (R35, R43, R44). -/
structure LzCtx where
  /-- `ctx.tab` -/
  tab : Memory
  cur : Nat
  flags : BitVec 8
  fcnt : Nat
  spos : Nat
  slen : Nat
  /-- `ctx.real` -/
  real : Nat
  want : Nat
  /-- `ctx.in_pos` -/
  inPos : Nat
  fault : Bool
  compType : Byte
  lastChar : Byte
  realLength : BitVec 32
  /-- The MODEL's own: the payload of the context's first LZ_DECODE, to recognise U8 (log 11). -/
  payload : Option (List Byte)
deriving DecidableEq, Repr

/-! ## The whole state -/

/-- The command in progress, the context it acts on, and the stream element it fetches next. -/
inductive Run where
  | idle
  | mz (c : Nat) (p : MzPhase)
  | qt (c : Nat) (p : QtPhase)
  | lz (c : Nat)
  | lzHdr (c : Nat)
deriving DecidableEq, Repr

/-- The state of DCORE and of the commands issued to it. -/
structure State where
  /-- The parameters of R10; no step changes them (R304). -/
  cfg : Config
  /-- The contexts, numbered in the order of their creation (log 3). -/
  mz : List MzCtx
  qt : List QtCtx
  lz : List LzCtx
  /-- `STATUS` (R40). -/
  status : BitVec 4
  /-- IN of the command in progress or last run (R50); HDR for LZ_INIT. -/
  inp : List Byte
  /-- OUT: the bytes written so far, from index 0 (R51, U5). -/
  out : List Byte
  /-- `out_len` of the command in progress or last run (R260). -/
  outLen : Nat
  /-- The command in progress. -/
  run : Run
  /-- Commands the host has issued and DCORE has not started (log 2). -/
  pending : List HostCmd
  /-- The MODEL's own: how often OUT after an error has been drawn (log 7). -/
  draws : Nat
deriving DecidableEq, Repr

/-- DCORE before any command (R20, R57, R310): no context, no command, the default parameters. STATUS is unspecified
until the first command ends (R57): 0 is a DESIGN CHOICE (log 4); the empty buffers too (log 5). -/
def State.reset : State :=
  { cfg := defaultParameters, mz := [], qt := [], lz := [], status := 0, inp := [], out := [], outLen := 0,
    run := .idle, pending := [], draws := 0 }

end Sys2Proof.Machine
end

