-- ==== Sys2Proof/Machine/Bits.lean ====
section
/-! DEFINITION. The two bit readers of 40_bitreaders.md: BRL (LSB first, zero-filling) and BRM (MSB first, strict), and the
bit streams they read as functions from a position to a bit, which claims about them use. -/

namespace Sys2Proof.Machine

/-- Continue with the value and the reader of a successful read; an error or a stop passes through. -/
def Got.bind {σ α β : Type} (r : Got σ α) (f : α → σ → Got σ β) : Got σ β :=
  match r with
  | .ok a s => f a s
  | .err k s => .err k s
  | .bug e => .bug e

/-! ## BRL (R131 to R134) -/

/-- BRL at the start of a call: it begins at byte `off` with an empty accumulator (R57, R66). -/
def Brl.start (off : Nat) : Brl := { inOff := off, acc := 0, nbits := 0, zf := false }

/-- One byte enters the accumulator, of `ACC_WIDTH` bits, above the held bits (R131). -/
def Brl.push (cfg : Config) (r : Brl) (b : Byte) : Brl :=
  { r with acc := (r.acc ||| (b.toNat <<< r.nbits)) % 2 ^ cfg.accWidth, nbits := r.nbits + 8 }

/-- One pass of the loop of `need`: fetch the next byte of IN, or a zero byte past its end (R131). -/
def Brl.fetchByte (cfg : Config) (inp : List Byte) (r : Brl) : Brl :=
  match inp[r.inOff]? with
  | some b => ({ r with inOff := r.inOff + 1 }).push cfg b
  | none => ({ r with zf := true }).push cfg 0

/-- The loop of `need`, at most `fuel` passes. -/
def Brl.needLoop (cfg : Config) (inp : List Byte) (n : Nat) : Nat → Brl → Brl
  | 0, r => r
  | fuel + 1, r => if r.nbits < n then Brl.needLoop cfg inp n fuel (r.fetchByte cfg inp) else r

/-- `need(n)` (R131). Every pass adds 8 bits, so `n` passes are enough. -/
def Brl.need (cfg : Config) (inp : List Byte) (n : Nat) (r : Brl) : Brl := Brl.needLoop cfg inp n n r

/-- The value `peek(n)` returns once `need(n)` has run (R132). -/
def Brl.low (n : Nat) (r : Brl) : Nat := r.acc % 2 ^ n

/-- `drop(k)` (R132). -/
def Brl.drop (k : Nat) (r : Brl) : Brl := { r with acc := r.acc >>> k, nbits := r.nbits - k }

/-- `peek(n)`: the value and the reader after the fetches it made (R132). -/
def Brl.peek (cfg : Config) (inp : List Byte) (n : Nat) (r : Brl) : Nat × Brl :=
  ((r.need cfg inp n).low n, r.need cfg inp n)

/-- `read_bits(n)` (R132). -/
def Brl.readBits (cfg : Config) (inp : List Byte) (n : Nat) (r : Brl) : Nat × Brl :=
  ((r.peek cfg inp n).1, (r.peek cfg inp n).2.drop n)

/-- `align_to_byte()` (R134). -/
def Brl.align (r : Brl) : Brl := r.drop (r.nbits % 8)

/-- `count` reads of `n` bits each, in order (R181). -/
def Brl.readMany (cfg : Config) (inp : List Byte) (n : Nat) : Nat → Brl → List Nat × Brl
  | 0, r => ([], r)
  | count + 1, r =>
    let (v, r1) := r.readBits cfg inp n
    let (vs, r2) := Brl.readMany cfg inp n count r1
    (v :: vs, r2)

/-- Bit `i` of the bytes `inp` from byte `off` on, bit 0 of each byte first, zeros past the end (R60, R140). -/
def lsbBit (inp : List Byte) (off i : Nat) : Bool :=
  match inp[off + i / 8]? with
  | some b => b.getLsbD (i % 8)
  | none => false

/-- Bit `i` of what BRL delivers from here on: the held bits, then the bytes not yet fetched, then zeros (R140). -/
def Brl.streamBit (inp : List Byte) (r : Brl) (i : Nat) : Bool :=
  if i < r.nbits then r.acc.testBit i else lsbBit inp r.inOff (i - r.nbits)

/-- What R22 and R131 say of BRL at every point: at most 23 bits held, none set above them, never past the end of IN. -/
def Brl.wf (inp : List Byte) (r : Brl) : Prop :=
  r.nbits ≤ 23 ∧ r.acc < 2 ^ r.nbits ∧ r.inOff ≤ inp.length

/-! ## BRM (R135 to R138) -/

/-- BRM at the start of a call (R23, R202). -/
def Brm.start : Brm := { inOff := 0, acc := 0, nbits := 0 }

/-- One byte enters the accumulator, of `ACC_WIDTH` bits, below the held bits (R135). -/
def Brm.push (cfg : Config) (r : Brm) (b : Byte) : Brm :=
  { r with acc := ((r.acc <<< 8) ||| b.toNat) % 2 ^ cfg.accWidth, nbits := r.nbits + 8 }

/-- The loop of `qneed`, at most `fuel` passes (R135, R136). -/
def Brm.needLoop (cfg : Config) (inp : List Byte) (n : Nat) : Nat → Brm → Got Brm Unit
  | 0, r => .ok () r
  | fuel + 1, r =>
    if r.nbits < n then
      match inp[r.inOff]? with
      | some b => Brm.needLoop cfg inp n fuel (({ r with inOff := r.inOff + 1 }).push cfg b)
      | none => if cfg.qtZeroFill then Brm.needLoop cfg inp n fuel (r.push cfg 0) else .err .truncatedInput r
    else .ok () r

/-- `qneed(n)` (R135). -/
def Brm.need (cfg : Config) (inp : List Byte) (n : Nat) (r : Brm) : Got Brm Unit :=
  Brm.needLoop cfg inp n n r

/-- The top `n` of the held bits (R137). -/
def Brm.top (n : Nat) (r : Brm) : Nat := (r.acc >>> (r.nbits - n)) % 2 ^ n

/-- The reader without its top `n` bits (R137). -/
def Brm.dropTop (n : Nat) (r : Brm) : Brm :=
  { r with acc := r.acc % 2 ^ (r.nbits - n), nbits := r.nbits - n }

/-- `qread16(n)` (R137, D34). -/
def Brm.read16 (cfg : Config) (inp : List Byte) (n : Nat) (r : Brm) : Got Brm Nat :=
  if n = 0 then .ok 0 r
  else (r.need cfg inp n).bind fun _ r1 => .ok (r1.top n) (r1.dropTop n)

/-- `qread(n)` in sub-reads, the leftmost first; `fuel` bounds their number (R137). -/
def Brm.readLoop (cfg : Config) (inp : List Byte) : Nat → Nat → Brm → Got Brm Nat
  | 0, _, r => .ok 0 r
  | fuel + 1, n, r =>
    if n ≤ cfg.brmSubRead then r.read16 cfg inp n
    else
      (Brm.readLoop cfg inp fuel (n - cfg.brmSubRead) r).bind fun hi r1 =>
        (r1.read16 cfg inp cfg.brmSubRead).bind fun lo r2 => .ok ((hi <<< cfg.brmSubRead) ||| lo) r2

/-- `qread(n)`, `n` in 0..32, by sub-reads of at most 16 bits, or as many as the parameter says (R137, D5). -/
def Brm.read (cfg : Config) (inp : List Byte) (n : Nat) (r : Brm) : Got Brm Nat := Brm.readLoop cfg inp (n + 1) n r

/-- Bit `i` of the bytes `inp` from byte `off` on, bit 7 of each byte first, zeros past the end (R61, R140). -/
def msbBit (inp : List Byte) (off i : Nat) : Bool :=
  match inp[off + i / 8]? with
  | some b => b.getLsbD (7 - i % 8)
  | none => false

/-- Bit `i` of what BRM delivers from here on: the held bits, then the bytes not yet fetched (R140). -/
def Brm.streamBit (inp : List Byte) (r : Brm) (i : Nat) : Bool :=
  if i < r.nbits then r.acc.testBit (r.nbits - 1 - i) else msbBit inp r.inOff (i - r.nbits)

/-- How many bits BRM has not delivered yet (R136). -/
def Brm.bitsLeft (inp : List Byte) (r : Brm) : Nat := r.nbits + 8 * (inp.length - r.inOff)

/-- What R23 and R135 say of BRM at every point. -/
def Brm.wf (inp : List Byte) (r : Brm) : Prop :=
  r.nbits ≤ 23 ∧ r.acc < 2 ^ r.nbits ∧ r.inOff ≤ inp.length

end Sys2Proof.Machine
end

