-- ==== Sys2Proof/Machine/Coder.lean ====
section
/-! DEFINITION. The Quantum range coder and its adaptive models (43_quantum.md R201 to R210). -/

namespace Sys2Proof.Machine

/-! ## Models -/

/-- ModelInit(m, n, first) (R201). -/
def QModel.init (cfg : Config) (n first : Nat) : QModel :=
  { n := n, first := first,
    sym := (List.range n).map fun k => BitVec.ofNat 8 (first + k),
    cum := (List.range (n + 1)).map fun k => n - k,
    reorder := cfg.qtReorderInit,
    tabloc := List.range n }

/-- `m.tabloc[sym]`, the symbol to entry index lookup (R31). -/
def QModel.lookup (m : QModel) (sym : Byte) : Option Nat :=
  if sym.toNat < m.first then none else m.tabloc[sym.toNat - m.first]?

/-- The bump: 8 is added to the entries before the hit index `i` (R208). -/
def cumBump (i : Nat) (cum : List Nat) : List Nat :=
  (cum.take i).map (· + qtBump) ++ cum.drop i

/-- Halve, from the last symbol entry to the first; each value is raised above its successor if it must be; the sentinel
is not touched (R209). -/
def cumHalve : List Nat → List Nat
  | [] => []
  | [sentinel] => [sentinel]
  | c :: rest =>
    let tail := cumHalve rest
    let next := tail.headD 0
    (if c >>> 1 ≤ next then next + 1 else c >>> 1) :: tail

/-- The absolute frequencies, plus one, halved (R210). -/
def cumFreqs : List Nat → List Nat
  | a :: b :: rest => ((a - b + 1) >>> 1) :: cumFreqs (b :: rest)
  | _ => []

/-- Cumulative frequencies from absolute ones, the sentinel 0 last (R210). -/
def cumOfFreqs : List Nat → List Nat
  | [] => [0]
  | f :: fs => (f + (cumOfFreqs fs).headD 0) :: cumOfFreqs fs

/-- The order of the stable sort: descending by frequency, pairs of equal frequency keep their order (R210). -/
abbrev freqDescending (a b : Byte × Nat) : Prop := b.2 ≤ a.2

/-- One pass of the exchange sort from a fixed position: `x` is compared with each later pair and exchanged when its
frequency is smaller; the pair left at the position, and the rest (93 U14). -/
def exchangePass (x : Byte × Nat) : List (Byte × Nat) → (Byte × Nat) × List (Byte × Nat)
  | [] => (x, [])
  | y :: ys =>
    if x.2 < y.2 then ((exchangePass y ys).1, x :: (exchangePass y ys).2)
    else ((exchangePass x ys).1, y :: (exchangePass x ys).2)

/-- The exchange sort, position by position; `fuel` is the length (93 U14). -/
def exchangeSort : Nat → List (Byte × Nat) → List (Byte × Nat)
  | 0, l => l
  | _ + 1, [] => []
  | fuel + 1, x :: xs => (exchangePass x xs).1 :: exchangeSort fuel (exchangePass x xs).2

/-- The re-sort of the rebuild, as `QT_RESORT` selects it (R210, D32). -/
def resort (how : Resort) (l : List (Byte × Nat)) : List (Byte × Nat) :=
  match how with
  | .stable => l.insertionSort freqDescending
  | .exchange => exchangeSort l.length l

/-- The symbol to entry index lookup of an order of symbols: `tabloc[sym[k]] = k` (R31, R210). -/
def tablocOf (first n : Nat) (sym : List Byte) : List Nat :=
  (List.range n).map fun d => sym.findIdx fun s => s.toNat == first + d

/-- Halve(m) (R209). -/
def QModel.halve (m : QModel) : QModel := { m with cum := cumHalve m.cum }

/-- Rebuild(m) (R210). -/
def QModel.rebuild (how : Resort) (m : QModel) : QModel :=
  let sorted := resort how (m.sym.zip (cumFreqs m.cum))
  { m with sym := sorted.map Prod.fst, cum := cumOfFreqs (sorted.map Prod.snd), reorder := qtReorderReload,
           tabloc := tablocOf m.first m.n (sorted.map Prod.fst) }

/-- The threshold: a total above 3800 counts the reorder counter down, then halves or rebuilds (R208, D40). -/
def QModel.rescale (how : Resort) (m : QModel) : QModel :=
  if qtLimit < m.cum.headD 0 then
    let m1 := { m with reorder := m.reorder - 1 }
    if m1.reorder ≠ 0 then m1.halve else m1.rebuild how
  else m

/-- Update(m, i) (R208). -/
def QModel.update (how : Resort) (i : Nat) (m : QModel) : QModel :=
  ({ m with cum := cumBump i m.cum }).rescale how

/-- The least index `i >= start` of a list that begins at index `start` whose entry is at most `freq` (R205). -/
def hitFrom (freq : Nat) : Nat → List Nat → Option Nat
  | _, [] => none
  | i, c :: cs => if c ≤ freq then some i else hitFrom freq (i + 1) cs

/-- The hit index: the least `i` in 1..n with `m.cum[i] <= freq` (R205). -/
def QModel.hit (m : QModel) (freq : Nat) : Option Nat := hitFrom freq 1 m.cum.tail

/-! ## The nine models of a context (R32) -/

/-- The model a name stands for. -/
def QtCtx.model (x : QtCtx) : QModelId → QModel
  | .m7 => x.m7
  | .m00 => x.m00
  | .m40 => x.m40
  | .m80 => x.m80
  | .mC0 => x.mC0
  | .m4 => x.m4
  | .m5 => x.m5
  | .m6len => x.m6len
  | .m6pos => x.m6pos

/-- Write one model. -/
def QtCtx.setModel (x : QtCtx) (w : QModelId) (m : QModel) : QtCtx :=
  match w with
  | .m7 => { x with m7 := m }
  | .m00 => { x with m00 := m }
  | .m40 => { x with m40 := m }
  | .m80 => { x with m80 := m }
  | .mC0 => { x with mC0 := m }
  | .m4 => { x with m4 := m }
  | .m5 => { x with m5 := m }
  | .m6len => { x with m6len := m }
  | .m6pos => { x with m6pos := m }

/-- The size of a model for window bits `w` (R32). -/
def modelSize (cfg : Config) (w : Nat) : QModelId → Nat
  | .m7 => qtNsel
  | .m00 => qtLitSyms
  | .m40 => qtLitSyms
  | .m80 => qtLitSyms
  | .mC0 => qtLitSyms
  | .m4 => min (2 * w) cfg.qtPosCap4
  | .m5 => min (2 * w) cfg.qtPosCap5
  | .m6len => cfg.qtNlenSyms
  | .m6pos => min (2 * w) cfg.qtPosCap6

/-- The first symbol of a model (R32). -/
def modelFirst : QModelId → Nat
  | .m40 => 0x40
  | .m80 => 0x80
  | .mC0 => 0xC0
  | _ => 0

/-- The state of a model after QT_INIT and QT_RESET (R201). -/
def initModel (cfg : Config) (w : Nat) (i : QModelId) : QModel := QModel.init cfg (modelSize cfg w i) (modelFirst i)

/-! ## The range coder (R205 to R207) -/

/-- `H - L + 1` (R205). -/
def QtCtx.range (x : QtCtx) : Nat := x.H.toNat - x.L.toNat + 1

/-- `freq` of R205. -/
def QtCtx.freq (x : QtCtx) (total : Nat) : Nat := ((x.C.toNat - x.L.toNat + 1) * total - 1) / x.range

/-- Narrow: L and H become the sub-range of the slice `[lo, hi)` of the cumulative frequencies (R206). -/
def QtCtx.narrow (x : QtCtx) (hi lo total : Nat) : QtCtx :=
  { x with H := BitVec.ofNat 16 (x.L.toNat + (hi * x.range) / total - 1),
           L := BitVec.ofNat 16 (x.L.toNat + (lo * x.range) / total) }

/-- The top bits of L and H differ (R207). -/
def QtCtx.topsDiffer (x : QtCtx) : Bool := (x.L &&& 0x8000) != (x.H &&& 0x8000)

/-- The underflow pattern: bit 14 of L set and bit 14 of H clear (R207). -/
def QtCtx.underflow (x : QtCtx) : Bool := (x.L &&& 0x4000) != 0 && (x.H &&& 0x4000) == 0

/-- The underflow adjustment (R207). -/
def QtCtx.adjust (x : QtCtx) : QtCtx :=
  { x with C := x.C ^^^ 0x4000, L := x.L &&& 0x3FFF, H := x.H ||| 0x4000 }

/-- The shift of one renormalisation pass: L and H first, then one fresh bit into C, which may fail (R207). -/
def QtCtx.shift (cfg : Config) (inp : List Byte) (x : QtCtx) : Got QtCtx Unit :=
  let y := { x with L := x.L <<< 1, H := (x.H <<< 1) ||| 1 }
  match x.bm.read cfg inp 1 with
  | .ok b bm => .ok () { y with C := (x.C <<< 1) ||| BitVec.ofNat 16 b, bm := bm }
  | .err k bm => .err k { y with bm := bm }
  | .bug f => .bug f

/-- Renormalise (R207), at most `fuel` passes. -/
def renormLoop (cfg : Config) (inp : List Byte) : Nat → QtCtx → Got QtCtx Unit
  | 0, x => .ok () x
  | fuel + 1, x =>
    if x.topsDiffer then
      if x.underflow then (x.adjust.shift cfg inp).bind fun _ y => renormLoop cfg inp fuel y
      else .ok () x
    else (x.shift cfg inp).bind fun _ y => renormLoop cfg inp fuel y

/-- More passes than the loop ever makes: each shifts a 0 into L and a 1 into H, so after 16 it exits (R207 (4)). -/
def renormFuel : Nat := 17

/-- Renormalise (R207). -/
def QtCtx.renormalise (cfg : Config) (inp : List Byte) (x : QtCtx) : Got QtCtx Unit :=
  renormLoop cfg inp renormFuel x

/-- GetSymbol(m) (R205): locate, narrow, renormalise, adapt. An index outside the model,
and a total of 0, are stops of the model (R13, R31). -/
def getSymbol (cfg : Config) (inp : List Byte) (w : QModelId) (x : QtCtx) : Got QtCtx Byte :=
  let m := x.model w
  let total := m.cum.headD 0
  match if total = 0 then none else m.hit (x.freq total) with
  | none => .bug .indexOutOfRange
  | some i =>
    match m.sym[i - 1]?, m.cum[i - 1]?, m.cum[i]? with
    | some sym, some hi, some lo =>
      ((x.narrow hi lo total).renormalise cfg inp).bind fun _ y =>
        .ok sym (y.setModel w (m.update cfg.qtResort i))
    | _, _, _ => .bug .indexOutOfRange

/-- A raw field of `n` bits, read at the point where the coder stands (R110, R117). -/
def rawField (cfg : Config) (inp : List Byte) (n : Nat) (x : QtCtx) : Got QtCtx Nat :=
  match x.bm.read cfg inp n with
  | .ok v bm => .ok v { x with bm := bm }
  | .err k bm => .err k { x with bm := bm }
  | .bug f => .bug f

end Sys2Proof.Machine
end

