-- ==== Sys2Proof/Machine/Flags.lean ====
section
/-! DEFINITION. STATUS codes and the one-bit state of DCORE (10_state.md R40, R43, R45): what each error kind puts in
STATUS, the fault flags, and the LZ shift register of token kinds. DCORE has no arithmetic condition codes. -/

namespace Sys2Proof.Machine

/-- The code an error kind puts in STATUS (R280). -/
def ErrKind.code : ErrKind → BitVec 4
  | .invalidSignature => 1
  | .invalidBlockType => 2
  | .malformedHuffmanCode => 3
  | .invalidSymbol => 4
  | .lengthOverrun => 5
  | .corruptLength => 6
  | .corruptData => 7
  | .truncatedInput => 8
  | .unsupportedWindowSize => 9

/-- The code of `Ok` (R280). -/
def statusOk : BitVec 4 := 0

/-- Set the fault flag of the context on which a QT or LZ decode is in progress (R290 (3)); an MZ context has none (R43). -/
def State.markFault (s : State) : State :=
  match s.run with
  | .qt c _ => { s with qt := s.qt.modify c fun x => { x with fault := true } }
  | .lz c => { s with lz := s.lz.modify c fun x => { x with fault := true } }
  | _ => s

/-- The kind of the next token under the flag byte: 1 = literal, 0 = reference; bit 0 first (R122, R244). -/
def LzCtx.nextIsLiteral (x : LzCtx) : Bool := x.flags.getLsbD 0

/-- The flag register after it gave one token's kind (R244). -/
def LzCtx.shiftFlags (x : LzCtx) : LzCtx := { x with flags := x.flags >>> 1, fcnt := x.fcnt - 1 }

/-- A new flag byte covers eight tokens (R244). -/
def LzCtx.loadFlags (x : LzCtx) (b : Byte) : LzCtx := { x with flags := b, fcnt := 8 }

end Sys2Proof.Machine
end

