-- ==== Sys2Proof/Machine/Huffman.lean ====
section
/-! DEFINITION. HUF, the canonical Huffman table builder and the multi-level decode table (41_huffman.md). -/

namespace Sys2Proof.Machine

/-- A symbol that has a code: its length and its code with the bits reversed, as BRL delivers it (R154, R158). -/
structure HufCode where
  sym : Nat
  len : Nat
  rev : Nat
deriving DecidableEq, Repr

/-- HUF_MAXLEN, the longest Huffman code (R10). -/
def hufMaxLen : Nat := 15

/-- `count[k]`: how many symbols have length `k` (R151). -/
def hufCount (lens : List Nat) (k : Nat) : Nat := lens.count k

/-- `left` after the lengths `k = 1 .. n` of R152; `none` once it went negative. -/
def hufLeft (lens : List Nat) : Nat → Option Nat
  | 0 => some 1
  | n + 1 =>
    match hufLeft lens n with
    | none => none
    | some left => if 2 * left < hufCount lens (n + 1) then none else some (2 * left - hufCount lens (n + 1))

/-- `next[k]` before any symbol is assigned: the first code of length `k` (R154). -/
def hufFirstCode (lens : List Nat) : Nat → Nat
  | 0 => 0
  | k + 1 => (hufFirstCode lens k + (if k = 0 then 0 else hufCount lens k)) * 2

/-- The low `l` bits of `c` in reverse order. -/
def bitReverse : Nat → Nat → Nat
  | 0, _ => 0
  | l + 1, c => (c % 2) * 2 ^ l + bitReverse l (c / 2)

/-- Codes in symbol order: each symbol of length `l` takes `next[l]`, which then grows by one (R154). -/
def hufAssign : List Nat → Nat → List Nat → List HufCode
  | [], _, _ => []
  | l :: ls, s, next =>
    if l = 0 then hufAssign ls (s + 1) next
    else
      let code := next.getD l 0
      { sym := s, len := l, rev := bitReverse l code } :: hufAssign ls (s + 1) (next.set l (code + 1))

/-- `members` of R158: every symbol with a code, ascending. -/
def hufMembers (lens : List Nat) : List HufCode :=
  hufAssign lens 0 ((List.range (hufMaxLen + 1)).map (hufFirstCode lens))

/-- `code[s]` of R154, without the array: the first code of its length plus the number of earlier symbols of that length. -/
def hufCodeOf (lens : List Nat) (s : Nat) : Nat :=
  let l := lens.getD s 0
  hufFirstCode lens l + (lens.take s).count l

/-- Bit `i` of the code of symbol `s` as the stream carries it, most significant bit first (R63, R154). -/
def hufCodeBit (lens : List Nat) (s i : Nat) : Bool :=
  (hufCodeOf lens s).testBit (lens.getD s 0 - 1 - i)

/-- `min_len` (R155): the least used length. -/
def hufMinLen (lens : List Nat) : Nat :=
  ((List.range (hufMaxLen + 1)).find? fun k => 1 ≤ k && 0 < hufCount lens k).getD 0

/-- `max_len` (R155): the greatest used length. -/
def hufMaxUsed (lens : List Nat) : Nat := lens.foldl Nat.max 0

/-- The leaf at index `j` of a table of some width with `w` bits consumed above it, if a short code claims it (R158). -/
def hufLeafAt (w : Nat) (short : List HufCode) (j : Nat) : HufEntry :=
  match short.find? fun c => j % 2 ^ (c.len - w) == c.rev >>> w with
  | some c => .leaf (c.len - w) c.sym
  | none => .invalid

/-- MakeTable(w, members) of R158 on the arena built so far: the arena with this table and its subtables appended (parent
before child, children by ascending key), and this table's width. Its index is the arena's length before. -/
def makeTable (m : Nat) : Nat → Nat → List HufCode → List (List HufEntry) → List (List HufEntry) × Nat
  | 0, _, _, arena => (arena, 0)
  | fuel + 1, w, members, arena =>
    let lmax := (members.map HufCode.len).foldl Nat.max 0
    let width := min m (lmax - w)
    let idx := arena.length
    let short := members.filter fun c => c.len - w ≤ width
    let long := members.filter fun c => width < c.len - w
    let leaves := (List.range (2 ^ width)).map (hufLeafAt w short)
    let addLink := fun (acc : List (List HufEntry) × List HufEntry) (key : Nat) =>
      match long.filter fun c => (c.rev >>> w) % 2 ^ width == key with
      | [] => acc
      | sub =>
        let built := makeTable m fuel (w + width) sub acc.1
        (built.1, acc.2.set key (.link width acc.1.length built.2))
    let keys := if long.isEmpty then [] else List.range (2 ^ width)
    let filled := keys.foldl addLink (arena ++ [leaves], leaves)
    (filled.1.set idx filled.2, width)

/-- `HufBuild(len, n, m_req, allow_incomplete)` with `n` the length of the list (R150 to R158); `none` is
MalformedHuffmanCode. The depth of the tables is at most the longest code, 15. -/
def hufBuild (lens : List Nat) (mReq : Nat) (allowIncomplete : Bool) : Option HufTable :=
  if hufCount lens 0 = lens.length then some HufTable.none
  else
    match hufLeft lens hufMaxLen with
    | none => none
    | some left =>
      if 0 < left && !(lens.length - hufCount lens 0 == 1 || allowIncomplete) then none
      else
        let m := max (hufMinLen lens) (min mReq (hufMaxUsed lens))
        some { empty := false, m := m, arena := (makeTable m (hufMaxLen + 1) 0 (hufMembers lens) []).1 }

/-- The loop of HufDecode (R160) from subtable `t` of width `w`; `fuel` bounds the number of tables visited, which a
built table's links do not exceed (R159 (b)). A lookup outside the table is InvalidSymbol (R160). -/
def hufWalk (cfg : Config) (inp : List Byte) (arena : List (List HufEntry)) : Nat → Nat → Nat → Brl → Got Brl Nat
  | 0, _, _, r => .err .invalidSymbol r
  | fuel + 1, t, w, r =>
    let (ix, r1) := r.peek cfg inp w
    match (arena.getD t [])[ix]? with
    | some (.leaf b sym) => .ok sym (r1.drop b)
    | some (.link b sub width) => hufWalk cfg inp arena fuel sub width (r1.drop b)
    | _ => .err .invalidSymbol r1

/-- `HufDecode(T)` (R160, R162). -/
def hufDecode (cfg : Config) (inp : List Byte) (t : HufTable) (r : Brl) : Got Brl Nat :=
  if t.empty then .err .invalidSymbol r else hufWalk cfg inp t.arena t.arena.length 0 t.m r

end Sys2Proof.Machine
end

