-- ==== Sys2Proof/Machine/Operands.lean ====
section
/-! DEFINITION. Field assembly: how base tables, extra bits and header fields become operands (30_encoding.md R95, R96,
R106, R108, R117, R118, R120, R124), and where a copy reads and writes (20_memory.md R72, R74). -/

namespace Sys2Proof.Machine

/-! ## MZ (R95, R106, R108) -/

/-- `nl = 257 + HLIT` (R95). -/
def litCount (hlit : BitVec 5) : Nat := 257 + hlit.toNat

/-- `nd = 1 + HDIST` (R95). -/
def distCount (hdist : BitVec 5) : Nat := 1 + hdist.toNat

/-- `nb = 4 + HCLEN` (R95). -/
def clenCount (hclen : BitVec 4) : Nat := 4 + hclen.toNat

/-- The code-length-code lengths in symbol order: the j-th field is the length of symbol `BORDER[j]`, all others are 0
(R106, R181). -/
def clArray (clen : List (BitVec 3)) : List (BitVec 3) :=
  (border.zip clen).foldl (fun cl p => cl.set p.1 p.2) (List.replicate 19 0)

/-- The length of a repeat run: base and extra bits of symbols 16, 17, 18 (R96, R108). -/
def repeatField : Nat → Option (Nat × Nat)
  | 16 => some (3, 2)
  | 17 => some (3, 3)
  | 18 => some (11, 7)
  | _ => none

/-- Base and extra bits of the literal/length symbol `sym`, 257..285 (R104). -/
def lengthField (sym : Nat) : Option (Nat × Nat) := if sym < 257 then none else lengthTable[sym - 257]?

/-- Base and extra bits of the distance symbol `sym`, 0..29 (R105). -/
def distField (sym : Nat) : Option (Nat × Nat) := distTable[sym]?

/-! ## QT (R117) -/

/-- Match offset from the base of a position slot and its raw field (R117). -/
def matchOffset (base raw : Nat) : Nat := base + raw + 1

/-- Match length from the base of a length slot and its raw field (R117). -/
def variableLength (base raw : Nat) : Nat := base + raw + 5

/-- The window bits and the level a host takes from a CAB folder's 16-bit compression-type field, as the arguments of
QT_INIT (R118, D37). -/
def qtInitArguments (compType : BitVec 16) : BitVec 8 × BitVec 8 :=
  ((compType.extractLsb' 8 5).setWidth 8, (compType.extractLsb' 4 4).setWidth 8)

/-! ## LZ (R120, R124) -/

/-- The 12-bit table offset of a reference: the low 8 bits are `b1`, the high 4 the high nibble of `b2` (R124). -/
def refOffset (b1 b2 : Byte) : BitVec 12 := b1.setWidth 12 ||| ((b2 &&& 0xF0).setWidth 12 <<< 4)

/-- The 4-bit length field of a reference (R124). -/
def refLenField (b2 : Byte) : BitVec 4 := b2.setWidth 4

/-- The length of a reference (R124). -/
def refLength (cfg : Config) (lenfield : BitVec 4) : Nat := lenfield.toNat + cfg.lzLenBias

/-- A 32-bit little-endian number (R62, R120). -/
def word32 (b0 b1 b2 b3 : Byte) : BitVec 32 :=
  b0.setWidth 32 ||| (b1.setWidth 32 <<< 8) ||| (b2.setWidth 32 <<< 16) ||| (b3.setWidth 32 <<< 24)

/-! ## Where a copy reads and writes -/

/-- The source index of a window copy at distance `dist` with the write cursor at `wpos` (R74). -/
def copySource (cap dist wpos : Nat) : Nat := (wpos + cap - dist) % cap

/-- The index after `i` in a space of `cap` bytes that wraps (R72, R240). -/
def wrapNext (cap i : Nat) : Nat := (i + 1) % cap

end Sys2Proof.Machine
end

