-- ==== Sys2Proof/Machine/Ops.lean ====
section
/-! DEFINITION. The named operations over memory, windows, contexts and STATUS that every meaning uses: the byte spaces and
their canonical form, WinPut, WinCheck, WinCopy (20_memory.md R72 to R74), TAKING AN ERROR (60_exceptions.md R290), ending
a command, and the access of a meaning to the context its command works on. -/

namespace Sys2Proof.Machine

/-! ## Byte spaces -/

/-- What an index that a space does not list reads as: the LZ table starts full of `LZ_FILL` (R248); a window byte nothing has
written has no value (U17; log 6). -/
def unlisted : Space → Option Byte
  | .lztab fill => some fill
  | .mzwin => none
  | .qtwin => none

/-- The listed byte at index `a`. -/
def memLookup (a : Nat) : Memory → Option Byte
  | [] => none
  | (k, v) :: rest => if k = a then some v else memLookup a rest

/-- MemRead(space, a, 1) (R14, R67). -/
def memRead (sp : Space) (m : Memory) (a : Nat) : Option Byte :=
  match memLookup a m with
  | some b => some b
  | none => unlisted sp

/-- The list without index `a`. -/
def memErase (a : Nat) : Memory → Memory
  | [] => []
  | (k, v) :: rest => if k = a then rest else (k, v) :: memErase a rest

/-- The list with byte `b` at index `a`, indices rising. -/
def memInsert (a : Nat) (b : Byte) : Memory → Memory
  | [] => [(a, b)]
  | (k, v) :: rest =>
    if a < k then (a, b) :: (k, v) :: rest
    else if k = a then (a, b) :: rest
    else (k, v) :: memInsert a b rest

/-- MemWrite(space, a, 1, b) (R14, R67); a byte equal to what an unlisted index reads as is not listed. -/
def memWrite (sp : Space) (m : Memory) (a : Nat) (b : Byte) : Memory :=
  if unlisted sp = some b then memErase a m else memInsert a b m

/-- Indices strictly rise. -/
def risingFrom : Option Nat → Memory → Bool
  | _, [] => true
  | lo, (k, _) :: rest => (match lo with | some l => decide (l < k) | none => true) && risingFrom (some k) rest

/-- The canonical form: indices strictly rise, all below `cap`, no entry equal to what an unlisted index reads as. -/
def Memory.wf (sp : Space) (cap : Nat) (m : Memory) : Bool :=
  risingFrom none m && m.all fun c => decide (c.1 < cap) && decide (unlisted sp ≠ some c.2)

/-! ## Windows (R72 to R74) -/

/-- WinPut (R72). -/
def Window.put (sp : Space) (cap : Nat) (w : Window) (b : Byte) : Window :=
  { cells := memWrite sp w.cells w.wpos b, wpos := wrapNext cap w.wpos, valid := min (w.valid + 1) cap }

/-- WinCheck (R73): a back-reference passes. -/
def winCheck (w : Window) (dist len room : Nat) : Bool := dist ≠ 0 && dist ≤ w.valid && len ≤ room

/-- WinCopy (R74), one byte at a time, source before destination: the window and the bytes copied, in order; `none` where
a source byte was never written. -/
def winCopy (sp : Space) (cap dist : Nat) : Nat → Window → Option (Window × List Byte)
  | 0, w => some (w, [])
  | len + 1, w =>
    match memRead sp w.cells (copySource cap dist w.wpos) with
    | none => none
    | some b =>
      match winCopy sp cap dist len (w.put sp cap b) with
      | none => none
      | some (w', bs) => some (w', b :: bs)

/-- The bytes of a space at `len` indices from `start` on, wrapping at `cap` (R220). -/
def readRun (sp : Space) (cap : Nat) (m : Memory) : Nat → Nat → Option (List Byte)
  | _, 0 => some []
  | start, len + 1 =>
    match memRead sp m start with
    | none => none
    | some b =>
      match readRun sp cap m (wrapNext cap start) len with
      | none => none
      | some bs => some (b :: bs)

/-! ## Contexts -/

/-- Write the MZ context `c`. -/
def State.setMz (s : State) (c : Nat) (x : MzCtx) : State := { s with mz := s.mz.set c x }

/-- Write the QT context `c`. -/
def State.setQt (s : State) (c : Nat) (x : QtCtx) : State := { s with qt := s.qt.set c x }

/-- Write the LZ context `c`. -/
def State.setLz (s : State) (c : Nat) (x : LzCtx) : State := { s with lz := s.lz.set c x }

/-- Go on with the command in progress at another place. -/
def State.setRun (s : State) (r : Run) : State := { s with run := r }

/-- OUT gains the bytes `bs` (R188, R245, R249). -/
def State.emit (s : State) (bs : List Byte) : State := { s with out := s.out ++ bs }

/-- Write context `c` of a list, or append it when `c` is the next number; other numbers name no context (log 3). -/
def putContext {α : Type} (l : List α) (c : Nat) (x : α) : List α := if c < l.length then l.set c x else l ++ [x]

/-- A new MZ context (R57, R263). What R57 leaves unspecified is 0, or the empty table (DESIGN CHOICE, log 5). -/
def MzCtx.fresh : MzCtx :=
  { win := { cells := [], wpos := 0, valid := 0 }, produced := 0, outLen := 0, br := Brl.start 2, final := false,
    btype := 0, nl := 0, nd := 0, nb := 0, cl := List.replicate 19 0, ll := [], prev := 0,
    tc := HufTable.none, tl := HufTable.none, td := HufTable.none }

/-- A QT context before QT_INIT sets it up. What QT_INIT does not set is 0 (DESIGN CHOICE, log 5). -/
def QtCtx.blank : QtCtx :=
  let m : QModel := { n := 0, first := 0, sym := [], cum := [], reorder := 0, tabloc := [] }
  { wbits := 0, level := 0, wsize := 0, win := { cells := [], wpos := 0, valid := 0 }, L := 0, H := 0, C := 0,
    started := false, fault := false, m7 := m, m00 := m, m40 := m, m80 := m, mC0 := m, m4 := m, m5 := m, m6len := m,
    m6pos := m, togo := 0, bm := Brm.start }

/-- The nine ModelInit calls, for the context's window bits (R201). -/
def QtCtx.initModels (cfg : Config) (x : QtCtx) : QtCtx :=
  { x with m7 := initModel cfg x.wbits .m7, m00 := initModel cfg x.wbits .m00, m40 := initModel cfg x.wbits .m40,
           m80 := initModel cfg x.wbits .m80, mC0 := initModel cfg x.wbits .mC0, m4 := initModel cfg x.wbits .m4,
           m5 := initModel cfg x.wbits .m5, m6len := initModel cfg x.wbits .m6len,
           m6pos := initModel cfg x.wbits .m6pos }

/-- What QT_INIT and QT_RESET share: cursor, valid count, `started` and `fault` to 0 and the nine models (R262, R264).
What R57 leaves unspecified then, and no rule reads before it is written, keeps its old value: the window's bytes
(DESIGN CHOICE, log 6), L, H, C, `togo` and the reader `bm` (DESIGN CHOICE, log 5). -/
def QtCtx.restart (cfg : Config) (x : QtCtx) : QtCtx :=
  { x with win := { x.win with wpos := 0, valid := 0 }, started := false, fault := false }.initModels cfg

/-- What QT_INIT sets (R262): the window buffer keeps the bytes that lie in the new size (log 6). -/
def QtCtx.setup (cfg : Config) (wbits : Nat) (level : BitVec 4) (x : QtCtx) : QtCtx :=
  { x with wbits := wbits, level := level, wsize := 2 ^ wbits,
           win := { x.win with cells := x.win.cells.filter fun e => e.1 < 2 ^ wbits } }.restart cfg

/-- A new LZ context, at the values of the replay reset (R57, R248). -/
def LzCtx.fresh : LzCtx :=
  { tab := [], cur := lzStart, flags := 0, fcnt := 0, spos := 0, slen := 0, real := 0, want := 0, inPos := 0,
    fault := false, compType := lzType, lastChar := 0, realLength := 0, payload := none }

/-- ReplayReset (R248): every register NextByte reads goes back to the start; `want`, `fault` and the header registers
are kept. -/
def LzCtx.replayReset (x : LzCtx) : LzCtx :=
  { x with tab := [], cur := lzStart, flags := 0, fcnt := 0, spos := 0, slen := 0, real := 0, inPos := 0 }

/-- The byte of the LZ table at an index (R246, R248). -/
def tabRead (fill : Byte) (m : Memory) (a : Nat) : Byte := (memRead (.lztab fill) m a).getD fill

/-- Put(b) (R245). -/
def LzCtx.put (cfg : Config) (x : LzCtx) (b : Byte) : LzCtx :=
  { x with tab := memWrite (.lztab cfg.lzFill) x.tab x.cur b, cur := wrapNext lzTsize x.cur, real := x.real + 1 }

/-- RefByte (R246): the byte, read before the write. -/
def LzCtx.refByte (cfg : Config) (x : LzCtx) : Byte × LzCtx :=
  let b := tabRead cfg.lzFill x.tab x.spos
  (b, ({ x with spos := wrapNext lzTsize x.spos, slen := x.slen - 1 }).put cfg b)

/-- `n` RefBytes: the context, and those of the bytes that are delivered, at or after `want` (R246, R249). -/
def lzCopy (cfg : Config) : Nat → LzCtx → LzCtx × List Byte
  | 0, x => (x, [])
  | n + 1, x =>
    let rest := lzCopy cfg n (x.refByte cfg).2
    (rest.1, if x.want ≤ x.real then (x.refByte cfg).1 :: rest.2 else rest.2)

/-! ## The life of a command -/

/-- A decode command's buffers: IN and `out_len` are taken, OUT is not written yet (R260). -/
def State.openCall (s : State) (inp : List Byte) (outLen : Nat) : State :=
  { s with inp := inp, outLen := outLen, out := [] }

/-- OUT after an error: `out_len` bytes, each any value (U4; log 7). -/
def State.spoilOut (s : State) : State :=
  { s with out := (List.range s.outLen).map (Config.freeByte s.draws), draws := s.draws + 1 }

/-- A command ends without error (R15, R40). -/
def State.finish (s : State) : State := { s with status := statusOk, run := .idle }

/-- STATUS gets the code of `k` and the command is over (R290 (1), (2), (5)). -/
def State.endWith (s : State) (k : ErrKind) : State := { s with status := k.code, run := .idle }

/-- The rejection of a decode command by an entry check: nothing of the context changes (R290 (3), R291). -/
def State.reject (s : State) (k : ErrKind) : State := s.spoilOut.endWith k

/-- TAKING AN ERROR (R290): no further step of the command runs, STATUS gets the code, a QT or LZ decode past its entry
checks sets its context's fault flag, OUT is unspecified, and all else stays as the steps so far left it. There is no
saved cursor and no return (R293). An init command has no OUT and sets no fault flag. -/
def State.raise (s : State) (k : ErrKind) : State :=
  match s.run with
  | .mz _ _ => s.spoilOut.endWith k
  | .qt _ _ => s.markFault.spoilOut.endWith k
  | .lz _ => s.markFault.spoilOut.endWith k
  | .lzHdr _ => s.endWith k
  | .idle => s.endWith k

/-! ## The outcome of a meaning -/

/-- The outcomes of this machine's steps. -/
abbrev Result := Host.Outcome State Fault Refusal

/-- A stream element of MSZIP works on the context of the `MZ_DECODE` in progress, which stands at `p` (R90, U2). -/
def withMz (s : State) (k : Nat → MzPhase → MzCtx → Result) : Result :=
  match s.run with
  | .mz c p =>
    match s.mz[c]? with
    | some x => k c p x
    | none => .refused .noContext
  | _ => .refused .outOfPlace

/-- A stream element of Quantum works on the context of the `QT_DECODE` in progress, which stands at `p` (R90, U2). -/
def withQt (s : State) (k : Nat → QtPhase → QtCtx → Result) : Result :=
  match s.run with
  | .qt c p =>
    match s.qt[c]? with
    | some x => k c p x
    | none => .refused .noContext
  | _ => .refused .outOfPlace

/-- A stream element of LZ works on the context of the `LZ_DECODE` in progress (R90, U2). -/
def withLz (s : State) (k : Nat → LzCtx → Result) : Result :=
  match s.run with
  | .lz c =>
    match s.lz[c]? with
    | some x => k c x
    | none => .refused .noContext
  | _ => .refused .outOfPlace

/-- A command starts only when none is in progress (U1). -/
def whenIdle (s : State) (r : Result) : Result :=
  match s.run with
  | .idle => r
  | _ => .refused .commandInProgress

/-- Whether another context may be created beside `n` existing ones (`N_CTX`, D36). -/
def mayCreate (cfg : Config) (n : Nat) : Bool :=
  match cfg.nCtx with
  | none => true
  | some most => n < most

end Sys2Proof.Machine
end

