-- ==== Sys2Proof/Machine/Lz.lean ====
section
/-! DEFINITION. The meanings of the four LZ/SZDD stream elements (44_lzszdd.md R244 to R247, 45_host_commands.md R266). -/

namespace Sys2Proof.Machine

/-! ## Shared operations -/

/-- The logical position at which the `LZ_DECODE` in progress ends (R249). -/
def lzEnd (s : State) (x : LzCtx) : Nat := x.want + s.outLen

/-- After output: at the end position the command ends and `want` follows `real`; else the next element follows (R249). -/
def lzContinue (s : State) (c : Nat) (x : LzCtx) : Result :=
  if lzEnd s x ≤ x.real then .next (s.setLz c { x with want := x.real }).finish
  else .next ((s.setLz c x).setRun (.lz c))

/-- Copy from the reference in progress as far as the command needs bytes; what is left of it waits for the next command
(R246, R247, R249). -/
def lzRunReference (s : State) (c : Nat) (x : LzCtx) : Result :=
  let n := min x.slen (lzEnd s x - x.real)
  if lzPositionLimit ≤ x.real + n then .refused .lzPositionOverflow
  else lzContinue (s.emit (lzCopy s.cfg n x).2) c (lzCopy s.cfg n x).1

/-- A token works while the command still needs bytes (R249). -/
def whereWanted (s : State) (x : LzCtx) (r : Result) : Result :=
  if lzEnd s x ≤ x.real then .refused .outOfPlace else r

/-! ## The elements -/

/-- LZ_HDR (R266): the header registers; the replay registers, `want` and `fault` at their start values; the context is
created if it is new. -/
def execLzHdr (lastChar : Byte) (realLength : BitVec 32) (s : State) : Result :=
  match s.run with
  | .lzHdr c =>
    if s.lz.length < c then .refused .noContext
    else
      let x := { (s.lz.getD c LzCtx.fresh).replayReset with
                 compType := lzType, lastChar := lastChar, realLength := realLength, want := 0, fault := false,
                 payload := none }
      .next ({ s with lz := putContext s.lz c x }).finish
  | _ => .refused .outOfPlace

/-- FLAGS (R244): the flag byte covers the next eight tokens. -/
def execFlags (b : Byte) (s : State) : Result :=
  withLz s fun c x => if x.fcnt ≠ 0 then .refused .outOfPlace else .next (s.setLz c (x.loadFlags b))

/-- LZLIT (R245, R247): one byte to the table, and to the output unless it is skipped. -/
def execLzlit (b : Byte) (s : State) : Result :=
  withLz s fun c x =>
    whereWanted s x <|
      if lzPositionLimit ≤ x.real + 1 then .refused .lzPositionOverflow
      else lzContinue (s.emit (if x.want ≤ x.real then [b] else [])) c (x.put s.cfg b)

/-- LZREF (R246, R247): StartRef, then the copy. -/
def execLzref (off : BitVec 12) (lenfield : BitVec 4) (s : State) : Result :=
  withLz s fun c x =>
    whereWanted s x (lzRunReference s c { x with spos := off.toNat, slen := refLength s.cfg lenfield })

end Sys2Proof.Machine
end

