-- ==== Sys2Proof/Machine/Quantum.lean ====
section
/-! DEFINITION. The meanings of the eight Quantum stream elements (43_quantum.md R203, R204, R212 to R221). The coder and
the models have advanced when an element has been fetched (Decode.lean); here is what the element does to the window, the
output and the command. -/

namespace Sys2Proof.Machine

/-! ## Shared operations -/

/-- Emit(ctx, b) (R221). -/
def QtCtx.emit (x : QtCtx) (b : Byte) : QtCtx :=
  { x with win := x.win.put .qtwin x.wsize b, togo := x.togo - 1 }

/-- Where Extract begins: `out_len` bytes before the write cursor (R220). -/
def QtCtx.extractStart (x : QtCtx) (outLen : Nat) : Nat := copySource x.wsize outLen x.win.wpos

/-- After a token: when nothing is left to produce, Extract fills OUT and the command ends; else the next token follows
(R202, R204, R220). -/
def qtContinue (s : State) (c : Nat) (x : QtCtx) : Result :=
  if x.togo = 0 then
    match readRun .qtwin x.wsize x.win.cells (x.extractStart s.outLen) s.outLen with
    | none => .fault .unwrittenByte
    | some bs => .next ({ s.setQt c x with out := bs }).finish
  else .next ((s.setQt c x).setRun (.qt c .tokens))

/-- A token works in the token loop, which runs only while bytes are left to produce (R204). -/
def whereTokens (p : QtPhase) (x : QtCtx) (r : Result) : Result :=
  match p with
  | .tokens => if x.togo = 0 then .refused .outOfPlace else r
  | .start => .refused .outOfPlace

/-- A literal token (R212). -/
def qtLiteral (s : State) (b : Byte) : Result :=
  withQt s fun c p x => whereTokens p x (qtContinue s c (x.emit b))

/-- DoMatch(off, len) (R216). -/
def qtMatch (s : State) (off len : Nat) : Result :=
  withQt s fun c p x =>
    whereTokens p x <|
      if winCheck x.win off len x.togo then
        match winCopy .qtwin x.wsize off len x.win with
        | none => .fault .unwrittenByte
        | some (w, _) => qtContinue s c { x with win := w, togo := x.togo - len }
      else .next (s.raise .corruptData)

/-! ## The elements -/

/-- CODE16 (R203): the coder registers of a fresh stream. -/
def execCode16 (code : BitVec 16) (s : State) : Result :=
  withQt s fun c p x =>
    match p with
    | .start => qtContinue s c { x with L := 0, H := 0xFFFF, C := code, started := true }
    | .tokens => .refused .outOfPlace

/-- QLIT0 (R212): a literal 0x00..0x3F. -/
def execQlit0 (b : Byte) (s : State) : Result := qtLiteral s b

/-- QLIT1 (R212): a literal 0x40..0x7F. -/
def execQlit1 (b : Byte) (s : State) : Result := qtLiteral s b

/-- QLIT2 (R212): a literal 0x80..0xBF. -/
def execQlit2 (b : Byte) (s : State) : Result := qtLiteral s b

/-- QLIT3 (R212): a literal 0xC0..0xFF. -/
def execQlit3 (b : Byte) (s : State) : Result := qtLiteral s b

/-- QM3 (R212, R216): a match of length 3. -/
def execQm3 (off : Nat) (s : State) : Result := qtMatch s off 3

/-- QM4 (R212, R216): a match of length 4. -/
def execQm4 (off : Nat) (s : State) : Result := qtMatch s off 4

/-- QMV (R212, R216): a match of decoded length. -/
def execQmv (len off : Nat) (s : State) : Result := qtMatch s off len

end Sys2Proof.Machine
end

