-- ==== Sys2Proof/Machine/Commands.lean ====
section
/-! DEFINITION. The meanings of the nine host commands (45_host_commands.md R261 to R267; the decode entries 42_mszip.md
R170, 43_quantum.md R202, 44_lzszdd.md R249). A decode command ends at once or leaves its stream elements to the
following steps. -/

namespace Sys2Proof.Machine

/-- MZ_NEW (R263): a new context. -/
def execMzNew (s : State) : Result :=
  whenIdle s <|
    if mayCreate s.cfg s.mz.length then .next ({ s with mz := s.mz ++ [MzCtx.fresh] }).finish
    else .refused .tooManyContexts

/-- MZ_DECODE (R170): the capacity check; the signature is the first stream element. -/
def execMzDecode (c : Nat) (inp : List Byte) (outLen : Nat) (s : State) : Result :=
  whenIdle s <|
    match s.mz[c]? with
    | none => .refused .noContext
    | some _ =>
      if mzWsize < outLen then .next ((s.openCall inp outLen).reject .corruptData)
      else .next ((s.openCall inp outLen).setRun (.mz c .sig))

/-- QT_INIT (R262): a refused window size changes nothing; else the context is created or set up anew. A creating QT_INIT with a refused
window size at the limit `N_CTX` ends with the error; the spec gives no order of the two (DESIGN CHOICE, log 11). -/
def execQtInit (c : Nat) (windowBits level : BitVec 8) (s : State) : Result :=
  whenIdle s <|
    if s.qt.length < c then .refused .noContext
    else if windowBits.toNat < qtWbitsMin ∨ qtWbitsMax < windowBits.toNat then .next (s.endWith .unsupportedWindowSize)
    else if c = s.qt.length ∧ mayCreate s.cfg s.qt.length = false then .refused .tooManyContexts
    else
      let x := (s.qt.getD c QtCtx.blank).setup s.cfg windowBits.toNat (level.setWidth 4)
      .next ({ s with qt := putContext s.qt c x }).finish

/-- QT_RESET (R264). -/
def execQtReset (c : Nat) (s : State) : Result :=
  whenIdle s <|
    match s.qt[c]? with
    | none => .refused .noContext
    | some x => .next (s.setQt c (x.restart s.cfg)).finish

/-- QT_DECODE (R202, R203, R291): the entry checks, a new reader, then the coder start of a fresh stream or the tokens. -/
def execQtDecode (c : Nat) (inp : List Byte) (outLen : Nat) (s : State) : Result :=
  whenIdle s <|
    match s.qt[c]? with
    | none => .refused .noContext
    | some x =>
      let s1 := s.openCall inp outLen
      if x.fault then .next (s1.reject .corruptData)
      else if x.wsize < outLen then .next (s1.reject .corruptData)
      else
        let x1 := { x with bm := Brm.start, togo := outLen }
        if x.started then qtContinue s1 c x1 else .next ((s1.setQt c x1).setRun (.qt c .start))

/-- LZ_INIT (R266): the header is its stream element. A creating LZ_INIT at the limit `N_CTX` is refused before the header is
read; the spec gives no order of the two (DESIGN CHOICE, log 11). -/
def execLzInit (c : Nat) (hdr : List Byte) (s : State) : Result :=
  whenIdle s <|
    if s.lz.length < c then .refused .noContext
    else if c = s.lz.length ∧ mayCreate s.cfg s.lz.length = false then .refused .tooManyContexts
    else .next ({ s with inp := hdr }.setRun (.lzHdr c))

/-- LZ_RESET (R267). -/
def execLzReset (c : Nat) (s : State) : Result :=
  whenIdle s <|
    match s.lz[c]? with
    | none => .refused .noContext
    | some x => .next (s.setLz c { x.replayReset with want := 0, fault := false }).finish

/-- LZ_SEEK (R250): the target is recorded. -/
def execLzSeek (c : Nat) (pos : BitVec 32) (s : State) : Result :=
  whenIdle s <|
    match s.lz[c]? with
    | none => .refused .noContext
    | some x => .next (s.setLz c { x with want := pos.toNat }).finish

/-- Whether a payload may be the context's: it has seen none, or this one (U8; log 11). -/
def LzCtx.accepts (x : LzCtx) (inp : List Byte) : Bool :=
  match x.payload with
  | none => true
  | some p => p == inp

/-- LZ_DECODE (R249, R291): the entry check, the replay reset of a backward seek, what is left of a reference, then the
stream elements. -/
def execLzDecode (c : Nat) (inp : List Byte) (outLen : Nat) (s : State) : Result :=
  whenIdle s <|
    match s.lz[c]? with
    | none => .refused .noContext
    | some x =>
      let s1 := s.openCall inp outLen
      if x.fault then .next (s1.reject .corruptData)
      else if !x.accepts inp then .refused .lzPayloadChanged
      else
        let x1 := if x.want < x.real then x.replayReset else x
        lzRunReference s1 c { x1 with payload := some inp }

end Sys2Proof.Machine
end

