-- ==== Sys2Proof/Machine/Mszip.lean ====
section
/-! DEFINITION. The meanings of the 18 MSZIP stream elements (42_mszip.md R170 to R190). Each works on the context of the
`MZ_DECODE` in progress; an element where that command does not take it is refused (R90). -/

namespace Sys2Proof.Machine

/-! ## Shared operations -/

/-- The end of a block (R171, R190): after the last block the output must be exactly full, else the next header follows. -/
def mzBlockEnd (s : State) (c : Nat) (x : MzCtx) : Result :=
  if x.final then
    if x.produced ≠ x.outLen then .next ((s.setMz c x).raise .corruptData) else .next (s.setMz c x).finish
  else .next ((s.setMz c x).setRun (.mz c .header))

/-- Emit(ctx, b) (R188). -/
def MzCtx.emit (x : MzCtx) (b : Byte) : MzCtx :=
  { x with win := x.win.put .mzwin mzWsize b, produced := x.produced + 1 }

/-- The room left in the output (R73, R174, R187). -/
def MzCtx.room (x : MzCtx) : Nat := x.outLen - x.produced

/-- What every block header does: both fields are written before the type is examined (R172). -/
def MzCtx.openBlock (x : MzCtx) (final : Bool) (btype : BitVec 2) : MzCtx := { x with final := final, btype := btype }

/-- BuildBlockTables (R184). -/
def mzBuildTables (s : State) (c : Nat) (x : MzCtx) : Result :=
  match hufBuild ((x.ll.take x.nl).map BitVec.toNat) s.cfg.mzDynLroot false with
  | none => .next ((s.setMz c x).raise .malformedHuffmanCode)
  | some tl =>
    let x1 := { x with tl := tl }
    if tl.empty then .next ((s.setMz c x1).raise .malformedHuffmanCode)
    else
      match hufBuild (((x.ll.drop x.nl).take x.nd).map BitVec.toNat) s.cfg.mzDynDroot false with
      | none => .next ((s.setMz c x1).raise .malformedHuffmanCode)
      | some td => .next ((s.setMz c { x1 with td := td }).setRun (.mz c .symbols))

/-- `j` code lengths `v` (R182): a run past the declared counts is LengthOverrun; the last one completes the arrays and
the block's tables are built. -/
def mzGrowLengths (s : State) (c : Nat) (x : MzCtx) (v : BitVec 4) (j : Nat) : Result :=
  if x.nl + x.nd < x.ll.length + j then .next ((s.setMz c x).raise .lengthOverrun)
  else
    let x1 := { x with ll := x.ll ++ List.replicate j v }
    if x1.ll.length < x1.nl + x1.nd then .next (s.setMz c x1) else mzBuildTables s c x1

/-- A code-length element works where code lengths are due. -/
def whereLengths (p : MzPhase) (r : Result) : Result :=
  match p with
  | .codeLens => r
  | _ => .refused .outOfPlace

/-- A literal/length element works in the symbol loop. -/
def whereSymbols (p : MzPhase) (r : Result) : Result :=
  match p with
  | .symbols => r
  | _ => .refused .outOfPlace

/-- A block header works where one is due. -/
def whereHeader (p : MzPhase) (r : Result) : Result :=
  match p with
  | .header => r
  | _ => .refused .outOfPlace

/-! ## The elements -/

/-- SIG (R170): the context is set up for the call and the block loop begins. What R57 leaves unspecified at the start of a
call keeps the earlier call's value: `final`, `btype`, `nl`, `nd`, `nb`, `cl`, `prev` (DESIGN CHOICE, log 5), `ll` and the
three tables (log 16). -/
def execSig (s : State) : Result :=
  withMz s fun c p x =>
    match p with
    | .sig =>
      .next ((s.setMz c { x with outLen := s.outLen, win := { x.win with wpos := 0, valid := 0 }, produced := 0,
                                 br := Brl.start 2 }).setRun (.mz c .header))
    | _ => .refused .outOfPlace

/-- BLK_STORED (R171, R174). -/
def execBlkStored (final : Bool) (s : State) : Result :=
  withMz s fun c p x => whereHeader p (.next ((s.setMz c (x.openBlock final 0)).setRun (.mz c .storedHdr)))

/-- BLK_FIXED (R176): the two fixed tables are built and the symbol loop begins. -/
def execBlkFixed (final : Bool) (s : State) : Result :=
  withMz s fun c p x =>
    whereHeader p <|
      match hufBuild fixedLL mzFixedLroot false, hufBuild fixedD mzFixedDroot true with
      | some tl, some td =>
        .next ((s.setMz c { x.openBlock final 1 with tl := tl, td := td }).setRun (.mz c .symbols))
      | _, _ => .next ((s.setMz c (x.openBlock final 1)).raise .malformedHuffmanCode)

/-- BLK_DYNAMIC (R171, R180). -/
def execBlkDynamic (final : Bool) (s : State) : Result :=
  withMz s fun c p x => whereHeader p (.next ((s.setMz c (x.openBlock final 2)).setRun (.mz c .dynHdr)))

/-- BLK_RESERVED (R171): InvalidBlockType. -/
def execBlkReserved (final : Bool) (s : State) : Result :=
  withMz s fun c p x => whereHeader p (.next ((s.setMz c (x.openBlock final 3)).raise .invalidBlockType))

/-- STORED_HDR (R174): complement check, capacity check, then the raw bytes, if any. -/
def execStoredHdr (len nlen : BitVec 16) (s : State) : Result :=
  withMz s fun c p x =>
    match p with
    | .storedHdr =>
      if nlen ≠ len ^^^ 0xFFFF then .next (s.raise .corruptLength)
      else if x.room < len.toNat then .next (s.raise .corruptData)
      else if len = 0 then mzBlockEnd s c x
      else .next (s.setRun (.mz c (.raw len.toNat)))
    | _ => .refused .outOfPlace

/-- RAW (R174): one byte to the window and the output; the last one ends the block. -/
def execRaw (b : Byte) (s : State) : Result :=
  withMz s fun c p x =>
    match p with
    | .raw left =>
      if x.room = 0 then .fault .indexOutOfRange
      else if left ≤ 1 then mzBlockEnd (s.emit [b]) c (x.emit b)
      else .next (((s.emit [b]).setMz c (x.emit b)).setRun (.mz c (.raw (left - 1))))
    | _ => .refused .outOfPlace

/-- DYN_HDR (R180, R181): the counts, the code-length-code lengths, and the code-length table. -/
def execDynHdr (hlit hdist : BitVec 5) (hclen : BitVec 4) (clen : List (BitVec 3)) (s : State) : Result :=
  withMz s fun c p x =>
    match p with
    | .dynHdr =>
      let x1 := { x with nl := litCount hlit, nd := distCount hdist, nb := clenCount hclen }
      if mzNlitMax < x1.nl ∨ mzNdistMax < x1.nd then .next ((s.setMz c x1).raise .lengthOverrun)
      else
        let x2 := { x1 with cl := clArray clen }
        match hufBuild (x2.cl.map BitVec.toNat) s.cfg.mzClRoot false with
        | none => .next ((s.setMz c x2).raise .malformedHuffmanCode)
        | some tc =>
          if tc.empty then .next ((s.setMz c { x2 with tc := tc }).raise .malformedHuffmanCode)
          else .next ((s.setMz c { x2 with tc := tc, ll := [], prev := 0 }).setRun (.mz c .codeLens))
    | _ => .refused .outOfPlace

/-- CL (R182): the next code length. -/
def execCl (v : BitVec 4) (s : State) : Result :=
  withMz s fun c p x => whereLengths p (mzGrowLengths s c { x with prev := v } v 1)

/-- CL16 (R182, R183): repeat the previous code length. -/
def execCl16 (rep : Nat) (s : State) : Result :=
  withMz s fun c p x => whereLengths p (mzGrowLengths s c x x.prev rep)

/-- CL17 (R182, R183): a run of zeros; the previous length becomes 0. -/
def execCl17 (rep : Nat) (s : State) : Result :=
  withMz s fun c p x => whereLengths p (mzGrowLengths s c { x with prev := 0 } 0 rep)

/-- CL18 (R182, R183): a long run of zeros; the previous length becomes 0. -/
def execCl18 (rep : Nat) (s : State) : Result :=
  withMz s fun c p x => whereLengths p (mzGrowLengths s c { x with prev := 0 } 0 rep)

/-- LIT (R186, R189): CorruptData when the output is full, else one byte to the window and the output. -/
def execLit (b : Byte) (s : State) : Result :=
  withMz s fun c p x =>
    whereSymbols p <|
      if x.produced = x.outLen then .next (s.raise .corruptData) else .next ((s.emit [b]).setMz c (x.emit b))

/-- EOB (R186): the end of the block. -/
def execEob (s : State) : Result :=
  withMz s fun c p x => whereSymbols p (mzBlockEnd s c x)

/-- MATCH (R187): the length is held until the distance is decoded. -/
def execMatch (len : Nat) (s : State) : Result :=
  withMz s fun c p _ => whereSymbols p (.next (s.setRun (.mz c (.distance len))))

/-- LL_RESERVED (R187): no base entry, InvalidSymbol. -/
def execLlReserved (_sym : Nat) (s : State) : Result :=
  withMz s fun _ p _ => whereSymbols p (.next (s.raise .invalidSymbol))

/-- DIST (R187): the checks of WinCheck, then the copy to the window and the output. -/
def execDist (dist : Nat) (s : State) : Result :=
  withMz s fun c p x =>
    match p with
    | .distance len =>
      if winCheck x.win dist len x.room then
        match winCopy .mzwin mzWsize dist len x.win with
        | none => .fault .unwrittenByte
        | some (w, bs) =>
          .next (((s.emit bs).setMz c { x with win := w, produced := x.produced + len }).setRun (.mz c .symbols))
      else .next (s.raise .corruptData)
    | _ => .refused .outOfPlace

/-- DIST_RESERVED (R187): no base entry, InvalidSymbol. -/
def execDistReserved (_sym : Nat) (s : State) : Result :=
  withMz s fun _ p _ =>
    match p with
    | .distance _ => .next (s.raise .invalidSymbol)
    | _ => .refused .outOfPlace

end Sys2Proof.Machine
end

