-- ==== Sys2Proof/Machine/Dispatch.lean ====
section
/-! DEFINITION. One arm per element or command, each a direct call of its meaning. -/

namespace Sys2Proof.Machine

/-- What an element or a command does to a state. -/
def exec (i : Instr) (s : State) : Host.Outcome State Fault Refusal :=
  match i with
  | .sig => Sys2Proof.Machine.execSig s
  | .blkStored final => Sys2Proof.Machine.execBlkStored final s
  | .blkFixed final => Sys2Proof.Machine.execBlkFixed final s
  | .blkDynamic final => Sys2Proof.Machine.execBlkDynamic final s
  | .blkReserved final => Sys2Proof.Machine.execBlkReserved final s
  | .storedHdr len nlen => Sys2Proof.Machine.execStoredHdr len nlen s
  | .raw b => Sys2Proof.Machine.execRaw b s
  | .dynHdr hlit hdist hclen clen => Sys2Proof.Machine.execDynHdr hlit hdist hclen clen s
  | .cl v => Sys2Proof.Machine.execCl v s
  | .cl16 rep => Sys2Proof.Machine.execCl16 rep s
  | .cl17 rep => Sys2Proof.Machine.execCl17 rep s
  | .cl18 rep => Sys2Proof.Machine.execCl18 rep s
  | .lit b => Sys2Proof.Machine.execLit b s
  | .eob => Sys2Proof.Machine.execEob s
  | .mtch len => Sys2Proof.Machine.execMatch len s
  | .llReserved sym => Sys2Proof.Machine.execLlReserved sym s
  | .dist d => Sys2Proof.Machine.execDist d s
  | .distReserved sym => Sys2Proof.Machine.execDistReserved sym s
  | .code16 code => Sys2Proof.Machine.execCode16 code s
  | .qlit0 b => Sys2Proof.Machine.execQlit0 b s
  | .qlit1 b => Sys2Proof.Machine.execQlit1 b s
  | .qlit2 b => Sys2Proof.Machine.execQlit2 b s
  | .qlit3 b => Sys2Proof.Machine.execQlit3 b s
  | .qm3 off => Sys2Proof.Machine.execQm3 off s
  | .qm4 off => Sys2Proof.Machine.execQm4 off s
  | .qmv len off => Sys2Proof.Machine.execQmv len off s
  | .lzHdr lastChar realLength => Sys2Proof.Machine.execLzHdr lastChar realLength s
  | .flags b => Sys2Proof.Machine.execFlags b s
  | .lzlit b => Sys2Proof.Machine.execLzlit b s
  | .lzref off lenfield => Sys2Proof.Machine.execLzref off lenfield s
  | .mzNew => Sys2Proof.Machine.execMzNew s
  | .mzDecode c inp outLen => Sys2Proof.Machine.execMzDecode c inp outLen s
  | .qtInit c windowBits level => Sys2Proof.Machine.execQtInit c windowBits level s
  | .qtReset c => Sys2Proof.Machine.execQtReset c s
  | .qtDecode c inp outLen => Sys2Proof.Machine.execQtDecode c inp outLen s
  | .lzInit c hdr => Sys2Proof.Machine.execLzInit c hdr s
  | .lzReset c => Sys2Proof.Machine.execLzReset c s
  | .lzSeek c pos => Sys2Proof.Machine.execLzSeek c pos s
  | .lzDecode c inp outLen => Sys2Proof.Machine.execLzDecode c inp outLen s

end Sys2Proof.Machine
end

