-- ==== Sys2Proof/WellFormed.lean ====
section
/-! DEFINITION. Which terms of `Instr` are elements the formats of 30_encoding.md can carry: the operand ranges that the
operands' types do not already say. -/

namespace Sys2Proof

/-- The largest match offset any window admits: 2^21 (30_encoding.md R116, R117). -/
def maxOffset : Nat := 2097152

/-- A literal of quarter `q` lies in `64 q .. 64 q + 63` (R111). -/
def inQuarter (q : Nat) (b : Byte) : Bool := b.toNat / 64 == q

/-- An offset a position slot can give (R117). -/
def offsetInRange (off : Nat) : Bool := 1 ≤ off && off ≤ maxOffset

/-- The operand is one that the element's format can carry (R95 to R98, R111, R117). -/
def Instr.wf : Instr → Bool
  | .sig => true
  | .blkStored _ => true
  | .blkFixed _ => true
  | .blkDynamic _ => true
  | .blkReserved _ => true
  | .storedHdr _ _ => true
  | .raw _ => true
  | .dynHdr _ _ hclen clen => clen.length == 4 + hclen.toNat
  | .cl _ => true
  | .cl16 rep => 3 ≤ rep && rep ≤ 6
  | .cl17 rep => 3 ≤ rep && rep ≤ 10
  | .cl18 rep => 11 ≤ rep && rep ≤ 138
  | .lit _ => true
  | .eob => true
  | .mtch len => 3 ≤ len && len ≤ 258
  | .llReserved sym => sym == 286 || sym == 287
  | .dist d => 1 ≤ d && d ≤ 32768
  | .distReserved sym => sym == 30 || sym == 31
  | .code16 _ => true
  | .qlit0 b => inQuarter 0 b
  | .qlit1 b => inQuarter 1 b
  | .qlit2 b => inQuarter 2 b
  | .qlit3 b => inQuarter 3 b
  | .qm3 off => offsetInRange off
  | .qm4 off => offsetInRange off
  | .qmv len off => 5 ≤ len && len ≤ 259 && offsetInRange off
  | .lzHdr _ _ => true
  | .flags _ => true
  | .lzlit _ => true
  | .lzref _ _ => true
  | .mzNew => true
  | .mzDecode _ _ _ => true
  | .qtInit _ _ _ => true
  | .qtReset _ => true
  | .qtDecode _ _ _ => true
  | .lzInit _ _ => true
  | .lzReset _ => true
  | .lzSeek _ _ => true
  | .lzDecode _ _ _ => true

end Sys2Proof
end

