-- ==== Sys2Proof/Decode.lean ====
section
/-! DEFINITION. The decoder: what the next stream element of each engine's input is (30_encoding.md), total on any bytes,
with what the fetch does to the readers and, for Quantum, to the coder and its models (43_quantum.md R205); an encoding
that is illegal is refused by the error kind R125 names. After it the encoder, from the same tables. -/

namespace Sys2Proof.Machine

/-! ## MSZIP (R91 to R100) -/

/-- SIG: the two bytes at the start of IN, not read through BRL (R66, R170, D10). -/
def decodeSig (inp : List Byte) (r : Brl) : Got Brl Instr :=
  if inp.take 2 = mzSig then .ok .sig r else .err .invalidSignature r

/-- A block header: `final`, then `type`, both LSB first (R92, R172). -/
def decodeHeader (cfg : Config) (inp : List Byte) (r : Brl) : Got Brl Instr :=
  let (f, r1) := r.readBits cfg inp 1
  let (t, r2) := r1.readBits cfg inp 2
  let final := f == 1
  match t with
  | 0 => .ok (.blkStored final) r2
  | 1 => .ok (.blkFixed final) r2
  | 2 => .ok (.blkDynamic final) r2
  | _ => .ok (.blkReserved final) r2

/-- STORED_HDR: padding to a byte, LEN, NLEN (R94, R174). -/
def decodeStoredHdr (cfg : Config) (inp : List Byte) (r : Brl) : Got Brl Instr :=
  let (len, r1) := r.align.readBits cfg inp 16
  let (nlen, r2) := r1.readBits cfg inp 16
  .ok (.storedHdr (BitVec.ofNat 16 len) (BitVec.ofNat 16 nlen)) r2

/-- RAW: one byte (R94, R174). -/
def decodeRaw (cfg : Config) (inp : List Byte) (r : Brl) : Got Brl Instr :=
  let (b, r1) := r.readBits cfg inp 8
  .ok (.raw (BitVec.ofNat 8 b)) r1

/-- DYN_HDR: the three counts and the code-length-code lengths (R95, R180, R181). -/
def decodeDynHdr (cfg : Config) (inp : List Byte) (r : Brl) : Got Brl Instr :=
  let (hlit, r1) := r.readBits cfg inp 5
  let (hdist, r2) := r1.readBits cfg inp 5
  let (hclen, r3) := r2.readBits cfg inp 4
  let (clen, r4) := Brl.readMany cfg inp 3 (clenCount (BitVec.ofNat 4 hclen)) r3
  .ok (.dynHdr (BitVec.ofNat 5 hlit) (BitVec.ofNat 5 hdist) (BitVec.ofNat 4 hclen) (clen.map (BitVec.ofNat 3))) r4

/-- A code-length symbol and its extra bits (R96, R182). -/
def decodeCodeLen (cfg : Config) (inp : List Byte) (tc : HufTable) (r : Brl) : Got Brl Instr :=
  (hufDecode cfg inp tc r).bind fun s r1 =>
    if s < 16 then .ok (.cl (BitVec.ofNat 4 s)) r1
    else
      match repeatField s with
      | some (base, extra) =>
        let (v, r2) := r1.readBits cfg inp extra
        match s with
        | 16 => .ok (.cl16 (base + v)) r2
        | 17 => .ok (.cl17 (base + v)) r2
        | _ => .ok (.cl18 (base + v)) r2
      | none => .err .invalidSymbol r1

/-- A literal/length symbol and its extra bits (R97, R108, R186, R187). -/
def decodeSymbol (cfg : Config) (inp : List Byte) (tl : HufTable) (r : Brl) : Got Brl Instr :=
  (hufDecode cfg inp tl r).bind fun s r1 =>
    if s < 256 then .ok (.lit (BitVec.ofNat 8 s)) r1
    else if s = 256 then .ok .eob r1
    else
      match lengthField s with
      | some (base, extra) =>
        let (v, r2) := r1.readBits cfg inp extra
        .ok (.mtch (base + v)) r2
      | none => if s < mzNlitMax then .ok (.llReserved s) r1 else .err .invalidSymbol r1

/-- A distance symbol and its extra bits (R98, R108, R187). -/
def decodeDistance (cfg : Config) (inp : List Byte) (td : HufTable) (r : Brl) : Got Brl Instr :=
  (hufDecode cfg inp td r).bind fun d r1 =>
    match distField d with
    | some (base, extra) =>
      let (v, r2) := r1.readBits cfg inp extra
      .ok (.dist (base + v)) r2
    | none => if d < mzNdistMax then .ok (.distReserved d) r1 else .err .invalidSymbol r1

/-- The next stream element of an `MZ_DECODE` that stands at `p` (R171, R174, R180 to R187). -/
def decodeMz (cfg : Config) (inp : List Byte) (p : MzPhase) (x : MzCtx) : Got Brl Instr :=
  match p with
  | .sig => decodeSig inp x.br
  | .header => decodeHeader cfg inp x.br
  | .storedHdr => decodeStoredHdr cfg inp x.br
  | .raw _ => decodeRaw cfg inp x.br
  | .dynHdr => decodeDynHdr cfg inp x.br
  | .codeLens => decodeCodeLen cfg inp x.tc x.br
  | .symbols => decodeSymbol cfg inp x.tl x.br
  | .distance _ => decodeDistance cfg inp x.td x.br

/-! ## Quantum (R110, R111, R117) -/

/-- A position slot from the model `w` and its raw field: the match offset (R111, R117). -/
def decodeOffset (cfg : Config) (inp : List Byte) (w : QModelId) (x : QtCtx) : Got QtCtx Nat :=
  (getSymbol cfg inp w x).bind fun p x1 =>
    match positionTable[p.toNat]? with
    | none => .bug .indexOutOfRange
    | some (base, extra) => (rawField cfg inp extra x1).bind fun v x2 => .ok (matchOffset base v) x2

/-- A length slot and its raw field: the match length of selector 6 (R111, R117). -/
def decodeLength (cfg : Config) (inp : List Byte) (x : QtCtx) : Got QtCtx Nat :=
  (getSymbol cfg inp .m6len x).bind fun l x1 =>
    match lengthSlotTable[l.toNat]? with
    | none => .bug .indexOutOfRange
    | some (base, extra) => (rawField cfg inp extra x1).bind fun v x2 => .ok (variableLength base v) x2

/-- A token: the selector, then its fields (R111, R204, R212). -/
def decodeToken (cfg : Config) (inp : List Byte) (x : QtCtx) : Got QtCtx Instr :=
  (getSymbol cfg inp .m7 x).bind fun sel x1 =>
    match sel.toNat with
    | 0 => (getSymbol cfg inp .m00 x1).bind fun b x2 => .ok (.qlit0 b) x2
    | 1 => (getSymbol cfg inp .m40 x1).bind fun b x2 => .ok (.qlit1 b) x2
    | 2 => (getSymbol cfg inp .m80 x1).bind fun b x2 => .ok (.qlit2 b) x2
    | 3 => (getSymbol cfg inp .mC0 x1).bind fun b x2 => .ok (.qlit3 b) x2
    | 4 => (decodeOffset cfg inp .m4 x1).bind fun off x2 => .ok (.qm3 off) x2
    | 5 => (decodeOffset cfg inp .m5 x1).bind fun off x2 => .ok (.qm4 off) x2
    | 6 =>
      (decodeLength cfg inp x1).bind fun len x2 =>
        (decodeOffset cfg inp .m6pos x2).bind fun off x3 => .ok (.qmv len off) x3
    | _ => .bug .indexOutOfRange

/-- The next stream element of a `QT_DECODE` that stands at `p` (R203, R204). CoderStart writes L and H before it reads the
code, so a read that fails leaves them written (R203, R290 (4)). -/
def decodeQt (cfg : Config) (inp : List Byte) (p : QtPhase) (x : QtCtx) : Got QtCtx Instr :=
  match p with
  | .start =>
    (rawField cfg inp 16 { x with L := 0, H := 0xFFFF }).bind fun c x1 => .ok (.code16 (BitVec.ofNat 16 c)) x1
  | .tokens => decodeToken cfg inp x

/-! ## LZ/SZDD (R120 to R124) -/

/-- GetByte (R243). -/
def lzGetByte (inp : List Byte) (x : LzCtx) : Got LzCtx Byte :=
  match inp[x.inPos]? with
  | some b => .ok b { x with inPos := x.inPos + 1 }
  | none => .err .truncatedInput x

/-- The next stream element of an `LZ_DECODE`: a flag byte when the last one is used up, else the token its next bit
announces (R121 to R124, R244, R246, R247). -/
def decodeLz (inp : List Byte) (x : LzCtx) : Got LzCtx Instr :=
  if x.slen ≠ 0 then .bug .referenceInProgress
  else if x.fcnt = 0 then (lzGetByte inp x).bind fun b x1 => .ok (.flags b) x1
  else if x.nextIsLiteral then (lzGetByte inp x.shiftFlags).bind fun b x1 => .ok (.lzlit b) x1
  else
    (lzGetByte inp x.shiftFlags).bind fun b1 x1 =>
      (lzGetByte inp x1).bind fun b2 x2 => .ok (.lzref (refOffset b1 b2) (refLenField b2)) x2

/-- LZ_HDR: magic, type, LastChar, RealLength (R120, R266). -/
def decodeLzHdr (hdr : List Byte) : Got Unit Instr :=
  if hdr.length < lzHeaderSize then .err .truncatedInput ()
  else if hdr.take 8 ≠ lzMagic then .err .invalidSignature ()
  else if hdr.getD 8 0 ≠ lzType then .err .invalidBlockType ()
  else .ok (.lzHdr (hdr.getD 9 0) (word32 (hdr.getD 10 0) (hdr.getD 11 0) (hdr.getD 12 0) (hdr.getD 13 0))) ()

/-! ## Commands (R261) -/

/-- The instruction a host command is. -/
def decodeCmd : HostCmd → Instr
  | .mzNew => .mzNew
  | .mzDecode c inp n => .mzDecode c inp n
  | .qtInit c w l => .qtInit c w l
  | .qtReset c => .qtReset c
  | .qtDecode c inp n => .qtDecode c inp n
  | .lzInit c hdr => .lzInit c hdr
  | .lzReset c => .lzReset c
  | .lzSeek c pos => .lzSeek c pos
  | .lzDecode c inp n => .lzDecode c inp n

/-! ## The encoder -/

/-- What the encoding of an MSZIP element depends on: the padding before STORED_HDR and the code lengths of the block's
three alphabets (R94, R99, R154). -/
structure EncEnv where
  /-- The padding bits before STORED_HDR: any value (R94). -/
  pad : List Bool
  clLens : List Nat
  llLens : List Nat
  dLens : List Nat
deriving DecidableEq, Repr

/-- An `n`-bit field in stream order, LSB first (R60). -/
def lsbField (n v : Nat) : List Bool := (List.range n).map fun i => v.testBit i

/-- An `n`-bit field in stream order, MSB first (R61). -/
def msbField (n v : Nat) : List Bool := (List.range n).map fun i => v.testBit (n - 1 - i)

/-- The code of symbol `s`, most significant bit first; none where it has no code (R63, R154). -/
def codeBits (lens : List Nat) (s : Nat) : Option (List Bool) :=
  if lens.getD s 0 = 0 then none else some (msbField (lens.getD s 0) (hufCodeOf lens s))

/-- Two stretches of the stream, the second where the first ends. -/
def thenBits (a : Option (List Bool)) (b : List Bool) : Option (List Bool) :=
  match a with
  | some bits => some (bits ++ b)
  | none => none

/-- The index in a base table of the entry that covers `v`: the last whose base is at most `v` (R104, R105). -/
def fieldIndex (table : List (Nat × Nat)) (v : Nat) : Nat := (table.takeWhile fun e => e.1 ≤ v).length - 1

/-- The code of the symbol that covers `v` and the extra bits: symbols count from `first` (R104, R105, R108). -/
def fieldBits (lens : List Nat) (table : List (Nat × Nat)) (first v : Nat) : Option (List Bool) :=
  let k := fieldIndex table v
  let e := table.getD k (0, 0)
  thenBits (codeBits lens (first + k)) (lsbField e.2 (v - e.1))

/-- The bytes of an LZ element (R120, R122 to R124). -/
def lzBytes : Instr → Option (List Byte)
  | .lzHdr lastChar realLength =>
    some (lzMagic ++ [lzType, lastChar, realLength.extractLsb' 0 8, realLength.extractLsb' 8 8,
      realLength.extractLsb' 16 8, realLength.extractLsb' 24 8])
  | .flags b => some [b]
  | .lzlit b => some [b]
  | .lzref off lenfield => some [off.setWidth 8, ((off >>> 8).setWidth 8 <<< 4) ||| lenfield.setWidth 8]
  | _ => none

/-- The bits of bytes, bit 0 of each byte first (R60). -/
def bytesBits (bs : List Byte) : List Bool := bs.flatMap fun b => lsbField 8 b.toNat

/-- The bits of a stream element, in stream order. A Quantum token has none of its own (R112), and a command is no part
of a stream: `encodeCmd`. -/
def encode (env : EncEnv) (i : Instr) : Option (List Bool) :=
  match i with
  | .sig => some (bytesBits mzSig)
  | .blkStored final => some (final :: lsbField 2 0)
  | .blkFixed final => some (final :: lsbField 2 1)
  | .blkDynamic final => some (final :: lsbField 2 2)
  | .blkReserved final => some (final :: lsbField 2 3)
  | .storedHdr len nlen => some (env.pad ++ lsbField 16 len.toNat ++ lsbField 16 nlen.toNat)
  | .raw b => some (lsbField 8 b.toNat)
  | .dynHdr hlit hdist hclen clen =>
    some (lsbField 5 hlit.toNat ++ lsbField 5 hdist.toNat ++ lsbField 4 hclen.toNat ++
      clen.flatMap fun v => lsbField 3 v.toNat)
  | .cl v => codeBits env.clLens v.toNat
  | .cl16 rep => thenBits (codeBits env.clLens 16) (lsbField 2 (rep - 3))
  | .cl17 rep => thenBits (codeBits env.clLens 17) (lsbField 3 (rep - 3))
  | .cl18 rep => thenBits (codeBits env.clLens 18) (lsbField 7 (rep - 11))
  | .lit b => codeBits env.llLens b.toNat
  | .eob => codeBits env.llLens 256
  | .mtch len => fieldBits env.llLens lengthTable 257 len
  | .llReserved sym => codeBits env.llLens sym
  | .dist d => fieldBits env.dLens distTable 0 d
  | .distReserved sym => codeBits env.dLens sym
  | .code16 c => some (msbField 16 c.toNat)
  | .qlit0 _ => none
  | .qlit1 _ => none
  | .qlit2 _ => none
  | .qlit3 _ => none
  | .qm3 _ => none
  | .qm4 _ => none
  | .qmv _ _ => none
  | .lzHdr lastChar realLength => (lzBytes (.lzHdr lastChar realLength)).map bytesBits
  | .flags b => (lzBytes (.flags b)).map bytesBits
  | .lzlit b => (lzBytes (.lzlit b)).map bytesBits
  | .lzref off lenfield => (lzBytes (.lzref off lenfield)).map bytesBits
  | .mzNew => none
  | .mzDecode _ _ _ => none
  | .qtInit _ _ _ => none
  | .qtReset _ => none
  | .qtDecode _ _ _ => none
  | .lzInit _ _ => none
  | .lzReset _ => none
  | .lzSeek _ _ => none
  | .lzDecode _ _ _ => none

/-- The host command an instruction is; none for a stream element. -/
def encodeCmd : Instr → Option HostCmd
  | .mzNew => some .mzNew
  | .mzDecode c inp n => some (.mzDecode c inp n)
  | .qtInit c w l => some (.qtInit c w l)
  | .qtReset c => some (.qtReset c)
  | .qtDecode c inp n => some (.qtDecode c inp n)
  | .lzInit c hdr => some (.lzInit c hdr)
  | .lzReset c => some (.lzReset c)
  | .lzSeek c pos => some (.lzSeek c pos)
  | .lzDecode c inp n => some (.lzDecode c inp n)
  | _ => none

/-! ## Words of the opcode table -/

/-- Byte `k` of a number, least significant first. -/
def byteOf (w k : Nat) : Byte := BitVec.ofNat 8 (w >>> (8 * k))

/-- `count` bytes of a number, least significant first. -/
def bytesOf (count w : Nat) : List Byte := (List.range count).map (byteOf w)

/-- Which stream a table word belongs to. The table's words of the three grammars overlap (R90: no element of one is
meaningful to another engine), so the word's size and value choose (DESIGN CHOICE, log 10). -/
inductive WordKind where
  | mzHeader  -- a 3-bit MSZIP block header
  | lzToken   -- an LZ flag bit
  | mzSig     -- the 16 bits of SIG
  | lzHeader  -- the 72 bits of LZ_HDR
deriving DecidableEq, Repr

/-- Words of at most 8 bits are block headers, but for the word 1, the flag bit of LZLIT; up to 16 bits SIG; else LZ_HDR
(log 10). -/
def wordKind (nbits w : Nat) : WordKind :=
  if nbits ≤ 8 then (if w = 1 then .lzToken else .mzHeader)
  else if nbits ≤ 16 then .mzSig
  else .lzHeader

/-- The bytes of the stream a table word stands in: the word's bytes, then zeros up to the longest element. The flag bit
of an LZ token stands in the flag register instead, so its stream is zeros. -/
def wordBytes (nbits w : Nat) : List Byte :=
  match wordKind nbits w with
  | .lzToken => bytesOf 14 0
  | .mzHeader => bytesOf 14 w
  | .mzSig => bytesOf 14 w
  | .lzHeader => bytesOf 14 w

/-- A successful read's value. -/
def Got.value? {σ α : Type} : Got σ α → Option α
  | .ok a _ => some a
  | .err _ _ => none
  | .bug _ => none

/-- What the decoder reads from a table word laid out as a stream (R90, R129). -/
def decodeWord (nbits w : Nat) : Option Instr :=
  match wordKind nbits w with
  | .mzHeader => (decodeHeader defaultParameters (wordBytes nbits w) (Brl.start 0)).value?
  | .mzSig => (decodeSig (wordBytes nbits w) (Brl.start 0)).value?
  | .lzHeader => (decodeLzHdr (wordBytes nbits w)).value?
  | .lzToken =>
    (decodeLz (wordBytes nbits w) (LzCtx.fresh.loadFlags (byteOf w 0))).value?

end Sys2Proof.Machine

namespace Sys2Proof

/-- The instruction the decoder reads from a word of the opcode table (log 10). -/
def decodeTableWord (nbits w : Nat) : Option Instr := Machine.decodeWord nbits w

end Sys2Proof
end

