-- ==== Sys2Proof/Machine/Fetch.lean ====
section
/-! DEFINITION. The fetch: which element or command the machine executes next, with the stream cursor moved past it
(10_state.md R24); and how a word of the opcode table is laid out where the next fetch reads it. -/

namespace Sys2Proof.Machine

/-- What a fetch finds. -/
inductive Fetched where
  | idle                              -- no command in progress and none issued
  | instr (i : Instr) (s : State)     -- an element or command, and the state with the cursor past it
  | error (k : ErrKind) (s : State)   -- the stream holds no legal element here (R125), or has ended (R136, R243)
  | fault (f : Fault)
  | refuse (r : Refusal)
deriving Repr

/-- Carry a reader's result to the state. -/
def Got.fetched {σ : Type} (g : Got σ Instr) (back : σ → State) : Fetched :=
  match g with
  | .ok i x => .instr i (back x)
  | .err k x => .error k (back x)
  | .bug f => .fault f

/-- Fetch: the next stream element of the command in progress, or the next command the host has issued (R3, R16, R24). -/
def fetch (s : State) : Fetched :=
  match s.run with
  | .idle =>
    match s.pending with
    | [] => .idle
    | cmd :: rest => .instr (decodeCmd cmd) { s with pending := rest }
  | .mz c p =>
    match s.mz[c]? with
    | none => .refuse .noContext
    | some x => (decodeMz s.cfg s.inp p x).fetched fun br => s.setMz c { x with br := br }
  | .qt c p =>
    match s.qt[c]? with
    | none => .refuse .noContext
    | some x => (decodeQt s.cfg s.inp p x).fetched fun y => s.setQt c y
  | .lz c =>
    match s.lz[c]? with
    | none => .refuse .noContext
    | some x => (decodeLz s.inp x).fetched fun y => s.setLz c y
  | .lzHdr _ => (decodeLzHdr s.inp).fetched fun _ => s

/-- The state that is about to fetch the element of a table word (log 10): its bytes are IN, and the first context of its
engine runs a command that stands where the element is due. -/
def layWord (s : State) (nbits w : Nat) : State :=
  let inp := wordBytes nbits w
  match wordKind nbits w with
  | .mzHeader =>
    { s with inp := inp, run := .mz 0 .header, mz := putContext s.mz 0 { s.mz.getD 0 MzCtx.fresh with br := Brl.start 0 } }
  | .mzSig =>
    { s with inp := inp, run := .mz 0 .sig, mz := putContext s.mz 0 { s.mz.getD 0 MzCtx.fresh with br := Brl.start 0 } }
  | .lzHeader => { s with inp := inp, run := .lzHdr 0 }
  | .lzToken =>
    { s with inp := inp, outLen := 1, run := .lz 0, lz := putContext s.lz 0 (LzCtx.fresh.loadFlags (byteOf w 0)) }

end Sys2Proof.Machine
end

