-- ==== Sys2Proof/Machine/Step.lean ====
section
/-! DEFINITION. One step of the machine: fetch an element or a command and execute it. -/

namespace Sys2Proof.Machine

/-- One step (R3, R16). An idle machine with no command issued stays as it is (log 2); a stream that holds no legal
element takes the error R125 names for it. -/
def step (s : State) : Host.Outcome State Fault Refusal :=
  match fetch s with
  | .idle => .next s
  | .instr i s' => exec i s'
  | .error k s' => .next (s'.raise k)
  | .fault f => .fault f
  | .refuse r => .refused r

/-- The state whose next step fetches and runs the element of a word of the opcode table (log 10). -/
def State.withFetchWord (s : State) (nbits w : Nat) : State := layWord s nbits w

end Sys2Proof.Machine
end

