-- ==== Sys2Proof/Safety.lean ====
section
/-! DEFINITION. What a good state of DCORE is, in the terms the statements use: the invariants of 10_state.md R22 to R31
and 42_mszip.md R188, a safe outcome, and the byte-serial decoder of 44_lzszdd.md R247 that the element-by-element one
refines (R251). -/

namespace Sys2Proof.Machine

/-! ## Outcomes -/

/-- A step did not stop on a fault of the model. -/
def NoFault (r : Result) : Prop :=
  match r with
  | .fault _ => False
  | _ => True

/-! ## Parameters -/

/-- The parameters for which the readers work: the accumulators hold the 23 bits that R131 and R135 bound, with room to
spare (10_state.md R22), and a sub-read of BRM has 1 to 16 bits (D5). -/
def readersOk (cfg : Config) : Prop := 24 ≤ cfg.accWidth ∧ 1 ≤ cfg.brmSubRead ∧ cfg.brmSubRead ≤ 16

/-- The parameters for which the rules of 43_quantum.md and 44_lzszdd.md make sense: the sizes of the models stay within
their tables and R31's counters within their width, and a reference has at least one byte and a length of 5 bits, and the readers work. -/
def configOk (cfg : Config) : Prop :=
  1 ≤ cfg.qtReorderInit ∧ cfg.qtReorderInit ≤ 50 ∧ 1 ≤ cfg.qtNlenSyms ∧ cfg.qtNlenSyms ≤ 27 ∧ 1 ≤ cfg.qtPosCap4 ∧
  1 ≤ cfg.qtPosCap5 ∧ 1 ≤ cfg.qtPosCap6 ∧ 1 ≤ cfg.lzLenBias ∧ cfg.lzLenBias ≤ 16 ∧ readersOk cfg

/-! ## Windows and tables -/

/-- A window's bytes are in canonical form and its cursor and valid count within their ranges (R25, R29). -/
def Window.ok (sp : Space) (cap : Nat) (w : Window) : Prop :=
  Memory.wf sp cap w.cells = true ∧ w.wpos < cap ∧ w.valid ≤ cap

/-- The LZ table is in canonical form and its cursors within 12 bits (R35, R240). -/
def LzCtx.tableOk (cfg : Config) (x : LzCtx) : Prop :=
  Memory.wf (.lztab cfg.lzFill) lzTsize x.tab = true ∧ x.cur < lzTsize ∧ x.spos < lzTsize

/-- Every byte space of every context is in canonical form, every cursor in range. -/
def MemoryInv (s : State) : Prop :=
  (∀ x ∈ s.mz, x.win.ok .mzwin mzWsize) ∧ (∀ x ∈ s.qt, x.win.ok .qtwin x.wsize) ∧ (∀ x ∈ s.lz, x.tableOk s.cfg)

/-! ## MZ (R25, R75, R188) -/

/-- An MZ context at any point (R25, R75): the cursor and both counters move together, within the request, and every byte
below the valid count has been written. -/
def MzCtx.ok (x : MzCtx) : Prop :=
  x.outLen ≤ mzWsize ∧ x.produced ≤ x.outLen ∧ x.win.valid = x.produced ∧ x.win.wpos = x.produced % mzWsize ∧
  ∀ a, a < x.produced → (memRead .mzwin x.win.cells a).isSome

/-- What holds of OUT and the room while an `MZ_DECODE` stands at `p` (R174, R188). -/
def MzPhase.ok (p : MzPhase) (s : State) (x : MzCtx) : Prop :=
  match p with
  | .sig => s.outLen ≤ mzWsize ∧ s.out = []
  | .raw left => 1 ≤ left ∧ left ≤ x.room ∧ s.out.length = x.produced ∧
      ∀ a, a < x.produced → memRead .mzwin x.win.cells a = s.out[a]?
  | _ => s.out.length = x.produced ∧ ∀ a, a < x.produced → memRead .mzwin x.win.cells a = s.out[a]?

/-- The MZ contexts, and OUT of the `MZ_DECODE` in progress (R188: `OUT[0..produced-1]` is `win[0..produced-1]`). -/
def MzInv (s : State) : Prop :=
  (∀ x ∈ s.mz, x.ok) ∧ ∀ c p x, s.run = .mz c p → s.mz[c]? = some x → p.ok s x

/-! ## QT (R29 to R32) -/

/-- The invariants of a model of `n` symbols from `first` on (R31). -/
structure QModel.Ok (n first : Nat) (m : QModel) : Prop where
  size : m.n = n
  base : m.first = first
  nonempty : 1 ≤ n
  atMost64 : n ≤ 64
  bytes : first + n ≤ 256
  symLength : m.sym.length = n
  symNodup : m.sym.Nodup
  symRange : ∀ b ∈ m.sym, first ≤ b.toNat ∧ b.toNat < first + n
  cumLength : m.cum.length = n + 1
  decreasing : m.cum.Pairwise (fun a b => b < a)
  sentinel : m.cum.getLast? = some 0
  total : m.cum.headD 0 ≤ qtLimit
  reorderPos : 1 ≤ m.reorder
  reorderMax : m.reorder ≤ qtReorderReload
  lookup : ∀ k, (h : k < m.sym.length) → m.lookup m.sym[k] = some k

/-- The range coder between two symbols (R30). -/
def QtCtx.coderOk (x : QtCtx) : Prop :=
  x.L.toNat ≤ x.C.toNat ∧ x.C.toNat ≤ x.H.toNat ∧ x.L.toNat < 0x8000 ∧ 0x8000 ≤ x.H.toNat ∧
  ¬(0x4000 ≤ x.L.toNat ∧ x.H.toNat < 0xC000)

/-- A QT context at any point between two steps (R29 to R32): its nine models are good, and its coder too once it has
been started, unless a failed command left it half-way (R290). -/
def QtCtx.ok (cfg : Config) (x : QtCtx) : Prop :=
  qtWbitsMin ≤ x.wbits ∧ x.wbits ≤ qtWbitsMax ∧ x.wsize = 2 ^ x.wbits ∧
  (∀ w, (x.model w).Ok (modelSize cfg x.wbits w) (modelFirst w)) ∧
  (x.started = true → x.fault = false → x.coderOk)

/-- The parameters and every QT context. -/
def QtInv (s : State) : Prop := configOk s.cfg ∧ ∀ x ∈ s.qt, x.ok s.cfg

/-- Every byte the valid count covers has been written (R53, R72): while the window is not full the cursor is the valid
count. -/
def QtCtx.written (x : QtCtx) : Prop :=
  (x.win.valid < x.wsize → x.win.wpos = x.win.valid) ∧
  ∀ a, a < x.win.valid → (memRead .qtwin x.win.cells a).isSome

/-- The QT windows, and the `QT_DECODE` in progress: it fits the window, and what it has produced lies in it (R202, R220). -/
def QtWindowInv (s : State) : Prop :=
  (∀ x ∈ s.qt, x.win.wpos < x.wsize ∧ x.win.valid ≤ x.wsize ∧ x.written) ∧
  ∀ c p x, s.run = .qt c p → s.qt[c]? = some x →
    x.fault = false ∧ x.togo ≤ s.outLen ∧ s.outLen ≤ x.wsize ∧ s.outLen - x.togo ≤ x.win.valid ∧
    (p = .start → x.togo = s.outLen) ∧ (p = .tokens → x.started = true ∧ 1 ≤ x.togo)

/-! ## QT: the tokens and the exchange sort, from their formulas (R116, R117, 93 U14) -/

/-- `QEXTRA` by its formula (R116). -/
def slotBits (p : Nat) : Nat := (p - 2) / 2

/-- `QPBASE` by its formula (R116). -/
def slotBase (p : Nat) : Nat := ((List.range p).map fun j => 2 ^ slotBits j).sum

/-- `QLEXTRA` by its formula (R116). -/
def lengthSlotBits (l : Nat) : Nat := if l = 26 then 0 else (l - 2) / 4

/-- `QLBASE` by its formula (R116). -/
def lengthSlotBase (l : Nat) : Nat := ((List.range l).map fun j => 2 ^ lengthSlotBits j).sum

/-- From `x` the model `m` gives a position slot, and the slot's raw field the offset `off`; the context is then `y`
(R117, R212). -/
def readsOffset (cfg : Config) (inp : List Byte) (m : QModelId) (x : QtCtx) (off : Nat) (y : QtCtx) : Prop :=
  ∃ p z v bm, getSymbol cfg inp m x = .ok p z ∧ p.toNat < 42 ∧ z.bm.read cfg inp (slotBits p.toNat) = .ok v bm ∧
    off = slotBase p.toNat + v + 1 ∧ y = { z with bm := bm }

/-- From `x` the model `m6len` gives a length slot, and the slot's raw field the length `len`; the context is then `y`
(R117, R212). -/
def readsLength (cfg : Config) (inp : List Byte) (x : QtCtx) (len : Nat) (y : QtCtx) : Prop :=
  ∃ l z v bm, getSymbol cfg inp .m6len x = .ok l z ∧ l.toNat < 27 ∧ z.bm.read cfg inp (lengthSlotBits l.toNat) = .ok v bm ∧
    len = lengthSlotBase l.toNat + v + 5 ∧ y = { z with bm := bm }

/-- One comparison of the exchange sort: the pairs at `i` and `j` are swapped when the frequency at `i` is smaller (U14). -/
def exchangeAt (l : List (Byte × Nat)) (ij : Nat × Nat) : List (Byte × Nat) :=
  match l[ij.1]?, l[ij.2]? with
  | some a, some b => if a.2 < b.2 then (l.set ij.1 b).set ij.2 a else l
  | _, _ => l

/-- The index pairs `i < j` below `n` in the order of the exchange sort's two loops (U14). -/
def pairsBelow (n : Nat) : List (Nat × Nat) :=
  (List.range n).flatMap fun i => ((List.range n).filter fun j => i < j).map fun j => (i, j)

/-! ## LZ (R35, R247, R249) -/

/-- NextByte (R247), one byte at a time, as the rule's pseudocode has it: the byte-serial decoder. -/
def lzNextByte (cfg : Config) (inp : List Byte) (x : LzCtx) : Got LzCtx Byte :=
  if x.slen ≠ 0 then .ok (x.refByte cfg).1 (x.refByte cfg).2
  else
    let flagged : Got LzCtx Unit :=
      if x.fcnt = 0 then (lzGetByte inp x).bind fun b y => .ok () (y.loadFlags b) else .ok () x
    flagged.bind fun _ y =>
      if y.nextIsLiteral then (lzGetByte inp y.shiftFlags).bind fun b z => .ok b (z.put cfg b)
      else
        (lzGetByte inp y.shiftFlags).bind fun b1 z =>
          (lzGetByte inp z).bind fun b2 v =>
            let started := { v with spos := (refOffset b1 b2).toNat, slen := refLength cfg (refLenField b2) }
            .ok (started.refByte cfg).1 (started.refByte cfg).2

/-- The context and the bytes after `n` NextBytes from `x`; none where the payload ends sooner. -/
def lzBytesFrom (cfg : Config) (inp : List Byte) : Nat → LzCtx → Option (LzCtx × List Byte)
  | 0, x => some (x, [])
  | n + 1, x =>
    match lzNextByte cfg inp x with
    | .ok b y =>
      match lzBytesFrom cfg inp n y with
      | some (z, bs) => some (z, b :: bs)
      | none => none
    | _ => none

/-- `D` of R251: the first `n` bytes of one uninterrupted decode from a fresh context. -/
def lzOutput (cfg : Config) (inp : List Byte) (n : Nat) : Option (LzCtx × List Byte) :=
  lzBytesFrom cfg inp n LzCtx.fresh

/-- Two contexts agree in every register NextByte reads (R251); the flag byte may already have been fetched in `x`. -/
def LzCtx.agrees (inp : List Byte) (x y : LzCtx) : Prop :=
  x.tab = y.tab ∧ x.cur = y.cur ∧ x.spos = y.spos ∧ x.slen = y.slen ∧ x.real = y.real ∧
  ((x.flags = y.flags ∧ x.fcnt = y.fcnt ∧ x.inPos = y.inPos) ∨
   (y.fcnt = 0 ∧ x.slen = 0 ∧ x.fcnt = 8 ∧ inp[y.inPos]? = some x.flags ∧ x.inPos = y.inPos + 1))

/-- A context without a fault is where the uninterrupted decode of its payload is at its position (R251). A context that
has decoded nothing is at the start. -/
def LzCtx.replays (cfg : Config) (x : LzCtx) : Prop :=
  x.fault = false →
    match x.payload with
    | none => x.agrees [] LzCtx.fresh
    | some inp => ∃ y D, lzOutput cfg inp x.real = some (y, D) ∧ x.agrees inp y

/-- The LZ contexts, and the `LZ_DECODE` in progress: it decodes its context's payload, no reference is left over, and OUT
holds the bytes from `want` on (R249, R251). -/
def LzInv (s : State) : Prop :=
  1 ≤ s.cfg.lzLenBias ∧ (∀ x ∈ s.lz, x.replays s.cfg) ∧
  ∀ c x, s.run = .lz c → s.lz[c]? = some x →
    x.fault = false ∧ x.payload = some s.inp ∧ x.slen = 0 ∧ x.real < lzEnd s x ∧
    ∀ y D, lzOutput s.cfg s.inp x.real = some (y, D) → s.out = D.drop x.want

/-! ## All together -/

/-- The states the statements about whole steps speak of. -/
def State.Inv (s : State) : Prop := MemoryInv s ∧ MzInv s ∧ QtInv s ∧ QtWindowInv s ∧ LzInv s

/-! ## Bytes of a space as the host sees them -/

/-- Byte `a` of the window of the MZ context `c`. -/
def readMz (s : State) (c a : Nat) : Option Byte :=
  match s.mz[c]? with
  | some x => memRead .mzwin x.win.cells a
  | none => none

/-- Byte `a` of the window of the QT context `c`. -/
def readQt (s : State) (c a : Nat) : Option Byte :=
  match s.qt[c]? with
  | some x => memRead .qtwin x.win.cells a
  | none => none

/-- Byte `a` of the table of the LZ context `c`. -/
def readLz (s : State) (c a : Nat) : Option Byte :=
  match s.lz[c]? with
  | some x => memRead (.lztab s.cfg.lzFill) x.tab a
  | none => none

/-- Index `a` is one of the `len` indices from `start` on in a space of `cap` bytes that wraps. -/
def inRun (cap start len a : Nat) : Prop := ∃ k, k < len ∧ a = (start + k) % cap

/-- The elements and commands that store no byte to any window or table (R80: OUT and IN are not among them). -/
def storesNothing : Instr → Bool
  | .sig => true
  | .blkStored _ => true
  | .blkFixed _ => true
  | .blkDynamic _ => true
  | .blkReserved _ => true
  | .storedHdr _ _ => true
  | .raw _ => false
  | .dynHdr _ _ _ _ => true
  | .cl _ => true
  | .cl16 _ => true
  | .cl17 _ => true
  | .cl18 _ => true
  | .lit _ => false
  | .eob => true
  | .mtch _ => true
  | .llReserved _ => true
  | .dist _ => false
  | .distReserved _ => true
  | .code16 _ => true
  | .qlit0 _ => false
  | .qlit1 _ => false
  | .qlit2 _ => false
  | .qlit3 _ => false
  | .qm3 _ => false
  | .qm4 _ => false
  | .qmv _ _ => false
  | .lzHdr _ _ => false
  | .flags _ => true
  | .lzlit _ => false
  | .lzref _ _ => false
  | .mzNew => true
  | .mzDecode _ _ _ => true
  | .qtInit _ _ _ => false
  | .qtReset _ => true
  | .qtDecode _ _ _ => true
  | .lzInit _ _ => true
  | .lzReset _ => false
  | .lzSeek _ _ => true
  | .lzDecode _ _ _ => false

/-- Every byte of every space reads the same in both states. -/
def sameBytes (s t : State) : Prop :=
  (∀ c a, readMz t c a = readMz s c a) ∧ (∀ c a, readQt t c a = readQt s c a) ∧ ∀ c a, readLz t c a = readLz s c a

/-! ## Which elements stand where (R90, R91, R94, R95, R110, R111) -/

/-- The MSZIP elements that stand where an `MZ_DECODE` at `p` takes its next one. -/
def MzPhase.takes (p : MzPhase) (i : Instr) : Prop :=
  match p with
  | .sig => i = .sig
  | .header => ∃ f, i = .blkStored f ∨ i = .blkFixed f ∨ i = .blkDynamic f ∨ i = .blkReserved f
  | .storedHdr => ∃ len nlen, i = .storedHdr len nlen
  | .raw _ => ∃ b, i = .raw b
  | .dynHdr => ∃ hlit hdist hclen clen, i = .dynHdr hlit hdist hclen clen
  | .codeLens => (∃ v, i = .cl v) ∨ ∃ rep, i = .cl16 rep ∨ i = .cl17 rep ∨ i = .cl18 rep
  | .symbols => i = .eob ∨ (∃ b, i = .lit b) ∨ (∃ len, i = .mtch len) ∨ ∃ sym, i = .llReserved sym
  | .distance _ => (∃ d, i = .dist d) ∨ ∃ sym, i = .distReserved sym

/-- The Quantum elements that stand where a `QT_DECODE` at `p` takes its next one (R110, R111). -/
def QtPhase.takes (p : QtPhase) (i : Instr) : Prop :=
  match p with
  | .start => ∃ code, i = .code16 code
  | .tokens => (∃ b, i = .qlit0 b ∨ i = .qlit1 b ∨ i = .qlit2 b ∨ i = .qlit3 b) ∨ (∃ off, i = .qm3 off ∨ i = .qm4 off) ∨
      ∃ len off, i = .qmv len off

/-- The element belongs to the grammar that the command in progress reads, at whatever place (R90). -/
def Run.reads (r : Run) (i : Instr) : Prop :=
  match r with
  | .idle => False
  | .mz _ _ => ∃ p : MzPhase, p.takes i
  | .qt _ _ => ∃ p : QtPhase, p.takes i
  | .lz _ => (∃ b, i = .flags b ∨ i = .lzlit b) ∨ ∃ off lenfield, i = .lzref off lenfield
  | .lzHdr _ => ∃ lastChar realLength, i = .lzHdr lastChar realLength

/-- The bits that follow in a BRL stream begin with `bits`. -/
def Brl.delivers (inp : List Byte) (r : Brl) (bits : List Bool) : Prop :=
  ∀ j, (h : j < bits.length) → r.streamBit inp j = bits[j]

/-- `r'` stands `n` bits further in the same BRL stream than `r`. -/
def Brl.advanced (inp : List Byte) (r r' : Brl) (n : Nat) : Prop :=
  r'.wf inp ∧ ∀ j, r'.streamBit inp j = r.streamBit inp (n + j)

/-- The numerator over 2^15 of the Kraft sum of a set of code lengths: 2^15 is a complete code (R152, R153). -/
def kraft (lens : List Nat) : Nat := (lens.map fun l => if l = 0 then 0 else 2 ^ (hufMaxLen - l)).sum

/-! ## Where the machine stands, and runs of several steps -/

/-- An `MZ_DECODE` on context `c`, whose registers are `x`, is in progress and stands at `p`. -/
def MzAt (s : State) (c : Nat) (p : MzPhase) (x : MzCtx) : Prop := s.run = .mz c p ∧ s.mz[c]? = some x

/-- A `QT_DECODE` on context `c`, whose registers are `x`, is in progress and stands at `p`. -/
def QtAt (s : State) (c : Nat) (p : QtPhase) (x : QtCtx) : Prop := s.run = .qt c p ∧ s.qt[c]? = some x

/-- An `LZ_DECODE` on context `c`, whose registers are `x`, is in progress. -/
def LzAt (s : State) (c : Nat) (x : LzCtx) : Prop := s.run = .lz c ∧ s.lz[c]? = some x

/-- The state after a block of an MZ stream has ended (R171, R190). -/
def afterBlock (s : State) (c : Nat) (x : MzCtx) : State :=
  if x.final = false then (s.setMz c x).setRun (.mz c .header)
  else if x.produced = x.outLen then (s.setMz c x).finish
  else (s.setMz c x).spoilOut.endWith .corruptData

/-- What a code-length element appends, and the previous length after it: a length, how often, the new `prev` (R96, R182). -/
def lengthRun (x : MzCtx) : Instr → Option (BitVec 4 × Nat × BitVec 4)
  | .cl v => some (v, 1, v)
  | .cl16 rep => some (x.prev, rep, x.prev)
  | .cl17 rep => some (0, rep, 0)
  | .cl18 rep => some (0, rep, 0)
  | _ => none

/-- `n` steps, as long as each answers a next state. -/
def runSteps : Nat → State → Result
  | 0, s => .next s
  | n + 1, s =>
    match step s with
    | .next t => runSteps n t
    | .fault f => .fault f
    | .refused r => .refused r

/-- The command in progress ends, with or without an error, within `n` steps. -/
def endsWithin (n : Nat) (s : State) : Prop := ∃ k t, k ≤ n ∧ runSteps k s = .next t ∧ t.run = .idle

/-! ## Commands and contexts -/

/-- The next step starts this command. -/
def starts (s : State) (cmd : HostCmd) : Prop := s.run = .idle ∧ s.pending.head? = some cmd

/-- The state is about to start, or works on, a command of the QT context `c`. -/
def usesQt (s : State) (c : Nat) : Prop :=
  (∃ p, s.run = .qt c p) ∨ (∃ w l, starts s (.qtInit c w l)) ∨ starts s (.qtReset c) ∨
  ∃ inp n, starts s (.qtDecode c inp n)

/-- The state is about to start, or works on, a command of the LZ context `c`. -/
def usesLz (s : State) (c : Nat) : Prop :=
  s.run = .lz c ∨ s.run = .lzHdr c ∨ starts s (.lzReset c) ∨ (∃ pos, starts s (.lzSeek c pos)) ∨
  ∃ inp n, starts s (.lzDecode c inp n)

/-- The state works on the MZ context `c`. -/
def usesMz (s : State) (c : Nat) : Prop := ∃ p, s.run = .mz c p

end Sys2Proof.Machine
end

