-- ==== Sys2Proof/Certificates/Slice0/Obligations.lean ====
section
/-! DEFINITION. The statements about DCORE for the provers. Each names the rules of spec/ it formalises; where a statement
rests on a choice of the model, its docstring names the log entry. -/

open Sys2Proof Sys2Proof.Machine

/-! ## Reset, step, decoding -/

/-- R20, R310, R10: no context exists before a command creates one, no command is in progress, the parameters have the values
of the table of R10, and all the invariants hold. (STATUS, IN, OUT at reset are the model's choice, logs 4 and 5.) -/
def Obligations.ResetIsAGoodStateWithoutContexts : Prop :=
  (State.reset.mz = [] ∧ State.reset.qt = [] ∧ State.reset.lz = [] ∧ State.reset.run = .idle ∧ State.reset.pending = [] ∧
  State.reset.cfg =
    { qtZeroFill := false, qtResort := .stable, lzLenBias := 2, nCtx := none, mzDynLroot := 9, mzDynDroot := 6,
      mzClRoot := 7, qtReorderInit := 4, qtNlenSyms := 27, qtPosCap4 := 24, qtPosCap5 := 36, qtPosCap6 := 42,
      accWidth := 32, brmSubRead := 16, lzFill := 0x20 }) ∧
  (State.reset.Inv)

/-- R3, R16, R24, R290: a step takes the next stream element of the command in progress, with the stream cursor moved past
it, or the next command issued, and executes it; where the stream holds no legal element the step takes the error the
decoder names. An idle machine with no command stays as it is (log 2). -/
def Obligations.StepRunsTheFetchedElement : Prop :=
  (∀ s, s.run = .idle → s.pending = [] → step s = .next s) ∧
  (∀ s cmd rest, s.run = .idle → s.pending = cmd :: rest →
    step s = exec (decodeCmd cmd) { s with pending := rest }) ∧
  (∀ s c p x i r, MzAt s c p x → decodeMz s.cfg s.inp p x = .ok i r → step s = exec i (s.setMz c { x with br := r })) ∧
  (∀ s c p x k r, MzAt s c p x → decodeMz s.cfg s.inp p x = .err k r →
    step s = .next ((s.setMz c { x with br := r }).spoilOut.endWith k)) ∧
  (∀ s c p x i y, QtAt s c p x → decodeQt s.cfg s.inp p x = .ok i y → step s = exec i (s.setQt c y)) ∧
  (∀ s c p x k y, QtAt s c p x → decodeQt s.cfg s.inp p x = .err k y →
    step s = .next ((s.setQt c { y with fault := true }).spoilOut.endWith k)) ∧
  (∀ s c x i y, LzAt s c x → decodeLz s.inp x = .ok i y → step s = exec i (s.setLz c y)) ∧
  (∀ s c x k y, LzAt s c x → decodeLz s.inp x = .err k y →
    step s = .next ((s.setLz c { y with fault := true }).spoilOut.endWith k)) ∧
  (∀ s c i u, s.run = .lzHdr c → decodeLzHdr s.inp = .ok i u → step s = exec i s) ∧
  (∀ s c k u, s.run = .lzHdr c → decodeLzHdr s.inp = .err k u → step s = .next (s.endWith k))

/-- R62, R91, R92, R94, R110, R120, R124: some words of the spec's own text decode to the elements they stand for. -/
def Obligations.SpecWordsDecode : Prop :=
  (decodeSig [0x43, 0x4B] (Brl.start 2)).value? = some .sig ∧
  (decodeHeader defaultParameters [0x01] (Brl.start 0)).value? = some (.blkStored true) ∧
  (decodeHeader defaultParameters [0x02] (Brl.start 0)).value? = some (.blkFixed false) ∧
  (decodeHeader defaultParameters [0x05] (Brl.start 0)).value? = some (.blkDynamic true) ∧
  (decodeHeader defaultParameters [0x06] (Brl.start 0)).value? = some (.blkReserved false) ∧
  (decodeStoredHdr defaultParameters [0x04, 0x00, 0xFB, 0xFF] (Brl.start 0)).value? = some (.storedHdr 0x0004 0xFFFB) ∧
  (decodeQt defaultParameters [0xDA, 0xC4] .start QtCtx.blank).value? = some (.code16 0xDAC4) ∧
  (decodeLz [0xF0, 0xF4] { LzCtx.fresh with flags := 0, fcnt := 5 }).value? = some (.lzref 0xFF0 4) ∧
  (decodeLzHdr [0x53, 0x5A, 0x44, 0x44, 0x88, 0xF0, 0x27, 0x33, 0x41, 0x61, 0x10, 0x00, 0x00, 0x00]).value? =
    some (.lzHdr 0x61 0x00000010)

/-- R95 to R98, R111, R117: what a step fetches in a state with good Quantum models has operands in the ranges of the
formats, whatever the bytes of IN are. -/
def Obligations.FetchedElementIsWellFormed : Prop :=
  ∀ s s' i, QtInv s → fetch s = .instr i s' → i.wf = true

/-! ## Encodings -/

/-- R60, R92, R94, R95: wherever a stream delivers the encoding of a block header, of STORED_HDR (after as many padding
bits, of any value, as the byte has left), of RAW or of DYN_HDR, the decoder reads that element, with every operand, and
stands right behind it. -/
def Obligations.MzFieldsDecodeToWhatWasEncoded : Prop :=
  ∀ (cfg : Config) (env : EncEnv) (inp : List Byte) (x : MzCtx) (p : MzPhase) (i : Instr) (bits : List Bool),
    readersOk cfg → x.br.wf inp → i.wf = true → p.takes i →
    (p = .header ∨ p = .storedHdr ∨ (∃ left, p = .raw left) ∨ p = .dynHdr) →
    (p = .storedHdr → env.pad.length = x.br.nbits % 8) →
    encode env i = some bits → x.br.delivers inp bits →
    ∃ r, decodeMz cfg inp p x = .ok i r ∧ Brl.advanced inp x.br r bits.length

/-- R63, R96 to R99, R104, R105, R108, R154: wherever a stream delivers the code and the extra bits of a code-length,
literal/length or distance element, a decoder whose tables were built from the same code lengths reads that element, with
every operand, and stands right behind it. -/
def Obligations.MzSymbolsDecodeToWhatWasEncoded : Prop :=
  ∀ (cfg : Config) (env : EncEnv) (inp : List Byte) (x : MzCtx) (p : MzPhase) (i : Instr) (bits : List Bool),
    readersOk cfg → (∀ l ∈ env.clLens ++ env.llLens ++ env.dLens, l ≤ 15) →
    (∃ m a, hufBuild env.clLens m a = some x.tc) → (∃ m a, hufBuild env.llLens m a = some x.tl) →
    (∃ m a, hufBuild env.dLens m a = some x.td) →
    x.br.wf inp → i.wf = true → p.takes i → (p = .codeLens ∨ p = .symbols ∨ ∃ len, p = .distance len) →
    encode env i = some bits → x.br.delivers inp bits →
    ∃ r, decodeMz cfg inp p x = .ok i r ∧ Brl.advanced inp x.br r bits.length

/-- R64, R66, R120 to R124: the byte-wise elements decode to what was encoded, with every operand: the two signature bytes,
the SZDD header, a flag byte when no token is covered, and a literal or a reference where the flag bit announces it; the LZ
cursor moves past the bytes and a token takes one flag bit. R261: the nine commands and their instructions correspond one
to one. -/
def Obligations.ByteElementsAndCommandsDecodeToWhatWasEncoded : Prop :=
  ((∀ inp r, inp.take 2 = [0x43, 0x4B] → decodeSig inp r = .ok .sig r) ∧
  (∀ hdr last len bs, lzBytes (.lzHdr last len) = some bs → hdr.take 14 = bs →
    decodeLzHdr hdr = .ok (.lzHdr last len) ()) ∧
  (∀ inp (x : LzCtx) b bs, x.slen = 0 → x.fcnt = 0 → lzBytes (.flags b) = some bs →
    (inp.drop x.inPos).take bs.length = bs → decodeLz inp x = .ok (.flags b) { x with inPos := x.inPos + bs.length }) ∧
  (∀ inp (x : LzCtx) b bs, x.slen = 0 → x.fcnt ≠ 0 → x.flags.getLsbD 0 = true → lzBytes (.lzlit b) = some bs →
    (inp.drop x.inPos).take bs.length = bs →
    decodeLz inp x =
      .ok (.lzlit b) { x with flags := x.flags >>> 1, fcnt := x.fcnt - 1, inPos := x.inPos + bs.length }) ∧
  (∀ inp (x : LzCtx) off len bs, x.slen = 0 → x.fcnt ≠ 0 → x.flags.getLsbD 0 = false → lzBytes (.lzref off len) = some bs →
    (inp.drop x.inPos).take bs.length = bs →
    decodeLz inp x =
      .ok (.lzref off len) { x with flags := x.flags >>> 1, fcnt := x.fcnt - 1, inPos := x.inPos + bs.length })) ∧
  (∀ i cmd, encodeCmd i = some cmd ↔ decodeCmd cmd = i)

/-! ## Bit readers -/

/-- R60, R131 to R133, R140: an LSB-first read of n bits, n in 0..16, gives the next n stream bits, the first as bit 0, zeros
past the end of IN, and never fails; the reader then stands n bits further, and while no zero was invented its position
`8 * in_off - nbits` has grown by n. R65, R134: aligning drops the rest of the byte the cursor stands in, none of a whole
byte, and fetches nothing. -/
def Obligations.BrlReadGivesTheNextBits : Prop :=
  (∀ (cfg : Config) (inp : List Byte) (r : Brl) (n : Nat), readersOk cfg → n ≤ 16 → r.wf inp →
    (r.readBits cfg inp n).1 < 2 ^ n ∧ (∀ i, i < n → (r.readBits cfg inp n).1.testBit i = r.streamBit inp i) ∧
    Brl.advanced inp r (r.readBits cfg inp n).2 n ∧
    ((r.readBits cfg inp n).2.zf = false →
      8 * (r.readBits cfg inp n).2.inOff + r.nbits = 8 * r.inOff + (r.readBits cfg inp n).2.nbits + n)) ∧
  (∀ (inp : List Byte) (r : Brl), r.wf inp →
    Brl.advanced inp r r.align (r.nbits % 8) ∧ r.align.nbits % 8 = 0 ∧ r.align.inOff = r.inOff ∧ r.align.zf = r.zf)

/-- R61, R135 to R137, R140: an MSB-first read of n bits, n in 0..32, gives the next n stream bits, the first as the most
significant bit, exactly when n unread bits remain, and else fails with TruncatedInput; with zero fill it never fails. -/
def Obligations.BrmReadGivesTheNextBitsOrFails : Prop :=
  ∀ (cfg : Config) (inp : List Byte) (r : Brm) (n : Nat), readersOk cfg → n ≤ 32 → r.wf inp →
    (cfg.qtZeroFill = false → n ≤ r.bitsLeft inp →
      ∃ v r', r.read cfg inp n = .ok v r' ∧ v < 2 ^ n ∧ (∀ i, i < n → v.testBit (n - 1 - i) = r.streamBit inp i) ∧
        r'.wf inp ∧ (∀ j, r'.streamBit inp j = r.streamBit inp (n + j)) ∧ r'.bitsLeft inp + n = r.bitsLeft inp) ∧
    (cfg.qtZeroFill = false → r.bitsLeft inp < n → ∃ r', r.read cfg inp n = .err .truncatedInput r') ∧
    (cfg.qtZeroFill = true →
      ∃ v r', r.read cfg inp n = .ok v r' ∧ v < 2 ^ n ∧ (∀ i, i < n → v.testBit (n - 1 - i) = r.streamBit inp i) ∧
        r'.wf inp ∧ ∀ j, r'.streamBit inp j = r.streamBit inp (n + j))

/-! ## Huffman tables -/

/-- R151 to R153: the builder gives the empty table for an all-zero set; else it refuses exactly the over-subscribed sets
and the incomplete ones, but for a single code and for the call site that allows an incomplete set. -/
def Obligations.HufBuildAcceptsTheRightSets : Prop :=
  ∀ (lens : List Nat) (m : Nat) (allow : Bool), (∀ l ∈ lens, l ≤ 15) →
    ((∀ l ∈ lens, l = 0) → ∃ t, hufBuild lens m allow = some t ∧ t.empty = true) ∧
    ((∃ l ∈ lens, l ≠ 0) →
      ((∃ t, hufBuild lens m allow = some t ∧ t.empty = false) ↔
        kraft lens ≤ 32768 ∧ (kraft lens = 32768 ∨ (lens.countP fun l => l ≠ 0) = 1 ∨ allow = true)) ∧
      (hufBuild lens m allow = none ↔
        ¬(kraft lens ≤ 32768 ∧ (kraft lens = 32768 ∨ (lens.countP fun l => l ≠ 0) = 1 ∨ allow = true))))

/-- R154, R160, R164: a table decodes symbol s and takes exactly its code's bits when they come next in the stream, most
significant code bit first; when no symbol's code comes next it raises InvalidSymbol. The requested root width does not
matter. -/
def Obligations.HufDecodeFollowsTheCodes : Prop :=
  ∀ (cfg : Config) (lens : List Nat) (m : Nat) (allow : Bool) (t : HufTable) (inp : List Byte) (r : Brl),
    readersOk cfg → (∀ l ∈ lens, l ≤ 15) → hufBuild lens m allow = some t → r.wf inp →
    (∀ s, 0 < lens.getD s 0 → (∀ i, i < lens.getD s 0 → r.streamBit inp i = hufCodeBit lens s i) →
      ∃ r', hufDecode cfg inp t r = .ok s r' ∧ Brl.advanced inp r r' (lens.getD s 0)) ∧
    ((∀ s, 0 < lens.getD s 0 → ∃ i, i < lens.getD s 0 ∧ r.streamBit inp i ≠ hufCodeBit lens s i) →
      ∃ r', hufDecode cfg inp t r = .err .invalidSymbol r')

/-- R162: "an empty table decodes nothing": InvalidSymbol, and nothing is read. -/
def Obligations.EmptyTableDecodesNothing : Prop :=
  ∀ (cfg : Config) (inp : List Byte) (t : HufTable) (r : Brl), t.empty = true → hufDecode cfg inp t r = .err .invalidSymbol r

/-! ## Windows -/

/-- R67, R72: WinPut stores the byte at the write cursor and nowhere else, moves the cursor modulo the capacity, and counts
the valid bytes up to the capacity. -/
def Obligations.WinPutStoresOneByte : Prop :=
  ∀ (sp : Space) (cap : Nat) (w : Window) (b : Byte), w.ok sp cap →
    (w.put sp cap b).ok sp cap ∧
    (∀ a, memRead sp (w.put sp cap b).cells a = if a = w.wpos then some b else memRead sp w.cells a) ∧
    (w.put sp cap b).wpos = (w.wpos + 1) % cap ∧ (w.put sp cap b).valid = min (w.valid + 1) cap

/-- R74: a copy at distance d gives the d bytes before the cursor and then repeats its own output every d bytes; it stores
exactly the copied bytes at the cursor, in order, wrapping modulo the capacity, and nowhere else. -/
def Obligations.WinCopyIsRunExpansion : Prop :=
  ∀ (sp : Space) (cap dist len : Nat) (w w' : Window) (bs : List Byte), w.ok sp cap → 1 ≤ dist → dist ≤ cap → len ≤ cap →
    winCopy sp cap dist len w = some (w', bs) →
    bs.length = len ∧
    (∀ k, k < len →
      bs[k]? = if k < dist then memRead sp w.cells ((w.wpos + cap - dist + k) % cap) else bs[k - dist]?) ∧
    w'.ok sp cap ∧ w'.wpos = (w.wpos + len) % cap ∧ w'.valid = min (w.valid + len) cap ∧
    (∀ k, k < len → memRead sp w'.cells ((w.wpos + k) % cap) = bs[k]?) ∧
    ∀ a, ¬inRun cap w.wpos len a → memRead sp w'.cells a = memRead sp w.cells a

/-- R240, R245, R246: `n` bytes of a reference are those of the table from its index on, wrapping at 4096, and repeat what
the copy has just written once they reach the write cursor; they are stored, whether they are delivered or skipped, at the
cursor and nowhere else. R249: delivered are those at or after `want`. R44: nothing but the table, the two cursors, the
length left and the position changes: `want`, the flag and stream registers, the fault flag and the header registers keep
their values. -/
def Obligations.LzReferenceIsRunExpansion : Prop :=
  ∀ (cfg : Config) (n : Nat) (x : LzCtx), x.tableOk cfg → n ≤ 4096 →
    ∃ bs : List Byte, bs.length = n ∧
      (∀ k, k < n →
        bs[k]? =
          if x.spos ≠ x.cur ∧ (x.cur + 4096 - x.spos) % 4096 ≤ k then bs[k - (x.cur + 4096 - x.spos) % 4096]?
          else memRead (.lztab cfg.lzFill) x.tab ((x.spos + k) % 4096)) ∧
      (lzCopy cfg n x).2 = bs.drop (x.want - x.real) ∧
      (∀ k, k < n → memRead (.lztab cfg.lzFill) (lzCopy cfg n x).1.tab ((x.cur + k) % 4096) = bs[k]?) ∧
      (∀ a, ¬inRun 4096 x.cur n a →
        memRead (.lztab cfg.lzFill) (lzCopy cfg n x).1.tab a = memRead (.lztab cfg.lzFill) x.tab a) ∧
      (lzCopy cfg n x).1 =
        { x with tab := (lzCopy cfg n x).1.tab, cur := (x.cur + n) % 4096, spos := (x.spos + n) % 4096,
                 slen := x.slen - n, real := x.real + n }

/-! ## Errors -/

/-- R280: `Ok` is 0 and the nine kinds are 1 to 9. R43, R290: an error ends the command and puts its code in STATUS; in a QT or
LZ decode it sets the context's fault flag; every other register of every context, IN and the commands still to come keep
their values. (OUT is then any value, U4.) -/
def Obligations.ErrorEntry : Prop :=
  (statusOk = 0 ∧ ErrKind.invalidSignature.code = 1 ∧ ErrKind.invalidBlockType.code = 2 ∧
  ErrKind.malformedHuffmanCode.code = 3 ∧ ErrKind.invalidSymbol.code = 4 ∧ ErrKind.lengthOverrun.code = 5 ∧
  ErrKind.corruptLength.code = 6 ∧ ErrKind.corruptData.code = 7 ∧ ErrKind.truncatedInput.code = 8 ∧
  ErrKind.unsupportedWindowSize.code = 9) ∧
  (∀ (s : State) (k : ErrKind),
    (s.raise k).status = k.code ∧ (s.raise k).run = .idle ∧ (s.raise k).mz = s.mz ∧ (s.raise k).cfg = s.cfg ∧
    (s.raise k).inp = s.inp ∧ (s.raise k).pending = s.pending ∧
    (∀ c p, s.run = .qt c p → (s.raise k).qt[c]? = s.qt[c]?.map fun x => { x with fault := true }) ∧
    (∀ c, (∀ p, s.run ≠ .qt c p) → (s.raise k).qt[c]? = s.qt[c]?) ∧
    (∀ c, s.run = .lz c → (s.raise k).lz[c]? = s.lz[c]?.map fun x => { x with fault := true }) ∧
    ∀ c, s.run ≠ .lz c → (s.raise k).lz[c]? = s.lz[c]?)

/-! ## MSZIP: what each element does -/

/-- R170: SIG sets the context up for the call: the requested length, an empty window and no output, the reader behind the
signature; the block loop begins. An input that does not begin with the signature ends with InvalidSignature. R171, R172,
R174, R176, R180: a block header writes both its fields; type 0 leads to the stored header, type 1 to the symbols with the
two fixed tables, type 2 to the dynamic header, and type 3 ends with InvalidBlockType. (What a SIG on a used context keeps is
the model's choice, where R57 leaves it unspecified: final, btype, nl, nd, nb, cl, prev by log 5, the list of code lengths and
the three tables by log 16, the window's bytes by log 6; a block header keeps what it does not set.) -/
def Obligations.SigAndBlockHeadersDispatch : Prop :=
  ((∀ s c x, MzAt s c .sig x →
    exec .sig s =
      .next ((s.setMz c { x with outLen := s.outLen, produced := 0, win := { x.win with wpos := 0, valid := 0 },
                                 br := { inOff := 2, acc := 0, nbits := 0, zf := false } }).setRun (.mz c .header))) ∧
  ∀ s c x, MzAt s c .sig x → s.inp.take 2 ≠ [0x43, 0x4B] → step s = .next (s.spoilOut.endWith .invalidSignature)) ∧
  ((∀ s c x final, MzAt s c .header x →
    exec (.blkStored final) s = .next ((s.setMz c { x with final := final, btype := 0 }).setRun (.mz c .storedHdr))) ∧
  (∃ tl td, hufBuild (List.replicate 144 8 ++ List.replicate 112 9 ++ List.replicate 24 7 ++ List.replicate 8 8) 7 false =
      some tl ∧ hufBuild (List.replicate 30 5) 5 true = some td ∧
    ∀ s c x final, MzAt s c .header x →
      exec (.blkFixed final) s =
        .next ((s.setMz c { x with final := final, btype := 1, tl := tl, td := td }).setRun (.mz c .symbols))) ∧
  (∀ s c x final, MzAt s c .header x →
    exec (.blkDynamic final) s = .next ((s.setMz c { x with final := final, btype := 2 }).setRun (.mz c .dynHdr))) ∧
  ∀ s c x final, MzAt s c .header x →
    exec (.blkReserved final) s =
      .next ((s.setMz c { x with final := final, btype := 3 }).spoilOut.endWith .invalidBlockType))

/-- R174: the complement check comes first, then the room; a block of length 0 ends at once, another one has LEN raw bytes to
come. R72, R188: a raw byte goes to the window, at the cursor, and to the output; the last one of the block ends it. -/
def Obligations.StoredBlockElements : Prop :=
  (∀ s c x (len nlen : BitVec 16), MzAt s c .storedHdr x →
    exec (.storedHdr len nlen) s =
      .next (if nlen ≠ len ^^^ 0xFFFF then s.spoilOut.endWith .corruptLength
        else if x.outLen - x.produced < len.toNat then s.spoilOut.endWith .corruptData
        else if len = 0 then afterBlock s c x
        else s.setRun (.mz c (.raw len.toNat)))) ∧
  (∀ s c x left b, MzAt s c (.raw left) x → 1 ≤ left → x.produced < x.outLen →
    exec (.raw b) s =
      let y := { x with win := { cells := memWrite .mzwin x.win.cells x.win.wpos b, wpos := (x.win.wpos + 1) % 32768,
                                 valid := min (x.win.valid + 1) 32768 },
                        produced := x.produced + 1 }
      .next (if left = 1 then afterBlock (s.emit [b]) c y
        else ((s.emit [b]).setMz c y).setRun (.mz c (.raw (left - 1)))))

/-- R95, R106, R181: the code-length-code lengths stand in the order of BORDER; symbols without a field have length 0. R180:
DYN_HDR sets the three counts and those lengths; when a table can be built from them and is not empty, the code lengths
follow, with no length written and the previous length 0; else MalformedHuffmanCode. (The count limits cannot be exceeded, C8.) -/
def Obligations.DynamicHeaderBuildsTheCodeLengthTable : Prop :=
  (∀ clen : List (BitVec 3), clen.length ≤ 19 →
    (clArray clen).length = 19 ∧
    (∀ j, j < clen.length →
      (clArray clen)[[16, 17, 18, 0, 8, 7, 9, 6, 10, 5, 11, 4, 12, 3, 13, 2, 14, 1, 15].getD j 0]? = clen[j]?) ∧
    ∀ j, clen.length ≤ j → j < 19 →
      (clArray clen)[[16, 17, 18, 0, 8, 7, 9, 6, 10, 5, 11, 4, 12, 3, 13, 2, 14, 1, 15].getD j 0]? = some 0) ∧
  (∀ s c x (hlit hdist : BitVec 5) (hclen : BitVec 4) clen, MzAt s c .dynHdr x →
    let y := { x with nl := 257 + hlit.toNat, nd := 1 + hdist.toNat, nb := 4 + hclen.toNat, cl := clArray clen }
    let built := hufBuild ((clArray clen).map BitVec.toNat) s.cfg.mzClRoot false
    (∀ tc, built = some tc → tc.empty = false →
      exec (.dynHdr hlit hdist hclen clen) s =
        .next ((s.setMz c { y with tc := tc, ll := [], prev := 0 }).setRun (.mz c .codeLens))) ∧
    (∀ tc, built = some tc → tc.empty = true →
      exec (.dynHdr hlit hdist hclen clen) s =
        .next ((s.setMz c { y with tc := tc }).spoilOut.endWith .malformedHuffmanCode)) ∧
    (built = none →
      exec (.dynHdr hlit hdist hclen clen) s = .next ((s.setMz c y).spoilOut.endWith .malformedHuffmanCode)))

/-- R96, R182, R183: a code-length element appends its length as often as it says, CL16 the previous length, CL17 and CL18
zeros after which the previous length is 0; a run that would pass the declared counts ends with LengthOverrun and writes no
length. R184: the last code length has the literal/length table built from the first `nl` lengths and the distance table from
the next `nd`, and the symbols follow; a set the builder refuses, or an empty literal/length set, ends with
MalformedHuffmanCode; an empty distance set is accepted. -/
def Obligations.CodeLengthElements : Prop :=
  (∀ s c x i v j prev, MzAt s c .codeLens x → lengthRun x i = some (v, j, prev) → x.ll.length + j < x.nl + x.nd →
    exec i s = .next (s.setMz c { x with ll := x.ll ++ List.replicate j v, prev := prev })) ∧
  (∀ s c x i v j prev, MzAt s c .codeLens x → lengthRun x i = some (v, j, prev) → x.nl + x.nd < x.ll.length + j →
    exec i s = .next ((s.setMz c { x with prev := prev }).spoilOut.endWith .lengthOverrun)) ∧
  (∀ s c x i v j prev, MzAt s c .codeLens x → lengthRun x i = some (v, j, prev) → x.ll.length + j = x.nl + x.nd →
    let y := { x with ll := x.ll ++ List.replicate j v, prev := prev }
    let litBuilt := hufBuild ((y.ll.take x.nl).map BitVec.toNat) s.cfg.mzDynLroot false
    let distBuilt := hufBuild (((y.ll.drop x.nl).take x.nd).map BitVec.toNat) s.cfg.mzDynDroot false
    (∀ tl td, litBuilt = some tl → tl.empty = false → distBuilt = some td →
      exec i s = .next ((s.setMz c { y with tl := tl, td := td }).setRun (.mz c .symbols))) ∧
    (litBuilt = none → exec i s = .next ((s.setMz c y).spoilOut.endWith .malformedHuffmanCode)) ∧
    ∀ tl, litBuilt = some tl → tl.empty = true ∨ distBuilt = none →
      exec i s = .next ((s.setMz c { y with tl := tl }).spoilOut.endWith .malformedHuffmanCode))

/-- R72, R186, R188: a literal goes to the window, at the cursor, and to the output. R171, R190: EOB ends the block: the next
header follows a block that is not final, a final block ends the command, with CorruptData unless the output is exactly full.
R187: MATCH keeps its length for the distance; the symbols 286 and 287 and the distance symbols 30 and 31 end with
InvalidSymbol. -/
def Obligations.SymbolElements : Prop :=
  (∀ s c x b, MzAt s c .symbols x → x.produced ≠ x.outLen →
    exec (.lit b) s =
      .next ((s.emit [b]).setMz c
        { x with win := { cells := memWrite .mzwin x.win.cells x.win.wpos b, wpos := (x.win.wpos + 1) % 32768,
                          valid := min (x.win.valid + 1) 32768 },
                 produced := x.produced + 1 })) ∧
  ((∀ s c x, MzAt s c .symbols x → exec .eob s = .next (afterBlock s c x)) ∧
  (∀ s c x len, MzAt s c .symbols x → exec (.mtch len) s = .next (s.setRun (.mz c (.distance len)))) ∧
  (∀ s c x sym, MzAt s c .symbols x → exec (.llReserved sym) s = .next (s.spoilOut.endWith .invalidSymbol)) ∧
  ∀ s c x len sym, MzAt s c (.distance len) x →
    exec (.distReserved sym) s = .next (s.spoilOut.endWith .invalidSymbol))

/-- R189: a literal when the output is already full ends with CorruptData and changes no context. -/
def Obligations.LiteralWhenFullIsCorruptData : Prop :=
  ∀ s c x b, MzAt s c .symbols x → x.produced = x.outLen →
    ∃ t, exec (.lit b) s = .next t ∧ t.status = 7 ∧ t.run = .idle ∧ t.mz = s.mz ∧ t.qt = s.qt ∧ t.lz = s.lz

/-- R73, R74, R187, R188: a distance within the bytes produced, for a length within the room, copies the whole match to the
window and the output (what the copy writes is WinCopyIsRunExpansion). A distance of 0, one past the bytes produced, or a
length past the room ends with CorruptData, and no byte is written. -/
def Obligations.MatchIsCopiedOrRejected : Prop :=
  (∀ s c x len d, MemoryInv s → MzInv s → MzAt s c (.distance len) x → 1 ≤ d → d ≤ x.win.valid →
    len ≤ x.outLen - x.produced →
    ∃ w bs, winCopy .mzwin 32768 d len x.win = some (w, bs) ∧ bs.length = len ∧
      exec (.dist d) s =
        .next (((s.emit bs).setMz c { x with win := w, produced := x.produced + len }).setRun (.mz c .symbols))) ∧
  (∀ s c x len d, MzAt s c (.distance len) x → (d = 0 ∨ x.win.valid < d ∨ x.outLen - x.produced < len) →
    exec (.dist d) s = .next (s.spoilOut.endWith .corruptData))

/-! ## Quantum: the models and the coder -/

/-- R31, R201: a new model of `n` symbols from `first` on: every entry has frequency 1, the sentinel is 0, the lookup is the
identity, and the reorder counter has its initial value. R10, R32: the sizes and first symbols of the nine models with the
default parameters, for window bits 10 to 21. -/
def Obligations.ModelInitAndSizes : Prop :=
  (∀ (cfg : Config) (n first : Nat), 1 ≤ n → n ≤ 64 → first + n ≤ 256 →
    let m := QModel.init cfg n first
    m.n = n ∧ m.sym.length = n ∧ m.cum.length = n + 1 ∧ m.reorder = cfg.qtReorderInit ∧
    (∀ k, k < n → m.sym[k]? = some (BitVec.ofNat 8 (first + k)) ∧ m.cum[k]? = some (n - k) ∧
      m.lookup (BitVec.ofNat 8 (first + k)) = some k) ∧
    m.cum[n]? = some 0) ∧
  (∀ w, 10 ≤ w → w ≤ 21 →
    modelSize defaultParameters w .m7 = 7 ∧ modelSize defaultParameters w .m00 = 64 ∧
    modelSize defaultParameters w .m40 = 64 ∧ modelSize defaultParameters w .m80 = 64 ∧
    modelSize defaultParameters w .mC0 = 64 ∧ modelSize defaultParameters w .m4 = min (2 * w) 24 ∧
    modelSize defaultParameters w .m5 = min (2 * w) 36 ∧ modelSize defaultParameters w .m6len = 27 ∧
    modelSize defaultParameters w .m6pos = 2 * w ∧
    modelFirst .m7 = 0 ∧ modelFirst .m00 = 0 ∧ modelFirst .m40 = 0x40 ∧ modelFirst .m80 = 0x80 ∧
    modelFirst .mC0 = 0xC0 ∧ modelFirst .m4 = 0 ∧ modelFirst .m5 = 0 ∧ modelFirst .m6len = 0 ∧ modelFirst .m6pos = 0)

/-- R208, R209: below the threshold an update adds 8 to the entries before the hit index and changes nothing else; above it,
while the reorder counter does not run out, the bumped entries are halved from the last to the first, each raised above its
successor where it must be, the sentinel stays 0 and no symbol moves. -/
def Obligations.UpdateBumpsOrHalves : Prop :=
  ∀ (how : Resort) (n first i : Nat) (m : QModel), m.Ok n first → 1 ≤ i → i ≤ n →
    let u := m.update how i
    let bumped := fun k => m.cum.getD k 0 + if k < i then 8 else 0
    u.n = m.n ∧ u.first = m.first ∧
    (bumped 0 ≤ 3800 → u.sym = m.sym ∧ u.tabloc = m.tabloc ∧ u.reorder = m.reorder ∧ u.cum.length = n + 1 ∧
      ∀ k, k ≤ n → u.cum.getD k 0 = bumped k) ∧
    (3800 < bumped 0 → 2 ≤ m.reorder →
      u.sym = m.sym ∧ u.tabloc = m.tabloc ∧ u.reorder = m.reorder - 1 ∧ u.cum.length = n + 1 ∧ u.cum.getD n 0 = 0 ∧
      ∀ k, k < n → u.cum.getD k 0 = max (bumped k / 2) (u.cum.getD (k + 1) 0 + 1))

/-- R31, R208, R210: when the counter runs out the model is rebuilt, under either sort: the symbols with their halved
frequencies are re-ordered; the cumulative values are the sums from the end; the lookup finds every symbol; the counter is
50. The stable sort orders them greatest frequency first, symbols of equal frequency in their previous order. U14: the
exchange sort compares the entries of each index pair i < j, in the order of its two loops, and swaps them when the
frequency at i is smaller. -/
def Obligations.RebuildSortsStably : Prop :=
  ∀ (how : Resort) (n first i : Nat) (m : QModel), m.Ok n first → 1 ≤ i → i ≤ n → m.reorder = 1 →
    3800 < m.cum.getD 0 0 + 8 →
    let u := m.update how i
    let bumped := fun k => m.cum.getD k 0 + if k < i then 8 else 0
    let before := (List.range n).map fun k => (m.sym.getD k 0, (bumped k - bumped (k + 1) + 1) / 2)
    let after := (List.range n).map fun k => (u.sym.getD k 0, u.cum.getD k 0 - u.cum.getD (k + 1) 0)
    u.sym.length = n ∧ u.cum.length = n + 1 ∧ u.cum.getD n 0 = 0 ∧ u.reorder = 50 ∧ after.Perm before ∧
    (∀ k, k < n → u.lookup (u.sym.getD k 0) = some k) ∧
    (how = .stable →
      after.Pairwise (fun a b => b.2 < a.2 ∨ (b.2 = a.2 ∧ m.sym.idxOf a.1 < m.sym.idxOf b.1))) ∧
    (how = .exchange → after = (pairsBelow n).foldl exchangeAt before)

/-- R211, scenario B: a literal model starts with a total of 64 and entry 0 is decoded again and again: each symbol adds 8, so
that 3800 is reached after 467 symbols; the 468th triggers the halving, to 1904, with the counter down from 4 to 3; and up to
symbol 475, at 1960, nothing triggers again. -/
def Obligations.ScenarioB : Prop :=
  let after := fun k => (QModel.update .stable 1)^[k] (QModel.init defaultParameters 64 0)
  (∀ k, k ≤ 467 → (after k).cum.headD 0 = 64 + 8 * k ∧ (after k).reorder = 4) ∧
  ∀ k, 468 ≤ k → k ≤ 475 → (after k).cum.headD 0 = 1904 + 8 * (k - 468) ∧ (after k).reorder = 3

/-- R205, R206: with the code register between low and high, the frequency the coder computes lies in exactly one slice of a
good model; narrowing to it sets low and high to the slice's share of their range, and keeps the code register between the new low and high, which lie within the old ones. -/
def Obligations.NarrowingKeepsTheCode : Prop :=
  ∀ (n first : Nat) (m : QModel) (x : QtCtx), m.Ok n first → x.L.toNat ≤ x.C.toNat → x.C.toNat ≤ x.H.toNat →
    let total := m.cum.getD 0 0
    let freq := ((x.C.toNat - x.L.toNat + 1) * total - 1) / (x.H.toNat - x.L.toNat + 1)
    ∃ i, 1 ≤ i ∧ i ≤ n ∧ m.hit freq = some i ∧ m.cum.getD i 0 ≤ freq ∧ freq < m.cum.getD (i - 1) 0 ∧
      (∀ j, 1 ≤ j → j ≤ n → m.cum.getD j 0 ≤ freq → freq < m.cum.getD (j - 1) 0 → j = i) ∧
      let range := x.H.toNat - x.L.toNat + 1
      let y := x.narrow (m.cum.getD (i - 1) 0) (m.cum.getD i 0) total
      y.L.toNat = x.L.toNat + m.cum.getD i 0 * range / total ∧
      y.H.toNat = x.L.toNat + m.cum.getD (i - 1) 0 * range / total - 1 ∧
      y.C = x.C ∧ x.L.toNat ≤ y.L.toNat ∧ y.L.toNat ≤ y.C.toNat ∧ y.C.toNat ≤ y.H.toNat ∧ y.H.toNat ≤ x.H.toNat

/-- R30, R207: renormalisation makes at most 16 passes (allowing more than 16 changes nothing), and if the input does not run
out it leaves low, code and high in order with the top bits of low and high apart and no underflow pattern; it touches
nothing but the three coder registers and the reader. -/
def Obligations.RenormaliseRestoresTheCoder : Prop :=
  ∀ (cfg : Config) (inp : List Byte) (x : QtCtx),
    (∀ more, renormLoop cfg inp (16 + more) x = x.renormalise cfg inp) ∧
    (x.L.toNat ≤ x.C.toNat → x.C.toNat ≤ x.H.toNat →
      ∀ u y, x.renormalise cfg inp = .ok u y →
        y.coderOk ∧ y = { x with L := y.L, H := y.H, C := y.C, bm := y.bm })

/-- R30, R205 to R208: GetSymbol on a coder in order and a good model, when the input does not run out, finds the hit
index of the frequency that R205 computes, narrows to that slice and renormalises, gives the symbol of the entry before the
hit index, leaves the coder in order again and the model good, updated at the hit index, and touches nothing else but the
reader. R111, R116, R117, R204, R212: a token is a selector from `m7` and then, for selectors 0 to 3, a literal from `m00`,
`m40`, `m80`, `mC0`; for 4 and 5 an offset from `m4`, `m5`; for 6 a length from `m6len` and then an offset from `m6pos`.
Bases and extra bits are those of the formulas of R116. -/
def Obligations.GetSymbolDecodesAndAdapts : Prop :=
  (∀ (cfg : Config) (inp : List Byte) (w : QModelId) (n first : Nat) (x y : QtCtx) (b : Byte),
    (x.model w).Ok n first → x.coderOk → getSymbol cfg inp w x = .ok b y →
    y.coderOk ∧ (y.model w).Ok n first ∧
    (let m := x.model w
     let total := m.cum.getD 0 0
     ∃ i z u, m.hit (((x.C.toNat - x.L.toNat + 1) * total - 1) / (x.H.toNat - x.L.toNat + 1)) = some i ∧ 1 ≤ i ∧ i ≤ n ∧
       m.sym[i - 1]? = some b ∧ y.model w = m.update cfg.qtResort i ∧
       (x.narrow (m.cum.getD (i - 1) 0) (m.cum.getD i 0) total).renormalise cfg inp = .ok u z ∧
       y.L = z.L ∧ y.H = z.H ∧ y.C = z.C ∧ y.bm = z.bm) ∧
    (∀ v, v ≠ w → y.model v = x.model v) ∧ y.win = x.win ∧ y.togo = x.togo ∧ y.started = x.started ∧
    y.fault = x.fault ∧ y.wbits = x.wbits ∧ y.level = x.level ∧ y.wsize = x.wsize) ∧
  ∀ (cfg : Config) (inp : List Byte) (x y : QtCtx) (i : Instr),
    decodeQt cfg inp .tokens x = .ok i y ↔
    ∃ sel x1, getSymbol cfg inp .m7 x = .ok sel x1 ∧
      ((sel = 0 ∧ ∃ b, i = .qlit0 b ∧ getSymbol cfg inp .m00 x1 = .ok b y) ∨
       (sel = 1 ∧ ∃ b, i = .qlit1 b ∧ getSymbol cfg inp .m40 x1 = .ok b y) ∨
       (sel = 2 ∧ ∃ b, i = .qlit2 b ∧ getSymbol cfg inp .m80 x1 = .ok b y) ∨
       (sel = 3 ∧ ∃ b, i = .qlit3 b ∧ getSymbol cfg inp .mC0 x1 = .ok b y) ∨
       (sel = 4 ∧ ∃ off, i = .qm3 off ∧ readsOffset cfg inp .m4 x1 off y) ∨
       (sel = 5 ∧ ∃ off, i = .qm4 off ∧ readsOffset cfg inp .m5 x1 off y) ∨
       (sel = 6 ∧ ∃ len off z, i = .qmv len off ∧ readsLength cfg inp x1 len z ∧ readsOffset cfg inp .m6pos z off y))

/-! ## Quantum: what each element does -/

/-- R110, R203: on a fresh stream, and whatever IN of at least two bytes holds, the fetch gives CODE16 with the first 16 bits of
IN, most significant first: the first byte above the second. These are the bits CODE16 is encoded by, and the reader then
stands behind them, with nothing held. R203: CODE16 starts the coder: low 0, high 0xFFFF, the 16 bits in the code register; the tokens follow. R204, R220, D35:
with nothing to produce the coder is started all the same, and the command ends with an empty output. R203, R290: when IN
holds fewer than 16 bits, the command ends with TruncatedInput; low is then 0 and high 0xFFFF, which were written before the
read, and the coder is not started. -/
def Obligations.Code16StartsTheCoder : Prop :=
  (∀ (cfg : Config) (env : EncEnv) (inp : List Byte) (x : QtCtx) (b0 b1 : Byte),
    readersOk cfg → x.bm = Brm.start → inp.take 2 = [b0, b1] →
    let code := BitVec.ofNat 16 (256 * b0.toNat + b1.toNat)
    decodeQt cfg inp .start x =
      .ok (.code16 code) { x with L := 0, H := 0xFFFF, bm := { inOff := 2, acc := 0, nbits := 0 } } ∧
    encode env (.code16 code) = some ((List.range 16).map (msbBit inp 0))) ∧
  (∀ s c x code, QtAt s c .start x → x.togo ≠ 0 →
    exec (.code16 code) s =
      .next ((s.setQt c { x with L := 0, H := 0xFFFF, C := code, started := true }).setRun (.qt c .tokens))) ∧
  (∀ s c x code, QtAt s c .start x → x.togo = 0 → s.outLen = 0 →
    exec (.code16 code) s =
      .next ({ s.setQt c { x with L := 0, H := 0xFFFF, C := code, started := true } with out := [] }).finish) ∧
  (∀ s c x, QtAt s c .start x → readersOk s.cfg → s.cfg.qtZeroFill = false → x.bm = Brm.start → s.inp.length < 2 →
    ∃ bm t, step s = .next t ∧ t.status = 8 ∧ t.run = .idle ∧
      t.qt[c]? = some { x with L := 0, H := 0xFFFF, bm := bm, fault := true })

/-- R204, R212, R221: a literal that is not the last byte of the request goes to the window, at the cursor, and one byte fewer
is to be produced. R220: the last one does the same and ends the command, and OUT is the request's length of bytes that end
at the window's cursor. -/
def Obligations.QuantumLiteralIsEmitted : Prop :=
  (∀ s c x b, QtAt s c .tokens x → 2 ≤ x.togo →
    ∀ i ∈ [Instr.qlit0 b, .qlit1 b, .qlit2 b, .qlit3 b],
      exec i s =
        .next ((s.setQt c
          { x with win := { cells := memWrite .qtwin x.win.cells x.win.wpos b, wpos := (x.win.wpos + 1) % x.wsize,
                            valid := min (x.win.valid + 1) x.wsize },
                   togo := x.togo - 1 }).setRun (.qt c .tokens))) ∧
  (∀ s c x b, MemoryInv s → QtWindowInv s → QtAt s c .tokens x → x.togo = 1 →
    ∀ i ∈ [Instr.qlit0 b, .qlit1 b, .qlit2 b, .qlit3 b],
      let y := { x with win := { cells := memWrite .qtwin x.win.cells x.win.wpos b, wpos := (x.win.wpos + 1) % x.wsize,
                                 valid := min (x.win.valid + 1) x.wsize },
                        togo := 0 }
      ∃ bs, exec i s = .next ({ s.setQt c y with out := bs }).finish ∧ bs.length = s.outLen ∧
        ∀ k, k < s.outLen → bs[k]? = memRead .qtwin y.win.cells ((y.win.wpos + x.wsize - s.outLen + k) % x.wsize))

/-- R73, R74, R212, R216: a match within the valid bytes and the bytes still to produce is copied whole: length 3, 4, or the
decoded length; the tokens go on, or, when it produces the last bytes, the command ends and OUT is the request's length of
bytes that end at the window's cursor (R220). An offset of 0, one past the valid bytes, or a length past the bytes still to
produce ends with CorruptData, sets the fault flag (R290), and no byte is written. -/
def Obligations.QuantumMatchIsCopiedOrRejected : Prop :=
  (∀ s c x off len i, MemoryInv s → QtWindowInv s → QtAt s c .tokens x →
    (i = .qm3 off ∧ len = 3 ∨ i = .qm4 off ∧ len = 4 ∨ i = .qmv len off) →
    1 ≤ off → off ≤ x.win.valid → len ≤ x.togo →
    ∃ w copied, winCopy .qtwin x.wsize off len x.win = some (w, copied) ∧
      let y := { x with win := w, togo := x.togo - len }
      (len < x.togo → exec i s = .next ((s.setQt c y).setRun (.qt c .tokens))) ∧
      (len = x.togo → ∃ bs, exec i s = .next ({ s.setQt c y with out := bs }).finish ∧ bs.length = s.outLen ∧
        ∀ k, k < s.outLen → bs[k]? = memRead .qtwin w.cells ((w.wpos + x.wsize - s.outLen + k) % x.wsize))) ∧
  (∀ s c x off len i, QtAt s c .tokens x → x.togo ≠ 0 →
    (i = .qm3 off ∧ len = 3 ∨ i = .qm4 off ∧ len = 4 ∨ i = .qmv len off) →
    (off = 0 ∨ x.win.valid < off ∨ x.togo < len) →
    exec i s = .next ((s.setQt c { x with fault := true }).spoilOut.endWith .corruptData))

/-! ## LZ/SZDD: what each element does -/

/-- R244: a flag byte covers the next eight tokens. R245, R247, R249: a literal goes to the table, at the cursor, and, at or
after the position asked for, to the output; at the end position the command ends with `want` at the position reached. R246:
a reference starts at its table index with its length plus the bias and is copied as far as the command needs bytes; if the
command ends inside it, the rest is kept in `slen` and `spos`. R243, R247, R290: where IN holds no byte for the flag byte, the
literal, or the first or the second byte of the reference that is due, the step ends the LZ_DECODE with TruncatedInput and
sets the fault flag; the flag bit, and a first byte that was there, have been taken. (What the copy writes is LzReferenceIsRunExpansion; that the
whole copy is one step is the model's choice, log 1.) -/
def Obligations.LzTokensAreExecuted : Prop :=
  (∀ s c x b, LzAt s c x → x.fcnt = 0 → exec (.flags b) s = .next (s.setLz c { x with flags := b, fcnt := 8 })) ∧
  (∀ s c x b, LzAt s c x → x.real < x.want + s.outLen → x.real + 1 < 4294967296 →
    exec (.lzlit b) s =
      let y := { x with tab := memWrite (.lztab s.cfg.lzFill) x.tab x.cur b, cur := (x.cur + 1) % 4096, real := x.real + 1 }
      let s1 := s.emit (if x.want ≤ x.real then [b] else [])
      .next (if x.real + 1 = x.want + s.outLen then (s1.setLz c { y with want := x.real + 1 }).finish
        else (s1.setLz c y).setRun (.lz c))) ∧
  (∀ s c x (off : BitVec 12) (lenfield : BitVec 4), LzAt s c x → x.real < x.want + s.outLen →
    x.want + s.outLen < 4294967296 →
    exec (.lzref off lenfield) s =
      let n := min (lenfield.toNat + s.cfg.lzLenBias) (x.want + s.outLen - x.real)
      let copied := lzCopy s.cfg n { x with spos := off.toNat, slen := lenfield.toNat + s.cfg.lzLenBias }
      .next (if x.real + n = x.want + s.outLen
        then ((s.emit copied.2).setLz c { copied.1 with want := x.real + n }).finish
        else ((s.emit copied.2).setLz c copied.1).setRun (.lz c))) ∧
  (∀ s c x, LzAt s c x → x.slen = 0 → x.fcnt = 0 → s.inp.length ≤ x.inPos →
    step s = .next ((s.setLz c { x with fault := true }).spoilOut.endWith .truncatedInput)) ∧
  (∀ s c x, LzAt s c x → x.slen = 0 → x.fcnt ≠ 0 → s.inp.length ≤ x.inPos →
    step s =
      .next ((s.setLz c { x with flags := x.flags >>> 1, fcnt := x.fcnt - 1, fault := true }).spoilOut.endWith
        .truncatedInput)) ∧
  (∀ s c x, LzAt s c x → x.slen = 0 → x.fcnt ≠ 0 → x.flags.getLsbD 0 = false → s.inp.length = x.inPos + 1 →
    step s =
      .next ((s.setLz c { x with flags := x.flags >>> 1, fcnt := x.fcnt - 1, inPos := x.inPos + 1, fault := true
        }).spoilOut.endWith .truncatedInput))

/-! ## Commands -/

/-- R57, R263: MZ_NEW creates one more MZ context, with an empty window, nothing produced and the reader behind a signature, and
ends with `Ok`. R170, D9: MZ_DECODE refuses a request above 32768 bytes with CorruptData before it reads anything; else it
takes its buffers and the signature is the next stream element. -/
def Obligations.MzCommands : Prop :=
  (∀ s, s.run = .idle → (s.cfg.nCtx = none ∨ ∃ most, s.cfg.nCtx = some most ∧ s.mz.length < most) →
    ∃ x, exec .mzNew s = .next ({ s with mz := s.mz ++ [x] }).finish ∧ x.win.wpos = 0 ∧ x.win.valid = 0 ∧
      x.produced = 0 ∧ x.br = { inOff := 2, acc := 0, nbits := 0, zf := false }) ∧
  (∀ s c x inp n, s.run = .idle → s.mz[c]? = some x →
    exec (.mzDecode c inp n) s =
      .next (if 32768 < n then ({ s with inp := inp, outLen := n, out := [] }).spoilOut.endWith .corruptData
        else { s with inp := inp, outLen := n, out := [], run := .mz c .sig }))

/-- R201, R262: QT_INIT with 10 to 21 window bits creates or re-creates the context: the window size, the low four bits of the
level, cursor, valid count and both flags 0, the nine initial models. (That the window bytes of an existing context below the
new size stay, and its coder registers too, is the model's choice, logs 6 and 5.) Other window bits end with
UnsupportedWindowSize; no context is changed or created. (That they do so for a new context at the limit N_CTX too, where the
spec gives no order of the two checks, is the model's choice, log 11.) -/
def Obligations.QtInitSetsUpOrRefuses : Prop :=
  (∀ s c (w level : BitVec 8), s.run = .idle → 10 ≤ w.toNat → w.toNat ≤ 21 → c ≤ s.qt.length →
    (c < s.qt.length ∨ s.cfg.nCtx = none ∨ ∃ most, s.cfg.nCtx = some most ∧ s.qt.length < most) →
    ∃ x, exec (.qtInit c w level) s = .next ({ s with qt := putContext s.qt c x }).finish ∧
      (putContext s.qt c x)[c]? = some x ∧ x.wbits = w.toNat ∧ x.wsize = 2 ^ w.toNat ∧
      x.level.toNat = level.toNat % 16 ∧ x.win.wpos = 0 ∧ x.win.valid = 0 ∧ x.started = false ∧ x.fault = false ∧
      (∀ i, x.model i = QModel.init s.cfg (modelSize s.cfg w.toNat i) (modelFirst i)) ∧
      ∀ old, s.qt[c]? = some old → x.L = old.L ∧ x.H = old.H ∧ x.C = old.C ∧
        (MemoryInv s → ∀ a, a < 2 ^ w.toNat → memRead .qtwin x.win.cells a = memRead .qtwin old.win.cells a)) ∧
  (∀ s c (w level : BitVec 8), s.run = .idle → c ≤ s.qt.length → (w.toNat < 10 ∨ 21 < w.toNat) →
    ∃ t, exec (.qtInit c w level) s = .next t ∧ t.status = 9 ∧ t.run = .idle ∧ t.qt = s.qt ∧ t.mz = s.mz ∧ t.lz = s.lz)

/-- R201, R264: QT_RESET puts cursor, valid count and both flags to 0 and the nine models to their initial state, for the
stored window bits, and keeps window bits, level and window size; it ends with `Ok`. (That the window bytes, the coder
registers, `togo` and the reader keep their values is the model's choice, logs 6 and 5.) -/
def Obligations.QtResetRestarts : Prop :=
  ∀ s c x, s.run = .idle → s.qt[c]? = some x →
    let m := fun i => QModel.init s.cfg (modelSize s.cfg x.wbits i) (modelFirst i)
    exec (.qtReset c) s =
      .next (s.setQt c { x with win := { x.win with wpos := 0, valid := 0 }, started := false, fault := false,
                                m7 := m .m7, m00 := m .m00, m40 := m .m40, m80 := m .m80, mC0 := m .mC0, m4 := m .m4,
                                m5 := m .m5, m6len := m .m6len, m6pos := m .m6pos }).finish

/-- R202 to R204, R220, R291: QT_DECODE rejects a faulted context, and a request above the window, with CorruptData and
changes no context; else it takes its buffers and a new reader, and the coder start follows on a fresh context, the tokens on
a started one, or the end when nothing is asked for. -/
def Obligations.QtDecodeChecksThenReads : Prop :=
  ∀ s c x inp n, s.run = .idle → s.qt[c]? = some x →
    let s1 := { s with inp := inp, outLen := n, out := [] }
    let y := { x with bm := { inOff := 0, acc := 0, nbits := 0 }, togo := n }
    exec (.qtDecode c inp n) s =
      .next (if x.fault = true ∨ x.wsize < n then s1.spoilOut.endWith .corruptData
        else if x.started = false then (s1.setQt c y).setRun (.qt c .start)
        else if n = 0 then (s1.setQt c y).finish
        else (s1.setQt c y).setRun (.qt c .tokens))

/-- R266: LZ_INIT takes the header buffer; the header is its stream element. R284: the header checks come in their order, each
before anything is changed: at least 14 bytes, else TruncatedInput; the magic, else InvalidSignature; the type byte, else
InvalidBlockType. R120, R248: a good header fills the three header registers and puts every other register of the context,
`want` and `fault` too, at its start value; a new context is created. -/
def Obligations.LzInitReadsTheHeader : Prop :=
  (∀ s c hdr, s.run = .idle → c ≤ s.lz.length →
    (c < s.lz.length ∨ s.cfg.nCtx = none ∨ ∃ most, s.cfg.nCtx = some most ∧ s.lz.length < most) →
    exec (.lzInit c hdr) s = .next { s with inp := hdr, run := .lzHdr c }) ∧
  (∀ s c, s.run = .lzHdr c →
    (s.inp.length < 14 → step s = .next (s.endWith .truncatedInput)) ∧
    (14 ≤ s.inp.length → s.inp.take 8 ≠ [0x53, 0x5A, 0x44, 0x44, 0x88, 0xF0, 0x27, 0x33] →
      step s = .next (s.endWith .invalidSignature)) ∧
    (14 ≤ s.inp.length → s.inp.take 8 = [0x53, 0x5A, 0x44, 0x44, 0x88, 0xF0, 0x27, 0x33] → s.inp[8]? ≠ some 0x41 →
      step s = .next (s.endWith .invalidBlockType))) ∧
  (∀ s c last len, s.run = .lzHdr c → c ≤ s.lz.length →
    ∃ x, exec (.lzHdr last len) s = .next ({ s with lz := putContext s.lz c x }).finish ∧
      x.compType = 0x41 ∧ x.lastChar = last ∧ x.realLength = len ∧ x.cur = 0xFF0 ∧ x.flags = 0 ∧ x.fcnt = 0 ∧
      x.spos = 0 ∧ x.slen = 0 ∧ x.real = 0 ∧ x.inPos = 0 ∧ x.want = 0 ∧ x.fault = false ∧
      (∀ a, memRead (.lztab s.cfg.lzFill) x.tab a = some s.cfg.lzFill) ∧ (putContext s.lz c x)[c]? = some x)

/-- R248, R267: LZ_RESET puts every register NextByte reads to its start value, clears `want` and `fault`, keeps the header
registers, and ends with `Ok`. -/
def Obligations.LzResetReplays : Prop :=
  ∀ s c x, s.run = .idle → s.lz[c]? = some x →
    ∃ y, exec (.lzReset c) s = .next (s.setLz c y).finish ∧ (∀ a, memRead (.lztab s.cfg.lzFill) y.tab a = some s.cfg.lzFill) ∧ y.cur = 0xFF0 ∧
      y.flags = 0 ∧ y.fcnt = 0 ∧ y.spos = 0 ∧ y.slen = 0 ∧ y.real = 0 ∧ y.inPos = 0 ∧ y.want = 0 ∧ y.fault = false ∧
      y.compType = x.compType ∧ y.lastChar = x.lastChar ∧ y.realLength = x.realLength

/-- R250: LZ_SEEK records the target, on a faulted context too, and does nothing else; it ends with `Ok`. -/
def Obligations.LzSeekRecordsTheTarget : Prop :=
  ∀ s c x (pos : BitVec 32), s.run = .idle → s.lz[c]? = some x →
    exec (.lzSeek c pos) s = .next (s.setLz c { x with want := pos.toNat }).finish

/-- R248, R249, R291: LZ_DECODE rejects a faulted context with CorruptData and changes no context. Else it takes its buffers;
a target behind the position reached starts the replay over; what is left of a reference is copied as far as the request
needs bytes; then the command ends, or its stream elements follow. The payload must be the context's (log 11). -/
def Obligations.LzDecodeChecksThenReads : Prop :=
  ∀ s c x inp n, s.run = .idle → s.lz[c]? = some x →
    let s1 := { s with inp := inp, outLen := n, out := [] }
    (x.fault = true → exec (.lzDecode c inp n) s = .next (s1.spoilOut.endWith .corruptData)) ∧
    (x.fault = false → (x.payload = none ∨ x.payload = some inp) → x.want + n < 4294967296 →
      let y := { (if x.want < x.real then
          { x with tab := [], cur := 0xFF0, flags := 0, fcnt := 0, spos := 0, slen := 0, real := 0, inPos := 0 } else x)
        with payload := some inp }
      let k := min y.slen (x.want + n - y.real)
      let copied := lzCopy s.cfg k y
      exec (.lzDecode c inp n) s =
        .next (if y.real + k = x.want + n
          then ((s1.emit copied.2).setLz c { copied.1 with want := y.real + k }).finish
          else ((s1.emit copied.2).setLz c copied.1).setRun (.lz c)))

/-- R90: an element runs only in a stream of its own grammar: not on an idle machine, not while a command of another engine,
or LZ_INIT beside LZ_DECODE, is in progress, and within its grammar only where it is due: an MSZIP or Quantum element at its
place, a flag byte when no token is covered, a token while bytes are still to be produced. U1, U2, R269: no command runs while
another one is in progress, and no decode, reset or seek on a context that no init created. R254, U6: no LZ literal, reference
or decode carries a position past 2^32 - 1. R79, R323, U8: an LZ_DECODE takes no other payload than its context's. U10: a creating command
is refused when N_CTX contexts exist. Each is refused by a name of its own and nothing changes. (U1 speaks of two commands on
one context; that a command on another context has to wait too is the model's choice, logs 3 and 11. That an element outside
its place is a refusal is read from R90, log 12. That a number beyond the next free one names no context is log 3, that N_CTX
refuses, LZ_INIT before its header is read, log 11.) -/
def Obligations.WhatTheSpecRefusesIsRefused : Prop :=
  ((∀ s i, encodeCmd i = none → ¬s.run.reads i → exec i s = .refused .outOfPlace) ∧
  (∀ s c p x i, MzAt s c p x → (∃ q : MzPhase, q.takes i) → ¬p.takes i → exec i s = .refused .outOfPlace) ∧
  (∀ s c p x i, QtAt s c p x → (∃ q : QtPhase, q.takes i) → ¬p.takes i → exec i s = .refused .outOfPlace) ∧
  (∀ s c x i, QtAt s c .tokens x → x.togo = 0 → QtPhase.tokens.takes i → exec i s = .refused .outOfPlace) ∧
  (∀ s c x b, LzAt s c x → x.fcnt ≠ 0 → exec (.flags b) s = .refused .outOfPlace) ∧
  (∀ s c x b off lenfield, LzAt s c x → x.want + s.outLen ≤ x.real →
    exec (.lzlit b) s = .refused .outOfPlace ∧ exec (.lzref off lenfield) s = .refused .outOfPlace)) ∧
  (∀ s i cmd, s.run ≠ .idle → encodeCmd i = some cmd → exec i s = .refused .commandInProgress) ∧
  ((∀ s c inp n, s.run = .idle → s.mz.length ≤ c → exec (.mzDecode c inp n) s = .refused .noContext) ∧
  (∀ s c inp n, s.run = .idle → s.qt.length ≤ c →
    exec (.qtReset c) s = .refused .noContext ∧ exec (.qtDecode c inp n) s = .refused .noContext) ∧
  (∀ s c inp n pos, s.run = .idle → s.lz.length ≤ c →
    exec (.lzReset c) s = .refused .noContext ∧ exec (.lzSeek c pos) s = .refused .noContext ∧
    exec (.lzDecode c inp n) s = .refused .noContext) ∧
  (∀ s c w level, s.run = .idle → s.qt.length < c → exec (.qtInit c w level) s = .refused .noContext) ∧
  ∀ s c hdr, s.run = .idle → s.lz.length < c → exec (.lzInit c hdr) s = .refused .noContext) ∧
  ((∀ s c x b, LzAt s c x → x.real < x.want + s.outLen → 4294967296 ≤ x.real + 1 →
    exec (.lzlit b) s = .refused .lzPositionOverflow) ∧
  (∀ s c x (off : BitVec 12) (lenfield : BitVec 4), LzAt s c x → x.real < x.want + s.outLen →
    4294967296 ≤ x.real + min (lenfield.toNat + s.cfg.lzLenBias) (x.want + s.outLen - x.real) →
    exec (.lzref off lenfield) s = .refused .lzPositionOverflow) ∧
  (∀ s c x inp n, s.run = .idle → s.lz[c]? = some x → x.fault = false → (x.payload = none ∨ x.payload = some inp) →
    x.real ≤ x.want → 4294967296 ≤ x.real + min x.slen (x.want + n - x.real) →
    exec (.lzDecode c inp n) s = .refused .lzPositionOverflow)) ∧
  (∀ s c x inp n first, s.run = .idle → s.lz[c]? = some x → x.fault = false → x.payload = some first → first ≠ inp →
    exec (.lzDecode c inp n) s = .refused .lzPayloadChanged) ∧
  ∀ s most, s.run = .idle → s.cfg.nCtx = some most →
    (most ≤ s.mz.length → exec .mzNew s = .refused .tooManyContexts) ∧
    (most ≤ s.qt.length → ∀ (w level : BitVec 8), 10 ≤ w.toNat → w.toNat ≤ 21 →
      exec (.qtInit s.qt.length w level) s = .refused .tooManyContexts) ∧
    (most ≤ s.lz.length → ∀ hdr, exec (.lzInit s.lz.length hdr) s = .refused .tooManyContexts)

/-! ## Frames: what stays as it was -/

/-- R67, R80: an element or command that stores nothing leaves every byte of every window and table as it was.
(That SIG and QT_RESET, which start a window anew, keep its bytes, which R57 leaves unspecified, is the model's choice, log 6.) -/
def Obligations.ElementsThatStoreNothingKeepEveryByte : Prop :=
  ∀ s t i, storesNothing i = true → exec i s = .next t → sameBytes s t

/-- R72, R74, R245, R246: an element that stores writes at its context's cursor: RAW, LIT, a Quantum literal and LZLIT one byte,
DIST, a Quantum match and LZREF at most the length of the match; every other byte of every space of every context stays. -/
def Obligations.StoringElementsWriteOnlyAtTheCursor : Prop :=
  (∀ s t c p x i len, MemoryInv s → MzAt s c p x → exec i s = .next t →
    ((∃ b, i = .raw b) ∧ len = 1 ∨ (∃ b, i = .lit b) ∧ len = 1 ∨ (∃ d, i = .dist d) ∧ p = .distance len) →
    (∀ a, ¬inRun 32768 x.win.wpos len a → readMz t c a = readMz s c a) ∧
    (∀ c' a, c' ≠ c → readMz t c' a = readMz s c' a) ∧ (∀ c' a, readQt t c' a = readQt s c' a) ∧
    ∀ c' a, readLz t c' a = readLz s c' a) ∧
  (∀ s t c p x i len, MemoryInv s → QtAt s c p x → exec i s = .next t →
    ((∃ b, i = .qlit0 b ∨ i = .qlit1 b ∨ i = .qlit2 b ∨ i = .qlit3 b) ∧ len = 1 ∨ (∃ off, i = .qm3 off) ∧ len = 3 ∨
      (∃ off, i = .qm4 off) ∧ len = 4 ∨ ∃ off, i = .qmv len off) →
    (∀ a, ¬inRun x.wsize x.win.wpos len a → readQt t c a = readQt s c a) ∧
    (∀ c' a, c' ≠ c → readQt t c' a = readQt s c' a) ∧ (∀ c' a, readMz t c' a = readMz s c' a) ∧
    ∀ c' a, readLz t c' a = readLz s c' a) ∧
  (∀ s t c x i len, MemoryInv s → LzAt s c x → exec i s = .next t →
    ((∃ b, i = .lzlit b) ∧ len = 1 ∨ ∃ off lenfield, i = .lzref off lenfield ∧ len = lenfield.toNat + s.cfg.lzLenBias) →
    (∀ a, ¬inRun 4096 x.cur len a → readLz t c a = readLz s c a) ∧
    (∀ c' a, c' ≠ c → readLz t c' a = readLz s c' a) ∧ (∀ c' a, readMz t c' a = readMz s c' a) ∧
    ∀ c' a, readQt t c' a = readQt s c' a)

/-- R20, R270, R303: a step changes only the context of the command in progress or being started; the others, and the
contexts of the other engines, stay exactly as they were. -/
def Obligations.OtherContextsStayAsTheyWere : Prop :=
  ∀ s t, step s = .next t →
    (∀ c, c < s.mz.length → ¬usesMz s c → t.mz[c]? = s.mz[c]?) ∧
    (∀ c, c < s.qt.length → ¬usesQt s c → t.qt[c]? = s.qt[c]?) ∧
    (∀ c, c < s.lz.length → ¬usesLz s c → t.lz[c]? = s.lz[c]?) ∧
    s.mz.length ≤ t.mz.length ∧ s.qt.length ≤ t.qt.length ∧ s.lz.length ≤ t.lz.length

/-- R40, R50, R80, R304: no step changes a parameter; while a command goes on, IN, the requested length and STATUS stay as
they are: STATUS is written only by the step that ends a command. R44: the three header registers of an LZ context are
written by nothing but LZ_INIT. (That no other command is taken while one goes on is the model's choice, logs 2 and 3.) -/
def Obligations.StatusIsWrittenAtTheEnd : Prop :=
  ∀ s t, step s = .next t →
    t.cfg = s.cfg ∧ (t.status ≠ s.status → t.run = .idle) ∧
    (s.run ≠ .idle → t.inp = s.inp ∧ t.outLen = s.outLen ∧ t.pending = s.pending) ∧
    ∀ c x y, s.lz[c]? = some x → t.lz[c]? = some y → s.run ≠ .lzHdr c →
      y.compType = x.compType ∧ y.lastChar = x.lastChar ∧ y.realLength = x.realLength

/-- R43, R264, R267, R290: a fault flag is set only by a step that ends a decode command with an error, and cleared only by
an init or a reset of that context. -/
def Obligations.FaultFlagRules : Prop :=
  ∀ s t, step s = .next t →
    (∀ c x y, s.qt[c]? = some x → t.qt[c]? = some y → x.fault = true → y.fault = false →
      starts s (.qtReset c) ∨ ∃ w l, starts s (.qtInit c w l)) ∧
    (∀ c x y, s.qt[c]? = some x → t.qt[c]? = some y → x.fault = false → y.fault = true →
      (∃ p, s.run = .qt c p) ∧ t.run = .idle ∧ t.status ≠ 0) ∧
    (∀ c x y, s.lz[c]? = some x → t.lz[c]? = some y → x.fault = true → y.fault = false →
      starts s (.lzReset c) ∨ s.run = .lzHdr c) ∧
    ∀ c x y, s.lz[c]? = some x → t.lz[c]? = some y → x.fault = false → y.fault = true →
      s.run = .lz c ∧ t.run = .idle ∧ t.status ≠ 0

/-- R193, R223, R253, R262 to R267, R281: what each command can end with. Past the entry: MZ_DECODE never TruncatedInput or
UnsupportedWindowSize, QT_DECODE CorruptData or TruncatedInput, LZ_DECODE TruncatedInput, LZ_INIT its three header errors, or
`Ok`. At the entry step: MZ_DECODE with CorruptData, QT_DECODE and LZ_DECODE with CorruptData or `Ok`, QT_INIT with
UnsupportedWindowSize or `Ok`, LZ_INIT not at all (its header is an element of its own, log 18), and MZ_NEW, QT_RESET,
LZ_RESET and LZ_SEEK with `Ok` alone. -/
def Obligations.ErrorKindsPerEngine : Prop :=
  ∀ s t, step s = .next t → t.run = .idle →
    (∀ c p, s.run = .mz c p → t.status ∈ [(0 : BitVec 4), 1, 2, 3, 4, 5, 6, 7]) ∧
    (∀ c p, s.run = .qt c p → t.status ∈ [(0 : BitVec 4), 7, 8]) ∧
    (∀ c, s.run = .lz c → t.status ∈ [(0 : BitVec 4), 8]) ∧
    (∀ c, s.run = .lzHdr c → t.status ∈ [(0 : BitVec 4), 1, 2, 8]) ∧
    (∀ c inp n, starts s (.mzDecode c inp n) → t.status = 7) ∧
    (∀ c inp n, starts s (.qtDecode c inp n) → t.status ∈ [(0 : BitVec 4), 7]) ∧
    (∀ c inp n, starts s (.lzDecode c inp n) → t.status ∈ [(0 : BitVec 4), 7]) ∧
    (∀ c w l, starts s (.qtInit c w l) → t.status ∈ [(0 : BitVec 4), 9]) ∧
    (∀ c hdr, ¬starts s (.lzInit c hdr)) ∧
    ((starts s .mzNew ∨ ∃ c, starts s (.qtReset c) ∨ starts s (.lzReset c) ∨ ∃ pos, starts s (.lzSeek c pos)) →
      t.status = 0)

/-! ## Invariants that every step keeps -/

/-- The canonical form of every window and table, and the ranges of their cursors, are kept by every step from every state. -/
def Obligations.StepKeepsMemoryForm : Prop := ∀ s t, MemoryInv s → step s = .next t → MemoryInv t

/-- R25, R75, R188: in every MZ context the cursor, the valid count and the bytes produced go together, and while an MZ_DECODE
is in progress OUT holds exactly the bytes of the window. -/
def Obligations.StepKeepsTheMszipInvariant : Prop :=
  ∀ s t, MemoryInv s → MzInv s → step s = .next t → MzInv t

/-- R29 to R32: the nine models of every QT context stay good and, unless a failed command left it half-way, a started coder
stays in order. -/
def Obligations.StepKeepsTheQuantumInvariant : Prop := ∀ s t, QtInv s → step s = .next t → QtInv t

/-- R72, R202, R220: every byte the valid count of a QT window covers has been written, and a QT_DECODE in progress fits its
window. -/
def Obligations.StepKeepsTheQuantumWindow : Prop :=
  ∀ s t, MemoryInv s → QtWindowInv s → step s = .next t → QtWindowInv t

/-- R247 to R251: a context without a fault is always where one uninterrupted byte-by-byte decode of its payload would be, and
OUT holds that decode's bytes from `want` on. -/
def Obligations.StepKeepsTheReplayInvariant : Prop := ∀ s t, LzInv s → step s = .next t → LzInv t

/-- R13: a step from a good state never stops on a fault of the model: no index out of range, no window byte read that was
never written, no token fetched inside a reference. -/
def Obligations.GoodStatesNeverFault : Prop := ∀ s, s.Inv → NoFault (step s)

/-! ## Whole commands -/

/-- R251: when an LZ_DECODE ends with `Ok`, OUT is bytes `want` to `want + out_len` of one uninterrupted byte-by-byte decode
of the payload from a fresh context, whatever seeks and reads went before. -/
def Obligations.LzDecodeDeliversTheReplayedBytes : Prop :=
  (∀ s t c x, LzInv s → LzAt s c x → step s = .next t → t.run = .idle → t.status = 0 →
    ∃ y D, lzOutput s.cfg s.inp (x.want + s.outLen) = some (y, D) ∧ t.out = D.drop x.want ∧ t.out.length = s.outLen) ∧
  ∀ s t c x inp n, LzInv s → starts s (.lzDecode c inp n) → s.lz[c]? = some x → step s = .next t → t.run = .idle →
    t.status = 0 →
    ∃ y D, lzOutput s.cfg inp (x.want + n) = some (y, D) ∧ t.out = D.drop x.want ∧ t.out.length = n

/-- R190: when an MZ_DECODE ends with `Ok`, OUT is full, and holds the window's bytes from the start of the call. -/
def Obligations.MzDecodeFillsTheOutput : Prop :=
  ∀ s t c p x, MemoryInv s → MzInv s → MzAt s c p x → p ≠ .sig → step s = .next t → t.run = .idle → t.status = 0 →
    t.out.length = x.outLen ∧ ∀ a, a < x.outLen → readMz t c a = t.out[a]?

/-- R204, R331: a QT_DECODE in progress ends within one step per byte still to produce, and one for the coder start. -/
def Obligations.QtDecodeEnds : Prop :=
  ∀ s c p x, s.Inv → QtAt s c p x → endsWithin (x.togo + 1) s

/-- R249, R331: an LZ_DECODE in progress, within the 32-bit positions, ends within two steps per byte it has to decode. -/
def Obligations.LzDecodeEnds : Prop :=
  ∀ s c x, s.Inv → LzAt s c x → x.want + s.outLen < 4294967296 → endsWithin (2 * (x.want + s.outLen - x.real)) s

/-- R331: an MZ_DECODE ends on every input, whatever the bytes of IN are. -/
def Obligations.MzDecodeEnds : Prop :=
  ∀ s c x, s.Inv → MzAt s c .sig x → ∃ n, endsWithin n s
end

