-- ==== Sys2Proof/Laws/State.lean ====
section
/-! SUPPORT. What each update of the state does to each field, one lemma per field and update; the same for the updates of
contexts, windows and readers that the meanings use; and what an error does to each field (60_exceptions.md R290). -/

namespace Sys2Proof.Machine

/-! ### State.setMz -/

@[simp] theorem State.setMz_cfg (s : State) (c : Nat) (x : MzCtx) : (s.setMz c x).cfg = s.cfg := rfl
@[simp] theorem State.setMz_mz (s : State) (c : Nat) (x : MzCtx) : (s.setMz c x).mz = s.mz.set c x := rfl
@[simp] theorem State.setMz_qt (s : State) (c : Nat) (x : MzCtx) : (s.setMz c x).qt = s.qt := rfl
@[simp] theorem State.setMz_lz (s : State) (c : Nat) (x : MzCtx) : (s.setMz c x).lz = s.lz := rfl
@[simp] theorem State.setMz_status (s : State) (c : Nat) (x : MzCtx) : (s.setMz c x).status = s.status := rfl
@[simp] theorem State.setMz_inp (s : State) (c : Nat) (x : MzCtx) : (s.setMz c x).inp = s.inp := rfl
@[simp] theorem State.setMz_out (s : State) (c : Nat) (x : MzCtx) : (s.setMz c x).out = s.out := rfl
@[simp] theorem State.setMz_outLen (s : State) (c : Nat) (x : MzCtx) : (s.setMz c x).outLen = s.outLen := rfl
@[simp] theorem State.setMz_run (s : State) (c : Nat) (x : MzCtx) : (s.setMz c x).run = s.run := rfl
@[simp] theorem State.setMz_pending (s : State) (c : Nat) (x : MzCtx) : (s.setMz c x).pending = s.pending := rfl
@[simp] theorem State.setMz_draws (s : State) (c : Nat) (x : MzCtx) : (s.setMz c x).draws = s.draws := rfl

/-! ### State.setQt -/

@[simp] theorem State.setQt_cfg (s : State) (c : Nat) (x : QtCtx) : (s.setQt c x).cfg = s.cfg := rfl
@[simp] theorem State.setQt_mz (s : State) (c : Nat) (x : QtCtx) : (s.setQt c x).mz = s.mz := rfl
@[simp] theorem State.setQt_qt (s : State) (c : Nat) (x : QtCtx) : (s.setQt c x).qt = s.qt.set c x := rfl
@[simp] theorem State.setQt_lz (s : State) (c : Nat) (x : QtCtx) : (s.setQt c x).lz = s.lz := rfl
@[simp] theorem State.setQt_status (s : State) (c : Nat) (x : QtCtx) : (s.setQt c x).status = s.status := rfl
@[simp] theorem State.setQt_inp (s : State) (c : Nat) (x : QtCtx) : (s.setQt c x).inp = s.inp := rfl
@[simp] theorem State.setQt_out (s : State) (c : Nat) (x : QtCtx) : (s.setQt c x).out = s.out := rfl
@[simp] theorem State.setQt_outLen (s : State) (c : Nat) (x : QtCtx) : (s.setQt c x).outLen = s.outLen := rfl
@[simp] theorem State.setQt_run (s : State) (c : Nat) (x : QtCtx) : (s.setQt c x).run = s.run := rfl
@[simp] theorem State.setQt_pending (s : State) (c : Nat) (x : QtCtx) : (s.setQt c x).pending = s.pending := rfl
@[simp] theorem State.setQt_draws (s : State) (c : Nat) (x : QtCtx) : (s.setQt c x).draws = s.draws := rfl

/-! ### State.setLz -/

@[simp] theorem State.setLz_cfg (s : State) (c : Nat) (x : LzCtx) : (s.setLz c x).cfg = s.cfg := rfl
@[simp] theorem State.setLz_mz (s : State) (c : Nat) (x : LzCtx) : (s.setLz c x).mz = s.mz := rfl
@[simp] theorem State.setLz_qt (s : State) (c : Nat) (x : LzCtx) : (s.setLz c x).qt = s.qt := rfl
@[simp] theorem State.setLz_lz (s : State) (c : Nat) (x : LzCtx) : (s.setLz c x).lz = s.lz.set c x := rfl
@[simp] theorem State.setLz_status (s : State) (c : Nat) (x : LzCtx) : (s.setLz c x).status = s.status := rfl
@[simp] theorem State.setLz_inp (s : State) (c : Nat) (x : LzCtx) : (s.setLz c x).inp = s.inp := rfl
@[simp] theorem State.setLz_out (s : State) (c : Nat) (x : LzCtx) : (s.setLz c x).out = s.out := rfl
@[simp] theorem State.setLz_outLen (s : State) (c : Nat) (x : LzCtx) : (s.setLz c x).outLen = s.outLen := rfl
@[simp] theorem State.setLz_run (s : State) (c : Nat) (x : LzCtx) : (s.setLz c x).run = s.run := rfl
@[simp] theorem State.setLz_pending (s : State) (c : Nat) (x : LzCtx) : (s.setLz c x).pending = s.pending := rfl
@[simp] theorem State.setLz_draws (s : State) (c : Nat) (x : LzCtx) : (s.setLz c x).draws = s.draws := rfl

/-! ### State.setRun -/

@[simp] theorem State.setRun_cfg (s : State) (r : Run) : (s.setRun r).cfg = s.cfg := rfl
@[simp] theorem State.setRun_mz (s : State) (r : Run) : (s.setRun r).mz = s.mz := rfl
@[simp] theorem State.setRun_qt (s : State) (r : Run) : (s.setRun r).qt = s.qt := rfl
@[simp] theorem State.setRun_lz (s : State) (r : Run) : (s.setRun r).lz = s.lz := rfl
@[simp] theorem State.setRun_status (s : State) (r : Run) : (s.setRun r).status = s.status := rfl
@[simp] theorem State.setRun_inp (s : State) (r : Run) : (s.setRun r).inp = s.inp := rfl
@[simp] theorem State.setRun_out (s : State) (r : Run) : (s.setRun r).out = s.out := rfl
@[simp] theorem State.setRun_outLen (s : State) (r : Run) : (s.setRun r).outLen = s.outLen := rfl
@[simp] theorem State.setRun_run (s : State) (r : Run) : (s.setRun r).run = r := rfl
@[simp] theorem State.setRun_pending (s : State) (r : Run) : (s.setRun r).pending = s.pending := rfl
@[simp] theorem State.setRun_draws (s : State) (r : Run) : (s.setRun r).draws = s.draws := rfl

/-! ### State.emit -/

@[simp] theorem State.emit_cfg (s : State) (bs : List Byte) : (s.emit bs).cfg = s.cfg := rfl
@[simp] theorem State.emit_mz (s : State) (bs : List Byte) : (s.emit bs).mz = s.mz := rfl
@[simp] theorem State.emit_qt (s : State) (bs : List Byte) : (s.emit bs).qt = s.qt := rfl
@[simp] theorem State.emit_lz (s : State) (bs : List Byte) : (s.emit bs).lz = s.lz := rfl
@[simp] theorem State.emit_status (s : State) (bs : List Byte) : (s.emit bs).status = s.status := rfl
@[simp] theorem State.emit_inp (s : State) (bs : List Byte) : (s.emit bs).inp = s.inp := rfl
@[simp] theorem State.emit_out (s : State) (bs : List Byte) : (s.emit bs).out = s.out ++ bs := rfl
@[simp] theorem State.emit_outLen (s : State) (bs : List Byte) : (s.emit bs).outLen = s.outLen := rfl
@[simp] theorem State.emit_run (s : State) (bs : List Byte) : (s.emit bs).run = s.run := rfl
@[simp] theorem State.emit_pending (s : State) (bs : List Byte) : (s.emit bs).pending = s.pending := rfl
@[simp] theorem State.emit_draws (s : State) (bs : List Byte) : (s.emit bs).draws = s.draws := rfl

/-! ### State.openCall -/

@[simp] theorem State.openCall_cfg (s : State) (b : List Byte) (n : Nat) : (s.openCall b n).cfg = s.cfg := rfl
@[simp] theorem State.openCall_mz (s : State) (b : List Byte) (n : Nat) : (s.openCall b n).mz = s.mz := rfl
@[simp] theorem State.openCall_qt (s : State) (b : List Byte) (n : Nat) : (s.openCall b n).qt = s.qt := rfl
@[simp] theorem State.openCall_lz (s : State) (b : List Byte) (n : Nat) : (s.openCall b n).lz = s.lz := rfl
@[simp] theorem State.openCall_status (s : State) (b : List Byte) (n : Nat) : (s.openCall b n).status = s.status := rfl
@[simp] theorem State.openCall_inp (s : State) (b : List Byte) (n : Nat) : (s.openCall b n).inp = b := rfl
@[simp] theorem State.openCall_out (s : State) (b : List Byte) (n : Nat) : (s.openCall b n).out = [] := rfl
@[simp] theorem State.openCall_outLen (s : State) (b : List Byte) (n : Nat) : (s.openCall b n).outLen = n := rfl
@[simp] theorem State.openCall_run (s : State) (b : List Byte) (n : Nat) : (s.openCall b n).run = s.run := rfl
@[simp] theorem State.openCall_pending (s : State) (b : List Byte) (n : Nat) : (s.openCall b n).pending = s.pending := rfl
@[simp] theorem State.openCall_draws (s : State) (b : List Byte) (n : Nat) : (s.openCall b n).draws = s.draws := rfl

/-! ### State.finish -/

@[simp] theorem State.finish_cfg (s : State) : s.finish.cfg = s.cfg := rfl
@[simp] theorem State.finish_mz (s : State) : s.finish.mz = s.mz := rfl
@[simp] theorem State.finish_qt (s : State) : s.finish.qt = s.qt := rfl
@[simp] theorem State.finish_lz (s : State) : s.finish.lz = s.lz := rfl
@[simp] theorem State.finish_status (s : State) : s.finish.status = statusOk := rfl
@[simp] theorem State.finish_inp (s : State) : s.finish.inp = s.inp := rfl
@[simp] theorem State.finish_out (s : State) : s.finish.out = s.out := rfl
@[simp] theorem State.finish_outLen (s : State) : s.finish.outLen = s.outLen := rfl
@[simp] theorem State.finish_run (s : State) : s.finish.run = .idle := rfl
@[simp] theorem State.finish_pending (s : State) : s.finish.pending = s.pending := rfl
@[simp] theorem State.finish_draws (s : State) : s.finish.draws = s.draws := rfl

/-! ### State.endWith -/

@[simp] theorem State.endWith_cfg (s : State) (k : ErrKind) : (s.endWith k).cfg = s.cfg := rfl
@[simp] theorem State.endWith_mz (s : State) (k : ErrKind) : (s.endWith k).mz = s.mz := rfl
@[simp] theorem State.endWith_qt (s : State) (k : ErrKind) : (s.endWith k).qt = s.qt := rfl
@[simp] theorem State.endWith_lz (s : State) (k : ErrKind) : (s.endWith k).lz = s.lz := rfl
@[simp] theorem State.endWith_status (s : State) (k : ErrKind) : (s.endWith k).status = k.code := rfl
@[simp] theorem State.endWith_inp (s : State) (k : ErrKind) : (s.endWith k).inp = s.inp := rfl
@[simp] theorem State.endWith_out (s : State) (k : ErrKind) : (s.endWith k).out = s.out := rfl
@[simp] theorem State.endWith_outLen (s : State) (k : ErrKind) : (s.endWith k).outLen = s.outLen := rfl
@[simp] theorem State.endWith_run (s : State) (k : ErrKind) : (s.endWith k).run = .idle := rfl
@[simp] theorem State.endWith_pending (s : State) (k : ErrKind) : (s.endWith k).pending = s.pending := rfl
@[simp] theorem State.endWith_draws (s : State) (k : ErrKind) : (s.endWith k).draws = s.draws := rfl

/-! ### State.spoilOut -/

@[simp] theorem State.spoilOut_cfg (s : State) : s.spoilOut.cfg = s.cfg := rfl
@[simp] theorem State.spoilOut_mz (s : State) : s.spoilOut.mz = s.mz := rfl
@[simp] theorem State.spoilOut_qt (s : State) : s.spoilOut.qt = s.qt := rfl
@[simp] theorem State.spoilOut_lz (s : State) : s.spoilOut.lz = s.lz := rfl
@[simp] theorem State.spoilOut_status (s : State) : s.spoilOut.status = s.status := rfl
@[simp] theorem State.spoilOut_inp (s : State) : s.spoilOut.inp = s.inp := rfl
@[simp] theorem State.spoilOut_out (s : State) : s.spoilOut.out = (List.range s.outLen).map (Config.freeByte s.draws) := rfl
@[simp] theorem State.spoilOut_outLen (s : State) : s.spoilOut.outLen = s.outLen := rfl
@[simp] theorem State.spoilOut_run (s : State) : s.spoilOut.run = s.run := rfl
@[simp] theorem State.spoilOut_pending (s : State) : s.spoilOut.pending = s.pending := rfl
@[simp] theorem State.spoilOut_draws (s : State) : s.spoilOut.draws = s.draws + 1 := rfl

/-! ### State.reject -/

@[simp] theorem State.reject_cfg (s : State) (k : ErrKind) : (s.reject k).cfg = s.cfg := rfl
@[simp] theorem State.reject_mz (s : State) (k : ErrKind) : (s.reject k).mz = s.mz := rfl
@[simp] theorem State.reject_qt (s : State) (k : ErrKind) : (s.reject k).qt = s.qt := rfl
@[simp] theorem State.reject_lz (s : State) (k : ErrKind) : (s.reject k).lz = s.lz := rfl
@[simp] theorem State.reject_status (s : State) (k : ErrKind) : (s.reject k).status = k.code := rfl
@[simp] theorem State.reject_inp (s : State) (k : ErrKind) : (s.reject k).inp = s.inp := rfl
@[simp] theorem State.reject_out (s : State) (k : ErrKind) : (s.reject k).out = (List.range s.outLen).map (Config.freeByte s.draws) := rfl
@[simp] theorem State.reject_outLen (s : State) (k : ErrKind) : (s.reject k).outLen = s.outLen := rfl
@[simp] theorem State.reject_run (s : State) (k : ErrKind) : (s.reject k).run = .idle := rfl
@[simp] theorem State.reject_pending (s : State) (k : ErrKind) : (s.reject k).pending = s.pending := rfl
@[simp] theorem State.reject_draws (s : State) (k : ErrKind) : (s.reject k).draws = s.draws + 1 := rfl

/-! ### State.markFault and State.raise (R290) -/

@[simp] theorem State.markFault_cfg (s : State) : s.markFault.cfg = s.cfg := by unfold State.markFault; split <;> rfl
@[simp] theorem State.markFault_mz (s : State) : s.markFault.mz = s.mz := by unfold State.markFault; split <;> rfl
@[simp] theorem State.markFault_status (s : State) : s.markFault.status = s.status := by unfold State.markFault; split <;> rfl
@[simp] theorem State.markFault_inp (s : State) : s.markFault.inp = s.inp := by unfold State.markFault; split <;> rfl
@[simp] theorem State.markFault_out (s : State) : s.markFault.out = s.out := by unfold State.markFault; split <;> rfl
@[simp] theorem State.markFault_outLen (s : State) : s.markFault.outLen = s.outLen := by unfold State.markFault; split <;> rfl
@[simp] theorem State.markFault_run (s : State) : s.markFault.run = s.run := by unfold State.markFault; split <;> rfl
@[simp] theorem State.markFault_pending (s : State) : s.markFault.pending = s.pending := by unfold State.markFault; split <;> rfl
@[simp] theorem State.markFault_draws (s : State) : s.markFault.draws = s.draws := by unfold State.markFault; split <;> rfl

@[simp] theorem State.raise_status (s : State) (k : ErrKind) : (s.raise k).status = k.code := by
  unfold State.raise; split <;> rfl
@[simp] theorem State.raise_run (s : State) (k : ErrKind) : (s.raise k).run = .idle := by
  unfold State.raise; split <;> rfl
@[simp] theorem State.raise_cfg (s : State) (k : ErrKind) : (s.raise k).cfg = s.cfg := by
  unfold State.raise; split <;> simp
@[simp] theorem State.raise_mz (s : State) (k : ErrKind) : (s.raise k).mz = s.mz := by
  unfold State.raise; split <;> simp
@[simp] theorem State.raise_inp (s : State) (k : ErrKind) : (s.raise k).inp = s.inp := by
  unfold State.raise; split <;> simp
@[simp] theorem State.raise_outLen (s : State) (k : ErrKind) : (s.raise k).outLen = s.outLen := by
  unfold State.raise; split <;> simp
@[simp] theorem State.raise_pending (s : State) (k : ErrKind) : (s.raise k).pending = s.pending := by
  unfold State.raise; split <;> simp

/-- The QT contexts after an error: the fault flag of the one a decode was in progress on (R290 (3)). -/
theorem State.raise_qt (s : State) (k : ErrKind) :
    (s.raise k).qt = match s.run with
      | .qt c _ => s.qt.modify c fun x => { x with fault := true }
      | _ => s.qt := by
  unfold State.raise; split <;> simp_all [State.markFault]

/-- The LZ contexts after an error: the fault flag of the one a decode was in progress on (R290 (3)). -/
theorem State.raise_lz (s : State) (k : ErrKind) :
    (s.raise k).lz = match s.run with
      | .lz c => s.lz.modify c fun x => { x with fault := true }
      | _ => s.lz := by
  unfold State.raise; split <;> simp_all [State.markFault]

/-! ### Window.put -/

@[simp] theorem Window.put_cells (w : Window) (sp : Space) (cap : Nat) (b : Byte) : (w.put sp cap b).cells = memWrite sp w.cells w.wpos b := rfl
@[simp] theorem Window.put_wpos (w : Window) (sp : Space) (cap : Nat) (b : Byte) : (w.put sp cap b).wpos = wrapNext cap w.wpos := rfl
@[simp] theorem Window.put_valid (w : Window) (sp : Space) (cap : Nat) (b : Byte) : (w.put sp cap b).valid = min (w.valid + 1) cap := rfl

/-! ### MzCtx.emit -/

@[simp] theorem MzCtx.emit_win (x : MzCtx) (b : Byte) : (x.emit b).win = x.win.put .mzwin mzWsize b := rfl
@[simp] theorem MzCtx.emit_produced (x : MzCtx) (b : Byte) : (x.emit b).produced = x.produced + 1 := rfl
@[simp] theorem MzCtx.emit_outLen (x : MzCtx) (b : Byte) : (x.emit b).outLen = x.outLen := rfl
@[simp] theorem MzCtx.emit_br (x : MzCtx) (b : Byte) : (x.emit b).br = x.br := rfl
@[simp] theorem MzCtx.emit_final (x : MzCtx) (b : Byte) : (x.emit b).final = x.final := rfl
@[simp] theorem MzCtx.emit_btype (x : MzCtx) (b : Byte) : (x.emit b).btype = x.btype := rfl
@[simp] theorem MzCtx.emit_nl (x : MzCtx) (b : Byte) : (x.emit b).nl = x.nl := rfl
@[simp] theorem MzCtx.emit_nd (x : MzCtx) (b : Byte) : (x.emit b).nd = x.nd := rfl
@[simp] theorem MzCtx.emit_nb (x : MzCtx) (b : Byte) : (x.emit b).nb = x.nb := rfl
@[simp] theorem MzCtx.emit_cl (x : MzCtx) (b : Byte) : (x.emit b).cl = x.cl := rfl
@[simp] theorem MzCtx.emit_ll (x : MzCtx) (b : Byte) : (x.emit b).ll = x.ll := rfl
@[simp] theorem MzCtx.emit_prev (x : MzCtx) (b : Byte) : (x.emit b).prev = x.prev := rfl
@[simp] theorem MzCtx.emit_tc (x : MzCtx) (b : Byte) : (x.emit b).tc = x.tc := rfl
@[simp] theorem MzCtx.emit_tl (x : MzCtx) (b : Byte) : (x.emit b).tl = x.tl := rfl
@[simp] theorem MzCtx.emit_td (x : MzCtx) (b : Byte) : (x.emit b).td = x.td := rfl

/-! ### MzCtx.openBlock -/

@[simp] theorem MzCtx.openBlock_win (x : MzCtx) (f : Bool) (t : BitVec 2) : (x.openBlock f t).win = x.win := rfl
@[simp] theorem MzCtx.openBlock_produced (x : MzCtx) (f : Bool) (t : BitVec 2) : (x.openBlock f t).produced = x.produced := rfl
@[simp] theorem MzCtx.openBlock_outLen (x : MzCtx) (f : Bool) (t : BitVec 2) : (x.openBlock f t).outLen = x.outLen := rfl
@[simp] theorem MzCtx.openBlock_br (x : MzCtx) (f : Bool) (t : BitVec 2) : (x.openBlock f t).br = x.br := rfl
@[simp] theorem MzCtx.openBlock_final (x : MzCtx) (f : Bool) (t : BitVec 2) : (x.openBlock f t).final = f := rfl
@[simp] theorem MzCtx.openBlock_btype (x : MzCtx) (f : Bool) (t : BitVec 2) : (x.openBlock f t).btype = t := rfl
@[simp] theorem MzCtx.openBlock_nl (x : MzCtx) (f : Bool) (t : BitVec 2) : (x.openBlock f t).nl = x.nl := rfl
@[simp] theorem MzCtx.openBlock_nd (x : MzCtx) (f : Bool) (t : BitVec 2) : (x.openBlock f t).nd = x.nd := rfl
@[simp] theorem MzCtx.openBlock_nb (x : MzCtx) (f : Bool) (t : BitVec 2) : (x.openBlock f t).nb = x.nb := rfl
@[simp] theorem MzCtx.openBlock_cl (x : MzCtx) (f : Bool) (t : BitVec 2) : (x.openBlock f t).cl = x.cl := rfl
@[simp] theorem MzCtx.openBlock_ll (x : MzCtx) (f : Bool) (t : BitVec 2) : (x.openBlock f t).ll = x.ll := rfl
@[simp] theorem MzCtx.openBlock_prev (x : MzCtx) (f : Bool) (t : BitVec 2) : (x.openBlock f t).prev = x.prev := rfl
@[simp] theorem MzCtx.openBlock_tc (x : MzCtx) (f : Bool) (t : BitVec 2) : (x.openBlock f t).tc = x.tc := rfl
@[simp] theorem MzCtx.openBlock_tl (x : MzCtx) (f : Bool) (t : BitVec 2) : (x.openBlock f t).tl = x.tl := rfl
@[simp] theorem MzCtx.openBlock_td (x : MzCtx) (f : Bool) (t : BitVec 2) : (x.openBlock f t).td = x.td := rfl

/-! ### QtCtx.emit -/

@[simp] theorem QtCtx.emit_wbits (x : QtCtx) (b : Byte) : (x.emit b).wbits = x.wbits := rfl
@[simp] theorem QtCtx.emit_level (x : QtCtx) (b : Byte) : (x.emit b).level = x.level := rfl
@[simp] theorem QtCtx.emit_wsize (x : QtCtx) (b : Byte) : (x.emit b).wsize = x.wsize := rfl
@[simp] theorem QtCtx.emit_win (x : QtCtx) (b : Byte) : (x.emit b).win = x.win.put .qtwin x.wsize b := rfl
@[simp] theorem QtCtx.emit_L (x : QtCtx) (b : Byte) : (x.emit b).L = x.L := rfl
@[simp] theorem QtCtx.emit_H (x : QtCtx) (b : Byte) : (x.emit b).H = x.H := rfl
@[simp] theorem QtCtx.emit_C (x : QtCtx) (b : Byte) : (x.emit b).C = x.C := rfl
@[simp] theorem QtCtx.emit_started (x : QtCtx) (b : Byte) : (x.emit b).started = x.started := rfl
@[simp] theorem QtCtx.emit_fault (x : QtCtx) (b : Byte) : (x.emit b).fault = x.fault := rfl
@[simp] theorem QtCtx.emit_m7 (x : QtCtx) (b : Byte) : (x.emit b).m7 = x.m7 := rfl
@[simp] theorem QtCtx.emit_m00 (x : QtCtx) (b : Byte) : (x.emit b).m00 = x.m00 := rfl
@[simp] theorem QtCtx.emit_m40 (x : QtCtx) (b : Byte) : (x.emit b).m40 = x.m40 := rfl
@[simp] theorem QtCtx.emit_m80 (x : QtCtx) (b : Byte) : (x.emit b).m80 = x.m80 := rfl
@[simp] theorem QtCtx.emit_mC0 (x : QtCtx) (b : Byte) : (x.emit b).mC0 = x.mC0 := rfl
@[simp] theorem QtCtx.emit_m4 (x : QtCtx) (b : Byte) : (x.emit b).m4 = x.m4 := rfl
@[simp] theorem QtCtx.emit_m5 (x : QtCtx) (b : Byte) : (x.emit b).m5 = x.m5 := rfl
@[simp] theorem QtCtx.emit_m6len (x : QtCtx) (b : Byte) : (x.emit b).m6len = x.m6len := rfl
@[simp] theorem QtCtx.emit_m6pos (x : QtCtx) (b : Byte) : (x.emit b).m6pos = x.m6pos := rfl
@[simp] theorem QtCtx.emit_togo (x : QtCtx) (b : Byte) : (x.emit b).togo = x.togo - 1 := rfl
@[simp] theorem QtCtx.emit_bm (x : QtCtx) (b : Byte) : (x.emit b).bm = x.bm := rfl

/-! ### QtCtx.restart -/

@[simp] theorem QtCtx.restart_wbits (x : QtCtx) (cfg : Config) : (x.restart cfg).wbits = x.wbits := rfl
@[simp] theorem QtCtx.restart_level (x : QtCtx) (cfg : Config) : (x.restart cfg).level = x.level := rfl
@[simp] theorem QtCtx.restart_wsize (x : QtCtx) (cfg : Config) : (x.restart cfg).wsize = x.wsize := rfl
@[simp] theorem QtCtx.restart_win (x : QtCtx) (cfg : Config) : (x.restart cfg).win = { x.win with wpos := 0, valid := 0 } := rfl
@[simp] theorem QtCtx.restart_L (x : QtCtx) (cfg : Config) : (x.restart cfg).L = x.L := rfl
@[simp] theorem QtCtx.restart_H (x : QtCtx) (cfg : Config) : (x.restart cfg).H = x.H := rfl
@[simp] theorem QtCtx.restart_C (x : QtCtx) (cfg : Config) : (x.restart cfg).C = x.C := rfl
@[simp] theorem QtCtx.restart_started (x : QtCtx) (cfg : Config) : (x.restart cfg).started = false := rfl
@[simp] theorem QtCtx.restart_fault (x : QtCtx) (cfg : Config) : (x.restart cfg).fault = false := rfl
@[simp] theorem QtCtx.restart_m7 (x : QtCtx) (cfg : Config) : (x.restart cfg).m7 = initModel cfg x.wbits .m7 := rfl
@[simp] theorem QtCtx.restart_m00 (x : QtCtx) (cfg : Config) : (x.restart cfg).m00 = initModel cfg x.wbits .m00 := rfl
@[simp] theorem QtCtx.restart_m40 (x : QtCtx) (cfg : Config) : (x.restart cfg).m40 = initModel cfg x.wbits .m40 := rfl
@[simp] theorem QtCtx.restart_m80 (x : QtCtx) (cfg : Config) : (x.restart cfg).m80 = initModel cfg x.wbits .m80 := rfl
@[simp] theorem QtCtx.restart_mC0 (x : QtCtx) (cfg : Config) : (x.restart cfg).mC0 = initModel cfg x.wbits .mC0 := rfl
@[simp] theorem QtCtx.restart_m4 (x : QtCtx) (cfg : Config) : (x.restart cfg).m4 = initModel cfg x.wbits .m4 := rfl
@[simp] theorem QtCtx.restart_m5 (x : QtCtx) (cfg : Config) : (x.restart cfg).m5 = initModel cfg x.wbits .m5 := rfl
@[simp] theorem QtCtx.restart_m6len (x : QtCtx) (cfg : Config) : (x.restart cfg).m6len = initModel cfg x.wbits .m6len := rfl
@[simp] theorem QtCtx.restart_m6pos (x : QtCtx) (cfg : Config) : (x.restart cfg).m6pos = initModel cfg x.wbits .m6pos := rfl
@[simp] theorem QtCtx.restart_togo (x : QtCtx) (cfg : Config) : (x.restart cfg).togo = x.togo := rfl
@[simp] theorem QtCtx.restart_bm (x : QtCtx) (cfg : Config) : (x.restart cfg).bm = x.bm := rfl

/-! ### QtCtx.adjust -/

@[simp] theorem QtCtx.adjust_wbits (x : QtCtx) : x.adjust.wbits = x.wbits := rfl
@[simp] theorem QtCtx.adjust_level (x : QtCtx) : x.adjust.level = x.level := rfl
@[simp] theorem QtCtx.adjust_wsize (x : QtCtx) : x.adjust.wsize = x.wsize := rfl
@[simp] theorem QtCtx.adjust_win (x : QtCtx) : x.adjust.win = x.win := rfl
@[simp] theorem QtCtx.adjust_L (x : QtCtx) : x.adjust.L = x.L &&& 0x3FFF := rfl
@[simp] theorem QtCtx.adjust_H (x : QtCtx) : x.adjust.H = x.H ||| 0x4000 := rfl
@[simp] theorem QtCtx.adjust_C (x : QtCtx) : x.adjust.C = x.C ^^^ 0x4000 := rfl
@[simp] theorem QtCtx.adjust_started (x : QtCtx) : x.adjust.started = x.started := rfl
@[simp] theorem QtCtx.adjust_fault (x : QtCtx) : x.adjust.fault = x.fault := rfl
@[simp] theorem QtCtx.adjust_m7 (x : QtCtx) : x.adjust.m7 = x.m7 := rfl
@[simp] theorem QtCtx.adjust_m00 (x : QtCtx) : x.adjust.m00 = x.m00 := rfl
@[simp] theorem QtCtx.adjust_m40 (x : QtCtx) : x.adjust.m40 = x.m40 := rfl
@[simp] theorem QtCtx.adjust_m80 (x : QtCtx) : x.adjust.m80 = x.m80 := rfl
@[simp] theorem QtCtx.adjust_mC0 (x : QtCtx) : x.adjust.mC0 = x.mC0 := rfl
@[simp] theorem QtCtx.adjust_m4 (x : QtCtx) : x.adjust.m4 = x.m4 := rfl
@[simp] theorem QtCtx.adjust_m5 (x : QtCtx) : x.adjust.m5 = x.m5 := rfl
@[simp] theorem QtCtx.adjust_m6len (x : QtCtx) : x.adjust.m6len = x.m6len := rfl
@[simp] theorem QtCtx.adjust_m6pos (x : QtCtx) : x.adjust.m6pos = x.m6pos := rfl
@[simp] theorem QtCtx.adjust_togo (x : QtCtx) : x.adjust.togo = x.togo := rfl
@[simp] theorem QtCtx.adjust_bm (x : QtCtx) : x.adjust.bm = x.bm := rfl

/-! ### LzCtx.put -/

@[simp] theorem LzCtx.put_tab (cfg : Config) (x : LzCtx) (b : Byte) : (x.put cfg b).tab = memWrite (.lztab cfg.lzFill) x.tab x.cur b := rfl
@[simp] theorem LzCtx.put_cur (cfg : Config) (x : LzCtx) (b : Byte) : (x.put cfg b).cur = wrapNext lzTsize x.cur := rfl
@[simp] theorem LzCtx.put_flags (cfg : Config) (x : LzCtx) (b : Byte) : (x.put cfg b).flags = x.flags := rfl
@[simp] theorem LzCtx.put_fcnt (cfg : Config) (x : LzCtx) (b : Byte) : (x.put cfg b).fcnt = x.fcnt := rfl
@[simp] theorem LzCtx.put_spos (cfg : Config) (x : LzCtx) (b : Byte) : (x.put cfg b).spos = x.spos := rfl
@[simp] theorem LzCtx.put_slen (cfg : Config) (x : LzCtx) (b : Byte) : (x.put cfg b).slen = x.slen := rfl
@[simp] theorem LzCtx.put_real (cfg : Config) (x : LzCtx) (b : Byte) : (x.put cfg b).real = x.real + 1 := rfl
@[simp] theorem LzCtx.put_want (cfg : Config) (x : LzCtx) (b : Byte) : (x.put cfg b).want = x.want := rfl
@[simp] theorem LzCtx.put_inPos (cfg : Config) (x : LzCtx) (b : Byte) : (x.put cfg b).inPos = x.inPos := rfl
@[simp] theorem LzCtx.put_fault (cfg : Config) (x : LzCtx) (b : Byte) : (x.put cfg b).fault = x.fault := rfl
@[simp] theorem LzCtx.put_compType (cfg : Config) (x : LzCtx) (b : Byte) : (x.put cfg b).compType = x.compType := rfl
@[simp] theorem LzCtx.put_lastChar (cfg : Config) (x : LzCtx) (b : Byte) : (x.put cfg b).lastChar = x.lastChar := rfl
@[simp] theorem LzCtx.put_realLength (cfg : Config) (x : LzCtx) (b : Byte) : (x.put cfg b).realLength = x.realLength := rfl
@[simp] theorem LzCtx.put_payload (cfg : Config) (x : LzCtx) (b : Byte) : (x.put cfg b).payload = x.payload := rfl

/-! ### LzCtx.loadFlags -/

@[simp] theorem LzCtx.loadFlags_tab (x : LzCtx) (b : Byte) : (x.loadFlags b).tab = x.tab := rfl
@[simp] theorem LzCtx.loadFlags_cur (x : LzCtx) (b : Byte) : (x.loadFlags b).cur = x.cur := rfl
@[simp] theorem LzCtx.loadFlags_flags (x : LzCtx) (b : Byte) : (x.loadFlags b).flags = b := rfl
@[simp] theorem LzCtx.loadFlags_fcnt (x : LzCtx) (b : Byte) : (x.loadFlags b).fcnt = 8 := rfl
@[simp] theorem LzCtx.loadFlags_spos (x : LzCtx) (b : Byte) : (x.loadFlags b).spos = x.spos := rfl
@[simp] theorem LzCtx.loadFlags_slen (x : LzCtx) (b : Byte) : (x.loadFlags b).slen = x.slen := rfl
@[simp] theorem LzCtx.loadFlags_real (x : LzCtx) (b : Byte) : (x.loadFlags b).real = x.real := rfl
@[simp] theorem LzCtx.loadFlags_want (x : LzCtx) (b : Byte) : (x.loadFlags b).want = x.want := rfl
@[simp] theorem LzCtx.loadFlags_inPos (x : LzCtx) (b : Byte) : (x.loadFlags b).inPos = x.inPos := rfl
@[simp] theorem LzCtx.loadFlags_fault (x : LzCtx) (b : Byte) : (x.loadFlags b).fault = x.fault := rfl
@[simp] theorem LzCtx.loadFlags_compType (x : LzCtx) (b : Byte) : (x.loadFlags b).compType = x.compType := rfl
@[simp] theorem LzCtx.loadFlags_lastChar (x : LzCtx) (b : Byte) : (x.loadFlags b).lastChar = x.lastChar := rfl
@[simp] theorem LzCtx.loadFlags_realLength (x : LzCtx) (b : Byte) : (x.loadFlags b).realLength = x.realLength := rfl
@[simp] theorem LzCtx.loadFlags_payload (x : LzCtx) (b : Byte) : (x.loadFlags b).payload = x.payload := rfl

/-! ### LzCtx.shiftFlags -/

@[simp] theorem LzCtx.shiftFlags_tab (x : LzCtx) : x.shiftFlags.tab = x.tab := rfl
@[simp] theorem LzCtx.shiftFlags_cur (x : LzCtx) : x.shiftFlags.cur = x.cur := rfl
@[simp] theorem LzCtx.shiftFlags_flags (x : LzCtx) : x.shiftFlags.flags = x.flags >>> 1 := rfl
@[simp] theorem LzCtx.shiftFlags_fcnt (x : LzCtx) : x.shiftFlags.fcnt = x.fcnt - 1 := rfl
@[simp] theorem LzCtx.shiftFlags_spos (x : LzCtx) : x.shiftFlags.spos = x.spos := rfl
@[simp] theorem LzCtx.shiftFlags_slen (x : LzCtx) : x.shiftFlags.slen = x.slen := rfl
@[simp] theorem LzCtx.shiftFlags_real (x : LzCtx) : x.shiftFlags.real = x.real := rfl
@[simp] theorem LzCtx.shiftFlags_want (x : LzCtx) : x.shiftFlags.want = x.want := rfl
@[simp] theorem LzCtx.shiftFlags_inPos (x : LzCtx) : x.shiftFlags.inPos = x.inPos := rfl
@[simp] theorem LzCtx.shiftFlags_fault (x : LzCtx) : x.shiftFlags.fault = x.fault := rfl
@[simp] theorem LzCtx.shiftFlags_compType (x : LzCtx) : x.shiftFlags.compType = x.compType := rfl
@[simp] theorem LzCtx.shiftFlags_lastChar (x : LzCtx) : x.shiftFlags.lastChar = x.lastChar := rfl
@[simp] theorem LzCtx.shiftFlags_realLength (x : LzCtx) : x.shiftFlags.realLength = x.realLength := rfl
@[simp] theorem LzCtx.shiftFlags_payload (x : LzCtx) : x.shiftFlags.payload = x.payload := rfl

/-! ### LzCtx.replayReset -/

@[simp] theorem LzCtx.replayReset_tab (x : LzCtx) : x.replayReset.tab = [] := rfl
@[simp] theorem LzCtx.replayReset_cur (x : LzCtx) : x.replayReset.cur = lzStart := rfl
@[simp] theorem LzCtx.replayReset_flags (x : LzCtx) : x.replayReset.flags = 0 := rfl
@[simp] theorem LzCtx.replayReset_fcnt (x : LzCtx) : x.replayReset.fcnt = 0 := rfl
@[simp] theorem LzCtx.replayReset_spos (x : LzCtx) : x.replayReset.spos = 0 := rfl
@[simp] theorem LzCtx.replayReset_slen (x : LzCtx) : x.replayReset.slen = 0 := rfl
@[simp] theorem LzCtx.replayReset_real (x : LzCtx) : x.replayReset.real = 0 := rfl
@[simp] theorem LzCtx.replayReset_want (x : LzCtx) : x.replayReset.want = x.want := rfl
@[simp] theorem LzCtx.replayReset_inPos (x : LzCtx) : x.replayReset.inPos = 0 := rfl
@[simp] theorem LzCtx.replayReset_fault (x : LzCtx) : x.replayReset.fault = x.fault := rfl
@[simp] theorem LzCtx.replayReset_compType (x : LzCtx) : x.replayReset.compType = x.compType := rfl
@[simp] theorem LzCtx.replayReset_lastChar (x : LzCtx) : x.replayReset.lastChar = x.lastChar := rfl
@[simp] theorem LzCtx.replayReset_realLength (x : LzCtx) : x.replayReset.realLength = x.realLength := rfl
@[simp] theorem LzCtx.replayReset_payload (x : LzCtx) : x.replayReset.payload = x.payload := rfl

/-! ### Brl.push -/

@[simp] theorem Brl.push_inOff (cfg : Config) (r : Brl) (b : Byte) : (r.push cfg b).inOff = r.inOff := rfl
@[simp] theorem Brl.push_acc (cfg : Config) (r : Brl) (b : Byte) : (r.push cfg b).acc = (r.acc ||| (b.toNat <<< r.nbits)) % 2 ^ cfg.accWidth := rfl
@[simp] theorem Brl.push_nbits (cfg : Config) (r : Brl) (b : Byte) : (r.push cfg b).nbits = r.nbits + 8 := rfl
@[simp] theorem Brl.push_zf (cfg : Config) (r : Brl) (b : Byte) : (r.push cfg b).zf = r.zf := rfl

/-! ### Writing one model of a QT context -/

@[simp] theorem QtCtx.model_setModel_same (x : QtCtx) (w : QModelId) (m : QModel) : (x.setModel w m).model w = m := by
  cases w <;> rfl

theorem QtCtx.model_setModel_other (x : QtCtx) (w v : QModelId) (m : QModel) (h : v ≠ w) :
    (x.setModel w m).model v = x.model v := by
  cases w <;> cases v <;> first | rfl | exact absurd rfl h

@[simp] theorem QtCtx.setModel_wbits (x : QtCtx) (w : QModelId) (m : QModel) : (x.setModel w m).wbits = x.wbits := by cases w <;> rfl
@[simp] theorem QtCtx.setModel_wsize (x : QtCtx) (w : QModelId) (m : QModel) : (x.setModel w m).wsize = x.wsize := by cases w <;> rfl
@[simp] theorem QtCtx.setModel_win (x : QtCtx) (w : QModelId) (m : QModel) : (x.setModel w m).win = x.win := by cases w <;> rfl
@[simp] theorem QtCtx.setModel_L (x : QtCtx) (w : QModelId) (m : QModel) : (x.setModel w m).L = x.L := by cases w <;> rfl
@[simp] theorem QtCtx.setModel_H (x : QtCtx) (w : QModelId) (m : QModel) : (x.setModel w m).H = x.H := by cases w <;> rfl
@[simp] theorem QtCtx.setModel_C (x : QtCtx) (w : QModelId) (m : QModel) : (x.setModel w m).C = x.C := by cases w <;> rfl
@[simp] theorem QtCtx.setModel_started (x : QtCtx) (w : QModelId) (m : QModel) : (x.setModel w m).started = x.started := by cases w <;> rfl
@[simp] theorem QtCtx.setModel_fault (x : QtCtx) (w : QModelId) (m : QModel) : (x.setModel w m).fault = x.fault := by cases w <;> rfl
@[simp] theorem QtCtx.setModel_togo (x : QtCtx) (w : QModelId) (m : QModel) : (x.setModel w m).togo = x.togo := by cases w <;> rfl
@[simp] theorem QtCtx.setModel_bm (x : QtCtx) (w : QModelId) (m : QModel) : (x.setModel w m).bm = x.bm := by cases w <;> rfl

end Sys2Proof.Machine
end

