-- ==== Sys2Proof/Laws/Memory.lean ====
section
/-! SUPPORT. The laws of the byte spaces: a read after a write (20_memory.md R67, R76), and that every operation that writes
a space keeps the canonical form `Memory.wf`. -/

namespace Sys2Proof.Machine

/-! ## The canonical form, taken apart -/

theorem risingFrom_tail {lo : Option Nat} {c : Host.Cell} {m : Memory} (h : risingFrom lo (c :: m) = true) :
    risingFrom (some c.1) m = true := by
  obtain ⟨k, v⟩ := c
  simp only [risingFrom, Bool.and_eq_true] at h
  exact h.2

theorem risingFrom_lt {l : Nat} {m : Memory} (h : risingFrom (some l) m = true) : ∀ c ∈ m, l < c.1 := by
  induction m generalizing l with
  | nil => simp
  | cons c m ih =>
    obtain ⟨k, v⟩ := c
    simp only [risingFrom, Bool.and_eq_true, decide_eq_true_eq] at h
    intro d hd
    rcases List.mem_cons.1 hd with rfl | hd
    · exact h.1
    · exact lt_trans h.1 (ih h.2 d hd)

theorem risingFrom_mono {l l' : Nat} {m : Memory} (hl : l' ≤ l) (h : risingFrom (some l) m = true) :
    risingFrom (some l') m = true := by
  cases m with
  | nil => rfl
  | cons c m =>
    obtain ⟨k, v⟩ := c
    simp only [risingFrom, Bool.and_eq_true, decide_eq_true_eq] at h ⊢
    exact ⟨by omega, h.2⟩

theorem risingFrom_none {l : Nat} {m : Memory} (h : risingFrom (some l) m = true) : risingFrom none m = true := by
  cases m with
  | nil => rfl
  | cons c m =>
    obtain ⟨k, v⟩ := c
    simp only [risingFrom, Bool.and_eq_true, Bool.true_and] at h ⊢
    exact h.2

theorem memLookup_none_of_lt {l a : Nat} {m : Memory} (h : risingFrom (some l) m = true) (ha : a ≤ l) :
    memLookup a m = none := by
  induction m generalizing l with
  | nil => rfl
  | cons c m ih =>
    obtain ⟨k, v⟩ := c
    simp only [risingFrom, Bool.and_eq_true, decide_eq_true_eq] at h
    simp only [memLookup]
    rw [if_neg (by omega)]
    exact ih h.2 (by omega)

/-! ## Read after write -/

theorem memLookup_memErase {lo : Option Nat} {m : Memory} (h : risingFrom lo m = true) (a a' : Nat) :
    memLookup a' (memErase a m) = if a' = a then none else memLookup a' m := by
  induction m generalizing lo with
  | nil => simp [memErase, memLookup]
  | cons c m ih =>
    obtain ⟨k, v⟩ := c
    have ht := risingFrom_tail h
    simp only [memErase]
    by_cases hk : k = a
    · subst hk
      rw [if_pos rfl]
      by_cases ha : a' = k
      · subst ha; simp [memLookup_none_of_lt ht le_rfl]
      · simp [memLookup, ha, Ne.symm ha]
    · rw [if_neg hk]
      simp only [memLookup]
      by_cases ha : k = a'
      · subst ha; simp [hk]
      · rw [if_neg ha, ih ht, if_neg ha]

theorem memLookup_memInsert {lo : Option Nat} {m : Memory} (h : risingFrom lo m = true) (a a' : Nat) (b : Byte) :
    memLookup a' (memInsert a b m) = if a' = a then some b else memLookup a' m := by
  induction m generalizing lo with
  | nil => simp [memInsert, memLookup, eq_comm]
  | cons c m ih =>
    obtain ⟨k, v⟩ := c
    have ht := risingFrom_tail h
    simp only [memInsert]
    split
    · simp [memLookup, eq_comm]
    · split
      · next hk =>
        subst hk
        simp only [memLookup]
        by_cases ha : k = a'
        · simp [ha]
        · simp [ha, Ne.symm ha]
      · simp only [memLookup]
        by_cases ha : k = a'
        · subst ha; simp [*]
        · rw [if_neg ha, ih ht, if_neg ha]

/-- A read after a write (R67): the byte written at its index, every other index as before. -/
theorem memRead_memWrite {sp : Space} {cap : Nat} {m : Memory} (h : Memory.wf sp cap m = true) (a a' : Nat) (b : Byte) :
    memRead sp (memWrite sp m a b) a' = if a' = a then some b else memRead sp m a' := by
  simp only [Memory.wf, Bool.and_eq_true] at h
  unfold memWrite memRead
  by_cases hb : unlisted sp = some b
  · rw [if_pos hb]
    rw [memLookup_memErase h.1]; by_cases ha : a' = a <;> simp [ha, hb]
  · rw [if_neg hb]
    rw [memLookup_memInsert h.1]; by_cases ha : a' = a <;> simp [ha]

/-! ## The canonical form is kept -/

theorem risingFrom_memErase {lo : Option Nat} {m : Memory} (h : risingFrom lo m = true) (a : Nat) :
    risingFrom lo (memErase a m) = true := by
  induction m generalizing lo with
  | nil => rfl
  | cons c m ih =>
    obtain ⟨k, v⟩ := c
    simp only [memErase]
    simp only [risingFrom, Bool.and_eq_true] at h
    split
    · cases lo with
      | none => exact risingFrom_none h.2
      | some l => exact risingFrom_mono (Nat.le_of_lt (by simpa using h.1)) h.2
    · simp only [risingFrom, Bool.and_eq_true]
      exact ⟨h.1, ih h.2⟩

theorem risingFrom_memInsert {lo : Option Nat} {m : Memory} (h : risingFrom lo m = true) (a : Nat) (b : Byte)
    (ha : ∀ l, lo = some l → l < a) : risingFrom lo (memInsert a b m) = true := by
  induction m generalizing lo with
  | nil =>
    cases lo with
    | none => rfl
    | some l => simp [memInsert, risingFrom, ha l rfl]
  | cons c m ih =>
    obtain ⟨k, v⟩ := c
    simp only [risingFrom, Bool.and_eq_true] at h
    simp only [memInsert]
    split
    · simp only [risingFrom, Bool.and_eq_true, decide_eq_true_eq]
      refine ⟨?_, by assumption, h.2⟩
      cases lo with
      | none => rfl
      | some l => simpa using ha l rfl
    · split
      · subst_vars
        simp only [risingFrom, Bool.and_eq_true]
        exact h
      · simp only [risingFrom, Bool.and_eq_true]
        exact ⟨h.1, ih h.2 (by intro l hl; cases hl; omega)⟩

theorem mem_memErase {m : Memory} {a : Nat} {c : Host.Cell} (h : c ∈ memErase a m) : c ∈ m := by
  induction m with
  | nil => exact h
  | cons d m ih =>
    obtain ⟨k, v⟩ := d
    simp only [memErase] at h
    split at h
    · exact List.mem_cons_of_mem _ h
    · rcases List.mem_cons.1 h with rfl | h
      · exact List.mem_cons_self
      · exact List.mem_cons_of_mem _ (ih h)

theorem mem_memInsert {m : Memory} {a : Nat} {b : Byte} {c : Host.Cell} (h : c ∈ memInsert a b m) :
    c = (a, b) ∨ c ∈ m := by
  induction m with
  | nil => simpa [memInsert] using h
  | cons d m ih =>
    obtain ⟨k, v⟩ := d
    simp only [memInsert] at h
    split at h
    · simpa using h
    · split at h
      · rcases List.mem_cons.1 h with rfl | h
        · exact .inl rfl
        · exact .inr (List.mem_cons_of_mem _ h)
      · rcases List.mem_cons.1 h with rfl | h
        · exact .inr List.mem_cons_self
        · rcases ih h with rfl | h
          · exact .inl rfl
          · exact .inr (List.mem_cons_of_mem _ h)

/-- A write inside the space keeps the canonical form. -/
theorem Memory.wf_memWrite {sp : Space} {cap : Nat} {m : Memory} (h : Memory.wf sp cap m = true) {a : Nat} (b : Byte)
    (ha : a < cap) : Memory.wf sp cap (memWrite sp m a b) = true := by
  simp only [Memory.wf, Bool.and_eq_true, List.all_eq_true] at h ⊢
  unfold memWrite
  split
  · exact ⟨risingFrom_memErase h.1 a, fun c hc => h.2 c (mem_memErase hc)⟩
  · refine ⟨risingFrom_memInsert h.1 a b (by simp), fun c hc => ?_⟩
    rcases mem_memInsert hc with rfl | hc
    · simp [ha]; assumption
    · exact h.2 c hc

/-- The empty list is in canonical form: `State.reset`, a new context and a replay reset hold no listed byte. -/
@[simp] theorem Memory.wf_nil (sp : Space) (cap : Nat) : Memory.wf sp cap [] = true := rfl

theorem risingFrom_filter {lo : Option Nat} {m : Memory} (p : Host.Cell → Bool) (h : risingFrom lo m = true) :
    risingFrom lo (m.filter p) = true := by
  induction m generalizing lo with
  | nil => rfl
  | cons c m ih =>
    obtain ⟨k, v⟩ := c
    simp only [risingFrom, Bool.and_eq_true] at h
    rw [List.filter_cons]
    split
    · simp only [risingFrom, Bool.and_eq_true]
      exact ⟨h.1, ih h.2⟩
    · refine ih ?_
      cases lo with
      | none => exact risingFrom_none h.2
      | some l => exact risingFrom_mono (Nat.le_of_lt (by simpa using h.1)) h.2

/-- Cutting a space to a new size, as QT_INIT does, keeps the canonical form (R262). -/
theorem Memory.wf_filter {sp : Space} {cap cap' : Nat} {m : Memory} (h : Memory.wf sp cap m = true) :
    Memory.wf sp cap' (m.filter fun e => e.1 < cap') = true := by
  simp only [Memory.wf, Bool.and_eq_true, List.all_eq_true] at h ⊢
  refine ⟨risingFrom_filter _ h.1, fun c hc => ?_⟩
  have hc' := List.mem_filter.1 hc
  exact ⟨by simpa using hc'.2, (h.2 c hc'.1).2⟩

/-- WinPut keeps a window good (R72). -/
theorem Window.ok_put {sp : Space} {cap : Nat} {w : Window} (h : w.ok sp cap) (b : Byte) : (w.put sp cap b).ok sp cap := by
  obtain ⟨hm, hp, hv⟩ := h
  exact ⟨Memory.wf_memWrite hm b hp, Nat.mod_lt _ (by omega), by simp⟩

/-- WinCopy keeps a window good (R74). -/
theorem Window.ok_winCopy {sp : Space} {cap dist len : Nat} {w w' : Window} {bs : List Byte} (h : w.ok sp cap)
    (hc : winCopy sp cap dist len w = some (w', bs)) : w'.ok sp cap ∧ bs.length = len := by
  induction len generalizing w w' bs with
  | zero => simp only [winCopy, Option.some.injEq, Prod.mk.injEq] at hc; obtain ⟨rfl, rfl⟩ := hc; exact ⟨h, rfl⟩
  | succ n ih =>
    simp only [winCopy] at hc
    split at hc
    · simp at hc
    · split at hc
      · simp at hc
      · simp only [Option.some.injEq, Prod.mk.injEq] at hc
        obtain ⟨rfl, rfl⟩ := hc
        have := ih (Window.ok_put h _) (by assumption)
        exact ⟨this.1, by simp [this.2]⟩

/-- Put keeps an LZ table good (R245). -/
theorem LzCtx.tableOk_put {cfg : Config} {x : LzCtx} (h : x.tableOk cfg) (b : Byte) : (x.put cfg b).tableOk cfg :=
  ⟨Memory.wf_memWrite h.1 b h.2.1, Nat.mod_lt _ (by decide), h.2.2⟩

/-- RefByte keeps an LZ table good (R246). -/
theorem LzCtx.tableOk_refByte {cfg : Config} {x : LzCtx} (h : x.tableOk cfg) : (x.refByte cfg).2.tableOk cfg :=
  LzCtx.tableOk_put (x := { x with spos := wrapNext lzTsize x.spos, slen := x.slen - 1 })
    ⟨h.1, h.2.1, Nat.mod_lt _ (by decide)⟩ _

/-- A run of RefBytes keeps an LZ table good (R246). -/
theorem lzCopy_tableOk {cfg : Config} {n : Nat} {x : LzCtx} (h : x.tableOk cfg) : (lzCopy cfg n x).1.tableOk cfg := by
  induction n generalizing x with
  | zero => exact h
  | succ n ih => exact ih (LzCtx.tableOk_refByte h)

/-- ReplayReset leaves a good table (R248). -/
theorem LzCtx.tableOk_replayReset (cfg : Config) (x : LzCtx) : x.replayReset.tableOk cfg := by
  refine ⟨rfl, ?_, ?_⟩ <;> simp only [LzCtx.replayReset_cur, LzCtx.replayReset_spos] <;> decide

end Sys2Proof.Machine
end

