-- ==== Sys2Proof/Laws/Ops.lean ====
section
/-! SUPPORT. For each shared operation of the meanings one lemma that says all it can do when it answers a next state, and
for the access operations the equation at a state where the element is in place. Also what a step can do. -/

namespace Sys2Proof.Machine

/-! ## Access to the context of the command in progress -/

theorem withMz_at {s : State} {c : Nat} {p : MzPhase} {x : MzCtx} (hr : s.run = .mz c p) (hx : s.mz[c]? = some x)
    (k : Nat → MzPhase → MzCtx → Result) : withMz s k = k c p x := by
  simp [withMz, hr, hx]

theorem withQt_at {s : State} {c : Nat} {p : QtPhase} {x : QtCtx} (hr : s.run = .qt c p) (hx : s.qt[c]? = some x)
    (k : Nat → QtPhase → QtCtx → Result) : withQt s k = k c p x := by
  simp [withQt, hr, hx]

theorem withLz_at {s : State} {c : Nat} {x : LzCtx} (hr : s.run = .lz c) (hx : s.lz[c]? = some x)
    (k : Nat → LzCtx → Result) : withLz s k = k c x := by
  simp [withLz, hr, hx]

theorem whenIdle_at {s : State} (hr : s.run = .idle) (r : Result) : whenIdle s r = r := by
  simp [whenIdle, hr]

theorem withMz_next {s t : State} {k : Nat → MzPhase → MzCtx → Result} (h : withMz s k = .next t) :
    ∃ c p x, s.run = .mz c p ∧ s.mz[c]? = some x ∧ k c p x = .next t := by
  unfold withMz at h
  split at h
  · next c p hr =>
    split at h
    · next x hx => exact ⟨c, p, x, hr, hx, h⟩
    · cases h
  · cases h

theorem withQt_next {s t : State} {k : Nat → QtPhase → QtCtx → Result} (h : withQt s k = .next t) :
    ∃ c p x, s.run = .qt c p ∧ s.qt[c]? = some x ∧ k c p x = .next t := by
  unfold withQt at h
  split at h
  · next c p hr =>
    split at h
    · next x hx => exact ⟨c, p, x, hr, hx, h⟩
    · cases h
  · cases h

theorem withLz_next {s t : State} {k : Nat → LzCtx → Result} (h : withLz s k = .next t) :
    ∃ c x, s.run = .lz c ∧ s.lz[c]? = some x ∧ k c x = .next t := by
  unfold withLz at h
  split at h
  · next c hr =>
    split at h
    · next x hx => exact ⟨c, x, hr, hx, h⟩
    · cases h
  · cases h

theorem whenIdle_next {s t : State} {r : Result} (h : whenIdle s r = .next t) : s.run = .idle ∧ r = .next t := by
  unfold whenIdle at h
  split at h
  · next hr => exact ⟨hr, h⟩
  · cases h

theorem whereHeader_next {p : MzPhase} {r : Result} {t : State} (h : whereHeader p r = .next t) :
    p = .header ∧ r = .next t := by
  unfold whereHeader at h; split at h
  · exact ⟨rfl, h⟩
  · cases h

theorem whereLengths_next {p : MzPhase} {r : Result} {t : State} (h : whereLengths p r = .next t) :
    p = .codeLens ∧ r = .next t := by
  unfold whereLengths at h; split at h
  · exact ⟨rfl, h⟩
  · cases h

theorem whereSymbols_next {p : MzPhase} {r : Result} {t : State} (h : whereSymbols p r = .next t) :
    p = .symbols ∧ r = .next t := by
  unfold whereSymbols at h; split at h
  · exact ⟨rfl, h⟩
  · cases h

theorem whereTokens_next {p : QtPhase} {x : QtCtx} {r : Result} {t : State} (h : whereTokens p x r = .next t) :
    p = .tokens ∧ x.togo ≠ 0 ∧ r = .next t := by
  unfold whereTokens at h; split at h
  · split at h
    · cases h
    · exact ⟨rfl, ‹_›, h⟩
  · cases h

theorem whereWanted_next {s t : State} {x : LzCtx} {r : Result} (h : whereWanted s x r = .next t) :
    x.real < lzEnd s x ∧ r = .next t := by
  unfold whereWanted at h; split at h
  · cases h
  · exact ⟨by omega, h⟩

/-! ## MZ -/

/-- The three ways a block ends (R171, R190). -/
theorem mzBlockEnd_cases (s : State) (c : Nat) (x : MzCtx) :
    (x.final = true ∧ x.produced ≠ x.outLen ∧ mzBlockEnd s c x = .next ((s.setMz c x).raise .corruptData)) ∨
    (x.final = true ∧ x.produced = x.outLen ∧ mzBlockEnd s c x = .next (s.setMz c x).finish) ∨
    (x.final = false ∧ mzBlockEnd s c x = .next ((s.setMz c x).setRun (.mz c .header))) := by
  unfold mzBlockEnd
  cases hf : x.final
  · simp
  · by_cases hp : x.produced = x.outLen <;> simp [hp]

/-- The ways the tables of a dynamic block come out (R184). -/
theorem mzBuildTables_cases (s : State) (c : Nat) (x : MzCtx) :
    (hufBuild ((x.ll.take x.nl).map BitVec.toNat) s.cfg.mzDynLroot false = none ∧
      mzBuildTables s c x = .next ((s.setMz c x).raise .malformedHuffmanCode)) ∨
    (∃ tl, hufBuild ((x.ll.take x.nl).map BitVec.toNat) s.cfg.mzDynLroot false = some tl ∧
      ((tl.empty = true ∨ hufBuild (((x.ll.drop x.nl).take x.nd).map BitVec.toNat) s.cfg.mzDynDroot false = none) ∧
          mzBuildTables s c x = .next ((s.setMz c { x with tl := tl }).raise .malformedHuffmanCode) ∨
        ∃ td, tl.empty = false ∧
          hufBuild (((x.ll.drop x.nl).take x.nd).map BitVec.toNat) s.cfg.mzDynDroot false = some td ∧
          mzBuildTables s c x = .next ((s.setMz c { x with tl := tl, td := td }).setRun (.mz c .symbols)))) := by
  unfold mzBuildTables
  cases hl : hufBuild ((x.ll.take x.nl).map BitVec.toNat) s.cfg.mzDynLroot false with
  | none => exact .inl ⟨rfl, rfl⟩
  | some tl =>
    refine .inr ⟨tl, rfl, ?_⟩
    cases he : tl.empty
    · cases hd : hufBuild (((x.ll.drop x.nl).take x.nd).map BitVec.toNat) s.cfg.mzDynDroot false with
      | none => exact .inl ⟨.inr rfl, by simp [he]⟩
      | some td => exact .inr ⟨td, rfl, rfl, by simp [he]⟩
    · exact .inl ⟨.inl rfl, by simp [he]⟩

/-- The ways a run of code lengths comes out (R182). -/
theorem mzGrowLengths_cases (s : State) (c : Nat) (x : MzCtx) (v : BitVec 4) (j : Nat) :
    (x.nl + x.nd < x.ll.length + j ∧ mzGrowLengths s c x v j = .next ((s.setMz c x).raise .lengthOverrun)) ∨
    (x.ll.length + j < x.nl + x.nd ∧
      mzGrowLengths s c x v j = .next (s.setMz c { x with ll := x.ll ++ List.replicate j v })) ∨
    (x.ll.length + j = x.nl + x.nd ∧
      mzGrowLengths s c x v j = mzBuildTables s c { x with ll := x.ll ++ List.replicate j v }) := by
  unfold mzGrowLengths
  by_cases h1 : x.nl + x.nd < x.ll.length + j
  · exact .inl ⟨h1, if_pos h1⟩
  · rw [if_neg h1]
    by_cases h2 : x.ll.length + j < x.nl + x.nd
    · exact .inr (.inl ⟨h2, by simp [h2]⟩)
    · exact .inr (.inr ⟨by omega, by simp [h2]⟩)

/-! ## QT -/

/-- The ways a call goes on after a token (R204, R220). -/
theorem qtContinue_cases (s : State) (c : Nat) (x : QtCtx) :
    (x.togo = 0 ∧ readRun .qtwin x.wsize x.win.cells (x.extractStart s.outLen) s.outLen = none ∧
      qtContinue s c x = .fault .unwrittenByte) ∨
    (∃ bs, x.togo = 0 ∧ readRun .qtwin x.wsize x.win.cells (x.extractStart s.outLen) s.outLen = some bs ∧
      qtContinue s c x = .next ({ s.setQt c x with out := bs }).finish) ∨
    (x.togo ≠ 0 ∧ qtContinue s c x = .next ((s.setQt c x).setRun (.qt c .tokens))) := by
  unfold qtContinue
  by_cases h : x.togo = 0
  · rw [if_pos h]
    cases hb : readRun .qtwin x.wsize x.win.cells (x.extractStart s.outLen) s.outLen with
    | none => exact .inl ⟨h, rfl, rfl⟩
    | some bs => exact .inr (.inl ⟨bs, h, rfl, rfl⟩)
  · exact .inr (.inr ⟨h, if_neg h⟩)

/-- What a match does (R216): nothing copied and CorruptData, or the whole copy. -/
theorem qtMatch_next {s t : State} {off len : Nat} (h : qtMatch s off len = .next t) :
    ∃ c x, s.run = .qt c .tokens ∧ s.qt[c]? = some x ∧ x.togo ≠ 0 ∧
      ((winCheck x.win off len x.togo = false ∧ t = s.raise .corruptData) ∨
       (winCheck x.win off len x.togo = true ∧ ∃ w bs, winCopy .qtwin x.wsize off len x.win = some (w, bs) ∧
          qtContinue s c { x with win := w, togo := x.togo - len } = .next t)) := by
  obtain ⟨c, p, x, hr, hx, h⟩ := withQt_next h
  obtain ⟨rfl, ht, h⟩ := whereTokens_next h
  refine ⟨c, x, hr, hx, ht, ?_⟩
  split at h
  · next hw =>
    split at h
    · cases h
    · next w bs hc => exact .inr ⟨hw, w, bs, hc, h⟩
  · next hw =>
    injection h with h
    exact .inl ⟨by simpa using hw, h.symm⟩

/-- What a literal does (R212, R221). -/
theorem qtLiteral_next {s t : State} {b : Byte} (h : qtLiteral s b = .next t) :
    ∃ c x, s.run = .qt c .tokens ∧ s.qt[c]? = some x ∧ x.togo ≠ 0 ∧ qtContinue s c (x.emit b) = .next t := by
  obtain ⟨c, p, x, hr, hx, h⟩ := withQt_next h
  obtain ⟨rfl, ht, h⟩ := whereTokens_next h
  exact ⟨c, x, hr, hx, ht, h⟩

/-! ## LZ -/

/-- The two ways a call goes on after output (R249). -/
theorem lzContinue_cases (s : State) (c : Nat) (x : LzCtx) :
    (lzEnd s x ≤ x.real ∧ lzContinue s c x = .next (s.setLz c { x with want := x.real }).finish) ∨
    (x.real < lzEnd s x ∧ lzContinue s c x = .next ((s.setLz c x).setRun (.lz c))) := by
  unfold lzContinue
  by_cases h : lzEnd s x ≤ x.real
  · exact .inl ⟨h, if_pos h⟩
  · exact .inr ⟨by omega, if_neg h⟩

/-- What a run of a reference does when it is not refused (R246, R249, U6). -/
theorem lzRunReference_next {s t : State} {c : Nat} {x : LzCtx} (h : lzRunReference s c x = .next t) :
    x.real + min x.slen (lzEnd s x - x.real) < lzPositionLimit ∧
    lzContinue (s.emit (lzCopy s.cfg (min x.slen (lzEnd s x - x.real)) x).2) c
      (lzCopy s.cfg (min x.slen (lzEnd s x - x.real)) x).1 = .next t := by
  unfold lzRunReference at h
  dsimp only at h
  split at h
  · cases h
  · exact ⟨by omega, h⟩

@[simp] theorem LzCtx.refByte_real (cfg : Config) (x : LzCtx) : (x.refByte cfg).2.real = x.real + 1 := rfl
@[simp] theorem LzCtx.refByte_want (cfg : Config) (x : LzCtx) : (x.refByte cfg).2.want = x.want := rfl
@[simp] theorem LzCtx.refByte_slen (cfg : Config) (x : LzCtx) : (x.refByte cfg).2.slen = x.slen - 1 := rfl
@[simp] theorem LzCtx.refByte_fault (cfg : Config) (x : LzCtx) : (x.refByte cfg).2.fault = x.fault := rfl
@[simp] theorem LzCtx.refByte_inPos (cfg : Config) (x : LzCtx) : (x.refByte cfg).2.inPos = x.inPos := rfl

/-- The registers a run of RefBytes keeps (R44, R246). -/
theorem lzCopy_keeps (cfg : Config) (n : Nat) (x : LzCtx) :
    (lzCopy cfg n x).1.flags = x.flags ∧ (lzCopy cfg n x).1.fcnt = x.fcnt ∧ (lzCopy cfg n x).1.compType = x.compType ∧
    (lzCopy cfg n x).1.lastChar = x.lastChar ∧ (lzCopy cfg n x).1.realLength = x.realLength ∧
    (lzCopy cfg n x).1.payload = x.payload := by
  induction n generalizing x with
  | zero => simp [lzCopy]
  | succ n ih => exact ih (x.refByte cfg).2

/-- The counters after a run of RefBytes (R246). -/
theorem lzCopy_counters (cfg : Config) (n : Nat) (x : LzCtx) :
    (lzCopy cfg n x).1.real = x.real + n ∧ (lzCopy cfg n x).1.slen = x.slen - n ∧ (lzCopy cfg n x).1.want = x.want ∧
    (lzCopy cfg n x).1.fault = x.fault ∧ (lzCopy cfg n x).1.inPos = x.inPos := by
  induction n generalizing x with
  | zero => simp [lzCopy]
  | succ n ih =>
    obtain ⟨h1, h2, h3, h4, h5⟩ := ih (x.refByte cfg).2
    simp only [lzCopy]
    refine ⟨?_, ?_, ?_, ?_, ?_⟩
    · rw [h1, LzCtx.refByte_real]; omega
    · rw [h2, LzCtx.refByte_slen]; omega
    · rw [h3, LzCtx.refByte_want]
    · rw [h4, LzCtx.refByte_fault]
    · rw [h5, LzCtx.refByte_inPos]

/-! ## Readers -/

/-- A successful read in sequence: both parts succeeded. -/
theorem Got.bind_ok {σ α β : Type} {r : Got σ α} {f : α → σ → Got σ β} {b : β} {s : σ} (h : r.bind f = .ok b s) :
    ∃ a s1, r = .ok a s1 ∧ f a s1 = .ok b s := by
  cases r with
  | ok a s1 => exact ⟨a, s1, rfl, h⟩
  | err k s1 => cases h
  | bug e => cases h

/-- A failed read in sequence: one of the parts failed. -/
theorem Got.bind_err {σ α β : Type} {r : Got σ α} {f : α → σ → Got σ β} {k : ErrKind} {s : σ} (h : r.bind f = .err k s) :
    r = .err k s ∨ ∃ a s1, r = .ok a s1 ∧ f a s1 = .err k s := by
  cases r with
  | ok a s1 => exact .inr ⟨a, s1, rfl, h⟩
  | err k' s1 => left; simpa [Got.bind] using h
  | bug e => cases h

theorem Brm.readLoop_fuel {cfg : Config} (hk : 1 ≤ cfg.brmSubRead) (inp : List Byte) (f g n : Nat) (r : Brm) (hf : n < f)
    (hg : n < g) : Brm.readLoop cfg inp f n r = Brm.readLoop cfg inp g n r := by
  induction f generalizing g n r with
  | zero => omega
  | succ f ih =>
    cases g with
    | zero => omega
    | succ g =>
      simp only [Brm.readLoop]
      split
      · rfl
      · rw [ih g (n - cfg.brmSubRead) r (by omega) (by omega)]

/-- A read that fits one sub-read (R137). -/
theorem Brm.read_narrow {cfg : Config} {n : Nat} (h : n ≤ cfg.brmSubRead) (inp : List Byte) (r : Brm) :
    r.read cfg inp n = r.read16 cfg inp n := by
  simp [Brm.read, Brm.readLoop, h]

/-- A wider read: the leading bits first, then one sub-read (R137). -/
theorem Brm.read_wide {cfg : Config} {n : Nat} (hk : 1 ≤ cfg.brmSubRead) (h : cfg.brmSubRead < n) (inp : List Byte)
    (r : Brm) :
    r.read cfg inp n =
      (r.read cfg inp (n - cfg.brmSubRead)).bind fun hi r1 =>
        (r1.read16 cfg inp cfg.brmSubRead).bind fun lo r2 => .ok ((hi <<< cfg.brmSubRead) ||| lo) r2 := by
  rw [Brm.read, Brm.readLoop, if_neg (by omega), Brm.read,
    Brm.readLoop_fuel hk inp n (n - cfg.brmSubRead + 1) _ r (by omega) (by omega)]

/-! ## One step -/

/-- What a step can do. -/
theorem step_next {s t : State} (h : step s = .next t) :
    (fetch s = .idle ∧ t = s) ∨ (∃ i s', fetch s = .instr i s' ∧ exec i s' = .next t) ∨
    ∃ k s', fetch s = .error k s' ∧ t = s'.raise k := by
  unfold step at h
  split at h
  · next hf => injection h with h; exact .inl ⟨hf, h.symm⟩
  · next i s' hf => exact .inr (.inl ⟨i, s', hf, h⟩)
  · next k s' hf => injection h with h; exact .inr (.inr ⟨k, s', hf, h.symm⟩)
  · cases h
  · cases h

/-- What a fetch of an element or a command can be, by the command in progress. -/
theorem fetch_instr {s s' : State} {i : Instr} (h : fetch s = .instr i s') :
    (∃ cmd rest, s.run = .idle ∧ s.pending = cmd :: rest ∧ i = decodeCmd cmd ∧ s' = { s with pending := rest }) ∨
    (∃ c p x br, s.run = .mz c p ∧ s.mz[c]? = some x ∧ decodeMz s.cfg s.inp p x = .ok i br ∧ s' = s.setMz c { x with br := br }) ∨
    (∃ c p x y, s.run = .qt c p ∧ s.qt[c]? = some x ∧ decodeQt s.cfg s.inp p x = .ok i y ∧ s' = s.setQt c y) ∨
    (∃ c x y, s.run = .lz c ∧ s.lz[c]? = some x ∧ decodeLz s.inp x = .ok i y ∧ s' = s.setLz c y) ∨
    (∃ c, s.run = .lzHdr c ∧ decodeLzHdr s.inp = .ok i () ∧ s' = s) := by
  unfold fetch at h
  split at h
  · next hr =>
    split at h
    · cases h
    · next cmd rest hp => injection h with h1 h2; exact .inl ⟨cmd, rest, hr, hp, h1.symm, h2.symm⟩
  · next c p hr =>
    split at h
    · cases h
    · next x hx =>
      cases hd : decodeMz s.cfg s.inp p x <;> rw [hd] at h <;> simp only [Got.fetched] at h <;> try cases h
      exact .inr (.inl ⟨c, p, x, _, hr, hx, hd, rfl⟩)
  · next c p hr =>
    split at h
    · cases h
    · next x hx =>
      cases hd : decodeQt s.cfg s.inp p x <;> rw [hd] at h <;> simp only [Got.fetched] at h <;> try cases h
      exact .inr (.inr (.inl ⟨c, p, x, _, hr, hx, hd, rfl⟩))
  · next c hr =>
    split at h
    · cases h
    · next x hx =>
      cases hd : decodeLz s.inp x <;> rw [hd] at h <;> simp only [Got.fetched] at h <;> try cases h
      exact .inr (.inr (.inr (.inl ⟨c, x, _, hr, hx, hd, rfl⟩)))
  · next c hr =>
    generalize hd : decodeLzHdr s.inp = g at h
    cases g <;> simp only [Got.fetched] at h <;> try cases h
    exact .inr (.inr (.inr (.inr ⟨c, hr, rfl, rfl⟩)))

end Sys2Proof.Machine
end

