-- ==== Sys2Proof/Laws/Quantum.lean ====
section
/-! SUPPORT. A model right after ModelInit is a good one (43_quantum.md R201, 10_state.md R31), and so is a context right
after QT_INIT (45_host_commands.md R262). -/

namespace Sys2Proof.Machine

/-- A model of `n` symbols from `first` on is good after ModelInit, if the reorder parameter is in its range (R31, R201). -/
theorem QModel.init_ok {cfg : Config} {n first : Nat} (hc : 1 ≤ cfg.qtReorderInit ∧ cfg.qtReorderInit ≤ 50) (h1 : 1 ≤ n)
    (h64 : n ≤ 64) (hf : first + n ≤ 256) : (QModel.init cfg n first).Ok n first where
  size := rfl
  base := rfl
  nonempty := h1
  atMost64 := h64
  bytes := hf
  symLength := by simp [QModel.init]
  symNodup := by
    refine List.Nodup.map_on ?_ List.nodup_range
    intro a ha b hb h
    have ha := List.mem_range.1 ha
    have hb := List.mem_range.1 hb
    have := congrArg BitVec.toNat h
    simp only [BitVec.toNat_ofNat] at this
    omega
  symRange := by
    intro b hb
    obtain ⟨k, hk, rfl⟩ := List.mem_map.1 hb
    have hk := List.mem_range.1 hk
    rw [BitVec.toNat_ofNat, Nat.mod_eq_of_lt (by omega)]
    omega
  cumLength := by simp [QModel.init]
  decreasing := by
    refine List.pairwise_map.2 ?_
    refine List.Pairwise.imp_of_mem ?_ (List.pairwise_lt_range (n := n + 1))
    intro a b ha hb hab
    have := List.mem_range.1 hb
    omega
  sentinel := by simp [QModel.init, List.range_succ]
  total := by
    have : (List.map (fun k => n - k) (List.range (n + 1))).headD 0 = n := by
      rw [List.range_succ_eq_map]; simp
    show (List.map (fun k => n - k) (List.range (n + 1))).headD 0 ≤ qtLimit
    rw [this]
    exact le_trans h64 (by decide)
  reorderPos := hc.1
  reorderMax := hc.2
  lookup := by
    intro k hk
    have hk' : k < n := by simpa [QModel.init] using hk
    have hb : (BitVec.ofNat 8 (first + k)).toNat = first + k := by
      rw [BitVec.toNat_ofNat, Nat.mod_eq_of_lt (by omega)]
    simp [QModel.init, QModel.lookup, hb, hk']

/-- The sizes of the nine models, for good parameters and window bits, lie within the limits of R31 and R32. -/
theorem modelSize_bounds {cfg : Config} (hc : configOk cfg) {w : Nat} (h1 : qtWbitsMin ≤ w) (h2 : w ≤ qtWbitsMax)
    (i : QModelId) : 1 ≤ modelSize cfg w i ∧ modelSize cfg w i ≤ 64 ∧ modelFirst i + modelSize cfg w i ≤ 256 := by
  obtain ⟨-, -, h3, h4, h5, h6, h7, -⟩ := hc
  simp only [qtWbitsMin, qtWbitsMax] at h1 h2
  cases i <;> simp [modelSize, modelFirst, qtNsel, qtLitSyms] <;> omega

/-- Every model of a context that has just been set up is good (R201, R262). -/
theorem QtCtx.setup_models_ok {cfg : Config} (hc : configOk cfg) {w : Nat} (h1 : qtWbitsMin ≤ w) (h2 : w ≤ qtWbitsMax)
    (level : BitVec 4) (x : QtCtx) (i : QModelId) :
    ((x.setup cfg w level).model i).Ok (modelSize cfg w i) (modelFirst i) := by
  have hb := modelSize_bounds hc h1 h2 i
  have h := QModel.init_ok (cfg := cfg) ⟨hc.1, hc.2.1⟩ hb.1 hb.2.1 hb.2.2
  cases i <;> exact h

end Sys2Proof.Machine
end

