-- ==== Sys2Proof/Tests/Slice0.lean ====
section
/-! SUPPORT. The tests: ill-formed terms that WellFormed refuses, words of spec/ that decode to their elements, one step of
each instruction on a small state with the result the spec gives, and for each statement with hypotheses a concrete state and
operands that meet them (`witness_…`). Where a test's numbers come from is said at the test: S, B, H, M, Q, L, P are the
vectors of 95_test_vectors.md; "by hand" is a calculation from the rule named. -/

namespace Sys2Proof.Tests

open Sys2Proof.Machine

/-! ## WellFormed: each check refuses an ill-formed term -/

theorem test_wf_clen_count : (Instr.dynHdr 0 0 0 [1, 1, 1]).wf = false ∧ (Instr.dynHdr 0 0 0 [1, 1, 1, 1]).wf = true := by
  decide
theorem test_wf_cl16 : (Instr.cl16 2).wf = false ∧ (Instr.cl16 7).wf = false ∧ (Instr.cl16 6).wf = true := by decide
theorem test_wf_cl17 : (Instr.cl17 2).wf = false ∧ (Instr.cl17 11).wf = false ∧ (Instr.cl17 10).wf = true := by decide
theorem test_wf_cl18 : (Instr.cl18 10).wf = false ∧ (Instr.cl18 139).wf = false ∧ (Instr.cl18 138).wf = true := by decide
theorem test_wf_match : (Instr.mtch 2).wf = false ∧ (Instr.mtch 259).wf = false ∧ (Instr.mtch 258).wf = true := by decide
theorem test_wf_llReserved : (Instr.llReserved 285).wf = false ∧ (Instr.llReserved 288).wf = false := by decide
theorem test_wf_dist : (Instr.dist 0).wf = false ∧ (Instr.dist 32769).wf = false ∧ (Instr.dist 32768).wf = true := by decide
theorem test_wf_distReserved : (Instr.distReserved 29).wf = false ∧ (Instr.distReserved 32).wf = false := by decide
theorem test_wf_qlit : (Instr.qlit0 0x40).wf = false ∧ (Instr.qlit1 0x3F).wf = false ∧ (Instr.qlit2 0xC0).wf = false ∧
    (Instr.qlit3 0xBF).wf = false ∧ (Instr.qlit3 0xFF).wf = true := by decide
theorem test_wf_matchOffset : (Instr.qm3 0).wf = false ∧ (Instr.qm4 2097153).wf = false ∧ (Instr.qm4 2097152).wf = true := by
  decide
theorem test_wf_matchLength : (Instr.qmv 4 1).wf = false ∧ (Instr.qmv 260 1).wf = false ∧ (Instr.qmv 5 0).wf = false := by
  decide

/-! ## Decoding: words written out from the spec's encodings -/

/-- The value of a read and where the bit reader stands after it: the next bit's number (R24). -/
def readAt : Got Brl Instr → Option (Instr × Nat)
  | .ok i r => some (i, 8 * r.inOff - r.nbits)
  | _ => none

/-- SIG is the two bytes 43 4B (R91), and nothing else is. -/
theorem test_decode_sig : (decodeSig [0x43, 0x4B] (Brl.start 2)).value? = some .sig ∧
    (decodeSig [0x43, 0x4C] (Brl.start 2)).value? = none ∧ (decodeSig [0x43] (Brl.start 2)).value? = none := by decide
/-- Block headers, 3 bits: final, then the type, low bit first (R92). -/
theorem test_decode_headers :
    readAt (decodeHeader defaultParameters [0b001] (Brl.start 0)) = some (.blkStored true, 3) ∧
    readAt (decodeHeader defaultParameters [0b010] (Brl.start 0)) = some (.blkFixed false, 3) ∧
    readAt (decodeHeader defaultParameters [0b101] (Brl.start 0)) = some (.blkDynamic true, 3) ∧
    readAt (decodeHeader defaultParameters [0b110] (Brl.start 0)) = some (.blkReserved false, 3) := by decide
/-- STORED_HDR of S1 after a 3-bit block header: the 5 padding bits of byte 01 are dropped (R94). -/
theorem test_decode_storedHdr :
    readAt (decodeStoredHdr defaultParameters [0xF9, 0x04, 0x00, 0xFB, 0xFF] ((Brl.start 0).readBits defaultParameters [0xF9, 0x04, 0x00, 0xFB, 0xFF] 3).2) =
      some (.storedHdr 0x0004 0xFFFB, 40) := by decide
/-- RAW takes one byte (R94). -/
theorem test_decode_raw : readAt (decodeRaw defaultParameters [0xDE] (Brl.start 0)) = some (.raw 0xDE, 8) := by decide
/-- DYN_HDR of P2: HLIT 2, HDIST 0, HCLEN 14 and 18 fields of 3 bits; it stands after 3 header bits and takes 68 bits. -/
theorem test_decode_dynHdr :
    let inp := [0x15, 0xC0, 0x01, 0x09, 0x00, 0x00, 0x00, 0x80, 0xA0]
    readAt (decodeDynHdr defaultParameters inp ((Brl.start 0).readBits defaultParameters inp 3).2) =
      some (.dynHdr 2 0 14 [0, 0, 2, 2, 0, 0, 0, 0, 0, 0, 0, 0, 0, 0, 0, 2, 0, 2], 71) := by decide +kernel
/-- The code-length table of P2: symbols 0, 1, 2, 18 have the codes 00, 01, 10, 11. -/
def clTable : HufTable :=
  (hufBuild [2, 2, 2, 0, 0, 0, 0, 0, 0, 0, 0, 0, 0, 0, 0, 0, 0, 0, 2] 7 false).getD HufTable.none
/-- The code lengths of a table in which symbols 2, 16, 17, 18 have the codes 00, 01, 10, 11 (R154, by hand). -/
def clTable2 : HufTable :=
  (hufBuild [0, 0, 2, 0, 0, 0, 0, 0, 0, 0, 0, 0, 0, 0, 0, 0, 2, 2, 2] 7 false).getD HufTable.none
/-- CL 1 is the code 01, most significant bit first (P2). -/
theorem test_decode_cl : readAt (decodeCodeLen defaultParameters [0b10] clTable (Brl.start 0)) = some (.cl 1, 2) := by decide +kernel
/-- CL16: code 01, then the 2 bits of 3, low bit first: 3 + 3 (R96). -/
theorem test_decode_cl16 : readAt (decodeCodeLen defaultParameters [0b1110] clTable2 (Brl.start 0)) = some (.cl16 6, 4) := by decide +kernel
/-- CL17: code 10, then the 3 bits of 1: 3 + 1 (R96). -/
theorem test_decode_cl17 : readAt (decodeCodeLen defaultParameters [0b00101] clTable2 (Brl.start 0)) = some (.cl17 4, 5) := by decide +kernel
/-- CL18 of P2: code 11, then 0110101, the 7 bits of 86: 86 + 11 (R96). -/
theorem test_decode_cl18 :
    readAt (decodeCodeLen defaultParameters [0b01011011, 0b1] clTable (Brl.start 0)) = some (.cl18 97, 9) := by decide +kernel
/-- A literal/length table in which symbols 97, 256, 265, 286 have the codes 00, 01, 10, 11 (R154, by hand). -/
def llTable : HufTable :=
  (hufBuild ((List.range 287).map fun s => if s = 97 ∨ s = 256 ∨ s = 265 ∨ s = 286 then 2 else 0) 9 false).getD
    HufTable.none
/-- LIT, EOB, MATCH (symbol 265: base 11, one extra bit) and LL_RESERVED (R97, R104). -/
theorem test_decode_symbols :
    readAt (decodeSymbol defaultParameters [0b00] llTable (Brl.start 0)) = some (.lit 0x61, 2) ∧
    readAt (decodeSymbol defaultParameters [0b10] llTable (Brl.start 0)) = some (.eob, 2) ∧
    readAt (decodeSymbol defaultParameters [0b101] llTable (Brl.start 0)) = some (.mtch 12, 3) ∧
    readAt (decodeSymbol defaultParameters [0b11] llTable (Brl.start 0)) = some (.llReserved 286, 2) := by decide +kernel
/-- LIT 61 of M3 with the fixed table: after the 3 header bits of 4B 04, the code 10010001. -/
theorem test_decode_fixed_literal :
    let inp := [0x4B, 0x04, 0x02, 0x00]
    (hufBuild fixedLL 7 false).map (fun t => readAt (decodeSymbol defaultParameters inp t ((Brl.start 0).readBits defaultParameters inp 3).2)) =
      some (some (.lit 0x61, 11)) := by decide +kernel
/-- A distance table in which symbols 0, 5, 29, 30 have the codes 00, 01, 10, 11 (R154, by hand). -/
def dTable : HufTable :=
  (hufBuild ((List.range 31).map fun s => if s = 0 ∨ s = 5 ∨ s = 29 ∨ s = 30 then 2 else 0) 6 false).getD HufTable.none
/-- DIST: symbol 5 (base 7, one extra bit), symbol 29 with all 13 extra bits set: 32768; DIST_RESERVED (R98, R105). -/
theorem test_decode_distances :
    readAt (decodeDistance defaultParameters [0b110] dTable (Brl.start 0)) = some (.dist 8, 3) ∧
    readAt (decodeDistance defaultParameters [0xFD, 0x7F] dTable (Brl.start 0)) = some (.dist 32768, 15) ∧
    readAt (decodeDistance defaultParameters [0b11] dTable (Brl.start 0)) = some (.distReserved 30, 2) := by decide +kernel
/-- The token after the coder start of a fresh context with 10 window bits, and the coder's registers after it. -/
def firstToken (inp : List Byte) : Option (Instr × BitVec 16 × BitVec 16 × BitVec 16) :=
  match decodeQt defaultParameters inp .start (QtCtx.blank.setup defaultParameters 10 0) with
  | .ok (.code16 c) x =>
    match decodeQt defaultParameters inp .tokens { x with L := 0, H := 0xFFFF, C := c, started := true } with
    | .ok i y => some (i, y.L, y.H, y.C)
    | _ => none
  | _ => none
/-- CODE16 of P3: the first two bytes, high byte first (R110). -/
theorem test_decode_code16 :
    (decodeQt defaultParameters [0xDA, 0xC4] .start QtCtx.blank).value? = some (.code16 0xDAC4) := by decide
/-- QLIT0 00: all bits 1, every symbol is the first of its model (Q2). -/
theorem test_decode_qlit0 : (firstToken [0xFF, 0xFF, 0xFF, 0xFF]).map Prod.fst = some (.qlit0 0x00) := by decide +kernel
/-- QLIT1 41 and the coder after it: steps 0 to 2 of P3. -/
theorem test_decode_qlit1 :
    firstToken [0xDA, 0xC4, 0x49, 0x09, 0xDD, 0x98] = some (.qlit1 0x41, 0x4840, 0xDA7F, 0xC449) := by decide +kernel
/-- QLIT2 BF: C = 0x9249 is the least of selector 2, (4 * 65536) / 7, and stays the least of m80 (R205 to R207, by hand). -/
theorem test_decode_qlit2 : (firstToken [0x92, 0x49, 0x00, 0x00]).map Prod.fst = some (.qlit2 0xBF) := by decide +kernel
/-- QLIT3 FF: C = 0x6DB6 is the least of selector 3, (3 * 65536) / 7, through two underflow steps (by hand). -/
theorem test_decode_qlit3 : (firstToken [0x6D, 0xB6, 0x00, 0x00]).map Prod.fst = some (.qlit3 0xFF) := by decide +kernel
/-- QM3: C = 0x4924 is the least of selector 4; the last slot of m4 is 19, base 768, 8 extra bits 0 (R116, by hand). -/
theorem test_decode_qm3 : (firstToken [0x49, 0x24, 0x00, 0x00, 0x00, 0x00]).map Prod.fst = some (.qm3 769) := by decide +kernel
/-- QM4: C = 0x2492 is the least of selector 5 (by hand). -/
theorem test_decode_qm4 : (firstToken [0x24, 0x92, 0x00, 0x00, 0x00, 0x00]).map Prod.fst = some (.qm4 769) := by decide +kernel
/-- QMV: all bits 0 (Q3): length 259, offset 769. -/
theorem test_decode_qmv :
    (firstToken [0x00, 0x00, 0x00, 0x00, 0x00, 0x00, 0x00, 0x00]).map Prod.fst = some (.qmv 259 769) := by decide +kernel
/-- LZ_HDR of S3; 13 bytes, a wrong magic byte and a wrong type are refused (L10). -/
theorem test_decode_lzHdr :
    (decodeLzHdr [0x53, 0x5A, 0x44, 0x44, 0x88, 0xF0, 0x27, 0x33, 0x41, 0x61, 0x10, 0x00, 0x00, 0x00]).value? =
      some (.lzHdr 0x61 0x10) ∧
    (decodeLzHdr [0x53, 0x5A, 0x44, 0x44, 0x88, 0xF0, 0x27, 0x33, 0x41, 0x61, 0x10, 0x00, 0x00]).value? = none ∧
    (decodeLzHdr [0x53, 0x5A, 0x44, 0x44, 0x88, 0xF0, 0x27, 0x34, 0x41, 0x61, 0x10, 0x00, 0x00, 0x00]).value? = none ∧
    (decodeLzHdr [0x53, 0x5A, 0x44, 0x44, 0x88, 0xF0, 0x27, 0x33, 0x42, 0x61, 0x10, 0x00, 0x00, 0x00]).value? = none := by
  decide
/-- FLAGS 07, LZLIT 41 under a flag bit 1, LZREF F0 F4 under a flag bit 0 (P4). -/
theorem test_decode_lz :
    (decodeLz [0x07] LzCtx.fresh).value? = some (.flags 0x07) ∧
    (decodeLz [0x41] (LzCtx.fresh.loadFlags 0x07)).value? = some (.lzlit 0x41) ∧
    (decodeLz [0xF0, 0xF4] (LzCtx.fresh.loadFlags 0x00)).value? = some (.lzref 0xFF0 4) := by decide
/-- The nine commands (R261). -/
theorem test_decode_commands :
    [HostCmd.mzNew, .mzDecode 1 [2] 3, .qtInit 1 10 2, .qtReset 1, .qtDecode 1 [2] 3, .lzInit 1 [2], .lzReset 1, .lzSeek 1 2,
      .lzDecode 1 [2] 3].map decodeCmd =
    [Instr.mzNew, .mzDecode 1 [2] 3, .qtInit 1 10 2, .qtReset 1, .qtDecode 1 [2] 3, .lzInit 1 [2], .lzReset 1, .lzSeek 1 2,
      .lzDecode 1 [2] 3] := by decide
/-- Words of the opcode table (log 10). -/
theorem test_decode_table_words :
    decodeTableWord 16 0x4B43 = some .sig ∧ decodeTableWord 8 2 = some (.blkFixed false) ∧
    decodeTableWord 8 5 = some (.blkDynamic true) ∧ decodeTableWord 8 6 = some (.blkReserved false) ∧
    decodeTableWord 8 0 = some (.blkStored false) ∧ decodeTableWord 8 1 = some (.lzlit 0) ∧
    decodeTableWord 72 0x413327F088444 = none ∧
    decodeTableWord 72 0x413327F08844445A53 = some (.lzHdr 0 0) := by decide +kernel

/-! ## Readers and tables -/

/-- B-L1 to B-L3. -/
theorem test_brl :
    ((Brl.start 2).readBits defaultParameters [0x43, 0x4B, 0xB5, 0x01] 3).1 = 5 ∧
    (((Brl.start 2).readBits defaultParameters [0x43, 0x4B, 0xB5, 0xA7, 0xC3] 3).2.align.readBits defaultParameters [0x43, 0x4B, 0xB5, 0xA7, 0xC3] 16).1 =
      0xC3A7 ∧
    ((Brl.start 2).peek defaultParameters [0x43, 0x4B, 0xB5, 0xA7, 0xC3] 9).1 = 0x1B5 := by decide +kernel
/-- B-M2 and B-M3. -/
theorem test_brm :
    ((Brm.start).read defaultParameters [0xFF, 0x00, 0xAA, 0x55] 19).value? = some 0x7F805 ∧
    ((Brm.start).read defaultParameters [0xFF, 0x00] 19).value? = none := by decide +kernel
/-- The readers do not depend on the sub-read, and BRM reads B-M2's 19 bits with sub-reads of 5 as well (R137, by hand). -/
theorem test_brm_subread :
    ((Brm.start).read { defaultParameters with brmSubRead := 5, accWidth := 24 } [0xFF, 0x00, 0xAA, 0x55] 19).value? =
      some 0x7F805 := by decide +kernel
/-- H1: the root and the subtable of R166, example 1. -/
theorem test_huffman_table :
    (hufBuild [3, 3, 3, 3, 3, 2, 4, 4] 3 false).map HufTable.arena =
      some [[.leaf 2 5, .leaf 3 2, .leaf 3 0, .leaf 3 4, .leaf 2 5, .leaf 3 3, .leaf 3 1, .link 3 1 1],
        [.leaf 1 6, .leaf 1 7]] := by decide +kernel
/-- H2, H5, H6, H7. -/
theorem test_huffman_build :
    (hufBuild [0, 0, 1] 5 false).map HufTable.arena = some [[.leaf 1 2, .invalid]] ∧
    (hufBuild (List.replicate 19 0) 7 false).map HufTable.empty = some true ∧
    hufBuild [2, 2, 2, 0] 7 false = none ∧ hufBuild [1, 1, 1, 1] 7 false = none := by decide +kernel
/-- B2: the rebuild at the 1188th decode, by the stable sort and by the exchange sort (U14). -/
theorem test_rebuild :
    let m : QModel := { n := 7, first := 0, sym := [0, 1, 2, 3, 4, 5, 6], cum := [3797, 3796, 3795, 4, 3, 2, 1, 0],
                        reorder := 1, tabloc := [0, 1, 2, 3, 4, 5, 6] }
    (m.update .stable 3).sym = [2, 0, 1, 3, 4, 5, 6] ∧ (m.update .stable 3).cum = [1906, 6, 5, 4, 3, 2, 1, 0] ∧
    (m.update .exchange 3).sym = [2, 1, 0, 3, 4, 5, 6] ∧ (m.update .stable 3).reorder = 50 := by decide +kernel
/-- B2: the halving at the 475th decode. -/
theorem test_halve :
    let m : QModel := { n := 7, first := 0, sym := [0, 1, 2, 3, 4, 5, 6], cum := [3799, 3798, 3797, 4, 3, 2, 1, 0],
                        reorder := 4, tabloc := [0, 1, 2, 3, 4, 5, 6] }
    (m.update .stable 3).cum = [1904, 1903, 1902, 4, 3, 2, 1, 0] ∧ (m.update .stable 3).reorder = 3 := by decide +kernel

/-! ## One step of each instruction -/

/-- The next state of an outcome. -/
def nextOf : Result → Option State
  | .next t => some t
  | _ => none

/-- What a test looks at: STATUS, where the command stands, OUT, and some registers of context 0. -/
structure View where
  status : BitVec 4
  run : Run
  out : List Byte
  regs : Option (List Nat)
deriving DecidableEq, Repr

/-- A QT context's cursor, bytes to go and fault flag. -/
def qtRegs (x : QtCtx) : List Nat := [x.win.wpos, x.togo, x.fault.toNat]

/-- An MZ context that has produced two bytes of four. -/
def mzX : MzCtx :=
  { MzCtx.fresh with outLen := 4, produced := 2, win := { cells := [(0, 0x61), (1, 0x62)], wpos := 2, valid := 2 } }
/-- An `MZ_DECODE` on it that stands at `p`. -/
def mzS (p : MzPhase) (x : MzCtx) : State :=
  { State.reset with mz := [x], run := .mz 0 p, outLen := 4, out := [0x61, 0x62] }
/-- What a test looks at after an MSZIP element: STATUS, where the command stands, OUT, and the cursor of context 0. -/
def mzView (r : Result) : Option View :=
  (nextOf r).map fun t => ⟨t.status, t.run, t.out, t.mz.head?.map fun x => [x.win.wpos]⟩

/-- SIG empties the window and takes the request (R170); without the signature: InvalidSignature (M5). -/
theorem test_sig :
    (nextOf (execSig { mzS .sig mzX with outLen := 9, out := [] })).map (fun t =>
      (t.run, t.mz.head?.map fun x => (x.outLen, x.produced, x.win.valid))) = some (.mz 0 .header, some (9, 0, 0)) ∧
    (nextOf (step { mzS .sig mzX with inp := [0x43, 0x4C, 0x01, 0x00] })).map State.status = some 1 := by decide
/-- The block headers (R171): M7's reserved type gives InvalidBlockType, 2. -/
theorem test_blockHeaders :
    mzView (exec (.blkStored true) (mzS .header mzX)) = some ⟨0, .mz 0 .storedHdr, [0x61, 0x62], some [2]⟩ ∧
    mzView (exec (.blkDynamic true) (mzS .header mzX)) = some ⟨0, .mz 0 .dynHdr, [0x61, 0x62], some [2]⟩ ∧
    (nextOf (exec (.blkReserved true) (mzS .header mzX))).map (fun t => (t.status, t.run)) = some (2, .idle) := by decide
/-- BLK_FIXED builds both tables: roots of 7 and 5 bits (H8, H4). -/
theorem test_blkFixed :
    (nextOf (exec (.blkFixed true) (mzS .header mzX))).map (fun t =>
      (t.run, t.mz.head?.map fun x => (x.tl.m, x.tl.arena.length, x.td.m, x.td.arena.length))) =
    some (.mz 0 .symbols, some (7, 105, 5, 1)) := by decide +kernel
/-- STORED_HDR: 2 bytes fit the room of 2; NLEN of M8 is no complement, 6; 3 bytes do not fit, 7 (M9). -/
theorem test_storedHdr :
    mzView (exec (.storedHdr 2 0xFFFD) (mzS .storedHdr mzX)) = some ⟨0, .mz 0 (.raw 2), [0x61, 0x62], some [2]⟩ ∧
    (nextOf (exec (.storedHdr 4 0xFEFB) (mzS .storedHdr mzX))).map State.status = some 6 ∧
    (nextOf (exec (.storedHdr 3 0xFFFC) (mzS .storedHdr mzX))).map State.status = some 7 := by decide
/-- RAW: the last byte of a block that is not final leads to the next header (M23). -/
theorem test_raw :
    mzView (exec (.raw 0xDE) (mzS (.raw 2) mzX)) = some ⟨0, .mz 0 (.raw 1), [0x61, 0x62, 0xDE], some [3]⟩ ∧
    mzView (exec (.raw 0xDE) (mzS (.raw 1) mzX)) = some ⟨0, .mz 0 .header, [0x61, 0x62, 0xDE], some [3]⟩ := by decide
/-- DYN_HDR of P2, and of M13 (over-subscribed) and M14 (empty): MalformedHuffmanCode, 3. -/
theorem test_dynHdr :
    (nextOf (exec (.dynHdr 2 0 14 [0, 0, 2, 2, 0, 0, 0, 0, 0, 0, 0, 0, 0, 0, 0, 2, 0, 2]) (mzS .dynHdr mzX))).map (fun t =>
      View.mk t.status t.run [] (t.mz.head?.map fun x => x.nl :: x.nd :: x.nb :: x.cl.map BitVec.toNat)) =
      some ⟨0, .mz 0 .codeLens, [], some [259, 1, 18, 2, 2, 2, 0, 0, 0, 0, 0, 0, 0, 0, 0, 0, 0, 0, 0, 0, 0, 2]⟩ ∧
    (nextOf (exec (.dynHdr 0 0 0 [1, 1, 1, 1]) (mzS .dynHdr mzX))).map State.status = some 3 ∧
    (nextOf (exec (.dynHdr 0 0 0 [0, 0, 0, 0]) (mzS .dynHdr mzX))).map State.status = some 3 := by decide +kernel
/-- An MZ context in the code lengths of a block of 2 + 1 of them. -/
def mzL : MzCtx := { mzX with nl := 2, nd := 1, ll := [], prev := 1 }
/-- The code lengths written and the previous one. -/
def lensView (r : Result) : Option (BitVec 4 × Option (List (BitVec 4) × BitVec 4)) :=
  (nextOf r).map fun t => (t.status, t.mz.head?.map fun x => (x.ll, x.prev))
/-- CL appends one length; the last one builds both tables (R182, R184). -/
theorem test_cl :
    lensView (exec (.cl 5) (mzS .codeLens mzL)) = some (0, some ([5], 5)) ∧
    (nextOf (exec (.cl 1) (mzS .codeLens { mzL with ll := [1, 1] }))).map (fun t =>
      (t.run, t.mz.head?.map fun x => (x.tl.arena, x.td.arena))) =
      some (.mz 0 .symbols, some ([[.leaf 1 0, .leaf 1 1]], [[.leaf 1 0, .invalid]])) := by decide +kernel
/-- CL16 repeats the previous length, here 1 (R183 (b)): an over-subscribed set, 3; four of three is LengthOverrun, 5. -/
theorem test_cl16 :
    (nextOf (exec (.cl16 3) (mzS .codeLens mzL))).map (fun t => (t.status, t.run)) = some (0, .mz 0 .symbols) ∧
    (nextOf (exec (.cl16 4) (mzS .codeLens mzL))).map State.status = some 5 := by decide +kernel
/-- CL17 and CL18 append zeros and clear the previous length (R183 (c)). -/
theorem test_cl17_cl18 :
    lensView (exec (.cl17 3) (mzS .codeLens { mzL with nl := 9 })) = some (0, some ([0, 0, 0], 0)) ∧
    lensView (exec (.cl18 11) (mzS .codeLens { mzL with nl := 19 })) = some (0, some (List.replicate 11 0, 0)) := by decide
/-- LIT goes to the window and OUT; when the output is full: CorruptData (M19). -/
theorem test_lit :
    mzView (exec (.lit 0x63) (mzS .symbols mzX)) = some ⟨0, .mz 0 .symbols, [0x61, 0x62, 0x63], some [3]⟩ ∧
    (nextOf (exec (.lit 0x63) (mzS .symbols { mzX with outLen := 2 }))).map State.status = some 7 := by decide
/-- EOB of a final block: Ok when the output is full, CorruptData when it is short (M11). -/
theorem test_eob :
    mzView (exec .eob (mzS .symbols { mzX with outLen := 2, final := true })) = some ⟨0, .idle, [0x61, 0x62], some [2]⟩ ∧
    (nextOf (exec .eob (mzS .symbols { mzX with final := true }))).map State.status = some 7 := by decide
/-- MATCH waits for its distance; the reserved symbols are InvalidSymbol (M22). -/
theorem test_match_and_reserved :
    mzView (exec (.mtch 3) (mzS .symbols mzX)) = some ⟨0, .mz 0 (.distance 3), [0x61, 0x62], some [2]⟩ ∧
    (nextOf (exec (.llReserved 286) (mzS .symbols mzX))).map State.status = some 4 ∧
    (nextOf (exec (.distReserved 30) (mzS (.distance 3) mzX))).map State.status = some 4 := by decide
/-- DIST: distance 1 repeats the last byte; a distance above the valid bytes is CorruptData (M17). -/
theorem test_dist :
    mzView (exec (.dist 1) (mzS (.distance 2) mzX)) = some ⟨0, .mz 0 .symbols, [0x61, 0x62, 0x62, 0x62], some [4]⟩ ∧
    (nextOf (exec (.dist 3) (mzS (.distance 2) mzX))).map State.status = some 7 := by decide

/-- A QT context of 10 window bits, started, with three bytes produced of `3 + togo`. -/
def qtX (togo : Nat) : QtCtx :=
  { QtCtx.blank.setup defaultParameters 10 0 with
    L := 0, H := 0xFFFF, C := 0xDAC4, started := true, togo := togo,
    win := { cells := [(0, 0x41), (1, 0x42), (2, 0x43)], wpos := 3, valid := 3 } }
/-- A `QT_DECODE` on it that stands at `p`. -/
def qtS (p : QtPhase) (x : QtCtx) : State :=
  { State.reset with qt := [x], run := .qt 0 p, outLen := 3 + x.togo, inp := [0xDA, 0xC4, 0x49, 0x09, 0xDD, 0x98, 0x00, 0x00] }
/-- What a test looks at after a Quantum element. -/
def qtView (r : Result) : Option View :=
  (nextOf r).map fun t => ⟨t.status, t.run, t.out, t.qt.head?.map qtRegs⟩

/-- CODE16 of P3. -/
theorem test_code16 :
    (nextOf (exec (.code16 0xDAC4) (qtS .start { qtX 2 with started := false }))).map (fun t =>
      (t.run, t.qt.head?.map fun x => (x.L, x.H, x.C, x.started))) =
    some (.qt 0 .tokens, some (0, 0xFFFF, 0xDAC4, true)) := by decide +kernel
/-- Q5: one byte is too few; L and H have been written before the read (R203, R290 (4)). -/
theorem test_code16_truncated :
    (nextOf (step { qtS .start { qtX 2 with started := false, L := 5, H := 6 } with inp := [0xDA] })).map (fun t =>
      View.mk t.status t.run [] (t.qt.head?.map fun x => [x.L.toNat, x.H.toNat, x.fault.toNat, x.started.toNat])) =
    some ⟨8, .idle, [], some [0, 0xFFFF, 1, 0]⟩ := by decide +kernel
/-- The four literals go to the window; the last one of a request ends it with the trailing bytes in OUT (R220). -/
theorem test_qlit :
    qtView (exec (.qlit0 0x20) (qtS .tokens (qtX 2))) = some ⟨0, .qt 0 .tokens, [], some [4, 1, 0]⟩ ∧
    qtView (exec (.qlit1 0x44) (qtS .tokens (qtX 1))) = some ⟨0, .idle, [0x41, 0x42, 0x43, 0x44], some [4, 0, 0]⟩ ∧
    qtView (exec (.qlit2 0x80) (qtS .tokens (qtX 2))) = some ⟨0, .qt 0 .tokens, [], some [4, 1, 0]⟩ ∧
    qtView (exec (.qlit3 0xC0) (qtS .tokens (qtX 2))) = some ⟨0, .qt 0 .tokens, [], some [4, 1, 0]⟩ := by decide +kernel
/-- QM3 of P3 copies at offset 3, the oldest byte; offset 4 with 3 valid bytes is CorruptData (Q6). -/
theorem test_qm3 :
    qtView (exec (.qm3 3) (qtS .tokens (qtX 3))) =
      some ⟨0, .idle, [0x41, 0x42, 0x43, 0x41, 0x42, 0x43], some [6, 0, 0]⟩ ∧
    (nextOf (exec (.qm3 4) (qtS .tokens (qtX 3)))).map (fun t => (t.status, t.qt.head?.map QtCtx.fault)) =
      some (7, some true) := by decide +kernel
/-- QM4 and QMV: 4 and 6 bytes at offset 3 (P3); a length above what is left is CorruptData (Q8). -/
theorem test_qm4_qmv :
    qtView (exec (.qm4 3) (qtS .tokens (qtX 5))) = some ⟨0, .qt 0 .tokens, [], some [7, 1, 0]⟩ ∧
    qtView (exec (.qmv 6 3) (qtS .tokens (qtX 6))) =
      some ⟨0, .idle, [0x41, 0x42, 0x43, 0x41, 0x42, 0x43, 0x41, 0x42, 0x43], some [9, 0, 0]⟩ ∧
    (nextOf (exec (.qm4 3) (qtS .tokens (qtX 2)))).map State.status = some 7 := by decide +kernel

/-- The payload of L1. -/
def lzP : List Byte := [0x07, 0x41, 0x42, 0x43, 0xF0, 0xF4, 0x00, 0x00]
/-- An `LZ_DECODE` of `n` bytes on a context with registers `x`. -/
def lzS (x : LzCtx) (n : Nat) : State := { State.reset with lz := [x], run := .lz 0, outLen := n, inp := lzP }
/-- What a test looks at after an LZ element. -/
def lzView (r : Result) : Option View :=
  (nextOf r).map fun t => ⟨t.status, t.run, t.out, t.lz.head?.map fun x => [x.cur, x.real, x.slen]⟩

/-- LZ_HDR of S3. -/
theorem test_lzHdr :
    (nextOf (exec (.lzHdr 0x61 0x10) { State.reset with run := .lzHdr 0 })).map (fun t =>
      View.mk t.status t.run [] (t.lz.head?.map fun x =>
        [x.compType.toNat, x.lastChar.toNat, x.realLength.toNat, x.cur])) =
    some ⟨0, .idle, [], some [0x41, 0x61, 0x10, 0xFF0]⟩ := by decide
/-- FLAGS covers eight tokens; LZLIT puts its byte and is not delivered before the position asked for (R249). -/
theorem test_flags_lzlit :
    (nextOf (exec (.flags 0x07) (lzS LzCtx.fresh 4))).map (fun t => t.lz.head?.map fun x => (x.flags, x.fcnt)) =
      some (some (0x07, 8)) ∧
    lzView (exec (.lzlit 0x41) (lzS LzCtx.fresh 4)) = some ⟨0, .lz 0, [0x41], some [0xFF1, 1, 0]⟩ ∧
    lzView (exec (.lzlit 0x41) (lzS { LzCtx.fresh with want := 3 } 4)) = some ⟨0, .lz 0, [], some [0xFF1, 1, 0]⟩ := by decide
/-- LZREF of P4: off 0xFF0, length 4 + 2, cut after one byte (slen 5); L7: the source cursor wraps over initial spaces. -/
theorem test_lzref :
    lzView (exec (.lzref 0xFF0 4)
      (lzS { LzCtx.fresh with tab := [(0xFF0, 0x41), (0xFF1, 0x42), (0xFF2, 0x43)], cur := 0xFF3, real := 3 } 4)) =
      some ⟨0, .idle, [0x41], some [0xFF4, 4, 5]⟩ ∧
    lzView (exec (.lzref 0xFFF 2) (lzS LzCtx.fresh 4)) = some ⟨0, .idle, [0x20, 0x20, 0x20, 0x20], some [0xFF4, 4, 0]⟩ := by
  decide

/-- L4: the second byte of a reference is missing; the registers are those of the table of final states at the end of 95. -/
theorem test_lzref_truncated :
    (nextOf (step { lzS { LzCtx.fresh with flags := 0, fcnt := 5, inPos := 4, cur := 0xFF3, real := 3 } 5 with
        inp := [0x07, 0x41, 0x42, 0x43, 0xF0] })).map (fun t =>
      View.mk t.status t.run [] (t.lz.head?.map fun x => [x.cur, x.real, x.want, x.inPos, x.fcnt, x.slen, x.fault.toNat])) =
    some ⟨8, .idle, [], some [0xFF3, 3, 0, 5, 4, 0, 1]⟩ := by decide +kernel

/-- MZ_NEW, and MZ_DECODE with a request above 32768 (M24). -/
theorem test_mz_commands :
    (nextOf (exec .mzNew State.reset)).map (fun t => (t.status, t.mz.length)) = some (0, 1) ∧
    (nextOf (exec (.mzDecode 0 [0x43, 0x4B] 4) { State.reset with mz := [mzX] })).map State.run = some (.mz 0 .sig) := by
  decide
/-- QT_INIT of Q4 is refused with UnsupportedWindowSize; 10 bits give the sizes of R32; `level` keeps 4 bits. -/
theorem test_qtInit :
    (nextOf (exec (.qtInit 0 22 0) State.reset)).map (fun t => (t.status, t.qt.length)) = some (9, 0) ∧
    (nextOf (exec (.qtInit 0 10 0xFF) State.reset)).map (fun t => t.qt.head?.map fun x =>
      (x.wsize, x.level, [x.m7.n, x.m00.n, x.mC0.n, x.m4.n, x.m5.n, x.m6len.n, x.m6pos.n])) =
      some (some (1024, 0xF, [7, 64, 64, 20, 20, 27, 20])) := by decide +kernel
/-- A CAB compression type of 0x1572 (R118, by hand): 21 window bits, level 7. -/
theorem test_qtInitArguments : qtInitArguments 0x1572 = (21, 7) := by decide
/-- QT_RESET clears the fault flag; QT_DECODE on a faulted context is CorruptData (Q13), a request above the window too (Q12). -/
theorem test_qtReset_qtDecode :
    (nextOf (exec (.qtReset 0) { State.reset with qt := [{ qtX 0 with fault := true }] })).map (fun t =>
      t.qt.head?.map fun x => (x.fault, x.started, x.win.valid)) = some (some (false, false, 0)) ∧
    (nextOf (exec (.qtDecode 0 [0x00] 0) { State.reset with qt := [{ qtX 0 with fault := true }] })).map State.status =
      some 7 ∧
    (nextOf (exec (.qtDecode 0 [0x00] 1025) { State.reset with qt := [qtX 0] })).map (fun t =>
      (t.status, t.qt.head?.map QtCtx.fault)) = some (7, some false) := by decide +kernel
/-- LZ_INIT, LZ_RESET and LZ_SEEK (L4). -/
theorem test_lz_commands :
    (nextOf (exec (.lzInit 0 [0x53]) State.reset)).map (fun t => (t.run, t.lz.length)) = some (.lzHdr 0, 0) ∧
    (nextOf (exec (.lzReset 0) { State.reset with lz := [{ LzCtx.fresh with fault := true, real := 3 }] })).map (fun t =>
      t.lz.head?.map fun x => (x.fault, x.real)) = some (some (false, 0)) ∧
    (nextOf (exec (.lzSeek 0 2) { State.reset with lz := [{ LzCtx.fresh with fault := true }] })).map (fun t =>
      (t.status, t.lz.head?.map fun x => (x.want, x.fault))) = some (0, some (2, true)) := by decide
/-- LZ_DECODE: what is left of a reference is copied first (the second command of P4); a faulted context is rejected. -/
theorem test_lzDecode :
    lzView (exec (.lzDecode 0 lzP 4) { State.reset with lz :=
      [{ LzCtx.fresh with tab := [(0xFF0, 0x41), (0xFF1, 0x42), (0xFF2, 0x43), (0xFF3, 0x41)], cur := 0xFF4, real := 4,
                          want := 4, spos := 0xFF1, slen := 5, payload := some lzP }] }) =
      some ⟨0, .idle, [0x42, 0x43, 0x41, 0x42], some [0xFF8, 8, 1]⟩ ∧
    (nextOf (exec (.lzDecode 0 lzP 1) { State.reset with lz := [{ LzCtx.fresh with fault := true }] })).map State.status =
      some 7 := by decide
/-- A step fetches and executes: a table word placed where the next step fetches (log 10). -/
theorem test_withFetchWord :
    (nextOf (step (State.reset.withFetchWord 8 1))).map (fun t => (t.out, t.run)) = some ([0x00], .idle) ∧
    (nextOf (step (State.reset.withFetchWord 8 4))).map State.run = some (.mz 0 .dynHdr) ∧
    (nextOf (step (State.reset.withFetchWord 16 0x4B43))).map State.run = some (.mz 0 .header) := by decide

/-! ## Witnesses: helpers -/

theorem next_with {r : Result} {P : State → Prop} [DecidablePred P]
    (h : (nextOf r).map (fun t => decide (P t)) = some true) : ∃ t, r = .next t ∧ P t := by
  cases r with
  | next t => exact ⟨t, rfl, of_decide_eq_true (Option.some.inj h)⟩
  | fault f => cases h
  | refused f => cases h

theorem next_some {r : Result} (h : (nextOf r).isSome = true) : ∃ t, r = .next t := by
  cases r with
  | next t => exact ⟨t, rfl⟩
  | fault f => cases h
  | refused f => cases h

/-- How a read ended. -/
def gotKind {σ α : Type} : Got σ α → Option (Option ErrKind)
  | .ok _ _ => some none
  | .err k _ => some (some k)
  | .bug _ => none

theorem got_ok {σ α : Type} {g : Got σ α} (h : gotKind g = some none) : ∃ a x, g = .ok a x := by
  cases g with
  | ok a x => exact ⟨a, x, rfl⟩
  | err k x => cases h
  | bug f => cases h

theorem got_err {σ α : Type} {g : Got σ α} {k : ErrKind} (h : gotKind g = some (some k)) : ∃ x, g = .err k x := by
  cases g with
  | ok a x => cases h
  | err l x => cases h; exact ⟨x, rfl⟩
  | bug f => cases h

theorem got_value {σ α : Type} {g : Got σ α} {a : α} (h : g.value? = some a) : ∃ x, g = .ok a x := by
  cases g with
  | ok b x => cases h; exact ⟨x, rfl⟩
  | err l x => cases h
  | bug f => cases h

theorem built_some {lens : List Nat} {m : Nat} {a : Bool} (h : (hufBuild lens m a).isSome = true) :
    hufBuild lens m a = some ((hufBuild lens m a).getD HufTable.none) := by
  cases hb : hufBuild lens m a with
  | none => rw [hb] at h; cases h
  | some t => rfl

theorem configOk_default : configOk defaultParameters := by unfold configOk readersOk; decide

theorem readersOk_default : readersOk defaultParameters := by unfold readersOk; decide

/-- The invariants of a state whose one context is an MZ context. -/
theorem inv_mz {x : MzCtx} {p : MzPhase} {s : State} (hs : s = { mzS p x with out := s.out, inp := s.inp })
    (h1 : x.win.ok .mzwin mzWsize) (h2 : x.ok) (h3 : p.ok s x) : s.Inv := by
  have e1 : s.mz = [x] := by rw [hs]; rfl
  have e2 : s.qt = [] := by rw [hs]; rfl
  have e3 : s.lz = [] := by rw [hs]; rfl
  have e4 : s.run = .mz 0 p := by rw [hs]; rfl
  have e5 : s.cfg = defaultParameters := by rw [hs]; rfl
  refine ⟨⟨?_, ?_, ?_⟩, ⟨?_, ?_⟩, ⟨?_, ?_⟩, ⟨?_, ?_⟩, ?_, ?_, ?_⟩
  · rw [e1]; simpa using h1
  · rw [e2]; simp
  · rw [e3]; simp
  · rw [e1]; simpa using h2
  · intro c q y hr hy
    rw [e4] at hr; cases hr
    rw [e1] at hy; cases hy
    exact h3
  · rw [e5]; exact configOk_default
  · rw [e2]; simp
  · rw [e2]; simp
  · intro c q y hr; rw [e4] at hr; cases hr
  · rw [e5]; decide
  · rw [e3]; simp
  · intro c y hr; rw [e4] at hr; cases hr

theorem mzX_win : mzX.win.ok .mzwin mzWsize := by unfold Window.ok; decide
theorem mzX_ok : mzX.ok := by unfold MzCtx.ok; decide

theorem mzX_out : ∀ a, a < mzX.produced → memRead .mzwin mzX.win.cells a = ([0x61, 0x62] : List Byte)[a]? := by decide

/-- `mzX` at every place but the signature. -/
theorem inv_mzS (p : MzPhase) (hp : p ≠ .sig) (hl : ∀ left, p = .raw left → 1 ≤ left ∧ left ≤ 2) : (mzS p mzX).Inv := by
  refine inv_mz rfl mzX_win mzX_ok ?_
  cases p with
  | sig => exact absurd rfl hp
  | raw left =>
    obtain ⟨h1, h2⟩ := hl left rfl
    exact ⟨h1, h2, rfl, mzX_out⟩
  | _ => exact ⟨rfl, mzX_out⟩

/-- `mzX` at the signature. -/
theorem inv_mzSig (inp : List Byte) : ({ mzS .sig mzX with out := [], inp := inp } : State).Inv :=
  inv_mz rfl mzX_win mzX_ok ⟨(by decide : 4 ≤ mzWsize), rfl⟩

theorem qtX_models (togo : Nat) (w : QModelId) : ((qtX togo).model w).Ok (modelSize defaultParameters 10 w) (modelFirst w) := by
  have h := QtCtx.setup_models_ok configOk_default (w := 10) (by decide) (by decide) 0 QtCtx.blank w
  cases w <;> exact h

/-- The invariants of a `QT_DECODE` on `qtX` with `togo` bytes to go of `3 + togo`. -/
theorem inv_qtS (togo : Nat) (h1 : 1 ≤ togo) (h2 : togo ≤ 1021) : (qtS .tokens (qtX togo)).Inv := by
  refine ⟨⟨?_, ?_, ?_⟩, ⟨?_, ?_⟩, ⟨?_, ?_⟩, ⟨?_, ?_⟩, ?_, ?_, ?_⟩
  · simp [qtS, State.reset]
  · intro x hx
    obtain rfl : x = qtX togo := by simpa [qtS] using hx
    show Memory.wf .qtwin 1024 [(0, 0x41), (1, 0x42), (2, 0x43)] = true ∧ 3 < 1024 ∧ 3 ≤ 1024
    decide
  · simp [qtS, State.reset]
  · simp [qtS, State.reset]
  · intro c q y hr; cases hr
  · exact configOk_default
  · intro x hx
    obtain rfl : x = qtX togo := by simpa [qtS] using hx
    refine ⟨(by decide : qtWbitsMin ≤ 10), (by decide : 10 ≤ qtWbitsMax), rfl, qtX_models togo, fun _ _ => ?_⟩
    show (0 : Nat) ≤ 0xDAC4 ∧ 0xDAC4 ≤ 0xFFFF ∧ 0 < 0x8000 ∧ 0x8000 ≤ 0xFFFF ∧ ¬(0x4000 ≤ 0 ∧ 0xFFFF < 0xC000)
    decide
  · intro x hx
    obtain rfl : x = qtX togo := by simpa [qtS] using hx
    refine ⟨(by decide : 3 < 1024), (by decide : 3 ≤ 1024), fun _ => rfl, ?_⟩
    show ∀ a, a < 3 → (memRead .qtwin [(0, 0x41), (1, 0x42), (2, 0x43)] a).isSome
    decide
  · intro c p x hr hx
    obtain ⟨rfl, rfl⟩ : c = 0 ∧ p = .tokens := by cases hr; exact ⟨rfl, rfl⟩
    obtain rfl : x = qtX togo := by cases hx; rfl
    refine ⟨rfl, ?_, ?_, ?_, (fun h => nomatch h), fun _ => ⟨rfl, h1⟩⟩
    · show togo ≤ 3 + togo; omega
    · show 3 + togo ≤ 1024; omega
    · show 3 + togo - togo ≤ 3; omega
  · exact (by decide : 1 ≤ defaultParameters.lzLenBias)
  · simp [qtS, State.reset]
  · intro c y hr; cases hr

/-- The LZ context that has fetched the first flag byte of `lzP`. -/
def lzX : LzCtx := { LzCtx.fresh with flags := 0x07, fcnt := 8, inPos := 1, payload := some lzP }

theorem lzX_replays : lzX.replays defaultParameters := by
  intro _
  exact ⟨LzCtx.fresh, [], rfl, rfl, rfl, rfl, rfl, rfl, .inr ⟨rfl, rfl, rfl, rfl, rfl⟩⟩

theorem lzX_tableOk : lzX.tableOk defaultParameters := by unfold LzCtx.tableOk; decide

/-- The invariants of an `LZ_DECODE` of the first `n` bytes of `lzP` on `lzX`. -/
theorem inv_lzS (n : Nat) (h : 1 ≤ n) : (lzS lzX n).Inv := by
  refine ⟨⟨?_, ?_, ?_⟩, ⟨?_, ?_⟩, ⟨?_, ?_⟩, ⟨?_, ?_⟩, ?_, ?_, ?_⟩
  · simp [lzS, State.reset]
  · simp [lzS, State.reset]
  · intro x hx
    obtain rfl : x = lzX := by simpa [lzS] using hx
    exact lzX_tableOk
  · simp [lzS, State.reset]
  · intro c q y hr; cases hr
  · exact configOk_default
  · simp [lzS, State.reset]
  · simp [lzS, State.reset]
  · intro c q y hr; cases hr
  · exact (by decide : 1 ≤ defaultParameters.lzLenBias)
  · intro x hx
    obtain rfl : x = lzX := by simpa [lzS] using hx
    exact lzX_replays
  · intro c x hr hx
    obtain rfl : c = 0 := by cases hr; rfl
    obtain rfl : x = lzX := by cases hx; rfl
    refine ⟨rfl, rfl, rfl, ?_, ?_⟩
    · show 0 < 0 + n; omega
    · intro y D hD
      cases (show some (LzCtx.fresh, ([] : List Byte)) = some (y, D) from hD)
      rfl

/-! ## Witnesses: for each statement with hypotheses, states and operands that meet them -/

theorem mzAt_mzS (p : MzPhase) (x : MzCtx) : MzAt (mzS p x) 0 p x := ⟨rfl, rfl⟩
theorem qtAt_qtS (p : QtPhase) (x : QtCtx) : QtAt (qtS p x) 0 p x := ⟨rfl, rfl⟩
theorem lzAt_lzS (x : LzCtx) (n : Nat) : LzAt (lzS x n) 0 x := ⟨rfl, rfl⟩
/-- The states of `qtS`, `lzS` with no byte in IN. -/
def qtEmpty (p : QtPhase) (x : QtCtx) : State := { qtS p x with inp := [] }
def lzEmpty (x : LzCtx) (n : Nat) : State := { lzS x n with inp := [] }
/-- The header of S3. -/
def szdd : List Byte := [0x53, 0x5A, 0x44, 0x44, 0x88, 0xF0, 0x27, 0x33, 0x41, 0x61, 0x10, 0x00, 0x00, 0x00]
/-- An `LZ_INIT` that is about to read the header `hdr`. -/
def hdrS (hdr : List Byte) : State := { State.reset with run := .lzHdr 0, inp := hdr }
/-- An idle machine that has taken the command `cmd` into its queue. -/
def idleS (cmd : HostCmd) : State :=
  { State.reset with mz := [mzX], qt := [qtX 0], lz := [lzX], pending := [cmd] }

theorem witness_StepRunsTheFetchedElement :
    (State.reset.run = .idle ∧ State.reset.pending = []) ∧
    ((idleS .mzNew).run = .idle ∧ (idleS .mzNew).pending = .mzNew :: []) ∧
    (MzAt (mzS .header mzX) 0 .header mzX ∧ ∃ i r, decodeMz defaultParameters (mzS .header mzX).inp .header mzX = .ok i r) ∧
    (MzAt (mzS .symbols mzX) 0 .symbols mzX ∧ ∃ r, decodeMz defaultParameters (mzS .symbols mzX).inp .symbols mzX = .err .invalidSymbol r) ∧
    (QtAt (qtS .tokens (qtX 2)) 0 .tokens (qtX 2) ∧
      ∃ i y, decodeQt defaultParameters (qtS .tokens (qtX 2)).inp .tokens (qtX 2) = .ok i y) ∧
    (QtAt (qtEmpty .start (qtX 2)) 0 .start (qtX 2) ∧
      ∃ y, decodeQt defaultParameters (qtEmpty .start (qtX 2)).inp .start (qtX 2) = .err .truncatedInput y) ∧
    (LzAt (lzS lzX 1) 0 lzX ∧ ∃ i y, decodeLz (lzS lzX 1).inp lzX = .ok i y) ∧
    (LzAt (lzEmpty lzX 1) 0 lzX ∧ ∃ y, decodeLz (lzEmpty lzX 1).inp lzX = .err .truncatedInput y) ∧
    ((hdrS szdd).run = .lzHdr 0 ∧ ∃ i u, decodeLzHdr (hdrS szdd).inp = .ok i u) ∧
    ((hdrS []).run = .lzHdr 0 ∧ ∃ u, decodeLzHdr (hdrS []).inp = .err .truncatedInput u) :=
  ⟨⟨rfl, rfl⟩, ⟨rfl, rfl⟩, ⟨⟨rfl, rfl⟩, got_ok (by decide +kernel)⟩, ⟨⟨rfl, rfl⟩, got_err (by decide +kernel)⟩,
    ⟨⟨rfl, rfl⟩, got_ok (by decide +kernel)⟩, ⟨⟨rfl, rfl⟩, got_err (by decide +kernel)⟩,
    ⟨⟨rfl, rfl⟩, got_ok (by decide +kernel)⟩, ⟨⟨rfl, rfl⟩, got_err (by decide +kernel)⟩,
    ⟨rfl, got_ok (by decide +kernel)⟩, ⟨rfl, got_err (by decide +kernel)⟩⟩

theorem fetched_instr {σ : Type} {g : Got σ Instr} {i : Instr} {back : σ → State} (h : g.value? = some i) :
    ∃ s', g.fetched back = .instr i s' := by
  obtain ⟨x, rfl⟩ := got_value h
  exact ⟨back x, rfl⟩

theorem witness_FetchedElementIsWellFormed :
    QtInv (qtS .tokens (qtX 2)) ∧ ∃ s', fetch (qtS .tokens (qtX 2)) = .instr (.qlit1 0x41) s' :=
  ⟨(inv_qtS 2 (by decide) (by decide)).2.2.1,
    fetched_instr (g := decodeQt defaultParameters (qtS .tokens (qtX 2)).inp .tokens (qtX 2)) (by decide +kernel)⟩

/-- An environment with no padding and no code. -/
def env0 : EncEnv := { pad := [], clLens := [], llLens := [], dLens := [] }
/-- An environment with the padding behind a 3-bit block header, and the tables of this file. -/
def env1 : EncEnv :=
  { pad := [true, true, false, true, true],
    clLens := [0, 0, 2, 0, 0, 0, 0, 0, 0, 0, 0, 0, 0, 0, 0, 0, 2, 2, 2],
    llLens := (List.range 287).map fun s => if s = 97 ∨ s = 256 ∨ s = 285 ∨ s = 286 then 2 else 0,
    dLens := (List.range 31).map fun s => if s = 0 ∨ s = 5 ∨ s = 29 ∨ s = 30 then 2 else 0 }
/-- A bit reader that has taken 3 bits of the byte `b`. -/
def brl3 (b : BitVec 5) : Brl := { inOff := 1, acc := b.toNat, nbits := 5, zf := false }

theorem brl_start_wf (inp : List Byte) : (Brl.start 0).wf inp := ⟨by decide, by decide, Nat.zero_le _⟩

/-- Each place; the largest field values and as much padding as a byte can have left. -/
theorem witness_MzFieldsDecodeToWhatWasEncoded :
    readersOk defaultParameters ∧
    ((Brl.start 0).wf [0x05] ∧ (Instr.blkDynamic true).wf = true ∧ MzPhase.header.takes (.blkDynamic true) ∧
      encode env0 (.blkDynamic true) = some [true, false, true] ∧ (Brl.start 0).delivers [0x05] [true, false, true]) ∧
    ((brl3 0x1B).wf [0xDA, 0xFF, 0xFF, 0x00, 0x80] ∧ MzPhase.storedHdr.takes (.storedHdr 0xFFFF 0x8000) ∧
      env1.pad.length = (brl3 0x1B).nbits % 8 ∧
      encode env1 (.storedHdr 0xFFFF 0x8000) =
        some (env1.pad ++ List.replicate 16 true ++ List.replicate 15 false ++ [true]) ∧
      (brl3 0x1B).delivers [0xDA, 0xFF, 0xFF, 0x00, 0x80]
        (env1.pad ++ List.replicate 16 true ++ List.replicate 15 false ++ [true])) ∧
    ((Brl.start 0).wf [0x80] ∧ (MzPhase.raw 1).takes (.raw 0x80) ∧
      encode env0 (.raw 0x80) = some (List.replicate 7 false ++ [true]) ∧
      (Brl.start 0).delivers [0x80] (List.replicate 7 false ++ [true])) ∧
    ((Brl.start 0).wf (List.replicate 9 0xFF) ∧ (Instr.dynHdr 31 31 15 (List.replicate 19 7)).wf = true ∧
      MzPhase.dynHdr.takes (.dynHdr 31 31 15 (List.replicate 19 7)) ∧
      encode env0 (.dynHdr 31 31 15 (List.replicate 19 7)) = some (List.replicate 71 true) ∧
      (Brl.start 0).delivers (List.replicate 9 0xFF) (List.replicate 71 true)) := by
  refine ⟨readersOk_default, ⟨brl_start_wf _, rfl, ⟨true, by simp⟩, by decide, ?_⟩,
    ⟨⟨by decide, by decide, by decide⟩, ⟨_, _, rfl⟩, rfl, by decide, ?_⟩, ⟨brl_start_wf _, ⟨_, rfl⟩, by decide, ?_⟩,
    ⟨brl_start_wf _, rfl, ⟨_, _, _, _, rfl⟩, by decide +kernel, ?_⟩⟩ <;>
  · unfold Brl.delivers; decide +kernel

/-- Each of the three alphabets, at the largest value of an element with extra bits. -/
theorem witness_MzSymbolsDecodeToWhatWasEncoded :
    readersOk defaultParameters ∧
    (∀ l ∈ env1.clLens ++ env1.llLens ++ env1.dLens, l ≤ 15) ∧
    (∃ m a, hufBuild env1.clLens m a = some ((hufBuild env1.clLens 7 false).getD HufTable.none)) ∧
    (∃ m a, hufBuild env1.llLens m a = some ((hufBuild env1.llLens 9 false).getD HufTable.none)) ∧
    (∃ m a, hufBuild env1.dLens m a = some ((hufBuild env1.dLens 6 false).getD HufTable.none)) ∧
    ((Brl.start 0).wf [0xFF, 0x01] ∧ (Instr.cl18 138).wf = true ∧ MzPhase.codeLens.takes (.cl18 138) ∧
      encode env1 (.cl18 138) = some (List.replicate 9 true) ∧
      (Brl.start 0).delivers [0xFF, 0x01] (List.replicate 9 true)) ∧
    ((Brl.start 0).wf [0x01] ∧ (Instr.mtch 258).wf = true ∧ MzPhase.symbols.takes (.mtch 258) ∧
      encode env1 (.mtch 258) = some [true, false] ∧ (Brl.start 0).delivers [0x01] [true, false]) ∧
    ((Brl.start 0).wf [0xFD, 0x7F] ∧ (Instr.dist 32768).wf = true ∧ (MzPhase.distance 3).takes (.dist 32768) ∧
      encode env1 (.dist 32768) = some (true :: false :: List.replicate 13 true) ∧
      (Brl.start 0).delivers [0xFD, 0x7F] (true :: false :: List.replicate 13 true)) := by
  refine ⟨readersOk_default, by decide +kernel, ⟨7, false, built_some (by decide +kernel)⟩, ⟨9, false, built_some (by decide +kernel)⟩,
    ⟨6, false, built_some (by decide +kernel)⟩,
    ⟨brl_start_wf _, rfl, .inr ⟨138, .inr (.inr rfl)⟩, by decide +kernel, ?_⟩,
    ⟨brl_start_wf _, rfl, .inr (.inr (.inl ⟨258, rfl⟩)), by decide +kernel, ?_⟩,
    ⟨brl_start_wf _, rfl, .inl ⟨32768, rfl⟩, by decide +kernel, ?_⟩⟩ <;>
  · unfold Brl.delivers; decide +kernel

/-- `lzX` where the reference of `lzP` is due. -/
def lzR : LzCtx := { lzX with flags := 0, fcnt := 5, inPos := 4 }

theorem witness_ByteElementsAndCommandsDecodeToWhatWasEncoded :
    ([0x43, 0x4B, 0x01] : List Byte).take 2 = [0x43, 0x4B] ∧
    (lzBytes (.lzHdr 0x61 0x10) = some szdd ∧ szdd.take 14 = szdd) ∧
    (LzCtx.fresh.slen = 0 ∧ LzCtx.fresh.fcnt = 0 ∧ lzBytes (.flags 0x07) = some [0x07] ∧
      (lzP.drop LzCtx.fresh.inPos).take 1 = [0x07]) ∧
    (lzX.slen = 0 ∧ lzX.fcnt ≠ 0 ∧ lzX.flags.getLsbD 0 = true ∧ lzBytes (.lzlit 0x41) = some [0x41] ∧
      (lzP.drop lzX.inPos).take 1 = [0x41]) ∧
    (lzR.slen = 0 ∧ lzR.fcnt ≠ 0 ∧ lzR.flags.getLsbD 0 = false ∧ lzBytes (.lzref 0xFF0 4) = some [0xF0, 0xF4] ∧
      (lzP.drop lzR.inPos).take 2 = [0xF0, 0xF4]) := by decide

/-- Reads of 0 and of 16 bits from a reader that holds bits. -/
theorem witness_BrlReadGivesTheNextBits :
    readersOk defaultParameters ∧ (0 ≤ 16 ∧ 16 ≤ 16 ∧ (brl3 0x1B).wf [0xDA, 0xFF, 0xFF]) ∧
    ((brl3 0x1B).readBits defaultParameters [0xDA, 0xFF, 0xFF] 16).2.zf = false :=
  ⟨readersOk_default, ⟨by decide, by decide, by decide, by decide, by decide⟩, by decide⟩

/-- 32 bits of four bytes; 33 bits of four bytes are not there, nor 1 of none. -/
theorem witness_BrmReadGivesTheNextBitsOrFails :
    (readersOk defaultParameters ∧ defaultParameters.qtZeroFill = false) ∧
    (Brm.start.wf [1, 2, 3, 4] ∧ 32 ≤ 32 ∧ 32 ≤ Brm.start.bitsLeft [1, 2, 3, 4]) ∧
    (Brm.start.wf [1, 2, 3] ∧ Brm.start.bitsLeft [1, 2, 3] < 32 ∧ Brm.start.wf [] ∧ Brm.start.bitsLeft [] < 1) ∧
    readersOk { defaultParameters with qtZeroFill := true, accWidth := 24, brmSubRead := 1 } :=
  ⟨⟨readersOk_default, rfl⟩, ⟨⟨by decide, by decide, by decide⟩, by decide, by decide⟩,
    ⟨⟨by decide, by decide, by decide⟩, by decide, ⟨by decide, by decide, by decide⟩, by decide⟩,
    by unfold readersOk; decide⟩

theorem witness_HufBuildAcceptsTheRightSets :
    (∀ l ∈ [0, 0], l ≤ 15) ∧ (∀ l ∈ [0, 0], l = 0) ∧ (∀ l ∈ [15, 1, 0], l ≤ 15) ∧ ∃ l ∈ [15, 1, 0], l ≠ 0 := by decide

/-- The code of symbol 2 comes next; no code of an incomplete set comes next. -/
theorem witness_HufDecodeFollowsTheCodes :
    readersOk defaultParameters ∧ (∀ l ∈ [2, 2, 1], l ≤ 15) ∧ (∃ t, hufBuild [2, 2, 1] 5 false = some t) ∧ (Brl.start 0).wf [0x00] ∧
    (0 < [2, 2, 1].getD 2 0 ∧
      ∀ i, i < [2, 2, 1].getD 2 0 → (Brl.start 0).streamBit [0x00] i = hufCodeBit [2, 2, 1] 2 i) ∧
    (∃ t, hufBuild [0, 1] 5 false = some t) ∧
    ∀ s, 0 < [0, 1].getD s 0 → ∃ i, i < [0, 1].getD s 0 ∧ (Brl.start 0).streamBit [0x01] i ≠ hufCodeBit [0, 1] s i := by
  refine ⟨readersOk_default, by decide, ⟨_, built_some (by decide +kernel)⟩, brl_start_wf _, by decide, ⟨_, built_some (by decide +kernel)⟩, ?_⟩
  intro s hs
  match s with
  | 0 => exact absurd hs (by decide)
  | 1 => exact ⟨0, by decide⟩
  | n + 2 => exact absurd hs (by simp)

theorem witness_EmptyTableDecodesNothing : HufTable.none.empty = true := rfl

/-- A window of four bytes whose cursor stands at its last byte. -/
def win4 : Window := { cells := [(0, 0x61), (1, 0x62), (2, 0x63)], wpos := 3, valid := 3 }
theorem win4_ok : win4.ok .mzwin 4 := by unfold Window.ok; decide

theorem witness_WinPutStoresOneByte : win4.ok .mzwin 4 := win4_ok

/-- The least and the greatest distance, and the greatest length. -/
theorem witness_WinCopyIsRunExpansion :
    win4.ok .mzwin 4 ∧ (1 ≤ 1 ∧ 1 ≤ 4 ∧ 4 ≤ 4 ∧ ∃ w' bs, winCopy .mzwin 4 1 4 win4 = some (w', bs)) ∧
    ({ win4 with wpos := 0, valid := 4, cells := win4.cells ++ [(3, 0x64)] } : Window).ok .mzwin 4 ∧
    (1 ≤ 4 ∧ 4 ≤ 4 ∧ ∃ w' bs,
      winCopy .mzwin 4 4 4 { win4 with wpos := 0, valid := 4, cells := win4.cells ++ [(3, 0x64)] } = some (w', bs)) :=
  ⟨win4_ok, ⟨by decide, by decide, by decide, _, _, rfl⟩, by unfold Window.ok; decide, ⟨by decide, by decide, _, _, rfl⟩⟩

theorem witness_LzReferenceIsRunExpansion :
    lzX.tableOk defaultParameters ∧ 4096 ≤ 4096 ∧ { lzX with spos := 0xFF0, want := 5000 }.tableOk defaultParameters := by
  refine ⟨lzX_tableOk, by decide, ?_⟩
  unfold LzCtx.tableOk; decide

theorem witness_ErrorEntry :
    (qtS .tokens (qtX 2)).run = .qt 0 .tokens ∧ (∀ p, (lzS lzX 1).run ≠ .qt 0 p) ∧ (lzS lzX 1).run = .lz 0 ∧
    (qtS .tokens (qtX 2)).run ≠ .lz 0 :=
  ⟨rfl, (fun _ h => nomatch h), rfl, (fun h => nomatch h)⟩

theorem witness_SigAndBlockHeadersDispatch :
    (MzAt (mzS .sig mzX) 0 .sig mzX ∧ (mzS .sig mzX).inp.take 2 ≠ [0x43, 0x4B]) ∧ MzAt (mzS .header mzX) 0 .header mzX :=
  ⟨⟨⟨rfl, rfl⟩, by decide⟩, rfl, rfl⟩

/-- The last byte of a stored block, and of the room. -/
theorem witness_StoredBlockElements :
    MzAt (mzS .storedHdr mzX) 0 .storedHdr mzX ∧
    (MzAt (mzS (.raw 1) { mzX with outLen := 3 }) 0 (.raw 1) { mzX with outLen := 3 } ∧ 1 ≤ 1 ∧
      ({ mzX with outLen := 3 } : MzCtx).produced < 3) :=
  ⟨⟨rfl, rfl⟩, ⟨rfl, rfl⟩, by decide, by decide⟩

/-- The table of a set of code-length-code lengths. -/
def clBuilt (clen : List (BitVec 3)) : Option HufTable :=
  hufBuild ((clArray clen).map BitVec.toNat) defaultParameters.mzClRoot false

/-- The most and the fewest fields; a good set, an empty one and an over-subscribed one. -/
theorem witness_DynamicHeaderBuildsTheCodeLengthTable :
    (List.replicate 19 (7 : BitVec 3)).length ≤ 19 ∧ 18 < (List.replicate 19 (7 : BitVec 3)).length ∧
    (([] : List (BitVec 3)).length ≤ 0 ∧ 0 < 19) ∧
    MzAt (mzS .dynHdr mzX) 0 .dynHdr mzX ∧
    (∃ tc, clBuilt [1, 1, 0, 0] = some tc ∧ tc.empty = false) ∧ (∃ tc, clBuilt [0, 0, 0, 0] = some tc ∧ tc.empty = true) ∧
    clBuilt [1, 1, 1, 1] = none := by
  refine ⟨by decide, by decide, ⟨by decide, by decide⟩, ⟨rfl, rfl⟩, ⟨_, built_some (by decide +kernel), ?_⟩,
    ⟨_, built_some (by decide +kernel), ?_⟩, ?_⟩ <;> decide +kernel

/-- Two of three lengths have been written: `CL 1` makes a complete array, a run of 3 overruns; one of three with a run of 1
goes on. The sets: complete, over-subscribed, empty, and a distance set that is over-subscribed. -/
theorem witness_CodeLengthElements :
    (MzAt (mzS .codeLens { mzL with ll := [1] }) 0 .codeLens { mzL with ll := [1] } ∧
      lengthRun { mzL with ll := [1] } (.cl 1) = some (1, 1, 1) ∧ [1].length + 1 < mzL.nl + mzL.nd) ∧
    (lengthRun { mzL with ll := [1, 1] } (.cl16 3) = some (1, 3, 1) ∧ mzL.nl + mzL.nd < [1, 1].length + 3) ∧
    (lengthRun { mzL with ll := [1, 1] } (.cl 1) = some (1, 1, 1) ∧ [1, 1].length + 1 = mzL.nl + mzL.nd) ∧
    (lengthRun mzL (.cl17 3) = some (0, 3, 0) ∧ mzL.ll.length + 3 = mzL.nl + mzL.nd) ∧
    (∃ tl, hufBuild [1, 1] defaultParameters.mzDynLroot false = some tl ∧ tl.empty = false) ∧
    (∃ td, hufBuild [1] defaultParameters.mzDynDroot false = some td) ∧
    hufBuild [2, 1] defaultParameters.mzDynLroot false = none ∧
    (∃ tl, hufBuild [0, 0] defaultParameters.mzDynLroot false = some tl ∧ tl.empty = true) ∧
    hufBuild [1, 1, 1] defaultParameters.mzDynDroot false = none := by
  refine ⟨⟨⟨rfl, rfl⟩, rfl, by decide⟩, ⟨rfl, by decide⟩, ⟨rfl, by decide⟩, ⟨rfl, by decide⟩,
    ⟨_, built_some (by decide +kernel), by decide +kernel⟩, ⟨_, built_some (by decide +kernel)⟩, by decide +kernel,
    ⟨_, built_some (by decide +kernel), by decide +kernel⟩, by decide +kernel⟩

theorem witness_SymbolElements :
    (MzAt (mzS .symbols mzX) 0 .symbols mzX ∧ mzX.produced ≠ mzX.outLen) ∧
    MzAt (mzS (.distance 3) mzX) 0 (.distance 3) mzX := ⟨⟨⟨rfl, rfl⟩, by decide⟩, rfl, rfl⟩

theorem witness_LiteralWhenFullIsCorruptData :
    MzAt (mzS .symbols { mzX with outLen := 2 }) 0 .symbols { mzX with outLen := 2 } ∧
    ({ mzX with outLen := 2 } : MzCtx).produced = ({ mzX with outLen := 2 } : MzCtx).outLen := ⟨⟨rfl, rfl⟩, rfl⟩

/-- The least and the greatest distance that pass, a length of all the room; and each of the three rejections. -/
theorem witness_MatchIsCopiedOrRejected :
    (MemoryInv (mzS (.distance 2) mzX) ∧ MzInv (mzS (.distance 2) mzX) ∧
      MzAt (mzS (.distance 2) mzX) 0 (.distance 2) mzX ∧ 1 ≤ 1 ∧ 1 ≤ mzX.win.valid ∧ 1 ≤ 2 ∧ 2 ≤ mzX.win.valid ∧
      2 ≤ mzX.outLen - mzX.produced) ∧
    (MzAt (mzS (.distance 3) mzX) 0 (.distance 3) mzX ∧ mzX.win.valid < 3 ∧ mzX.outLen - mzX.produced < 3) := by
  have h := inv_mzS (.distance 2) (fun h => nomatch h) (fun _ h => nomatch h)
  exact ⟨⟨h.1, h.2.1, ⟨rfl, rfl⟩, by decide⟩, ⟨rfl, rfl⟩, by decide, by decide⟩

theorem witness_ModelInitAndSizes : (1 ≤ 64 ∧ 64 ≤ 64 ∧ 192 + 64 ≤ 256) ∧ (10 ≤ 10 ∧ 10 ≤ 21) ∧ (10 ≤ 21 ∧ 21 ≤ 21) := by
  decide

/-- A model of seven symbols with a large total. -/
def bigM (top reorder : Nat) : QModel :=
  { n := 7, first := 0, sym := [0, 1, 2, 3, 4, 5, 6], cum := [top, 3700, 3600, 4, 3, 2, 1, 0], reorder := reorder,
    tabloc := [0, 1, 2, 3, 4, 5, 6] }

theorem bigM_ok {top reorder : Nat} (h1 : 3700 < top) (h2 : top ≤ 3800) (h3 : 1 ≤ reorder) (h4 : reorder ≤ 50) :
    (bigM top reorder).Ok 7 0 where
  size := rfl
  base := rfl
  nonempty := by decide
  atMost64 := by decide
  bytes := by decide
  symLength := rfl
  symNodup := (by decide : ([0, 1, 2, 3, 4, 5, 6] : List Byte).Nodup)
  symRange := (by decide : ∀ b ∈ ([0, 1, 2, 3, 4, 5, 6] : List Byte), 0 ≤ b.toNat ∧ b.toNat < 0 + 7)
  cumLength := rfl
  decreasing := by
    refine List.Pairwise.cons ?_ (by decide : [3700, 3600, 4, 3, 2, 1, 0].Pairwise fun a b => b < a)
    intro a ha
    have : a ≤ 3700 := (by decide : ∀ a ∈ [3700, 3600, 4, 3, 2, 1, 0], a ≤ 3700) a ha
    omega
  sentinel := rfl
  total := h2
  reorderPos := h3
  reorderMax := h4
  lookup := (by decide : ∀ k, (h : k < (bigM 0 0).sym.length) → (bigM 0 0).lookup (bigM 0 0).sym[k] = some k)

/-- The first and the last hit index; a total of exactly 3800 after the bump, and one above it with the counter at 2. -/
theorem witness_UpdateBumpsOrHalves :
    ((bigM 3792 1).Ok 7 0 ∧ 1 ≤ 1 ∧ 1 ≤ 7 ∧ (bigM 3792 1).cum.getD 0 0 + 8 ≤ 3800) ∧
    ((bigM 3793 2).Ok 7 0 ∧ 1 ≤ 7 ∧ 7 ≤ 7 ∧ 3800 < (bigM 3793 2).cum.getD 0 0 + 8 ∧ 2 ≤ (bigM 3793 2).reorder) :=
  ⟨⟨bigM_ok (by decide) (by decide) (by decide) (by decide), by decide⟩,
    bigM_ok (by decide) (by decide) (by decide) (by decide), by decide⟩

theorem witness_RebuildSortsStably :
    (bigM 3793 1).Ok 7 0 ∧ 1 ≤ 3 ∧ 3 ≤ 7 ∧ (bigM 3793 1).reorder = 1 ∧ 3800 < (bigM 3793 1).cum.getD 0 0 + 8 :=
  ⟨bigM_ok (by decide) (by decide) (by decide) (by decide), by decide⟩

theorem witness_ScenarioB : 467 ≤ 467 ∧ 468 ≤ 468 ∧ 468 ≤ 475 := by decide

/-- The code register at low and at high. -/
theorem witness_NarrowingKeepsTheCode :
    (bigM 3800 1).Ok 7 0 ∧ (qtX 1).L.toNat ≤ (qtX 1).C.toNat ∧ (qtX 1).C.toNat ≤ (qtX 1).H.toNat ∧
    ({ QtCtx.blank with L := 0x7FFF, C := 0x8000, H := 0x8000 } : QtCtx).L.toNat ≤ 0x8000 :=
  ⟨bigM_ok (by decide) (by decide) (by decide) (by decide), by decide +kernel⟩

/-- A coder whose three registers agree in 15 bits: 15 passes. -/
theorem witness_RenormaliseRestoresTheCoder :
    (0x1234 ≤ 0x1235 ∧ 0x1235 ≤ 0x1235) ∧
    ∃ u y, ({ QtCtx.blank with L := 0x1234, C := 0x1235, H := 0x1235 } : QtCtx).renormalise defaultParameters [0xAA, 0xAA] = .ok u y :=
  ⟨by decide, got_ok (by decide +kernel)⟩

theorem qtX_coderOk : (qtX 2).coderOk := ((inv_qtS 2 (by decide) (by decide)).2.2.1.2 (qtX 2) (by simp [qtS])).2.2.2.2 rfl rfl

theorem witness_GetSymbolDecodesAndAdapts :
    ((qtX 2).model .m7).Ok 7 0 ∧ (qtX 2).coderOk ∧ ∃ b y, getSymbol defaultParameters [0x49, 0x09] .m7 (qtX 2) = .ok b y :=
  ⟨qtX_models 2 .m7, qtX_coderOk, got_ok (by decide +kernel)⟩

/-- A coder start with IN of just two bytes; the requests of one byte and of none; IN of one byte. -/
theorem witness_Code16StartsTheCoder :
    (readersOk defaultParameters ∧ (qtX 1).bm = Brm.start ∧ ([0xDA, 0xC4] : List Byte).take 2 = [0xDA, 0xC4]) ∧
    (QtAt (qtS .start (qtX 1)) 0 .start (qtX 1) ∧ (qtX 1).togo ≠ 0) ∧
    (QtAt { qtS .start (qtX 0) with outLen := 0 } 0 .start (qtX 0) ∧ (qtX 0).togo = 0) ∧
    (QtAt { qtS .start (qtX 1) with inp := [0xDA] } 0 .start (qtX 1) ∧ readersOk defaultParameters ∧
      defaultParameters.qtZeroFill = false ∧ (qtX 1).bm = Brm.start ∧ ([0xDA] : List Byte).length < 2) :=
  ⟨⟨readersOk_default, rfl, rfl⟩, ⟨⟨rfl, rfl⟩, (by decide : 1 ≠ 0)⟩, ⟨⟨rfl, rfl⟩, rfl⟩, ⟨rfl, rfl⟩, readersOk_default,
    rfl, rfl, by decide⟩

theorem witness_QuantumLiteralIsEmitted :
    (QtAt (qtS .tokens (qtX 2)) 0 .tokens (qtX 2) ∧ 2 ≤ (qtX 2).togo) ∧
    (MemoryInv (qtS .tokens (qtX 1)) ∧ QtWindowInv (qtS .tokens (qtX 1)) ∧ QtAt (qtS .tokens (qtX 1)) 0 .tokens (qtX 1) ∧
      (qtX 1).togo = 1) := by
  have h := inv_qtS 1 (by decide) (by decide)
  exact ⟨⟨⟨rfl, rfl⟩, (by decide : 2 ≤ 2)⟩, h.1, h.2.2.2.1, ⟨rfl, rfl⟩, rfl⟩

/-- The three forms; the least and the greatest offset, a length of all that is left; and the three rejections. -/
theorem witness_QuantumMatchIsCopiedOrRejected :
    (MemoryInv (qtS .tokens (qtX 4)) ∧ QtWindowInv (qtS .tokens (qtX 4)) ∧ QtAt (qtS .tokens (qtX 4)) 0 .tokens (qtX 4) ∧
      1 ≤ 1 ∧ 3 ≤ (qtX 4).win.valid ∧ 3 < (qtX 4).togo ∧ 4 = (qtX 4).togo) ∧
    (QtAt (qtS .tokens (qtX 4)) 0 .tokens (qtX 4) ∧ (qtX 4).togo ≠ 0 ∧ (qtX 4).win.valid < 4 ∧ (qtX 4).togo < 5) := by
  have h := inv_qtS 4 (by decide) (by decide)
  exact ⟨⟨h.1, h.2.2.2.1, ⟨rfl, rfl⟩, (by decide : 1 ≤ 1 ∧ 3 ≤ 3 ∧ 3 < 4 ∧ 4 = 4)⟩, ⟨rfl, rfl⟩,
    (by decide : 4 ≠ 0 ∧ 3 < 4 ∧ 4 < 5)⟩

/-- The reference of L4 with one byte of IN left: its second byte is missing. -/
def lzLast : LzCtx := { lzX with flags := 0, fcnt := 5, inPos := 7 }

/-- Where the flags are due; where a literal and a reference are due, for one byte; and where the flag byte, a token's first
byte and a reference's second byte are missing. -/
theorem witness_LzTokensAreExecuted :
    (LzAt (lzS LzCtx.fresh 1) 0 LzCtx.fresh ∧ LzCtx.fresh.fcnt = 0) ∧
    (LzAt (lzS lzX 1) 0 lzX ∧ lzX.real < lzX.want + 1 ∧ lzX.real + 1 < 4294967296 ∧ lzX.want + 1 < 4294967296) ∧
    (LzAt (lzEmpty LzCtx.fresh 1) 0 LzCtx.fresh ∧ LzCtx.fresh.slen = 0 ∧ LzCtx.fresh.fcnt = 0 ∧
      (lzEmpty LzCtx.fresh 1).inp.length ≤ LzCtx.fresh.inPos) ∧
    (LzAt (lzEmpty lzX 1) 0 lzX ∧ lzX.slen = 0 ∧ lzX.fcnt ≠ 0 ∧ (lzEmpty lzX 1).inp.length ≤ lzX.inPos) ∧
    (LzAt (lzS lzLast 1) 0 lzLast ∧ lzLast.slen = 0 ∧ lzLast.fcnt ≠ 0 ∧ lzLast.flags.getLsbD 0 = false ∧
      (lzS lzLast 1).inp.length = lzLast.inPos + 1) :=
  ⟨⟨⟨rfl, rfl⟩, rfl⟩, ⟨⟨rfl, rfl⟩, by decide⟩, ⟨⟨rfl, rfl⟩, by decide⟩, ⟨⟨rfl, rfl⟩, by decide⟩, ⟨rfl, rfl⟩, by decide⟩

theorem witness_MzCommands :
    (State.reset.run = .idle ∧ State.reset.cfg.nCtx = none) ∧
    (let s := { State.reset with cfg := { defaultParameters with nCtx := some 1 } };
      s.run = .idle ∧ s.cfg.nCtx = some 1 ∧ s.mz.length < 1) ∧
    ((idleS .mzNew).run = .idle ∧ (idleS .mzNew).mz[0]? = some mzX) := ⟨⟨rfl, rfl⟩, ⟨rfl, rfl, by decide⟩, rfl, rfl⟩

/-- The two ends of the range, on a new and on an existing context, and the values beside them. -/
theorem witness_QtInitSetsUpOrRefuses :
    (State.reset.run = .idle ∧ 10 ≤ (10 : BitVec 8).toNat ∧ (10 : BitVec 8).toNat ≤ 21 ∧ 0 ≤ State.reset.qt.length ∧
      State.reset.cfg.nCtx = none) ∧
    ((idleS .mzNew).run = .idle ∧ 10 ≤ (21 : BitVec 8).toNat ∧ (21 : BitVec 8).toNat ≤ 21 ∧
      0 < (idleS .mzNew).qt.length ∧ (idleS .mzNew).qt[0]? = some (qtX 0)) ∧
    ((9 : BitVec 8).toNat < 10 ∧ 21 < (22 : BitVec 8).toNat) :=
  ⟨⟨rfl, by decide, by decide, by decide, rfl⟩, ⟨rfl, by decide, by decide, Nat.one_pos, rfl⟩, by decide⟩

theorem witness_QtResetRestarts : (idleS .mzNew).run = .idle ∧ (idleS .mzNew).qt[0]? = some (qtX 0) := ⟨rfl, rfl⟩

theorem witness_QtDecodeChecksThenReads :
    (idleS .mzNew).run = .idle ∧ (idleS .mzNew).qt[0]? = some (qtX 0) ∧ (qtX 0).fault = false ∧ (qtX 0).started = true :=
  ⟨rfl, rfl, rfl, rfl⟩

/-- A short header, a wrong magic and a wrong type. -/
theorem witness_LzInitReadsTheHeader :
    (State.reset.run = .idle ∧ 0 ≤ State.reset.lz.length ∧ State.reset.cfg.nCtx = none) ∧
    ((hdrS (szdd.take 13)).run = .lzHdr 0 ∧ (hdrS (szdd.take 13)).inp.length < 14) ∧
    (14 ≤ (hdrS (List.replicate 14 0)).inp.length ∧
      (hdrS (List.replicate 14 0)).inp.take 8 ≠ [0x53, 0x5A, 0x44, 0x44, 0x88, 0xF0, 0x27, 0x33]) ∧
    (14 ≤ (szdd.set 8 0x42).length ∧ (szdd.set 8 0x42).take 8 = [0x53, 0x5A, 0x44, 0x44, 0x88, 0xF0, 0x27, 0x33] ∧
      (szdd.set 8 0x42)[8]? ≠ some 0x41) ∧
    ((hdrS szdd).run = .lzHdr 0 ∧ 0 ≤ (hdrS szdd).lz.length) :=
  ⟨⟨rfl, by decide, rfl⟩, ⟨rfl, by decide⟩, by decide, by decide, rfl, by decide⟩

theorem witness_LzResetReplays : (idleS .mzNew).run = .idle ∧ (idleS .mzNew).lz[0]? = some lzX := ⟨rfl, rfl⟩

theorem witness_LzSeekRecordsTheTarget : (idleS .mzNew).run = .idle ∧ (idleS .mzNew).lz[0]? = some lzX := ⟨rfl, rfl⟩

/-- A faulted context; one that has seen this payload; one that has seen none. -/
theorem witness_LzDecodeChecksThenReads :
    ((idleS .mzNew).run = .idle ∧ (idleS .mzNew).lz[0]? = some lzX ∧ lzX.fault = false ∧ lzX.payload = some lzP ∧
      lzX.want + 1 < 4294967296) ∧
    ({ LzCtx.fresh with fault := true } : LzCtx).fault = true ∧ LzCtx.fresh.payload = none :=
  ⟨⟨rfl, rfl, rfl, rfl, by decide⟩, rfl, rfl⟩

/-- LIT on an idle machine and beside a QT_DECODE, and LZ_HDR beside an LZ_DECODE. -/
theorem other_grammar :
    (encodeCmd (.lit 0) = none ∧ ¬State.reset.run.reads (.lit 0)) ∧ ¬(qtS .tokens (qtX 2)).run.reads (.lit 0) ∧
    ¬(lzS lzX 1).run.reads (.lzHdr 0 0) := by
  refine ⟨⟨rfl, id⟩, ?_, ?_⟩
  · rintro ⟨p, hp⟩
    cases p <;> simp [QtPhase.takes] at hp
  · rintro (⟨b, h | h⟩ | ⟨o, l, h⟩) <;> cases h

/-- LIT at a block header, CODE16 among the tokens. -/
theorem other_place :
    (MzAt (mzS .header mzX) 0 .header mzX ∧ (∃ q : MzPhase, q.takes (.lit 0)) ∧ ¬MzPhase.header.takes (.lit 0)) ∧
    QtAt (qtS .tokens (qtX 2)) 0 .tokens (qtX 2) ∧ (∃ q : QtPhase, q.takes (.code16 0)) ∧
      ¬QtPhase.tokens.takes (.code16 0) := by
  refine ⟨⟨⟨rfl, rfl⟩, ⟨.symbols, .inr (.inl ⟨0, rfl⟩)⟩, ?_⟩, ⟨rfl, rfl⟩, ⟨.start, 0, rfl⟩, ?_⟩
  · rintro ⟨f, h | h | h | h⟩ <;> cases h
  · rintro (⟨b, h | h | h | h⟩ | ⟨o, h | h⟩ | ⟨l, o, h⟩) <;> cases h

/-- An LZ context one byte before the last position. -/
def lzFar : LzCtx := { lzX with real := 4294967295, want := 4294967295, slen := 1 }

/-- The elements out of their grammar and place are `other_grammar` and `other_place`; then a token and a flag byte that are
not due, a command beside another, contexts that do not exist, the last position, another payload, and the limit of one
context of each engine. -/
theorem witness_WhatTheSpecRefusesIsRefused :
    ((qtX 0).togo = 0 ∧ QtPhase.tokens.takes (.qm3 1) ∧ lzX.fcnt ≠ 0 ∧ lzX.want + (lzS lzX 0).outLen ≤ lzX.real) ∧
    ((mzS .header mzX).run ≠ .idle ∧ encodeCmd .mzNew = some .mzNew) ∧
    (State.reset.mz.length ≤ 0 ∧ State.reset.qt.length ≤ 0 ∧ State.reset.lz.length ≤ 0 ∧ State.reset.qt.length < 1 ∧
      State.reset.lz.length < 1) ∧
    (LzAt (lzS lzFar 1) 0 lzFar ∧ lzFar.real < lzFar.want + 1 ∧ 4294967296 ≤ lzFar.real + 1 ∧
      lzFar.fault = false ∧ lzFar.payload = some lzP ∧ 4294967296 ≤ lzFar.real + min lzFar.slen (lzFar.want + 1 - lzFar.real) ∧
      lzP ≠ []) ∧
    (let s := { idleS .mzNew with cfg := { defaultParameters with nCtx := some 1 } };
      s.run = .idle ∧ s.cfg.nCtx = some 1 ∧ 1 ≤ s.mz.length ∧ 1 ≤ s.qt.length ∧ 1 ≤ s.lz.length) :=
  ⟨⟨rfl, .inr (.inl ⟨1, .inl rfl⟩), by decide, by decide⟩, ⟨(fun h => nomatch h), rfl⟩, by decide,
    ⟨⟨rfl, rfl⟩, by decide⟩, rfl, rfl, by decide⟩

theorem witness_ElementsThatStoreNothingKeepEveryByte :
    storesNothing .eob = true ∧ ∃ t, exec .eob (mzS .symbols mzX) = .next t := ⟨rfl, next_some (by decide)⟩

/-- A match of the greatest length that fits, in each engine. -/
theorem witness_StoringElementsWriteOnlyAtTheCursor :
    (MemoryInv (mzS (.distance 2) mzX) ∧ MzAt (mzS (.distance 2) mzX) 0 (.distance 2) mzX ∧
      ∃ t, exec (.dist 1) (mzS (.distance 2) mzX) = .next t) ∧
    (MemoryInv (qtS .tokens (qtX 4)) ∧ QtAt (qtS .tokens (qtX 4)) 0 .tokens (qtX 4) ∧
      ∃ t, exec (.qm4 3) (qtS .tokens (qtX 4)) = .next t) ∧
    (MemoryInv (lzS lzX 9) ∧ LzAt (lzS lzX 9) 0 lzX ∧ ∃ t, exec (.lzref 0xFFF 7) (lzS lzX 9) = .next t) :=
  ⟨⟨(inv_mzS (.distance 2) (fun h => nomatch h) (fun _ h => nomatch h)).1, ⟨rfl, rfl⟩, next_some (by decide)⟩,
    ⟨(inv_qtS 4 (by decide) (by decide)).1, ⟨rfl, rfl⟩, next_some (by decide +kernel)⟩,
    ⟨(inv_lzS 9 (by decide)).1, ⟨rfl, rfl⟩, next_some (by decide)⟩⟩

theorem idle_not_usesMz {s : State} (h : s.run = .idle) (c : Nat) : ¬usesMz s c := by
  rintro ⟨p, hp⟩
  rw [h] at hp
  cases hp

/-- A step of QT_RESET beside an MZ and an LZ context. -/
theorem witness_OtherContextsStayAsTheyWere :
    (∃ t, step (idleS (.qtReset 0)) = .next t) ∧
    (0 < (idleS (.qtReset 0)).mz.length ∧ ¬usesMz (idleS (.qtReset 0)) 0) ∧
    (0 < (idleS (.qtReset 0)).lz.length ∧ ¬usesLz (idleS (.qtReset 0)) 0) ∧
    (0 < (idleS .mzNew).qt.length ∧ ¬usesQt (idleS .mzNew) 0) := by
  refine ⟨next_some (by decide +kernel), ⟨Nat.one_pos, idle_not_usesMz rfl 0⟩, ⟨Nat.one_pos, ?_⟩, Nat.one_pos, ?_⟩
  · rintro (h | h | h | ⟨p, h⟩ | ⟨i, n, h⟩)
    · cases h
    · cases h
    · cases h.2
    · cases h.2
    · cases h.2
  · rintro (⟨p, h⟩ | ⟨w, l, h⟩ | h | ⟨i, n, h⟩)
    · cases h
    · cases h.2
    · cases h.2
    · cases h.2

/-- A step that changes STATUS, one in the middle of a command, and one beside the header registers of an LZ context. -/
theorem witness_StatusIsWrittenAtTheEnd :
    (∃ t, step (mzS .symbols mzX) = .next t ∧ t.status ≠ (mzS .symbols mzX).status) ∧
    (∃ t, step (mzS .header mzX) = .next t ∧ t.run ≠ .idle) ∧ (mzS .header mzX).run ≠ .idle ∧
    ((∃ t, step (lzS lzX 9) = .next t ∧ t.lz.length = 1) ∧ (lzS lzX 9).lz[0]? = some lzX ∧ (lzS lzX 9).run ≠ .lzHdr 0) :=
  ⟨next_with (by decide +kernel), next_with (by decide +kernel), (fun h => nomatch h), next_with (by decide +kernel), rfl,
    fun h => nomatch h⟩

/-- A faulted QT context that QT_RESET frees, and a token that fails; the same for LZ. -/
theorem witness_FaultFlagRules :
    (∃ t, step { idleS (.qtReset 0) with qt := [{ qtX 0 with fault := true }] } = .next t ∧
      t.qt.head?.map QtCtx.fault = some false) ∧
    (∃ t, step (qtEmpty .start (qtX 2)) = .next t ∧ t.qt.head?.map QtCtx.fault = some true) ∧
    (∃ t, step { idleS (.lzReset 0) with lz := [{ lzX with fault := true }] } = .next t ∧
      t.lz.head?.map LzCtx.fault = some false) ∧
    ∃ t, step (lzEmpty lzX 1) = .next t ∧ t.lz.head?.map LzCtx.fault = some true :=
  ⟨next_with (by decide +kernel), next_with (by decide +kernel), next_with (by decide +kernel),
    next_with (by decide +kernel)⟩

theorem witness_ErrorKindsPerEngine :
    (∃ t, step (mzS .symbols mzX) = .next t ∧ t.run = .idle) ∧ (∃ t, step (qtEmpty .start (qtX 2)) = .next t ∧ t.run = .idle) ∧
    (∃ t, step (lzEmpty lzX 1) = .next t ∧ t.run = .idle) ∧ (∃ t, step (hdrS []) = .next t ∧ t.run = .idle) ∧
    ((∀ cmd, starts (idleS cmd) cmd) ∧
      ∀ cmd ∈ [HostCmd.mzDecode 0 [] 32769, .qtDecode 0 [] 1025, .qtDecode 0 [] 0, .lzDecode 0 lzP 0, .qtInit 0 22 0,
        .qtInit 0 21 0, .mzNew, .qtReset 0, .lzReset 0, .lzSeek 0 7], ∃ t, step (idleS cmd) = .next t ∧ t.run = .idle) := by
  refine ⟨next_with (by decide +kernel), next_with (by decide +kernel), next_with (by decide +kernel),
    next_with (by decide +kernel), fun _ => ⟨rfl, rfl⟩, fun cmd h => next_with ?_⟩
  revert cmd
  decide +kernel

theorem witness_StepKeepsMemoryForm :
    MemoryInv (qtS .tokens (qtX 2)) ∧ ∃ t, step (qtS .tokens (qtX 2)) = .next t :=
  ⟨(inv_qtS 2 (by decide) (by decide)).1, next_some (by decide +kernel)⟩

theorem witness_StepKeepsTheMszipInvariant :
    MemoryInv (mzS (.raw 2) mzX) ∧ MzInv (mzS (.raw 2) mzX) ∧ ∃ t, step (mzS (.raw 2) mzX) = .next t := by
  have h := inv_mzS (.raw 2) (fun h => nomatch h) (fun _ h => by cases h; decide)
  exact ⟨h.1, h.2.1, next_some (by decide +kernel)⟩

theorem witness_StepKeepsTheQuantumInvariant :
    QtInv (qtS .tokens (qtX 2)) ∧ ∃ t, step (qtS .tokens (qtX 2)) = .next t :=
  ⟨(inv_qtS 2 (by decide) (by decide)).2.2.1, next_some (by decide +kernel)⟩

theorem witness_StepKeepsTheQuantumWindow :
    MemoryInv (qtS .tokens (qtX 2)) ∧ QtWindowInv (qtS .tokens (qtX 2)) ∧ ∃ t, step (qtS .tokens (qtX 2)) = .next t := by
  have h := inv_qtS 2 (by decide) (by decide)
  exact ⟨h.1, h.2.2.2.1, next_some (by decide +kernel)⟩

theorem witness_StepKeepsTheReplayInvariant : LzInv (lzS lzX 9) ∧ ∃ t, step (lzS lzX 9) = .next t :=
  ⟨(inv_lzS 9 (by decide)).2.2.2.2, next_some (by decide +kernel)⟩

theorem witness_GoodStatesNeverFault : State.Inv (qtS .tokens (qtX 2)) := inv_qtS 2 (by decide) (by decide)

/-- The last step of an LZ_DECODE of one byte; and an LZ_DECODE of no byte, which ends at once. -/
theorem witness_LzDecodeDeliversTheReplayedBytes :
    (LzInv (lzS lzX 1) ∧ LzAt (lzS lzX 1) 0 lzX ∧ ∃ t, step (lzS lzX 1) = .next t ∧ t.run = .idle ∧ t.status = 0) ∧
    (LzInv { idleS (.lzDecode 0 lzP 0) with lz := [lzX] } ∧
      starts { idleS (.lzDecode 0 lzP 0) with lz := [lzX] } (.lzDecode 0 lzP 0) ∧
      ({ idleS (.lzDecode 0 lzP 0) with lz := [lzX] } : State).lz[0]? = some lzX ∧
      ∃ t, step { idleS (.lzDecode 0 lzP 0) with lz := [lzX] } = .next t ∧ t.run = .idle ∧ t.status = 0) := by
  refine ⟨⟨(inv_lzS 1 (by decide)).2.2.2.2, ⟨rfl, rfl⟩, next_with (by decide +kernel)⟩, ⟨by decide, ?_, ?_⟩, ⟨rfl, rfl⟩,
    rfl, next_with (by decide +kernel)⟩
  · intro x hx
    obtain rfl : x = lzX := by simpa using hx
    exact lzX_replays
  · intro c x hr; cases hr

/-- A stored block's last byte, which fills the output. -/
theorem witness_MzDecodeFillsTheOutput :
    let x := { mzX with outLen := 3, final := true };
    MemoryInv (mzS (.raw 1) x) ∧ MzInv (mzS (.raw 1) x) ∧ MzAt (mzS (.raw 1) x) 0 (.raw 1) x ∧ MzPhase.raw 1 ≠ .sig ∧
    ∃ t, step (mzS (.raw 1) x) = .next t ∧ t.run = .idle ∧ t.status = 0 := by
  intro x
  have h : (mzS (.raw 1) x).Inv := by
    refine inv_mz rfl mzX_win ?_ ⟨by decide, by decide, rfl, mzX_out⟩
    unfold MzCtx.ok; decide
  exact ⟨h.1, h.2.1, ⟨rfl, rfl⟩, (fun h => nomatch h), next_with (by decide +kernel)⟩

theorem witness_QtDecodeEnds : (qtS .tokens (qtX 2)).Inv ∧ QtAt (qtS .tokens (qtX 2)) 0 .tokens (qtX 2) :=
  ⟨inv_qtS 2 (by decide) (by decide), rfl, rfl⟩

theorem witness_LzDecodeEnds : (lzS lzX 9).Inv ∧ LzAt (lzS lzX 9) 0 lzX ∧ lzX.want + 9 < 4294967296 :=
  ⟨inv_lzS 9 (by decide), ⟨rfl, rfl⟩, by decide⟩

theorem witness_MzDecodeEnds :
    ({ mzS .sig mzX with out := [], inp := [0x43, 0x4B, 0x01] } : State).Inv ∧
    MzAt { mzS .sig mzX with out := [], inp := [0x43, 0x4B, 0x01] } 0 .sig mzX := ⟨inv_mzSig _, rfl, rfl⟩
end Sys2Proof.Tests
end

section
/-! PROOF. A window whose valid bytes have all been written: WinPut and WinCopy keep it so, a copy that passes the distance
check finds every source byte, and so does the read of the trailing bytes (20_memory.md R72 to R74, 43_quantum.md R220). -/

namespace Sys2Proof.Machine

/-- A good window in which every byte that the valid count covers has been written; until it is full, the cursor is the
valid count (R25, R72). -/
structure Window.Filled (sp : Space) (cap : Nat) (w : Window) : Prop where
  ok : w.ok sp cap
  cursor : w.valid < cap → w.wpos = w.valid
  written : ∀ a, a < w.valid → (memRead sp w.cells a).isSome

theorem Window.filled_put {sp : Space} {cap : Nat} {w : Window} (h : w.Filled sp cap) (b : Byte) :
    (w.put sp cap b).Filled sp cap := by
  obtain ⟨hm, hpos, hval⟩ := h.ok
  have hcur := h.cursor
  refine ⟨Window.ok_put h.ok b, fun hlt => ?_, fun a ha => ?_⟩
  · simp only [Window.put_valid, Window.put_wpos, wrapNext] at hlt ⊢
    rw [hcur (by omega), Nat.mod_eq_of_lt (by omega)]
    omega
  · simp only [Window.put_valid] at ha
    rw [Window.put_cells, memRead_memWrite hm]
    split
    · rfl
    · exact h.written a (by omega)

/-- The byte a back-reference within the valid bytes reads has been written (R73, R74). -/
theorem Window.Filled.source_written {sp : Space} {cap dist : Nat} {w : Window} (h : w.Filled sp cap) (h1 : 1 ≤ dist)
    (h2 : dist ≤ w.valid) : (memRead sp w.cells (copySource cap dist w.wpos)).isSome := by
  obtain ⟨-, hpos, hval⟩ := h.ok
  refine h.written _ ?_
  unfold copySource
  by_cases hfull : w.valid < cap
  · have hcur := h.cursor hfull
    rw [show w.wpos + cap - dist = w.wpos - dist + cap by omega, Nat.add_mod_right, Nat.mod_eq_of_lt (by omega)]
    omega
  · exact lt_of_lt_of_le (Nat.mod_lt _ (by omega)) (by omega)

/-- A copy at a distance within the valid bytes meets no unwritten byte, and keeps the window filled (R74). -/
theorem winCopy_filled {sp : Space} {cap dist : Nat} (h1 : 1 ≤ dist) (len : Nat) {w : Window} (h : w.Filled sp cap)
    (h2 : dist ≤ w.valid) :
    ∃ w' bs, winCopy sp cap dist len w = some (w', bs) ∧ w'.Filled sp cap ∧ w'.valid = min (w.valid + len) cap := by
  have hval := h.ok.2.2
  induction len generalizing w with
  | zero => exact ⟨w, [], rfl, h, by omega⟩
  | succ n ih =>
    obtain ⟨b, hb⟩ := Option.isSome_iff_exists.1 (h.source_written h1 h2)
    have hput := Window.filled_put h b
    obtain ⟨w', bs, hc, hf, hv⟩ := ih hput (by rw [Window.put_valid]; omega) hput.ok.2.2
    refine ⟨w', b :: bs, by simp [winCopy, hb, hc], hf, ?_⟩
    rw [hv, Window.put_valid]
    omega

/-- A read of a run succeeds when each of its indices has been written. -/
theorem readRun_isSome {sp : Space} {cap : Nat} {m : Memory} {len start : Nat} (hs : start < cap)
    (h : ∀ k, k < len → (memRead sp m ((start + k) % cap)).isSome) : (readRun sp cap m start len).isSome := by
  induction len generalizing start with
  | zero => rfl
  | succ n ih =>
    obtain ⟨b, hb⟩ := Option.isSome_iff_exists.1 (h 0 (by omega))
    rw [Nat.add_zero, Nat.mod_eq_of_lt hs] at hb
    have hrest : (readRun sp cap m (wrapNext cap start) n).isSome := by
      refine ih (Nat.mod_lt _ (by omega)) fun k hk => ?_
      have := h (k + 1) (by omega)
      rwa [wrapNext, Nat.mod_add_mod, Nat.add_assoc, Nat.add_comm 1 k]
    obtain ⟨bs, hbs⟩ := Option.isSome_iff_exists.1 hrest
    simp [readRun, hb, hbs]

/-- The trailing bytes of a window, as many as are valid, can be read (R220). -/
theorem Window.Filled.trailing_written {sp : Space} {cap len : Nat} {w : Window} (h : w.Filled sp cap)
    (hlen : len ≤ w.valid) : (readRun sp cap w.cells (copySource cap len w.wpos) len).isSome := by
  obtain ⟨-, hpos, hval⟩ := h.ok
  refine readRun_isSome (Nat.mod_lt _ (by omega)) fun k hk => ?_
  have hsrc := h.source_written (dist := len - k) (by omega) (by omega)
  have hidx : (copySource cap len w.wpos + k) % cap = copySource cap (len - k) w.wpos := by
    rw [copySource, copySource, Nat.mod_add_mod, show w.wpos + cap - len + k = w.wpos + cap - (len - k) by omega]
  rwa [hidx]

/-- The window of an MZ context is filled (R25, R75). -/
theorem MzCtx.ok.filled {x : MzCtx} (h : x.ok) (hw : x.win.ok .mzwin mzWsize) : x.win.Filled .mzwin mzWsize := by
  obtain ⟨-, -, hv, hp, hb⟩ := h
  refine ⟨hw, fun hlt => ?_, fun a ha => hb a (hv ▸ ha)⟩
  rw [hp, ← hv, Nat.mod_eq_of_lt hlt]

/-- The window of a QT context is filled (R53, R72). -/
theorem QtCtx.written.filled {x : QtCtx} (h : x.written) (hw : x.win.ok .qtwin x.wsize) : x.win.Filled .qtwin x.wsize :=
  ⟨hw, h.1, h.2⟩

end Sys2Proof.Machine
end

section
/-! PROOF. The readers and the decoders never stop on a fault of the model: one rule per reader, of the form "it gives a value
and a reader of which this holds, or fails with a reader of which that holds" (40_bitreaders.md, 43_quantum.md R205 to R212,
00_scope.md R13). -/

namespace Sys2Proof.Machine

/-! ## What a read yields -/

/-- The read is no fault of the model; a successful one gives a value and a reader with `post`, a failed one a reader with
`failed`. -/
def Got.Yields {σ α : Type} (g : Got σ α) (post : α → σ → Prop) (failed : σ → Prop) : Prop :=
  match g with
  | .ok a s => post a s
  | .err _ s => failed s
  | .bug _ => False

theorem Got.Yields.of_ok {σ α : Type} {g : Got σ α} {post : α → σ → Prop} {failed : σ → Prop} (h : g.Yields post failed)
    {a : α} {s : σ} (hg : g = .ok a s) : post a s := by subst hg; exact h

theorem Got.Yields.not_bug {σ α : Type} {g : Got σ α} {post : α → σ → Prop} {failed : σ → Prop} (h : g.Yields post failed)
    (f : Fault) : g ≠ .bug f := by rintro rfl; exact h

/-- The rule of consequence. -/
theorem Got.Yields.imp {σ α : Type} {g : Got σ α} {post post' : α → σ → Prop} {failed failed' : σ → Prop}
    (h : g.Yields post failed) (hp : ∀ a s, post a s → post' a s) (hf : ∀ s, failed s → failed' s) :
    g.Yields post' failed' := by
  cases g with
  | ok a s => exact hp a s h
  | err k s => exact hf s h
  | bug f => exact h

/-- The rule of sequence. -/
theorem Got.Yields.bind {σ α β : Type} {g : Got σ α} {f : α → σ → Got σ β} {mid : α → σ → Prop} {post : β → σ → Prop}
    {failed : σ → Prop} (h : g.Yields mid failed) (hf : ∀ a s, mid a s → (f a s).Yields post failed) :
    (g.bind f).Yields post failed := by
  cases g with
  | ok a s => exact hf a s h
  | err k s => exact h
  | bug f => exact h

/-- What holds of everything: such a read is only said to be no fault. -/
abbrev Got.Safe {σ α : Type} (g : Got σ α) : Prop := g.Yields (fun _ _ => True) fun _ => True

/-! ## MSZIP -/

theorem hufWalk_safe (cfg : Config) (inp : List Byte) (arena : List (List HufEntry)) (fuel t w : Nat) (r : Brl) :
    (hufWalk cfg inp arena fuel t w r).Safe := by
  induction fuel generalizing t w r with
  | zero => exact trivial
  | succ fuel ih =>
    simp only [hufWalk]
    split
    · exact trivial
    · exact ih _ _ _
    · exact trivial

theorem hufDecode_safe (cfg : Config) (inp : List Byte) (t : HufTable) (r : Brl) : (hufDecode cfg inp t r).Safe := by
  unfold hufDecode
  split
  · exact trivial
  · exact hufWalk_safe ..

theorem decodeCodeLen_safe (cfg : Config) (inp : List Byte) (tc : HufTable) (r : Brl) :
    (decodeCodeLen cfg inp tc r).Safe := by
  refine (hufDecode_safe cfg inp tc r).bind fun s r1 _ => ?_
  split
  · exact trivial
  · split
    · dsimp only
      split <;> exact trivial
    · exact trivial

theorem decodeSymbol_safe (cfg : Config) (inp : List Byte) (tl : HufTable) (r : Brl) :
    (decodeSymbol cfg inp tl r).Safe := by
  refine (hufDecode_safe cfg inp tl r).bind fun s r1 _ => ?_
  split
  · exact trivial
  · split
    · exact trivial
    · split
      · exact trivial
      · split <;> exact trivial

theorem decodeDistance_safe (cfg : Config) (inp : List Byte) (td : HufTable) (r : Brl) :
    (decodeDistance cfg inp td r).Safe := by
  refine (hufDecode_safe cfg inp td r).bind fun d r1 _ => ?_
  split
  · exact trivial
  · split <;> exact trivial

/-- Every read of an MSZIP element gives an element or one of DCORE's errors (R125). -/
theorem decodeMz_safe (cfg : Config) (inp : List Byte) (p : MzPhase) (x : MzCtx) : (decodeMz cfg inp p x).Safe := by
  cases p with
  | sig => simp only [decodeMz, decodeSig]; split <;> exact trivial
  | header => simp only [decodeMz, decodeHeader]; split <;> exact trivial
  | storedHdr => exact trivial
  | raw left => exact trivial
  | dynHdr => exact trivial
  | codeLens => exact decodeCodeLen_safe ..
  | symbols => exact decodeSymbol_safe ..
  | distance len => exact decodeDistance_safe ..

/-! ## LZ/SZDD -/

theorem lzGetByte_safe (inp : List Byte) (x : LzCtx) : (lzGetByte inp x).Safe := by
  unfold lzGetByte
  split <;> exact trivial

/-- With no reference left over, the LZ decoder gives an element or TruncatedInput (R243, R247). -/
theorem decodeLz_safe (inp : List Byte) {x : LzCtx} (h : x.slen = 0) : (decodeLz inp x).Safe := by
  unfold decodeLz
  rw [if_neg (by simp [h])]
  split
  · exact (lzGetByte_safe inp x).bind fun _ _ _ => trivial
  · split
    · exact (lzGetByte_safe inp _).bind fun _ _ _ => trivial
    · exact (lzGetByte_safe inp _).bind fun _ _ _ => (lzGetByte_safe inp _).bind fun _ _ _ => trivial

theorem decodeLzHdr_safe (hdr : List Byte) : (decodeLzHdr hdr).Safe := by
  unfold decodeLzHdr
  split
  · exact trivial
  · split
    · exact trivial
    · split <;> exact trivial

/-! ## Quantum: the reader -/

theorem Brm.needLoop_safe (cfg : Config) (inp : List Byte) (n fuel : Nat) (r : Brm) :
    (Brm.needLoop cfg inp n fuel r).Safe := by
  induction fuel generalizing r with
  | zero => exact trivial
  | succ fuel ih =>
    simp only [Brm.needLoop]
    split
    · split
      · exact ih _
      · split
        · exact ih _
        · exact trivial
    · exact trivial

theorem Brm.read16_safe (cfg : Config) (inp : List Byte) (n : Nat) (r : Brm) : (r.read16 cfg inp n).Safe := by
  unfold Brm.read16
  split
  · exact trivial
  · exact (Brm.needLoop_safe cfg inp n n r).bind fun _ _ _ => trivial

theorem Brm.read_safe (cfg : Config) (inp : List Byte) (n : Nat) (r : Brm) : (r.read cfg inp n).Safe := by
  unfold Brm.read
  generalize n + 1 = fuel
  induction fuel generalizing n r with
  | zero => exact trivial
  | succ fuel ih =>
    simp only [Brm.readLoop]
    split
    · exact Brm.read16_safe ..
    · exact (ih _ r).bind fun _ _ _ => (Brm.read16_safe ..).bind fun _ _ _ => trivial

/-! ## Quantum: the coder -/

/-- `y` differs from `x` at most in the three coder registers and the reader (R207). -/
def QtCtx.CoderMoved (x y : QtCtx) : Prop := ∃ l h c bm, y = { x with L := l, H := h, C := c, bm := bm }

theorem QtCtx.CoderMoved.refl (x : QtCtx) : x.CoderMoved x := ⟨x.L, x.H, x.C, x.bm, rfl⟩

theorem QtCtx.CoderMoved.trans {x y z : QtCtx} (h1 : x.CoderMoved y) (h2 : y.CoderMoved z) : x.CoderMoved z := by
  obtain ⟨_, _, _, _, rfl⟩ := h1
  obtain ⟨l, h, c, bm, rfl⟩ := h2
  exact ⟨l, h, c, bm, rfl⟩

theorem QtCtx.CoderMoved.model {x y : QtCtx} (h : x.CoderMoved y) (w : QModelId) : y.model w = x.model w := by
  obtain ⟨l, h, c, bm, rfl⟩ := h
  cases w <;> rfl

theorem QtCtx.shift_moves (cfg : Config) (inp : List Byte) (x : QtCtx) :
    (x.shift cfg inp).Yields (fun _ y => x.CoderMoved y) x.CoderMoved := by
  have hr := Brm.read_safe cfg inp 1 x.bm
  unfold QtCtx.shift
  cases hb : x.bm.read cfg inp 1 with
  | ok b bm => exact ⟨_, _, _, _, rfl⟩
  | err k bm => exact ⟨_, _, x.C, _, rfl⟩
  | bug f => exact absurd hb (hr.not_bug f)

theorem renormLoop_moves (cfg : Config) (inp : List Byte) (fuel : Nat) (x : QtCtx) :
    (renormLoop cfg inp fuel x).Yields (fun _ y => x.CoderMoved y) x.CoderMoved := by
  induction fuel generalizing x with
  | zero => exact .refl x
  | succ fuel ih =>
    have pass : ∀ x', x.CoderMoved x' →
        ((x'.shift cfg inp).bind fun _ y => renormLoop cfg inp fuel y).Yields (fun _ y => x.CoderMoved y)
          x.CoderMoved := fun x' hx' =>
      ((QtCtx.shift_moves cfg inp x').imp (fun _ _ => hx'.trans) fun _ => hx'.trans).bind fun _ y hy =>
        (ih y).imp (fun _ _ => hy.trans) fun _ => hy.trans
    simp only [renormLoop]
    split
    · split
      · exact pass x.adjust ⟨_, _, _, x.bm, rfl⟩
      · exact .refl x
    · exact pass x (.refl x)

/-- Renormalisation touches nothing but the coder registers and the reader (R207). -/
theorem QtCtx.renormalise_moves (cfg : Config) (inp : List Byte) (x : QtCtx) :
    (x.renormalise cfg inp).Yields (fun _ y => x.CoderMoved y) x.CoderMoved := renormLoop_moves ..

/-! ## Quantum: symbols and fields -/

/-- The registers that the fetch of a Quantum element keeps: those of the call and the window (R204 to R208). -/
structure QtCtx.SameCall (x y : QtCtx) : Prop where
  wbits : y.wbits = x.wbits
  level : y.level = x.level
  wsize : y.wsize = x.wsize
  win : y.win = x.win
  started : y.started = x.started
  fault : y.fault = x.fault
  togo : y.togo = x.togo

theorem QtCtx.SameCall.refl (x : QtCtx) : x.SameCall x := ⟨rfl, rfl, rfl, rfl, rfl, rfl, rfl⟩

theorem QtCtx.SameCall.trans {x y z : QtCtx} (h1 : x.SameCall y) (h2 : y.SameCall z) : x.SameCall z :=
  ⟨h2.wbits.trans h1.wbits, h2.level.trans h1.level, h2.wsize.trans h1.wsize, h2.win.trans h1.win,
    h2.started.trans h1.started, h2.fault.trans h1.fault, h2.togo.trans h1.togo⟩

theorem QtCtx.CoderMoved.sameCall {x y : QtCtx} (h : x.CoderMoved y) : x.SameCall y := by
  obtain ⟨l, h, c, bm, rfl⟩ := h
  exact ⟨rfl, rfl, rfl, rfl, rfl, rfl, rfl⟩

theorem QtCtx.sameCall_setModel (x : QtCtx) (w : QModelId) (m : QModel) : x.SameCall (x.setModel w m) := by
  cases w <;> exact ⟨rfl, rfl, rfl, rfl, rfl, rfl, rfl⟩

/-- What a symbol from the model `w` keeps: the registers of the call and every other model (R205). -/
structure QtCtx.SameBut (w : QModelId) (x y : QtCtx) : Prop extends QtCtx.SameCall x y where
  others : ∀ v, v ≠ w → y.model v = x.model v

theorem QtCtx.CoderMoved.then_sameBut {x y z : QtCtx} {w : QModelId} (h : x.CoderMoved y) (hz : y.SameBut w z) :
    x.SameBut w z := ⟨h.sameCall.trans hz.toSameCall, fun v hv => (hz.others v hv).trans (h.model v)⟩

theorem QtCtx.SameBut.then_moved {x y z : QtCtx} {w : QModelId} (h : x.SameBut w y) (hz : y.CoderMoved z) :
    x.SameBut w z := ⟨h.toSameCall.trans hz.sameCall, fun v hv => (hz.model v).trans (h.others v hv)⟩

theorem QtCtx.sameBut_setModel (x : QtCtx) (w : QModelId) (m : QModel) : x.SameBut w (x.setModel w m) :=
  ⟨x.sameCall_setModel w m, fun v hv => x.model_setModel_other w v m hv⟩

/-- The first index whose entry is at most the frequency exists when some entry is (R205). -/
theorem hitFrom_isSome {freq start : Nat} {cs : List Nat} (h : ∃ c ∈ cs, c ≤ freq) :
    ∃ i, hitFrom freq start cs = some i ∧ start ≤ i ∧ i < start + cs.length := by
  induction cs generalizing start with
  | nil => simp at h
  | cons c cs ih =>
    simp only [hitFrom, List.length_cons]
    by_cases hc : c ≤ freq
    · exact ⟨start, if_pos hc, le_rfl, by omega⟩
    · obtain ⟨d, hd, hle⟩ := h
      have hmem : d ∈ cs := (List.mem_cons.1 hd).resolve_left (by rintro rfl; exact hc hle)
      obtain ⟨i, hi, h1, h2⟩ := ih (start := start + 1) ⟨d, hmem, hle⟩
      exact ⟨i, by rw [if_neg hc, hi], by omega, by omega⟩

/-- The cumulative frequencies of a good model: the total, which is positive, and the `n` others, the sentinel among
them (R31). -/
theorem QModel.Ok.cum_cons {n first : Nat} {m : QModel} (h : m.Ok n first) :
    ∃ total rest, m.cum = total :: rest ∧ rest.length = n ∧ 0 ∈ rest ∧ 0 < total := by
  have hlen := h.cumLength
  have hn := h.nonempty
  cases hc : m.cum with
  | nil => simp [hc] at hlen
  | cons total rest =>
    have hrest : rest.length = n := by simpa [hc] using hlen
    have hlast : rest.getLast? = some 0 := by
      have hs := h.sentinel
      rwa [hc, List.getLast?_cons_of_ne_nil (by rintro rfl; simp at hrest; omega)] at hs
    have hmem : 0 ∈ rest := List.mem_of_getLast? hlast
    have hdec := h.decreasing
    rw [hc, List.pairwise_cons] at hdec
    exact ⟨total, rest, rfl, hrest, hmem, hdec.1 0 hmem⟩

/-- In a good model every frequency has a hit index, between 1 and the number of symbols (R205). -/
theorem QModel.Ok.hit {n first : Nat} {m : QModel} (h : m.Ok n first) (freq : Nat) :
    ∃ i, m.hit freq = some i ∧ 1 ≤ i ∧ i ≤ n := by
  obtain ⟨total, rest, hc, hlen, hmem, -⟩ := h.cum_cons
  obtain ⟨i, hi, h1, h2⟩ := hitFrom_isSome (freq := freq) (start := 1) ⟨0, hmem, Nat.zero_le _⟩
  exact ⟨i, by rw [QModel.hit, hc, List.tail_cons, hi], h1, by omega⟩

/-- GetSymbol on a good model gives one of the model's symbols, or fails with the input (R205, R206). -/
theorem getSymbol_yields {cfg : Config} (inp : List Byte) {w : QModelId} {n first : Nat} {x : QtCtx}
    (h : (x.model w).Ok n first) :
    (getSymbol cfg inp w x).Yields (fun b y => b ∈ (x.model w).sym ∧ x.SameBut w y) (x.SameBut w) := by
  obtain ⟨total, rest, hc, hlen, -, htotal⟩ := h.cum_cons
  obtain ⟨i, hi, h1, h2⟩ := h.hit (x.freq total)
  have hsym : (x.model w).sym[i - 1]? = some ((x.model w).sym[i - 1]'(by rw [h.symLength]; omega)) :=
    List.getElem?_eq_getElem _
  have hhi : (x.model w).cum[i - 1]? = some ((x.model w).cum[i - 1]'(by rw [h.cumLength]; omega)) :=
    List.getElem?_eq_getElem _
  have hlo : (x.model w).cum[i]? = some ((x.model w).cum[i]'(by rw [h.cumLength]; omega)) := List.getElem?_eq_getElem _
  have hhead : (x.model w).cum.headD 0 = total := by rw [hc]; rfl
  unfold getSymbol
  dsimp only
  rw [hhead, if_neg (by omega), hi]
  dsimp only
  rw [hsym, hhi, hlo]
  dsimp only
  have hmoved : ∀ hi lo y, (x.narrow hi lo total).CoderMoved y → x.CoderMoved y := fun hi lo y hy =>
    QtCtx.CoderMoved.trans ⟨_, _, x.C, x.bm, rfl⟩ hy
  refine ((QtCtx.renormalise_moves cfg inp _).imp (fun _ y => hmoved _ _ y) fun y hy => ?_).bind fun _ y hy => ?_
  · have := hmoved _ _ y hy
    exact ⟨this.sameCall, fun v _ => this.model v⟩
  · exact ⟨List.getElem_mem _, hy.then_sameBut (y.sameBut_setModel w _)⟩

theorem rawField_yields (cfg : Config) (inp : List Byte) (n : Nat) (x : QtCtx) :
    (rawField cfg inp n x).Yields (fun _ y => x.CoderMoved y) x.CoderMoved := by
  have hr := Brm.read_safe cfg inp n x.bm
  unfold rawField
  cases hb : x.bm.read cfg inp n with
  | ok v bm => exact ⟨x.L, x.H, x.C, bm, rfl⟩
  | err k bm => exact ⟨x.L, x.H, x.C, bm, rfl⟩
  | bug f => exact absurd hb (hr.not_bug f)

/-! ## Quantum: elements -/

/-- A good model of slots that stays within a slot table gives a slot of the table. -/
theorem slot_lookup {α : Type} {table : List α} {n : Nat} {m : QModel} (h : m.Ok n 0) (hn : n ≤ table.length) {b : Byte}
    (hb : b ∈ m.sym) : ∃ e, table[b.toNat]? = some e := by
  have := (h.symRange b hb).2
  exact ⟨_, List.getElem?_eq_getElem (by omega)⟩

theorem decodeOffset_yields {cfg : Config} (inp : List Byte) {w : QModelId} {n : Nat} {x : QtCtx}
    (h : (x.model w).Ok n 0) (hn : n ≤ 42) :
    (decodeOffset cfg inp w x).Yields (fun _ y => x.SameBut w y) (x.SameBut w) := by
  refine (getSymbol_yields inp h).bind fun p x1 hp => ?_
  obtain ⟨hmem, hx1⟩ := hp
  obtain ⟨e, he⟩ := slot_lookup (table := positionTable) h hn hmem
  rw [he]
  exact ((rawField_yields cfg inp e.2 x1).imp (fun _ _ => hx1.then_moved) fun _ => hx1.then_moved).bind fun _ _ hy => hy

theorem decodeLength_yields {cfg : Config} (inp : List Byte) {n : Nat} {x : QtCtx} (h : (x.model .m6len).Ok n 0)
    (hn : n ≤ 27) : (decodeLength cfg inp x).Yields (fun _ y => x.SameBut .m6len y) (x.SameBut .m6len) := by
  refine (getSymbol_yields inp h).bind fun l x1 hl => ?_
  obtain ⟨hmem, hx1⟩ := hl
  obtain ⟨e, he⟩ := slot_lookup (table := lengthSlotTable) h hn hmem
  rw [he]
  exact ((rawField_yields cfg inp e.2 x1).imp (fun _ _ => hx1.then_moved) fun _ => hx1.then_moved).bind fun _ _ hy => hy

/-- The nine models of a context are good (R31, R32). -/
def QtCtx.ModelsOk (cfg : Config) (x : QtCtx) : Prop := ∀ w, (x.model w).Ok (modelSize cfg x.wbits w) (modelFirst w)

theorem QtCtx.SameBut.model_ok {cfg : Config} {w v : QModelId} {x y : QtCtx} (hxy : x.SameBut w y) (hx : x.ModelsOk cfg)
    (hv : v ≠ w) : (y.model v).Ok (modelSize cfg x.wbits v) (modelFirst v) := by rw [hxy.others v hv]; exact hx v

/-- The sizes of the position models stay within the 42 slots (R32, R116). -/
theorem modelSize_positions {cfg : Config} {w : Nat} (h : w ≤ qtWbitsMax) :
    modelSize cfg w .m4 ≤ 42 ∧ modelSize cfg w .m5 ≤ 42 ∧ modelSize cfg w .m6pos ≤ 42 := by
  simp only [modelSize, qtWbitsMax] at h ⊢
  omega

/-- With good models a token is decoded, or the input ends; the registers of the call and the window stay (R204, R212). -/
theorem decodeToken_yields {cfg : Config} (hc : configOk cfg) (inp : List Byte) {x : QtCtx} (hx : x.ModelsOk cfg)
    (hw : x.wbits ≤ qtWbitsMax) : (decodeToken cfg inp x).Yields (fun _ y => x.SameCall y) x.SameCall := by
  obtain ⟨-, -, -, hlenSyms, -⟩ := hc
  obtain ⟨h4, h5, h6⟩ := modelSize_positions (cfg := cfg) hw
  refine ((getSymbol_yields inp (hx .m7)).imp (fun _ _ => id) fun _ => QtCtx.SameBut.toSameCall).bind fun sel x1 hsel => ?_
  obtain ⟨hmem, h1⟩ := hsel
  have literal : ∀ w, w ≠ .m7 → ∀ lit : Byte → Instr,
      ((getSymbol cfg inp w x1).bind fun b x2 => .ok (lit b) x2).Yields (fun _ y => x.SameCall y) x.SameCall :=
    fun w hne lit =>
      ((getSymbol_yields inp (h1.model_ok hx hne)).imp (fun _ _ h => h1.toSameCall.trans h.2.toSameCall)
        fun _ h => h1.toSameCall.trans h.toSameCall).bind fun _ _ h => h
  have offset : ∀ y w n, x.SameCall y → (y.model w).Ok n 0 → n ≤ 42 → ∀ tok : Nat → Instr,
      ((decodeOffset cfg inp w y).bind fun off z => .ok (tok off) z).Yields (fun _ z => x.SameCall z) x.SameCall :=
    fun y w n hy hm hn tok =>
      ((decodeOffset_yields inp hm hn).imp (fun _ _ h => hy.trans h.toSameCall)
        fun _ h => hy.trans h.toSameCall).bind fun _ _ h => h
  split
  · exact literal .m00 (by decide) _
  · exact literal .m40 (by decide) _
  · exact literal .m80 (by decide) _
  · exact literal .mC0 (by decide) _
  · exact offset x1 .m4 _ h1.toSameCall (h1.model_ok hx (by decide)) h4 _
  · exact offset x1 .m5 _ h1.toSameCall (h1.model_ok hx (by decide)) h5 _
  · refine ((decodeLength_yields inp (h1.model_ok hx (v := .m6len) (by decide)) hlenSyms).imp (fun _ _ h => h)
      fun _ h => h1.toSameCall.trans h.toSameCall).bind fun len x2 h2 => ?_
    refine offset x2 .m6pos _ (h1.toSameCall.trans h2.toSameCall) ?_ h6 _
    rw [h2.others .m6pos (by decide)]
    exact h1.model_ok hx (by decide)
  · next n0 n1 n2 n3 n4 n5 n6 =>
    have hlt : sel.toNat < 0 + 7 := ((hx .m7).symRange sel hmem).2
    simp only [imp_false] at n0 n1 n2 n3 n4 n5 n6
    omega

/-- The fetch of a Quantum element (R203, R204). -/
theorem decodeQt_yields {cfg : Config} (hc : configOk cfg) (inp : List Byte) (p : QtPhase) {x : QtCtx} (hx : x.ok cfg) :
    (decodeQt cfg inp p x).Yields (fun _ y => x.SameCall y) x.SameCall := by
  obtain ⟨-, hw, -, hm, -⟩ := hx
  cases p with
  | start =>
    have hmoved : ∀ y, ({ x with L := 0, H := 0xFFFF } : QtCtx).CoderMoved y → x.SameCall y := fun y hy =>
      (QtCtx.CoderMoved.trans ⟨0, 0xFFFF, x.C, x.bm, rfl⟩ hy).sameCall
    exact ((rawField_yields cfg inp 16 _).imp (fun _ y => hmoved y) hmoved).bind fun _ _ h => h
  | tokens => exact decodeToken_yields hc inp hm hw

end Sys2Proof.Machine
end

section
/-! PROOF. No step from a good state stops on a fault of the model (00_scope.md R13): the fetch is safe (Quantum models, LZ
reference), and what a meaning needs of its context to be safe, `State.ExecSafe`, holds of every good state and is kept by the
fetch. -/

namespace Sys2Proof.Machine

/-! ## Outcomes -/

@[simp] theorem noFault_next (t : State) : NoFault (.next t) := trivial
@[simp] theorem noFault_refused (r : Refusal) : NoFault (.refused r) := trivial

/-! ## Access and shared operations -/

theorem withMz_noFault {s : State} {k : Nat → MzPhase → MzCtx → Result}
    (h : ∀ c p x, s.run = .mz c p → s.mz[c]? = some x → NoFault (k c p x)) : NoFault (withMz s k) := by
  unfold withMz
  split
  · next c p hr =>
    split
    · next x hx => exact h c p x hr hx
    · trivial
  · trivial

theorem withQt_noFault {s : State} {k : Nat → QtPhase → QtCtx → Result}
    (h : ∀ c p x, s.run = .qt c p → s.qt[c]? = some x → NoFault (k c p x)) : NoFault (withQt s k) := by
  unfold withQt
  split
  · next c p hr =>
    split
    · next x hx => exact h c p x hr hx
    · trivial
  · trivial

theorem withLz_noFault {s : State} {k : Nat → LzCtx → Result} (h : ∀ c x, NoFault (k c x)) : NoFault (withLz s k) := by
  unfold withLz
  split
  · split
    · exact h _ _
    · trivial
  · trivial

theorem whenIdle_noFault {s : State} {r : Result} (h : s.run = .idle → NoFault r) : NoFault (whenIdle s r) := by
  unfold whenIdle
  split
  · next hr => exact h hr
  · trivial

theorem whereHeader_noFault {p : MzPhase} {r : Result} (h : NoFault r) : NoFault (whereHeader p r) := by
  cases p with
  | header => exact h
  | _ => trivial

theorem whereLengths_noFault {p : MzPhase} {r : Result} (h : NoFault r) : NoFault (whereLengths p r) := by
  cases p with
  | codeLens => exact h
  | _ => trivial

theorem whereSymbols_noFault {p : MzPhase} {r : Result} (h : NoFault r) : NoFault (whereSymbols p r) := by
  cases p with
  | symbols => exact h
  | _ => trivial

theorem whereTokens_noFault {p : QtPhase} {x : QtCtx} {r : Result} (h : x.togo ≠ 0 → NoFault r) :
    NoFault (whereTokens p x r) := by
  cases p with
  | start => trivial
  | tokens =>
    simp only [whereTokens]
    split
    · trivial
    · next ht => exact h ht

theorem mzBlockEnd_noFault (s : State) (c : Nat) (x : MzCtx) : NoFault (mzBlockEnd s c x) := by
  obtain ⟨-, -, h⟩ | ⟨-, -, h⟩ | ⟨-, h⟩ := mzBlockEnd_cases s c x <;> rw [h] <;> trivial

theorem mzBuildTables_noFault (s : State) (c : Nat) (x : MzCtx) : NoFault (mzBuildTables s c x) := by
  obtain ⟨-, h⟩ | ⟨tl, -, ⟨-, h⟩ | ⟨td, -, -, h⟩⟩ := mzBuildTables_cases s c x <;> rw [h] <;> trivial

theorem mzGrowLengths_noFault (s : State) (c : Nat) (x : MzCtx) (v : BitVec 4) (j : Nat) :
    NoFault (mzGrowLengths s c x v j) := by
  obtain ⟨-, h⟩ | ⟨-, h⟩ | ⟨-, h⟩ := mzGrowLengths_cases s c x v j <;> rw [h]
  · trivial
  · trivial
  · exact mzBuildTables_noFault ..

theorem lzContinue_noFault (s : State) (c : Nat) (x : LzCtx) : NoFault (lzContinue s c x) := by
  obtain ⟨-, h⟩ | ⟨-, h⟩ := lzContinue_cases s c x <;> rw [h] <;> trivial

theorem lzRunReference_noFault (s : State) (c : Nat) (x : LzCtx) : NoFault (lzRunReference s c x) := by
  simp only [lzRunReference]
  split
  · trivial
  · exact lzContinue_noFault ..

theorem whereWanted_noFault {s : State} {x : LzCtx} {r : Result} (h : NoFault r) : NoFault (whereWanted s x r) := by
  unfold whereWanted
  split
  · trivial
  · exact h

/-! ## What the meanings need of a state -/

/-- A QT context from which Extract can read `outLen` bytes once nothing is left to produce: the request fits the window, and
what has been produced of it is valid (R202, R220). -/
structure QtCtx.Producing (outLen : Nat) (x : QtCtx) : Prop where
  filled : x.win.Filled .qtwin x.wsize
  fits : outLen ≤ x.wsize
  produced : outLen - x.togo ≤ x.win.valid

/-- What the meanings need of the contexts they work on, to index and read within what exists (R13). -/
structure State.ExecSafe (s : State) : Prop where
  mzFilled : ∀ c p x, s.run = .mz c p → s.mz[c]? = some x → x.win.Filled .mzwin mzWsize
  mzRoom : ∀ c left x, s.run = .mz c (.raw left) → s.mz[c]? = some x → x.room ≠ 0
  qtProducing : ∀ c p x, s.run = .qt c p → s.qt[c]? = some x → x.Producing s.outLen
  qtIdle : s.run = .idle → ∀ x ∈ s.qt, x.win.Filled .qtwin x.wsize

/-- The end of a token never meets an unwritten byte: Extract reads bytes that are valid (R220). -/
theorem qtContinue_noFault {s : State} (c : Nat) {x : QtCtx} (h : x.Producing s.outLen) : NoFault (qtContinue s c x) := by
  obtain ⟨hz, hn, -⟩ | ⟨bs, -, -, he⟩ | ⟨-, he⟩ := qtContinue_cases s c x
  · have hvalid := h.produced
    rw [hz, Nat.sub_zero] at hvalid
    have hread := h.filled.trailing_written hvalid
    rw [show copySource x.wsize s.outLen x.win.wpos = x.extractStart s.outLen from rfl, hn] at hread
    exact absurd hread (by decide)
  · rw [he]; trivial
  · rw [he]; trivial

theorem QtCtx.Producing.emit {outLen : Nat} {x : QtCtx} (h : x.Producing outLen) (b : Byte) :
    (x.emit b).Producing outLen := by
  have hfits := h.fits
  have hprod := h.produced
  refine ⟨Window.filled_put h.filled b, hfits, ?_⟩
  simp only [QtCtx.emit_togo, QtCtx.emit_win, Window.put_valid]
  omega

theorem qtLiteral_noFault {s : State} (h : s.ExecSafe) (b : Byte) : NoFault (qtLiteral s b) :=
  withQt_noFault fun c p x hr hx =>
    whereTokens_noFault fun _ => qtContinue_noFault c ((h.qtProducing c p x hr hx).emit b)

/-- A match that passes the checks copies written bytes only (R216). -/
theorem qtMatch_noFault {s : State} (h : s.ExecSafe) (off len : Nat) : NoFault (qtMatch s off len) := by
  refine withQt_noFault fun c p x hr hx => whereTokens_noFault fun _ => ?_
  have hx := h.qtProducing c p x hr hx
  have hfits := hx.fits
  have hprod := hx.produced
  split
  · next hcheck =>
    simp only [winCheck, Bool.and_eq_true, decide_eq_true_eq] at hcheck
    obtain ⟨⟨hoff, hvalid⟩, hlen⟩ := hcheck
    obtain ⟨w, bs, hcopy, hfilled, hv⟩ := winCopy_filled (Nat.one_le_iff_ne_zero.2 hoff) len hx.filled hvalid
    rw [hcopy]
    refine qtContinue_noFault c ⟨hfilled, hfits, ?_⟩
    dsimp only
    omega
  · trivial

/-! ## The meanings -/

theorem execSig_noFault (s : State) : NoFault (execSig s) :=
  withMz_noFault fun _ p _ _ _ => by cases p <;> trivial

theorem execBlkStored_noFault (final : Bool) (s : State) : NoFault (execBlkStored final s) :=
  withMz_noFault fun _ _ _ _ _ => whereHeader_noFault trivial

theorem execBlkDynamic_noFault (final : Bool) (s : State) : NoFault (execBlkDynamic final s) :=
  withMz_noFault fun _ _ _ _ _ => whereHeader_noFault trivial

theorem execBlkReserved_noFault (final : Bool) (s : State) : NoFault (execBlkReserved final s) :=
  withMz_noFault fun _ _ _ _ _ => whereHeader_noFault trivial

theorem execCl_noFault (v : BitVec 4) (s : State) : NoFault (execCl v s) :=
  withMz_noFault fun _ _ _ _ _ => whereLengths_noFault (mzGrowLengths_noFault ..)

theorem execCl16_noFault (rep : Nat) (s : State) : NoFault (execCl16 rep s) :=
  withMz_noFault fun _ _ _ _ _ => whereLengths_noFault (mzGrowLengths_noFault ..)

theorem execCl17_noFault (rep : Nat) (s : State) : NoFault (execCl17 rep s) :=
  withMz_noFault fun _ _ _ _ _ => whereLengths_noFault (mzGrowLengths_noFault ..)

theorem execCl18_noFault (rep : Nat) (s : State) : NoFault (execCl18 rep s) :=
  withMz_noFault fun _ _ _ _ _ => whereLengths_noFault (mzGrowLengths_noFault ..)

theorem execEob_noFault (s : State) : NoFault (execEob s) :=
  withMz_noFault fun _ _ _ _ _ => whereSymbols_noFault (mzBlockEnd_noFault ..)

theorem execMatch_noFault (len : Nat) (s : State) : NoFault (execMatch len s) :=
  withMz_noFault fun _ _ _ _ _ => whereSymbols_noFault trivial

theorem execLlReserved_noFault (sym : Nat) (s : State) : NoFault (execLlReserved sym s) :=
  withMz_noFault fun _ _ _ _ _ => whereSymbols_noFault trivial

theorem execDistReserved_noFault (sym : Nat) (s : State) : NoFault (execDistReserved sym s) :=
  withMz_noFault fun _ p _ _ _ => by cases p <;> trivial

theorem execLzref_noFault (off : BitVec 12) (lenfield : BitVec 4) (s : State) : NoFault (execLzref off lenfield s) :=
  withLz_noFault fun _ _ => whereWanted_noFault (lzRunReference_noFault ..)

theorem execMzNew_noFault (s : State) : NoFault (execMzNew s) :=
  whenIdle_noFault fun _ => by split <;> trivial

theorem execQtReset_noFault (c : Nat) (s : State) : NoFault (execQtReset c s) :=
  whenIdle_noFault fun _ => by split <;> trivial

theorem execLzReset_noFault (c : Nat) (s : State) : NoFault (execLzReset c s) :=
  whenIdle_noFault fun _ => by split <;> trivial

theorem execLzSeek_noFault (c : Nat) (pos : BitVec 32) (s : State) : NoFault (execLzSeek c pos s) :=
  whenIdle_noFault fun _ => by split <;> trivial

theorem execRaw_noFault {s : State} (h : s.ExecSafe) (b : Byte) : NoFault (execRaw b s) := by
  refine withMz_noFault fun c p x hr hx => ?_
  cases p with
  | raw left =>
    dsimp only
    rw [if_neg (h.mzRoom c left x hr hx)]
    split
    · exact mzBlockEnd_noFault ..
    · trivial
  | _ => trivial

theorem execDist_noFault {s : State} (h : s.ExecSafe) (dist : Nat) : NoFault (execDist dist s) := by
  refine withMz_noFault fun c p x hr hx => ?_
  cases p with
  | distance len =>
    dsimp only
    split
    · next hcheck =>
      simp only [winCheck, Bool.and_eq_true, decide_eq_true_eq] at hcheck
      obtain ⟨⟨hdist, hvalid⟩, -⟩ := hcheck
      obtain ⟨w, bs, hcopy, -⟩ := winCopy_filled (Nat.one_le_iff_ne_zero.2 hdist) len (h.mzFilled c _ x hr hx) hvalid
      rw [hcopy]
      trivial
    · trivial
  | _ => trivial

theorem execStoredHdr_noFault (len nlen : BitVec 16) (s : State) : NoFault (execStoredHdr len nlen s) := by
  refine withMz_noFault fun c p x _ _ => ?_
  cases p with
  | storedHdr =>
    dsimp only
    split
    · trivial
    · split
      · trivial
      · split
        · exact mzBlockEnd_noFault ..
        · trivial
  | _ => trivial

theorem execDynHdr_noFault (hlit hdist : BitVec 5) (hclen : BitVec 4) (clen : List (BitVec 3)) (s : State) :
    NoFault (execDynHdr hlit hdist hclen clen s) := by
  refine withMz_noFault fun c p x _ _ => ?_
  cases p with
  | dynHdr =>
    dsimp only
    split
    · trivial
    · split
      · trivial
      · split <;> trivial
  | _ => trivial

theorem execBlkFixed_noFault (final : Bool) (s : State) : NoFault (execBlkFixed final s) := by
  refine withMz_noFault fun c p x _ _ => whereHeader_noFault ?_
  split <;> trivial

theorem execLit_noFault (b : Byte) (s : State) : NoFault (execLit b s) := by
  refine withMz_noFault fun c p x _ _ => whereSymbols_noFault ?_
  split <;> trivial

theorem execCode16_noFault {s : State} (h : s.ExecSafe) (code : BitVec 16) : NoFault (execCode16 code s) := by
  refine withQt_noFault fun c p x hr hx => ?_
  cases p with
  | start =>
    obtain ⟨hfilled, hfits, hprod⟩ := h.qtProducing c _ x hr hx
    exact qtContinue_noFault c ⟨hfilled, hfits, hprod⟩
  | tokens => trivial

theorem execFlags_noFault (b : Byte) (s : State) : NoFault (execFlags b s) := by
  refine withLz_noFault fun c x => ?_
  split <;> trivial

theorem execLzlit_noFault (b : Byte) (s : State) : NoFault (execLzlit b s) := by
  refine withLz_noFault fun c x => whereWanted_noFault ?_
  split
  · trivial
  · exact lzContinue_noFault ..

theorem execLzHdr_noFault (lastChar : Byte) (realLength : BitVec 32) (s : State) :
    NoFault (execLzHdr lastChar realLength s) := by
  unfold execLzHdr
  split
  · split <;> trivial
  · trivial

theorem execMzDecode_noFault (c : Nat) (inp : List Byte) (outLen : Nat) (s : State) :
    NoFault (execMzDecode c inp outLen s) := by
  refine whenIdle_noFault fun _ => ?_
  split
  · trivial
  · split <;> trivial

theorem execQtInit_noFault (c : Nat) (windowBits level : BitVec 8) (s : State) :
    NoFault (execQtInit c windowBits level s) := by
  refine whenIdle_noFault fun _ => ?_
  split
  · trivial
  · split
    · trivial
    · split <;> trivial

/-- QT_DECODE reads the window only for a request of no bytes, or when the tokens have produced what it asks for (R202). -/
theorem execQtDecode_noFault {s : State} (h : s.ExecSafe) (c : Nat) (inp : List Byte) (outLen : Nat) :
    NoFault (execQtDecode c inp outLen s) := by
  refine whenIdle_noFault fun hr => ?_
  split
  · trivial
  · next x hx =>
    dsimp only
    split
    · trivial
    · split
      · trivial
      · next hfits =>
        split
        · refine qtContinue_noFault c ⟨h.qtIdle hr x (List.mem_of_getElem? hx), Nat.le_of_not_lt hfits, ?_⟩
          simp
        · trivial

theorem execLzInit_noFault (c : Nat) (hdr : List Byte) (s : State) : NoFault (execLzInit c hdr s) := by
  refine whenIdle_noFault fun _ => ?_
  split
  · trivial
  · split <;> trivial

theorem execLzDecode_noFault (c : Nat) (inp : List Byte) (outLen : Nat) (s : State) :
    NoFault (execLzDecode c inp outLen s) := by
  refine whenIdle_noFault fun _ => ?_
  split
  · trivial
  · dsimp only
    split
    · trivial
    · split
      · trivial
      · exact lzRunReference_noFault ..

/-- No element and no command faults in a state that meets its needs. -/
theorem exec_noFault {s : State} (h : s.ExecSafe) (i : Instr) : NoFault (exec i s) := by
  unfold exec
  cases i with
  | sig => exact execSig_noFault ..
  | blkStored final => exact execBlkStored_noFault ..
  | blkFixed final => exact execBlkFixed_noFault ..
  | blkDynamic final => exact execBlkDynamic_noFault ..
  | blkReserved final => exact execBlkReserved_noFault ..
  | storedHdr len nlen => exact execStoredHdr_noFault ..
  | raw b => exact execRaw_noFault h b
  | dynHdr hlit hdist hclen clen => exact execDynHdr_noFault ..
  | cl v => exact execCl_noFault ..
  | cl16 rep => exact execCl16_noFault ..
  | cl17 rep => exact execCl17_noFault ..
  | cl18 rep => exact execCl18_noFault ..
  | lit b => exact execLit_noFault ..
  | eob => exact execEob_noFault ..
  | mtch len => exact execMatch_noFault ..
  | llReserved sym => exact execLlReserved_noFault ..
  | dist d => exact execDist_noFault h d
  | distReserved sym => exact execDistReserved_noFault ..
  | code16 code => exact execCode16_noFault h code
  | qlit0 b => exact qtLiteral_noFault h b
  | qlit1 b => exact qtLiteral_noFault h b
  | qlit2 b => exact qtLiteral_noFault h b
  | qlit3 b => exact qtLiteral_noFault h b
  | qm3 off => exact qtMatch_noFault h off 3
  | qm4 off => exact qtMatch_noFault h off 4
  | qmv len off => exact qtMatch_noFault h off len
  | lzHdr lastChar realLength => exact execLzHdr_noFault ..
  | flags b => exact execFlags_noFault ..
  | lzlit b => exact execLzlit_noFault ..
  | lzref off lenfield => exact execLzref_noFault ..
  | mzNew => exact execMzNew_noFault ..
  | mzDecode c inp outLen => exact execMzDecode_noFault ..
  | qtInit c windowBits level => exact execQtInit_noFault ..
  | qtReset c => exact execQtReset_noFault ..
  | qtDecode c inp outLen => exact execQtDecode_noFault h c inp outLen
  | lzInit c hdr => exact execLzInit_noFault ..
  | lzReset c => exact execLzReset_noFault ..
  | lzSeek c pos => exact execLzSeek_noFault ..
  | lzDecode c inp outLen => exact execLzDecode_noFault ..

/-! ## The fetch -/

theorem Got.Yields.fetched_ne_fault {σ : Type} {g : Got σ Instr} {post : Instr → σ → Prop} {failed : σ → Prop}
    (h : g.Yields post failed) (back : σ → State) (f : Fault) : g.fetched back ≠ .fault f := by
  cases g with
  | ok i x => rintro ⟨⟩
  | err k x => rintro ⟨⟩
  | bug e => exact h.elim

/-- A fetch in a good state is no fault: the Quantum models are good (R31), and no reference is left over (R247). -/
theorem State.Inv.fetch_ne_fault {s : State} (h : s.Inv) (f : Fault) : fetch s ≠ .fault f := by
  obtain ⟨-, -, ⟨hcfg, hqt⟩, -, -, -, hlz⟩ := h
  unfold fetch
  split
  · split <;> rintro ⟨⟩
  · split
    · rintro ⟨⟩
    · exact (decodeMz_safe ..).fetched_ne_fault _ f
  · next c p _ =>
    split
    · rintro ⟨⟩
    · next x hx => exact (decodeQt_yields hcfg s.inp p (hqt x (List.mem_of_getElem? hx))).fetched_ne_fault _ f
  · next c hr =>
    split
    · rintro ⟨⟩
    · next x hx =>
      obtain ⟨-, -, hslen, -⟩ := hlz c x hr hx
      exact (decodeLz_safe s.inp hslen).fetched_ne_fault _ f
  · exact (decodeLzHdr_safe _).fetched_ne_fault _ f

/-- A good state meets the needs of every meaning. -/
theorem State.Inv.execSafe {s : State} (h : s.Inv) : s.ExecSafe := by
  obtain ⟨⟨hmemMz, hmemQt, -⟩, ⟨hmz, hmzRun⟩, -, ⟨hwin, hwinRun⟩, -⟩ := h
  have hqtFilled : ∀ x ∈ s.qt, x.win.Filled .qtwin x.wsize := fun x hx => by
    obtain ⟨-, -, hwritten⟩ := hwin x hx
    exact hwritten.filled (hmemQt x hx)
  refine ⟨fun c p x _ hx => ?_, fun c left x hr hx => ?_, fun c p x hr hx => ?_, fun _ => hqtFilled⟩
  · have hmem := List.mem_of_getElem? hx
    exact (hmz x hmem).filled (hmemMz x hmem)
  · obtain ⟨h1, h2, -⟩ := hmzRun c _ x hr hx
    omega
  · obtain ⟨-, -, hfits, hprod, -⟩ := hwinRun c p x hr hx
    exact ⟨hqtFilled x (List.mem_of_getElem? hx), hfits, hprod⟩

/-- Writing back the context the lookup gave changes only what the writing changes. -/
theorem getElem?_set_of_some {α : Type} {l : List α} {c : Nat} {x y z : α} (hx : l[c]? = some x)
    (hz : (l.set c y)[c]? = some z) : z = y := by
  rw [List.getElem?_set_self (List.getElem?_eq_some_iff.1 hx).1] at hz
  exact (Option.some.inj hz).symm

/-- The fetch moves a cursor, or the coder and its models, and so keeps what the meanings need (R24). -/
theorem State.Inv.fetch_execSafe {s s' : State} {i : Instr} (h : s.Inv) (hf : fetch s = .instr i s') : s'.ExecSafe := by
  have hsafe := h.execSafe
  obtain ⟨-, -, ⟨hcfg, hqt⟩, -⟩ := h
  obtain ⟨cmd, rest, hr, -, -, rfl⟩ | ⟨c, p, x, br, hr, hx, -, rfl⟩ | ⟨c, p, x, y, hr, hx, hd, rfl⟩ |
    ⟨c, x, y, hr, -, -, rfl⟩ | ⟨c, -, -, rfl⟩ := fetch_instr hf
  · exact ⟨hsafe.mzFilled, hsafe.mzRoom, hsafe.qtProducing, hsafe.qtIdle⟩
  · refine ⟨fun c' p' z hr' hz => ?_, fun c' left z hr' hz => ?_, hsafe.qtProducing, hsafe.qtIdle⟩
    · obtain ⟨rfl, rfl⟩ := Run.mz.inj (hr.symm.trans hr')
      obtain rfl := getElem?_set_of_some hx hz
      exact hsafe.mzFilled c p x hr hx
    · obtain ⟨rfl, rfl⟩ := Run.mz.inj (hr.symm.trans hr')
      obtain rfl := getElem?_set_of_some hx hz
      exact hsafe.mzRoom c left x hr hx
  · refine ⟨hsafe.mzFilled, hsafe.mzRoom, fun c' p' z hr' hz => ?_, fun hr' => ?_⟩
    · obtain ⟨rfl, rfl⟩ := Run.qt.inj (hr.symm.trans hr')
      obtain rfl := getElem?_set_of_some hx hz
      have hsame := (decodeQt_yields hcfg s.inp p (hqt x (List.mem_of_getElem? hx))).of_ok hd
      obtain ⟨hfilled, hfits, hprod⟩ := hsafe.qtProducing c p x hr hx
      constructor
      · rw [hsame.win, hsame.wsize]; exact hfilled
      · rw [hsame.wsize]; exact hfits
      · rw [hsame.win, hsame.togo]; exact hprod
    · exact absurd (hr.symm.trans hr') (by simp)
  · exact ⟨hsafe.mzFilled, hsafe.mzRoom, hsafe.qtProducing, hsafe.qtIdle⟩
  · exact hsafe

/-- Settles O55: neither the fetch nor the meaning of what it gives faults in a good state. -/
theorem goodStatesNeverFault : Obligations.GoodStatesNeverFault := by
  intro s h
  cases hf : fetch s with
  | idle => simp [step, hf]
  | instr i s' =>
    have hexec := exec_noFault (h.fetch_execSafe hf) i
    simpa [step, hf] using hexec
  | error k s' => simp [step, hf]
  | fault f => exact absurd hf (h.fetch_ne_fault f)
  | refuse r => simp [step, hf]

end Sys2Proof.Machine
end

section
/-! PROOF. The adaptive models of Quantum: a new model's entries (43_quantum.md R201), and the full rebuild (R210): what the
two sorts, the cumulative sums and the lookup table come to. -/

namespace Sys2Proof.Machine

/-! ## A new model (R201) -/

theorem QModel.init_entry {cfg : Config} {n first k : Nat} (hf : first + n ≤ 256) (hk : k < n) :
    (QModel.init cfg n first).sym[k]? = some (BitVec.ofNat 8 (first + k)) ∧
    (QModel.init cfg n first).cum[k]? = some (n - k) ∧
    (QModel.init cfg n first).lookup (BitVec.ofNat 8 (first + k)) = some k := by
  have hb : (BitVec.ofNat 8 (first + k)).toNat = first + k := by
    rw [BitVec.toNat_ofNat, Nat.mod_eq_of_lt (by omega)]
  refine ⟨?_, ?_, ?_⟩
  · simp [QModel.init, hk]
  · simp [QModel.init, Nat.lt_succ_of_lt hk]
  · simp [QModel.lookup, QModel.init, hb, hk]

/-- Settles O24: the entries of a new model, and the sizes of the nine models by their table. -/
theorem modelInitAndSizes : Obligations.ModelInitAndSizes := by
  refine ⟨fun cfg n first h1 _ hf => ?_, fun w h1 h2 => ?_⟩
  · refine ⟨rfl, ?_, ?_, rfl, fun k hk => QModel.init_entry hf hk, ?_⟩ <;> simp [QModel.init]
  · refine ⟨rfl, rfl, rfl, rfl, rfl, rfl, rfl, rfl, ?_, rfl, rfl, rfl, rfl, rfl, rfl, rfl, rfl, rfl⟩
    simp only [modelSize, defaultParameters]
    omega

/-! ## Bump, frequencies and sums (R208, R210) -/

@[simp] theorem cumBump_length (i : Nat) (cum : List Nat) : (cumBump i cum).length = cum.length := by
  rw [cumBump, List.length_append, List.length_map, ← List.length_append, List.take_append_drop]

theorem cumBump_getD {i k : Nat} {cum : List Nat} (hk : k < cum.length) :
    (cumBump i cum).getD k 0 = cum.getD k 0 + if k < i then 8 else 0 := by
  unfold cumBump
  by_cases hki : k < i
  · rw [if_pos hki, List.getD_append _ _ _ _ (by simp; omega)]
    simp [hki, hk, qtBump]
  · rw [if_neg hki, List.getD_append_right _ _ _ _ (by simp; omega)]
    have hmin : i ⊓ cum.length = i := by omega
    simp [hmin, show i + (k - i) = k by omega]

theorem cumFreqs_length : ∀ cum : List Nat, (cumFreqs cum).length = cum.length - 1
  | [] => rfl
  | [_] => rfl
  | a :: b :: rest => by simpa [cumFreqs] using cumFreqs_length (b :: rest)

/-- Each absolute frequency is the difference of two neighbours, plus one, halved (R210). -/
theorem cumFreqs_getD : ∀ {cum : List Nat} {k : Nat}, k + 1 < cum.length →
    (cumFreqs cum).getD k 0 = (cum.getD k 0 - cum.getD (k + 1) 0 + 1) / 2
  | a :: b :: rest, 0, _ => by simp [cumFreqs, Nat.shiftRight_one]
  | a :: b :: rest, k + 1, hk => by
    simpa [cumFreqs] using cumFreqs_getD (cum := b :: rest) (k := k) (by simpa using hk)

@[simp] theorem cumOfFreqs_length (fs : List Nat) : (cumOfFreqs fs).length = fs.length + 1 := by
  induction fs with
  | nil => rfl
  | cons f fs ih => simp [cumOfFreqs, ih]

theorem cumOfFreqs_sentinel (fs : List Nat) : (cumOfFreqs fs).getD fs.length 0 = 0 := by
  induction fs with
  | nil => rfl
  | cons f fs ih => simpa [cumOfFreqs] using ih

/-- The cumulative values are sums from the end: neighbours differ by the frequency between them (R210). -/
theorem cumOfFreqs_sub {k : Nat} {fs : List Nat} (hk : k < fs.length) :
    (cumOfFreqs fs).getD k 0 - (cumOfFreqs fs).getD (k + 1) 0 = fs.getD k 0 := by
  induction fs generalizing k with
  | nil => simp at hk
  | cons f fs ih =>
    cases k with
    | zero =>
      rw [cumOfFreqs, List.getD_cons_zero, List.getD_cons_succ, List.getD_cons_zero, List.headD_eq_getD]
      omega
    | succ k => simpa [cumOfFreqs] using ih (by simpa using hk)

/-! ## The stable sort (R210) -/

/-- Greatest frequency first; equal frequencies in the order of their place before the sort. -/
def stablyBefore (place : Byte × Nat → Nat) (a b : Byte × Nat) : Prop := b.2 < a.2 ∨ b.2 = a.2 ∧ place a < place b

/-- Inserting a pair whose place is before all others keeps the order stable. -/
theorem pairwise_orderedInsert_stable (place : Byte × Nat → Nat) {a : Byte × Nat} {l : List (Byte × Nat)}
    (hl : l.Pairwise (stablyBefore place)) (ha : ∀ b ∈ l, place a < place b) :
    (l.orderedInsert freqDescending a).Pairwise (stablyBefore place) := by
  induction l with
  | nil => simp
  | cons b l ih =>
    rw [List.pairwise_cons] at hl
    obtain ⟨hb, hrest⟩ := hl
    by_cases hab : freqDescending a b
    · rw [List.orderedInsert_cons_of_le _ _ hab, List.pairwise_cons]
      have hfreq : b.2 ≤ a.2 := hab
      refine ⟨fun c hc => ?_, List.pairwise_cons.2 ⟨hb, hrest⟩⟩
      have hplace := ha c hc
      have hle : c.2 ≤ b.2 := by
        rcases List.mem_cons.1 hc with rfl | hc
        · exact le_rfl
        · rcases hb c hc with h | ⟨h, -⟩ <;> omega
      unfold stablyBefore
      omega
    · rw [List.orderedInsert_of_not_le _ _ hab, List.pairwise_cons]
      have hfreq : a.2 < b.2 := Nat.lt_of_not_le hab
      refine ⟨fun c hc => ?_, ih hrest fun c hc => ha c (List.mem_cons_of_mem _ hc)⟩
      rcases (List.mem_orderedInsert _).1 hc with rfl | hc
      · exact .inl hfreq
      · exact hb c hc

theorem pairwise_insertionSort_stable (place : Byte × Nat → Nat) {l : List (Byte × Nat)}
    (hl : l.Pairwise fun a b => place a < place b) :
    (l.insertionSort freqDescending).Pairwise (stablyBefore place) := by
  induction l with
  | nil => exact List.Pairwise.nil
  | cons a l ih =>
    rw [List.pairwise_cons] at hl
    exact pairwise_orderedInsert_stable place (ih hl.2) fun b hb => hl.1 b ((List.mem_insertionSort _).1 hb)

/-! ## The exchange sort (93 U14) -/

theorem exchangePass_perm (x : Byte × Nat) (l : List (Byte × Nat)) :
    ((exchangePass x l).1 :: (exchangePass x l).2).Perm (x :: l) := by
  induction l generalizing x with
  | nil => exact .refl _
  | cons y ys ih =>
    simp only [exchangePass]
    split
    · exact (List.Perm.swap _ _ _).trans ((ih y).cons x)
    · exact (List.Perm.swap _ _ _).trans (((ih x).cons y).trans (.swap _ _ _))

@[simp] theorem exchangePass_length (x : Byte × Nat) (l : List (Byte × Nat)) :
    (exchangePass x l).2.length = l.length := by
  simpa using (exchangePass_perm x l).length_eq

theorem exchangeSort_perm (fuel : Nat) (l : List (Byte × Nat)) : (exchangeSort fuel l).Perm l := by
  induction fuel generalizing l with
  | zero => exact .refl _
  | succ fuel ih =>
    cases l with
    | nil => exact .refl _
    | cons x xs => exact ((ih _).cons _).trans (exchangePass_perm x xs)

/-- One comparison, at the entry after `front` and the entry after `mid`. -/
theorem exchangeAt_entries (front mid back : List (Byte × Nat)) (x y : Byte × Nat) :
    exchangeAt (front ++ x :: (mid ++ y :: back)) (front.length, front.length + 1 + mid.length) =
      if x.2 < y.2 then front ++ y :: (mid ++ x :: back) else front ++ x :: (mid ++ y :: back) := by
  have hx : (front ++ x :: (mid ++ y :: back))[front.length]? = some x := by simp
  have hy : (front ++ x :: (mid ++ y :: back))[front.length + 1 + mid.length]? = some y := by
    rw [List.getElem?_append_right (by omega), show front.length + 1 + mid.length - front.length = mid.length + 1 by omega]
    simp
  unfold exchangeAt
  rw [hx, hy]
  dsimp only
  split
  · rw [List.set_append_right _ _ (by omega), List.set_append_right _ _ (by omega),
      show front.length + 1 + mid.length - front.length = mid.length + 1 by omega]
    simp
  · rfl

/-- The comparisons of one position with the later ones are one pass (U14). -/
theorem foldl_exchangeAt_row (front mid back : List (Byte × Nat)) (x : Byte × Nat) :
    (List.range' (front.length + 1 + mid.length) back.length).foldl (fun l j => exchangeAt l (front.length, j))
        (front ++ x :: (mid ++ back)) =
      front ++ (exchangePass x back).1 :: (mid ++ (exchangePass x back).2) := by
  induction back generalizing mid x with
  | nil => rfl
  | cons y ys ih =>
    rw [List.length_cons, List.range'_succ, List.foldl_cons, exchangeAt_entries]
    simp only [exchangePass]
    split
    · simpa [Nat.add_assoc] using ih (mid ++ [x]) y
    · simpa [Nat.add_assoc] using ih (mid ++ [y]) x

/-- The later positions of row `i` of the two loops. -/
theorem filter_lt_range {i n : Nat} (h : i < n) :
    (List.range n).filter (fun j => decide (i < j)) = List.range' (i + 1) (n - (i + 1)) := by
  have hsplit : List.range n = List.range' 0 (i + 1) ++ List.range' (i + 1) (n - (i + 1)) := by
    have := List.range'_append (s := 0) (m := i + 1) (n := n - (i + 1)) (step := 1)
    rw [List.range_eq_range']
    rw [show 0 + 1 * (i + 1) = i + 1 by omega, show i + 1 + (n - (i + 1)) = n by omega] at this
    exact this.symm
  rw [hsplit, List.filter_append, List.filter_eq_nil_iff.2, List.nil_append, List.filter_eq_self.2]
  · intro j hj
    have hlow := (List.mem_range'_1.1 hj).1
    exact decide_eq_true (by omega)
  · intro j hj
    have hhigh := (List.mem_range'_1.1 hj).2
    simpa using (by omega : j ≤ i)

/-- The comparisons from some position on sort the rest. -/
theorem foldl_exchangeAt_rows (front rest : List (Byte × Nat)) :
    (List.range' front.length rest.length).foldl (fun l i => (((List.range (front.length + rest.length)).filter
        fun j => decide (i < j)).map fun j => (i, j)).foldl exchangeAt l) (front ++ rest) =
      front ++ exchangeSort rest.length rest := by
  generalize hn : rest.length = fuel
  induction fuel generalizing front rest with
  | zero => rw [List.length_eq_zero_iff.1 hn]; rfl
  | succ fuel ih =>
    match rest, hn with
    | x :: xs, hn =>
      have hxs : xs.length = fuel := by simpa using hn
      have hrow := foldl_exchangeAt_row front [] xs x
      have hrest := ih (front ++ [(exchangePass x xs).1]) (exchangePass x xs).2 (by simpa using hxs)
      rw [List.range'_succ, List.foldl_cons, filter_lt_range (by omega), List.foldl_map,
        show front.length + (fuel + 1) - (front.length + 1) = xs.length by omega]
      simp only [List.length_nil, Nat.add_zero, List.nil_append] at hrow
      rw [hrow]
      simpa [Nat.add_assoc, Nat.add_comm 1 fuel, exchangeSort] using hrest

/-- The exchange sort is the two loops' comparisons, in their order (U14). -/
theorem exchangeSort_eq_foldl (l : List (Byte × Nat)) :
    exchangeSort l.length l = (pairsBelow l.length).foldl exchangeAt l := by
  have h := foldl_exchangeAt_rows [] l
  rw [pairsBelow, List.foldl_flatMap, List.range_eq_range']
  simpa [List.range_eq_range'] using h.symm

/-! ## The rebuild (R210) -/

theorem resort_perm (how : Resort) (l : List (Byte × Nat)) : (resort how l).Perm l := by
  cases how with
  | stable => exact List.perm_insertionSort _ _
  | exchange => exact exchangeSort_perm _ _

/-- In the lookup of an order of symbols each symbol finds its place (R31, R210). -/
theorem lookup_tablocOf {m : QModel} (hn : m.sym.Nodup) (hr : ∀ b ∈ m.sym, m.first ≤ b.toNat ∧ b.toNat < m.first + m.n)
    (ht : m.tabloc = tablocOf m.first m.n m.sym) {k : Nat} (hk : k < m.sym.length) : m.lookup m.sym[k] = some k := by
  obtain ⟨hlo, hhi⟩ := hr _ (List.getElem_mem hk)
  have hfind : (m.sym.findIdx fun s => s.toNat == m.first + (m.sym[k].toNat - m.first)) = k := by
    rw [List.findIdx_eq hk]
    refine ⟨beq_iff_eq.2 (by omega), fun j hj => ?_⟩
    have hne : m.sym[j] ≠ m.sym[k] := fun he => absurd ((List.Nodup.getElem_inj_iff hn).1 he) (by omega)
    have hne' : m.sym[j].toNat ≠ m.sym[k].toNat := fun he => hne (BitVec.eq_of_toNat_eq he)
    exact beq_eq_false_iff_ne.2 (by omega)
  rw [QModel.lookup, if_neg (by omega), ht, tablocOf, List.getElem?_map, List.getElem?_range (by omega), Option.map_some,
    hfind]

/-- When the counter stands at 1 and the bumped total passes the threshold, an update is a bump and a rebuild (R208). -/
theorem QModel.update_rebuild {how : Resort} {i : Nat} {m : QModel} (hlen : 0 < m.cum.length) (hi : 1 ≤ i)
    (hr : m.reorder = 1) (ht : 3800 < m.cum.getD 0 0 + 8) :
    m.update how i = ({ m with cum := cumBump i m.cum, reorder := 0 } : QModel).rebuild how := by
  have hhead : qtLimit < (cumBump i m.cum).headD 0 := by
    rw [List.headD_eq_getD, cumBump_getD hlen, if_pos (by omega)]
    exact ht
  simp only [QModel.update, QModel.rescale]
  rw [if_pos hhead]
  simp [hr]

/-- The pairs of a good model's symbols and their halved frequencies, in the order of the entries (R210). -/
theorem zip_cumFreqs_cumBump {n first i : Nat} {m : QModel} (h : m.Ok n first) :
    m.sym.zip (cumFreqs (cumBump i m.cum)) =
      (List.range n).map fun k => (m.sym.getD k 0,
        ((m.cum.getD k 0 + if k < i then 8 else 0) - (m.cum.getD (k + 1) 0 + if k + 1 < i then 8 else 0) + 1) / 2) := by
  have hsym := h.symLength
  have hcum := h.cumLength
  refine List.ext_getElem (by simp [cumFreqs_length, hsym, hcum]) fun k h1 h2 => ?_
  have hk : k < n := by simpa using h2
  have hfreq := cumFreqs_getD (k := k) (cum := cumBump i m.cum) (by rw [cumBump_length]; omega)
  rw [cumBump_getD (by omega), cumBump_getD (by omega),
    List.getD_eq_getElem _ _ (by rw [cumFreqs_length, cumBump_length]; omega)] at hfreq
  simp only [List.getElem_zip, List.getElem_map, List.getElem_range]
  rw [hfreq, List.getD_eq_getElem m.sym _ (by omega)]

/-- The pairs of a rebuilt model's symbols and the differences of its cumulative values are the sorted pairs (R210). -/
theorem range_map_cumOfFreqs (l : List (Byte × Nat)) :
    ((List.range l.length).map fun k => ((l.map Prod.fst).getD k 0,
      (cumOfFreqs (l.map Prod.snd)).getD k 0 - (cumOfFreqs (l.map Prod.snd)).getD (k + 1) 0)) = l := by
  refine List.ext_getElem (by simp) fun k h1 h2 => ?_
  simp only [List.getElem_map, List.getElem_range]
  rw [cumOfFreqs_sub (by simpa using h2), List.getD_eq_getElem _ _ (by simpa using h2),
    List.getD_eq_getElem _ _ (by simpa using h2)]
  simp

/-- The symbols of the pairs of a good model are its symbols (R210). -/
theorem map_fst_zip_cumFreqs {n first i : Nat} {m : QModel} (h : m.Ok n first) :
    (m.sym.zip (cumFreqs (cumBump i m.cum))).map Prod.fst = m.sym :=
  List.map_fst_zip (by rw [cumFreqs_length, cumBump_length, h.cumLength, h.symLength]; omega)

/-- The entries of a good model stand in the order of their symbols' indices. -/
theorem pairwise_idxOf {n first : Nat} {m : QModel} (h : m.Ok n first) (f : Nat → Nat) :
    ((List.range n).map fun k => (m.sym.getD k 0, f k)).Pairwise fun a b => m.sym.idxOf a.1 < m.sym.idxOf b.1 := by
  have hidx : ∀ k, k < n → m.sym.idxOf (m.sym.getD k 0) = k := fun k hk => by
    rw [List.getD_eq_getElem _ _ (by rw [h.symLength]; exact hk)]
    exact h.symNodup.idxOf_getElem k _
  refine List.pairwise_map.2 (List.Pairwise.imp_of_mem ?_ List.pairwise_lt_range)
  intro a b ha hb hab
  rw [hidx a (List.mem_range.1 ha), hidx b (List.mem_range.1 hb)]
  exact hab

/-- Settles O26: the rebuilt model is read off the sorted pairs, for either sort. -/
theorem rebuildSortsStably : Obligations.RebuildSortsStably := by
  intro how n first i m h hi hin hr ht u bumped before after
  have hbefore : m.sym.zip (cumFreqs (cumBump i m.cum)) = before := zip_cumFreqs_cumBump h
  have hbeforeLen : before.length = n := by simp [before]
  obtain ⟨sorted, hsorted⟩ : ∃ sorted, sorted = resort how before := ⟨_, rfl⟩
  have hperm : sorted.Perm before := hsorted ▸ resort_perm how before
  have hlen : sorted.length = n := hperm.length_eq.trans hbeforeLen
  have hu : u = { m with
      sym := sorted.map Prod.fst, cum := cumOfFreqs (sorted.map Prod.snd), reorder := qtReorderReload,
      tabloc := tablocOf m.first m.n (sorted.map Prod.fst) } := by
    show m.update how i = _
    rw [QModel.update_rebuild (by rw [h.cumLength]; omega) hi hr ht, QModel.rebuild, hsorted, ← hbefore]
  have hafter : after = sorted := by
    show (List.range n).map (fun k => (u.sym.getD k 0, u.cum.getD k 0 - u.cum.getD (k + 1) 0)) = sorted
    rw [hu, ← hlen]
    exact range_map_cumOfFreqs sorted
  have hsyms : u.sym.Perm m.sym := by
    rw [hu, ← map_fst_zip_cumFreqs (i := i) h, hbefore]
    exact hperm.map Prod.fst
  have hsymLen : u.sym.length = n := hsyms.length_eq.trans h.symLength
  have hsum : u.cum.length = n + 1 ∧ u.cum.getD n 0 = 0 := by
    rw [hu, ← hlen]
    exact ⟨by simp, by simpa using cumOfFreqs_sentinel (sorted.map Prod.snd)⟩
  have hlookup : ∀ k, k < n → u.lookup (u.sym.getD k 0) = some k := fun k hk => by
    rw [List.getD_eq_getElem _ _ (by omega)]
    refine lookup_tablocOf (hsyms.nodup_iff.2 h.symNodup) (fun b hb => ?_) (by rw [hu]) _
    rw [show u.first = m.first by rw [hu], show u.n = m.n by rw [hu], h.base, h.size]
    exact h.symRange b (hsyms.mem_iff.1 hb)
  refine ⟨hsymLen, hsum.1, hsum.2, by rw [hu]; rfl, hafter ▸ hperm, hlookup, fun hstable => ?_, fun hexchange => ?_⟩
  · rw [hafter, hsorted, hstable]
    exact pairwise_insertionSort_stable (fun a => m.sym.idxOf a.1) (pairwise_idxOf h _)
  · have hloops := exchangeSort_eq_foldl before
    rw [hbeforeLen] at hloops
    rw [hafter, hsorted, hexchange, ← hloops, resort, hbeforeLen]

end Sys2Proof.Machine
end

section
/-! PROOF. The state after reset, and what one step does (10_state.md R20, R24, R290). -/

namespace Sys2Proof.Machine

/-- A state without contexts and without a command in progress is good, if its parameters are (R20). -/
theorem State.inv_of_no_contexts {s : State} (hmz : s.mz = []) (hqt : s.qt = []) (hlz : s.lz = []) (hr : s.run = .idle)
    (hc : configOk s.cfg) : s.Inv := by
  obtain ⟨-, -, -, -, -, -, -, hbias, -⟩ := id hc
  refine ⟨⟨?_, ?_, ?_⟩, ⟨?_, ?_⟩, ⟨hc, ?_⟩, ⟨?_, ?_⟩, hbias, ?_, ?_⟩ <;> simp [hmz, hqt, hlz, hr]

/-- Settles O1: no context, no command, the default parameters. -/
theorem resetIsAGoodStateWithoutContexts : Obligations.ResetIsAGoodStateWithoutContexts :=
  ⟨⟨rfl, rfl, rfl, rfl, rfl, rfl⟩,
    State.inv_of_no_contexts rfl rfl rfl rfl (by simp [State.reset, defaultParameters, configOk, readersOk])⟩

/-! ## One step, by what the fetch finds -/

theorem step_of_instr {s s' : State} {i : Instr} (h : fetch s = .instr i s') : step s = exec i s' := by simp [step, h]

theorem step_of_error {s s' : State} {k : ErrKind} (h : fetch s = .error k s') : step s = .next (s'.raise k) := by
  simp [step, h]

theorem fetch_mz {s : State} {c : Nat} {p : MzPhase} {x : MzCtx} (h : MzAt s c p x) :
    fetch s = (decodeMz s.cfg s.inp p x).fetched fun br => s.setMz c { x with br := br } := by
  simp [fetch, h.1, h.2]

theorem fetch_qt {s : State} {c : Nat} {p : QtPhase} {x : QtCtx} (h : QtAt s c p x) :
    fetch s = (decodeQt s.cfg s.inp p x).fetched fun y => s.setQt c y := by
  simp [fetch, h.1, h.2]

theorem fetch_lz {s : State} {c : Nat} {x : LzCtx} (h : LzAt s c x) :
    fetch s = (decodeLz s.inp x).fetched fun y => s.setLz c y := by
  simp [fetch, h.1, h.2]

theorem fetch_lzHdr {s : State} {c : Nat} (h : s.run = .lzHdr c) :
    fetch s = (decodeLzHdr s.inp).fetched fun _ => s := by
  simp [fetch, h]

/-! ## The error of each engine, after the fetch has moved its cursor (R290) -/

/-- Marking an entry that has just been written is writing the marked entry. -/
theorem modify_set_self {α : Type} (l : List α) (c : Nat) (x : α) (f : α → α) :
    (l.set c x).modify c f = l.set c (f x) := by
  refine List.ext_getElem? fun j => ?_
  rw [List.getElem?_modify, List.getElem?_set, List.getElem?_set]
  by_cases hj : c = j <;> simp [hj]

theorem State.raise_setMz {s : State} {c : Nat} {p : MzPhase} (h : s.run = .mz c p) (x : MzCtx) (k : ErrKind) :
    (s.setMz c x).raise k = (s.setMz c x).spoilOut.endWith k := by
  simp [State.raise, h]

theorem State.raise_setQt {s : State} {c : Nat} {p : QtPhase} (h : s.run = .qt c p) (x : QtCtx) (k : ErrKind) :
    (s.setQt c x).raise k = (s.setQt c { x with fault := true }).spoilOut.endWith k := by
  have hmark : (s.setQt c x).markFault = s.setQt c { x with fault := true } := by
    simp [State.markFault, h, State.setQt, modify_set_self]
  simp [State.raise, h, hmark]

theorem State.raise_setLz {s : State} {c : Nat} (h : s.run = .lz c) (x : LzCtx) (k : ErrKind) :
    (s.setLz c x).raise k = (s.setLz c { x with fault := true }).spoilOut.endWith k := by
  have hmark : (s.setLz c x).markFault = s.setLz c { x with fault := true } := by
    simp [State.markFault, h, State.setLz, modify_set_self]
  simp [State.raise, h, hmark]

/-- Settles O2: a clause for the idle machine, for a command, and for each engine an element and an error. -/
theorem stepRunsTheFetchedElement : Obligations.StepRunsTheFetchedElement := by
  refine ⟨fun s hr hp => ?_, fun s cmd rest hr hp => ?_, fun s c p x i r h hd => ?_, fun s c p x k r h hd => ?_,
    fun s c p x i y h hd => ?_, fun s c p x k y h hd => ?_, fun s c x i y h hd => ?_, fun s c x k y h hd => ?_,
    fun s c i u h hd => ?_, fun s c k u h hd => ?_⟩
  · simp [step, fetch, hr, hp]
  · exact step_of_instr (by simp [fetch, hr, hp])
  · exact step_of_instr (by rw [fetch_mz h, hd]; rfl)
  · rw [step_of_error (by rw [fetch_mz h, hd]; rfl), State.raise_setMz h.1]
  · exact step_of_instr (by rw [fetch_qt h, hd]; rfl)
  · rw [step_of_error (by rw [fetch_qt h, hd]; rfl), State.raise_setQt h.1]
  · exact step_of_instr (by rw [fetch_lz h, hd]; rfl)
  · rw [step_of_error (by rw [fetch_lz h, hd]; rfl), State.raise_setLz h.1]
  · exact step_of_instr (by rw [fetch_lzHdr h, hd]; rfl)
  · rw [step_of_error (by rw [fetch_lzHdr h, hd]; rfl), State.raise, h]

end Sys2Proof.Machine
end

section
/-! PROOF. Renormalisation of the Quantum range coder (43_quantum.md R207): each pass doubles the registers away from an end or
from the middle of their range, so order is kept, and shifts a 0 into L and a 1 into H, so 16 passes are enough. -/

namespace Sys2Proof.Machine

/-! ## The tests and the bit operations of R207 as arithmetic -/

/-- A mask of one bit, by the bit's value. -/
theorem and_twoPow_eq (v : BitVec 16) (i : Nat) :
    v &&& BitVec.twoPow 16 i = if v.toNat / 2 ^ i % 2 = 1 then BitVec.twoPow 16 i else 0 := by
  rw [BitVec.and_twoPow, ← BitVec.testBit_toNat, Nat.testBit_eq_decide_div_mod_eq]
  simp

/-- The top bits of L and H differ: they lie in different halves (R207). -/
theorem QtCtx.topsDiffer_iff (x : QtCtx) : x.topsDiffer = true ↔ ¬(x.L.toNat < 0x8000 ↔ x.H.toNat < 0x8000) := by
  have hbit : ∀ v : BitVec 16, v.toNat < 0x8000 ↔ v.toNat / 2 ^ 15 % 2 = 0 := fun v => by omega
  rw [QtCtx.topsDiffer, show (0x8000 : BitVec 16) = BitVec.twoPow 16 15 from rfl, and_twoPow_eq, and_twoPow_eq, hbit, hbit]
  have hL := Nat.mod_two_eq_zero_or_one (x.L.toNat / 2 ^ 15)
  have hH := Nat.mod_two_eq_zero_or_one (x.H.toNat / 2 ^ 15)
  rcases hL with hL | hL <;> rcases hH with hH | hH <;> rw [hL, hH] <;> decide

/-- The underflow pattern, by the quarters L and H lie in (R207). -/
theorem QtCtx.underflow_iff (x : QtCtx) :
    x.underflow = true ↔ x.L.toNat / 0x4000 % 2 = 1 ∧ x.H.toNat / 0x4000 % 2 = 0 := by
  rw [QtCtx.underflow, show (0x4000 : BitVec 16) = BitVec.twoPow 16 14 from rfl, and_twoPow_eq, and_twoPow_eq]
  have hL := Nat.mod_two_eq_zero_or_one (x.L.toNat / 2 ^ 14)
  have hH := Nat.mod_two_eq_zero_or_one (x.H.toNat / 2 ^ 14)
  rw [show (0x4000 : Nat) = 2 ^ 14 from rfl]
  rcases hL with hL | hL <;> rcases hH with hH | hH <;> rw [hL, hH] <;> decide

/-- One fresh bit enters a register below the others (R207). -/
theorem toNat_shiftIn (v : BitVec 16) {b : Nat} (hb : b < 2) :
    ((v <<< 1) ||| BitVec.ofNat 16 b).toNat = 2 * v.toNat % 0x10000 + b := by
  have hv : (v <<< 1).toNat = 2 ^ 1 * (v.toNat % 0x8000) := by
    rw [BitVec.toNat_shiftLeft, Nat.shiftLeft_eq]; omega
  have hbit : (BitVec.ofNat 16 b).toNat = b := by rw [BitVec.toNat_ofNat]; omega
  rw [BitVec.toNat_or, hv, hbit, ← Nat.two_pow_add_eq_or_of_lt (by omega)]
  omega

theorem toNat_shiftIn_zero (v : BitVec 16) : (v <<< 1).toNat = 2 * v.toNat % 0x10000 := by
  rw [BitVec.toNat_shiftLeft, Nat.shiftLeft_eq]; omega

theorem toNat_shiftIn_one (v : BitVec 16) : ((v <<< 1) ||| 1).toNat = 2 * v.toNat % 0x10000 + 1 :=
  toNat_shiftIn v (b := 1) (by omega)

/-- L without its two top bits. -/
theorem toNat_and_0x3FFF (v : BitVec 16) : (v &&& 0x3FFF).toNat = v.toNat % 0x4000 :=
  (BitVec.toNat_and ..).trans (Nat.and_two_pow_sub_one_eq_mod v.toNat 14)

/-- H, in the third quarter, moves up one quarter. -/
theorem toNat_or_0x4000 {v : BitVec 16} (h : v.toNat / 0x4000 = 2) : (v ||| 0x4000).toNat = v.toNat + 0x4000 := by
  have hdiv : (v.toNat ||| 0x4000) / 2 ^ 14 = v.toNat / 2 ^ 14 ||| 1 := Nat.or_div_two_pow
  have hmod : (v.toNat ||| 0x4000) % 2 ^ 14 = v.toNat % 2 ^ 14 ||| 0 := Nat.or_mod_two_pow
  rw [show v.toNat / 2 ^ 14 = 2 from h, show 2 ||| 1 = 3 from rfl] at hdiv
  rw [Nat.or_zero] at hmod
  rw [BitVec.toNat_or, show (0x4000 : BitVec 16).toNat = 0x4000 from rfl]
  omega

/-- C, in one of the two middle quarters, moves away from the middle by one quarter. -/
theorem toNat_xor_0x4000 {v : BitVec 16} (h : v.toNat / 0x4000 = 1 ∨ v.toNat / 0x4000 = 2) :
    (v ^^^ 0x4000).toNat = if v.toNat / 0x4000 = 1 then v.toNat - 0x4000 else v.toNat + 0x4000 := by
  have hdiv : (v.toNat ^^^ 0x4000) / 2 ^ 14 = v.toNat / 2 ^ 14 ^^^ 1 := Nat.xor_div_two_pow
  have hmod : (v.toNat ^^^ 0x4000) % 2 ^ 14 = v.toNat % 2 ^ 14 ^^^ 0 := Nat.xor_mod_two_pow
  rw [Nat.xor_zero] at hmod
  rw [BitVec.toNat_xor, show (0x4000 : BitVec 16).toNat = 0x4000 from rfl]
  rcases h with h | h
  · rw [show v.toNat / 2 ^ 14 = 1 from h, show 1 ^^^ 1 = 0 from rfl] at hdiv
    rw [if_pos h]; omega
  · rw [show v.toNat / 2 ^ 14 = 2 from h, show 2 ^^^ 1 = 3 from rfl] at hdiv
    rw [if_neg (by omega)]; omega

/-! ## One pass keeps the order of the registers -/

/-- Low, code and high are in order. -/
def QtCtx.Ordered (x : QtCtx) : Prop := x.L.toNat ≤ x.C.toNat ∧ x.C.toNat ≤ x.H.toNat

/-- A read of one bit gives a bit, whatever the sub-reads of the reader are. -/
theorem Brm.read_one_lt {cfg : Config} {inp : List Byte} {r r' : Brm} {b : Nat} (h : r.read cfg inp 1 = .ok b r') :
    b < 2 := by
  by_cases hk : 1 ≤ cfg.brmSubRead
  · rw [Brm.read_narrow hk, Brm.read16, if_neg (by decide)] at h
    obtain ⟨-, r1, -, h⟩ := Got.bind_ok h
    cases h
    exact Nat.mod_lt _ (by decide)
  · have hz : cfg.brmSubRead = 0 := by omega
    have h0 : r.read cfg inp 1 = .ok 0 r := by simp [Brm.read, Brm.readLoop, Brm.read16, Got.bind, hz]
    rw [h0] at h
    cases h
    decide

/-- The registers after the shift of a pass (R207). -/
theorem QtCtx.shift_ok {cfg : Config} {inp : List Byte} {x y : QtCtx} {u : Unit} (h : x.shift cfg inp = .ok u y) :
    y.L = x.L <<< 1 ∧ y.H = (x.H <<< 1) ||| 1 ∧ ∃ b < 2, y.C = (x.C <<< 1) ||| BitVec.ofNat 16 b := by
  unfold QtCtx.shift at h
  cases hb : x.bm.read cfg inp 1 with
  | ok b bm =>
    simp only [hb] at h
    cases h
    exact ⟨rfl, rfl, b, Brm.read_one_lt hb, rfl⟩
  | err k bm => simp [hb] at h
  | bug f => simp [hb] at h

/-- Doubling in one half of the range keeps the order. -/
theorem QtCtx.Ordered.shift {cfg : Config} {inp : List Byte} {x y : QtCtx} {u : Unit} (h : x.Ordered)
    (ht : x.L.toNat < 0x8000 ↔ x.H.toNat < 0x8000) (hs : x.shift cfg inp = .ok u y) : y.Ordered := by
  obtain ⟨hLC, hCH⟩ := h
  obtain ⟨hL, hH, b, hb, hC⟩ := QtCtx.shift_ok hs
  have hlt := x.H.isLt
  unfold QtCtx.Ordered
  rw [hL, hH, hC, toNat_shiftIn_zero, toNat_shiftIn_one, toNat_shiftIn _ hb]
  omega

/-- Doubling away from the middle of the range keeps the order. -/
theorem QtCtx.Ordered.adjust_shift {cfg : Config} {inp : List Byte} {x y : QtCtx} {u : Unit} (h : x.Ordered)
    (hL : x.L.toNat / 0x4000 = 1) (hH : x.H.toNat / 0x4000 = 2) (hs : x.adjust.shift cfg inp = .ok u y) :
    y.Ordered := by
  obtain ⟨hLC, hCH⟩ := h
  obtain ⟨hL', hH', b, hb, hC'⟩ := QtCtx.shift_ok hs
  have hC : x.C.toNat / 0x4000 = 1 ∨ x.C.toNat / 0x4000 = 2 := by omega
  unfold QtCtx.Ordered
  rw [hL', hH', hC', toNat_shiftIn_zero, toNat_shiftIn_one, toNat_shiftIn _ hb, QtCtx.adjust_L, QtCtx.adjust_H,
    QtCtx.adjust_C, toNat_and_0x3FFF, toNat_or_0x4000 hH, toNat_xor_0x4000 hC]
  split <;> omega

/-! ## 16 passes are enough -/

/-- The lowest `k` bits of L are 0 and those of H are 1. -/
def QtCtx.Settled (k : Nat) (x : QtCtx) : Prop := ∀ i < 16, i < k → x.L.getLsbD i = false ∧ x.H.getLsbD i = true

theorem QtCtx.Settled.adjust {k : Nat} {x : QtCtx} (h : x.Settled k) : x.adjust.Settled k := fun i hi hk => by
  obtain ⟨hL, hH⟩ := h i hi hk
  simp [hL, hH]

theorem QtCtx.Settled.shift {cfg : Config} {inp : List Byte} {k : Nat} {x y : QtCtx} {u : Unit} (h : x.Settled k)
    (hs : x.shift cfg inp = .ok u y) : y.Settled (k + 1) := fun i hi hk => by
  obtain ⟨hL, hH, -⟩ := QtCtx.shift_ok hs
  rw [hL, hH]
  cases i with
  | zero => simp
  | succ i =>
    obtain ⟨hL, hH⟩ := h i (by omega) (by omega)
    rw [BitVec.getLsbD_or, BitVec.getLsbD_shiftLeft, BitVec.getLsbD_shiftLeft, Nat.add_sub_cancel, hL, hH]
    simp
    omega

/-- With all bits settled L is 0 and H is 0xFFFF. -/
theorem QtCtx.Settled.full {k : Nat} {x : QtCtx} (h : x.Settled k) (hk : 16 ≤ k) : x.L.toNat = 0 ∧ x.H.toNat = 0xFFFF := by
  have hL : x.L = 0 := BitVec.eq_of_getLsbD_eq fun i hi => (h i hi (by omega)).1.trans BitVec.getLsbD_zero.symm
  have hH : x.H = BitVec.allOnes 16 := BitVec.eq_of_getLsbD_eq fun i hi => by
    rw [(h i hi (by omega)).2, BitVec.getLsbD_allOnes, decide_eq_true hi]
  rw [hL, hH]
  exact ⟨rfl, rfl⟩

/-- The exit test of renormalisation (R207 (4)). -/
theorem renormLoop_exit {cfg : Config} {inp : List Byte} {x : QtCtx} (ht : x.topsDiffer = true) (hu : x.underflow = false)
    (fuel : Nat) : renormLoop cfg inp fuel x = .ok () x := by
  cases fuel with
  | zero => rfl
  | succ fuel => simp [renormLoop, ht, hu]

theorem renormLoop_settled {cfg : Config} {inp : List Byte} {k : Nat} {x : QtCtx} (h : x.Settled k) (hk : 16 ≤ k)
    (fuel : Nat) : renormLoop cfg inp fuel x = .ok () x := by
  obtain ⟨hL, hH⟩ := h.full hk
  refine renormLoop_exit ?_ ?_ fuel
  · rw [QtCtx.topsDiffer_iff]; omega
  · rw [← Bool.not_eq_true, QtCtx.underflow_iff]; omega

theorem Got.bind_congr {σ α β : Type} {g : Got σ α} {f f' : α → σ → Got σ β} (h : ∀ a s, g = .ok a s → f a s = f' a s) :
    g.bind f = g.bind f' := by
  cases g with
  | ok a s => exact h a s rfl
  | err k s => rfl
  | bug e => rfl

/-- Passes beyond the bits not yet settled are never made. -/
theorem renormLoop_fuel {cfg : Config} {inp : List Byte} {k fuel more : Nat} {x : QtCtx} (h : x.Settled k)
    (hf : 16 ≤ k + fuel) : renormLoop cfg inp (fuel + more) x = renormLoop cfg inp fuel x := by
  induction fuel generalizing k x with
  | zero => rw [renormLoop_settled h hf, renormLoop_settled h hf]
  | succ fuel ih =>
    have pass : ∀ x' : QtCtx, x'.Settled k → ((x'.shift cfg inp).bind fun _ y => renormLoop cfg inp (fuel + more) y) =
        (x'.shift cfg inp).bind fun _ y => renormLoop cfg inp fuel y := fun x' hx' =>
      Got.bind_congr fun _ y hy => ih (hx'.shift hy) (by omega)
    rw [show fuel + 1 + more = fuel + more + 1 by omega]
    simp only [renormLoop]
    rw [pass x h, pass x.adjust h.adjust]

/-- Where a loop that is long enough ends, the coder is in order again (R30). -/
theorem renormLoop_restores {cfg : Config} {inp : List Byte} {k fuel : Nat} {x y : QtCtx} {u : Unit} (h : x.Settled k)
    (hf : 16 ≤ k + fuel) (ho : x.Ordered) (hr : renormLoop cfg inp fuel x = .ok u y) : y.coderOk := by
  induction fuel generalizing k x with
  | zero =>
    obtain ⟨hL, hH⟩ := h.full hf
    obtain ⟨hLC, hCH⟩ := ho
    cases hr
    exact ⟨hLC, hCH, by omega, by omega, by omega⟩
  | succ fuel ih =>
    have hHlt := x.H.isLt
    simp only [renormLoop] at hr
    split at hr
    · next ht =>
      have ht := x.topsDiffer_iff.1 ht
      split at hr
      · next hu =>
        have hu := x.underflow_iff.1 hu
        obtain ⟨hLC, hCH⟩ := ho
        obtain ⟨_, z, hz, hr⟩ := Got.bind_ok hr
        exact ih (h.adjust.shift hz) (by omega) (QtCtx.Ordered.adjust_shift ⟨hLC, hCH⟩ (by omega) (by omega) hz) hr
      · next hu =>
        have hu := mt x.underflow_iff.2 hu
        obtain ⟨hLC, hCH⟩ := ho
        cases hr
        exact ⟨hLC, hCH, by omega, by omega, by omega⟩
    · next ht =>
      have ht := not_not.1 (mt x.topsDiffer_iff.2 ht)
      obtain ⟨_, z, hz, hr⟩ := Got.bind_ok hr
      exact ih (h.shift hz) (by omega) (ho.shift ht hz) hr

theorem QtCtx.settled_zero (x : QtCtx) : x.Settled 0 := fun _ _ h => absurd h (Nat.not_lt_zero _)

theorem QtCtx.renormalise_coderOk {cfg : Config} {inp : List Byte} {x y : QtCtx} {u : Unit} (h : x.Ordered)
    (hr : x.renormalise cfg inp = .ok u y) : y.coderOk :=
  renormLoop_restores x.settled_zero (by decide) h hr

/-- Settles O29: after 16 passes every bit is settled; a pass keeps the order, and the exit test says the rest. -/
theorem renormaliseRestoresTheCoder : Obligations.RenormaliseRestoresTheCoder := by
  refine fun cfg inp x => ⟨fun more => ?_, fun h1 h2 u y hr => ⟨QtCtx.renormalise_coderOk ⟨h1, h2⟩ hr, ?_⟩⟩
  · rw [QtCtx.renormalise, renormFuel, renormLoop_fuel x.settled_zero (by omega)]
    exact (renormLoop_fuel (more := 1) x.settled_zero (by omega)).symm
  · obtain ⟨l, h, c, bm, rfl⟩ := (x.renormalise_moves cfg inp).of_ok hr
    rfl

end Sys2Proof.Machine
end

section
/-! PROOF. An update keeps a model good (10_state.md R31, 43_quantum.md R208 to R210): the bump, the halving and the rebuild each
leave strictly falling cumulative values with the sentinel 0 and a total within the limit. -/

namespace Sys2Proof.Machine

/-- Strictly falling values, as the cumulative frequencies of a model are (R31). -/
abbrev Falling (l : List Nat) : Prop := l.Pairwise fun a b => b < a

/-- The first of falling values is the greatest. -/
theorem Falling.le_headD {l : List Nat} (h : Falling l) {b : Nat} (hb : b ∈ l) : b ≤ l.headD 0 := by
  cases l with
  | nil => simp at hb
  | cons a l =>
    rcases List.mem_cons.1 hb with rfl | hb
    · exact le_rfl
    · exact Nat.le_of_lt (List.rel_of_pairwise_cons h hb)

/-! ## The bump (R208) -/

theorem cumBump_falling {cum : List Nat} (h : Falling cum) (i : Nat) : Falling (cumBump i cum) := by
  have hcut : Falling (cum.take i ++ cum.drop i) := by rwa [List.take_append_drop]
  obtain ⟨htake, hdrop, hcross⟩ := List.pairwise_append.1 hcut
  refine List.pairwise_append.2 ⟨List.pairwise_map.2 (htake.imp fun hab => ?_), hdrop, fun a ha b hb => ?_⟩
  · omega
  · obtain ⟨a', ha', rfl⟩ := List.mem_map.1 ha
    exact Nat.lt_add_right _ (hcross a' ha' b hb)

/-- The bump stops before the sentinel. -/
theorem cumBump_getLast? {cum : List Nat} {i : Nat} (h : i < cum.length) : (cumBump i cum).getLast? = cum.getLast? := by
  rw [cumBump, List.getLast?_append, List.getLast?_drop, if_neg (by omega)]
  cases hl : cum.getLast? with
  | none => simp [List.getLast?_eq_none_iff.1 hl] at h
  | some a => rfl

/-! ## The halving (R209) -/

@[simp] theorem cumHalve_length : ∀ cum : List Nat, (cumHalve cum).length = cum.length
  | [] => rfl
  | [_] => rfl
  | _ :: d :: rest => by simp [cumHalve, cumHalve_length (d :: rest)]

theorem cumHalve_getLast? : ∀ cum : List Nat, (cumHalve cum).getLast? = cum.getLast?
  | [] => rfl
  | [_] => rfl
  | c :: d :: rest => by
    have ih := cumHalve_getLast? (d :: rest)
    have hne : cumHalve (d :: rest) ≠ [] := by simp [← List.length_pos_iff]
    rw [cumHalve, List.getLast?_cons_of_ne_nil hne, ih, List.getLast?_cons_cons]
    simp

/-- Each halved value is raised above its successor where it must be, so the values fall whatever they were. -/
theorem cumHalve_falling : ∀ cum : List Nat, Falling (cumHalve cum)
  | [] => List.Pairwise.nil
  | [_] => List.pairwise_singleton ..
  | c :: d :: rest => by
    have ih := cumHalve_falling (d :: rest)
    rw [cumHalve]
    · refine List.pairwise_cons.2 ⟨fun b hb => ?_, ih⟩
      have := ih.le_headD hb
      split <;> omega
    · simp

/-- A halved value lies above half of the old one by at most the number of entries after it. -/
theorem cumHalve_headD_le : ∀ {cum : List Nat}, Falling cum → cum.getLast? = some 0 →
    (cumHalve cum).headD 0 ≤ cum.headD 0 / 2 + (cum.length - 1)
  | [], _, _ => Nat.zero_le _
  | [s], _, hs => by
    obtain rfl : s = 0 := by simpa using hs
    simp [cumHalve]
  | c :: d :: rest, hf, hs => by
    have ih := cumHalve_headD_le (cum := d :: rest) hf.of_cons (by rwa [List.getLast?_cons_cons] at hs)
    have hcd : d < c := List.rel_of_pairwise_cons hf List.mem_cons_self
    simp only [List.headD_cons, List.length_cons, Nat.add_sub_cancel] at ih ⊢
    rw [cumHalve]
    · dsimp only [List.headD_cons]
      rw [Nat.shiftRight_one]
      split <;> omega
    · simp

/-! ## The rebuilt sums (R210) -/

theorem cumOfFreqs_headD (fs : List Nat) : (cumOfFreqs fs).headD 0 = fs.sum := by
  induction fs with
  | nil => rfl
  | cons f fs ih => rw [cumOfFreqs, List.headD_cons, ih, List.sum_cons]

theorem cumOfFreqs_getLast? (fs : List Nat) : (cumOfFreqs fs).getLast? = some 0 := by
  induction fs with
  | nil => rfl
  | cons f fs ih =>
    have hne : cumOfFreqs fs ≠ [] := by simp [← List.length_pos_iff]
    rw [cumOfFreqs, List.getLast?_cons_of_ne_nil hne, ih]

theorem cumOfFreqs_falling {fs : List Nat} (h : ∀ f ∈ fs, 1 ≤ f) : Falling (cumOfFreqs fs) := by
  induction fs with
  | nil => exact List.pairwise_singleton ..
  | cons f fs ih =>
    have ih := ih fun g hg => h g (List.mem_cons_of_mem _ hg)
    have hf := h f List.mem_cons_self
    refine List.pairwise_cons.2 ⟨fun b hb => ?_, ih⟩
    have := ih.le_headD hb
    omega

/-- Frequencies of falling values, halved upwards, stay positive. -/
theorem cumFreqs_pos : ∀ {cum : List Nat}, Falling cum → ∀ f ∈ cumFreqs cum, 1 ≤ f
  | [], _, f, hf => by simp [cumFreqs] at hf
  | [_], _, f, hf => by simp [cumFreqs] at hf
  | a :: b :: rest, h, f, hf => by
    have hab : b < a := List.rel_of_pairwise_cons h List.mem_cons_self
    rcases List.mem_cons.1 hf with rfl | hf
    · rw [Nat.shiftRight_one]; omega
    · exact cumFreqs_pos h.of_cons f hf

/-- Halving upwards adds at most one half per frequency to half of the total. -/
theorem cumFreqs_sum_le : ∀ {cum : List Nat}, Falling cum → 2 * (cumFreqs cum).sum ≤ cum.headD 0 + (cum.length - 1)
  | [], _ => Nat.zero_le _
  | [_], _ => by simp [cumFreqs]
  | a :: b :: rest, h => by
    have ih := cumFreqs_sum_le (cum := b :: rest) h.of_cons
    have hab : b < a := List.rel_of_pairwise_cons h List.mem_cons_self
    simp only [cumFreqs, List.sum_cons, List.headD_cons, List.length_cons, Nat.add_sub_cancel, Nat.shiftRight_one] at ih ⊢
    omega

/-! ## The model -/

/-- A good model with other cumulative values and another counter that are in order. -/
theorem QModel.Ok.with_cum {n first reorder : Nat} {m : QModel} {cum : List Nat} (h : m.Ok n first)
    (hlen : cum.length = n + 1) (hf : Falling cum) (hs : cum.getLast? = some 0) (ht : cum.headD 0 ≤ qtLimit)
    (hr : 1 ≤ reorder) (hr' : reorder ≤ qtReorderReload) :
    ({ m with cum := cum, reorder := reorder } : QModel).Ok n first where
  size := h.size
  base := h.base
  nonempty := h.nonempty
  atMost64 := h.atMost64
  bytes := h.bytes
  symLength := h.symLength
  symNodup := h.symNodup
  symRange := h.symRange
  cumLength := hlen
  decreasing := hf
  sentinel := hs
  total := ht
  reorderPos := hr
  reorderMax := hr'
  lookup := h.lookup

/-- A rebuild from falling values with a total not far above the limit gives a good model (R210). -/
theorem QModel.Ok.rebuild {n first reorder : Nat} {m : QModel} {cum : List Nat} (h : m.Ok n first)
    (hlen : cum.length = n + 1) (hf : Falling cum) (ht : cum.headD 0 ≤ qtLimit + qtBump) (how : Resort) :
    (({ m with cum := cum, reorder := reorder } : QModel).rebuild how).Ok n first := by
  have hfreqLen : (cumFreqs cum).length = n := by rw [cumFreqs_length, hlen, Nat.add_sub_cancel]
  have hperm := resort_perm how (m.sym.zip (cumFreqs cum))
  have hsyms : ((resort how (m.sym.zip (cumFreqs cum))).map Prod.fst).Perm m.sym := by
    have := hperm.map Prod.fst
    rwa [List.map_fst_zip (by rw [hfreqLen, h.symLength])] at this
  have hfreqs : ((resort how (m.sym.zip (cumFreqs cum))).map Prod.snd).Perm (cumFreqs cum) := by
    have := hperm.map Prod.snd
    rwa [List.map_snd_zip (by rw [hfreqLen, h.symLength])] at this
  have hrange : ∀ b ∈ (resort how (m.sym.zip (cumFreqs cum))).map Prod.fst, first ≤ b.toNat ∧ b.toNat < first + n :=
    fun b hb => h.symRange b (hsyms.mem_iff.1 hb)
  refine ⟨h.size, h.base, h.nonempty, h.atMost64, h.bytes, hsyms.length_eq.trans h.symLength, hsyms.nodup_iff.2 h.symNodup,
    hrange, ?_, cumOfFreqs_falling fun f hfreq => cumFreqs_pos hf f (hfreqs.mem_iff.1 hfreq), cumOfFreqs_getLast? _, ?_,
    show 1 ≤ qtReorderReload by decide, le_rfl, fun k hk => ?_⟩
  · simp only [QModel.rebuild, cumOfFreqs_length]
    rw [hfreqs.length_eq, hfreqLen]
  · simp only [QModel.rebuild, cumOfFreqs_headD]
    have hsum := cumFreqs_sum_le hf
    have h64 := h.atMost64
    rw [hfreqs.sum_eq]
    simp only [qtLimit, qtBump] at ht ⊢
    omega
  · refine lookup_tablocOf (hsyms.nodup_iff.2 h.symNodup) (fun b hb => ?_) rfl hk
    have hb := hrange b hb
    rw [← h.base, ← h.size] at hb
    exact hb

/-- An update at a hit index keeps a model good (R31, R208). -/
theorem QModel.Ok.update {n first i : Nat} {m : QModel} (h : m.Ok n first) (h1 : 1 ≤ i) (hn : i ≤ n) (how : Resort) :
    (m.update how i).Ok n first := by
  have hlen : (cumBump i m.cum).length = n + 1 := (cumBump_length i m.cum).trans h.cumLength
  have hf : Falling (cumBump i m.cum) := cumBump_falling h.decreasing i
  have hs : (cumBump i m.cum).getLast? = some 0 := (cumBump_getLast? (by rw [h.cumLength]; omega)).trans h.sentinel
  have ht : (cumBump i m.cum).headD 0 ≤ qtLimit + qtBump := by
    have := h.total
    rw [List.headD_eq_getD, cumBump_getD (by rw [h.cumLength]; omega), if_pos (by omega), ← List.headD_eq_getD]
    exact Nat.add_le_add_right this 8
  have hr := h.reorderPos
  have hr' := h.reorderMax
  have h64 := h.atMost64
  simp only [QModel.update, QModel.rescale]
  split
  · split
    · next hcount =>
      have hcount : m.reorder - 1 ≠ 0 := hcount
      refine h.with_cum (reorder := m.reorder - 1) (by simpa using hlen) (cumHalve_falling _)
        ((cumHalve_getLast? _).trans hs) ?_ (by omega) (by omega)
      have := cumHalve_headD_le hf hs
      simp only [qtLimit, qtBump] at ht ⊢
      omega
    · exact h.rebuild hlen hf ht how
  · exact h.with_cum hlen hf hs (by omega) hr hr'

end Sys2Proof.Machine
end

section
/-! PROOF. GetSymbol and the token decoder (43_quantum.md R204 to R212): the hit index ends the slice that the frequency lies in,
narrowing to it keeps the code register inside, and what a fetch keeps of the registers, the models and the coder. -/

namespace Sys2Proof.Machine

/-! ## Locate and narrow (R205, R206) -/

/-- The hit index is the first whose entry is at most the frequency. -/
theorem hitFrom_some {freq start i : Nat} {cs : List Nat} (h : hitFrom freq start cs = some i) :
    ∃ k, i = start + k ∧ k < cs.length ∧ cs.getD k 0 ≤ freq ∧ ∀ j < k, freq < cs.getD j 0 := by
  induction cs generalizing start with
  | nil => cases h
  | cons c cs ih =>
    simp only [hitFrom] at h
    split at h
    · next hc =>
      cases h
      exact ⟨0, rfl, Nat.succ_pos _, hc, fun j hj => absurd hj (Nat.not_lt_zero j)⟩
    · next hc =>
      obtain ⟨k, rfl, hk, hle, hbefore⟩ := ih h
      refine ⟨k + 1, by omega, Nat.succ_lt_succ hk, hle, fun j hj => ?_⟩
      cases j with
      | zero => exact Nat.lt_of_not_le hc
      | succ j => exact hbefore j (by omega)

/-- In a good model the hit index ends a slice, and the frequency is at least its lower bound; it is below the upper bound
if it is below the total. -/
theorem QModel.Ok.hit_slice {n first freq i : Nat} {m : QModel} (h : m.Ok n first) (hi : m.hit freq = some i)
    (hf : freq < m.cum.headD 0) :
    1 ≤ i ∧ i ≤ n ∧ m.cum.getD i 0 ≤ freq ∧ freq < m.cum.getD (i - 1) 0 := by
  obtain ⟨total, rest, hc, hlen, -, -⟩ := h.cum_cons
  rw [QModel.hit, hc, List.tail_cons] at hi
  obtain ⟨k, rfl, hk, hle, hbefore⟩ := hitFrom_some hi
  rw [hc] at hf ⊢
  refine ⟨by omega, by omega, by rwa [Nat.add_comm, List.getD_cons_succ], ?_⟩
  rw [Nat.add_sub_cancel_left]
  cases k with
  | zero => exact hf
  | succ k => exact hbefore k (by omega)

/-- With the code register between low and high the frequency is below the total (R205). -/
theorem QtCtx.Ordered.freq_lt {x : QtCtx} (h : x.Ordered) {total : Nat} (ht : 0 < total) : x.freq total < total := by
  obtain ⟨hLC, hCH⟩ := h
  unfold QtCtx.freq QtCtx.range
  rw [Nat.div_lt_iff_lt_mul (by omega), Nat.mul_comm total]
  have hle : (x.C.toNat - x.L.toNat + 1) * total ≤ (x.H.toNat - x.L.toNat + 1) * total :=
    Nat.mul_le_mul_right total (by omega)
  have hpos : 0 < (x.C.toNat - x.L.toNat + 1) * total := Nat.mul_pos (by omega) ht
  omega

/-- Narrowing to the slice that the frequency lies in keeps the code register between low and high (R206). -/
theorem QtCtx.Ordered.narrow {x : QtCtx} (h : x.Ordered) {hi lo total : Nat} (ht : 0 < total) (hlo : lo ≤ x.freq total)
    (hhi : x.freq total < hi) (hle : hi ≤ total) : (x.narrow hi lo total).Ordered := by
  obtain ⟨hLC, hCH⟩ := h
  have hHlt := x.H.isLt
  have hrange : 0 < x.range := Nat.succ_pos _
  unfold QtCtx.freq at hlo hhi
  rw [Nat.le_div_iff_mul_le hrange] at hlo
  rw [Nat.div_lt_iff_lt_mul hrange] at hhi
  have hpos : 0 < (x.C.toNat - x.L.toNat + 1) * total := Nat.mul_pos (by omega) ht
  have hlow : lo * x.range / total < x.C.toNat - x.L.toNat + 1 := by
    rw [Nat.div_lt_iff_lt_mul ht]; omega
  have hhigh : x.C.toNat - x.L.toNat + 1 ≤ hi * x.range / total := by
    rw [Nat.le_div_iff_mul_le ht]; omega
  have hmost : hi * x.range / total ≤ x.range :=
    Nat.div_le_of_le_mul (Nat.mul_le_mul_right _ hle)
  have hr : x.range = x.H.toNat - x.L.toNat + 1 := rfl
  unfold QtCtx.Ordered
  simp only [QtCtx.narrow, BitVec.toNat_ofNat]
  rw [Nat.mod_eq_of_lt (by omega), Nat.mod_eq_of_lt (by omega)]
  omega

/-! ## GetSymbol -/

/-- What GetSymbol has done when it gives a symbol (R205). -/
theorem getSymbol_ok {cfg : Config} {inp : List Byte} {w : QModelId} {x y : QtCtx} {b : Byte}
    (h : getSymbol cfg inp w x = .ok b y) :
    ∃ i hi lo u z, (x.model w).hit (x.freq ((x.model w).cum.headD 0)) = some i ∧ (x.model w).sym[i - 1]? = some b ∧
      (x.model w).cum[i - 1]? = some hi ∧ (x.model w).cum[i]? = some lo ∧
      (x.narrow hi lo ((x.model w).cum.headD 0)).renormalise cfg inp = .ok u z ∧
      y = z.setModel w ((x.model w).update cfg.qtResort i) := by
  unfold getSymbol at h
  dsimp only at h
  split at h
  · cases h
  · next i hhit =>
    split at hhit
    · cases hhit
    · split at h
      · next sym hi lo hsym hcumHi hcumLo =>
        obtain ⟨u, z, hz, h⟩ := Got.bind_ok h
        cases h
        exact ⟨i, hi, lo, u, z, hhit, hsym, hcumHi, hcumLo, hz, rfl⟩
      · cases h

/-- When GetSymbol fails, it was renormalisation that did (R207). -/
theorem getSymbol_err {cfg : Config} {inp : List Byte} {w : QModelId} {x y : QtCtx} {k : ErrKind}
    (h : getSymbol cfg inp w x = .err k y) : x.CoderMoved y := by
  unfold getSymbol at h
  dsimp only at h
  split at h
  · cases h
  · split at h
    · next hi lo _ _ _ =>
      rcases Got.bind_err h with h | ⟨_, _, -, h⟩
      · have hmoves := (QtCtx.renormalise_moves cfg inp (x.narrow hi lo ((x.model w).cum.headD 0)))
        rw [h] at hmoves
        exact QtCtx.CoderMoved.trans ⟨_, _, x.C, x.bm, rfl⟩ hmoves
      · cases h
    · cases h

/-- What GetSymbol keeps when it gives a symbol (R205). -/
theorem getSymbol_sameBut {cfg : Config} {inp : List Byte} {w : QModelId} {x y : QtCtx} {b : Byte}
    (h : getSymbol cfg inp w x = .ok b y) : x.SameBut w y := by
  obtain ⟨i, hi, lo, u, z, -, -, -, -, hz, rfl⟩ := getSymbol_ok h
  have hmoved : x.CoderMoved z :=
    QtCtx.CoderMoved.trans ⟨_, _, x.C, x.bm, rfl⟩ ((QtCtx.renormalise_moves cfg inp _).of_ok hz)
  exact hmoved.then_sameBut (z.sameBut_setModel w _)

/-- GetSymbol on a good model updates it at the hit index (R208). -/
theorem getSymbol_model_ok {cfg : Config} {inp : List Byte} {w : QModelId} {x y : QtCtx} {b : Byte} {n first : Nat}
    (hm : (x.model w).Ok n first) (h : getSymbol cfg inp w x = .ok b y) : (y.model w).Ok n first := by
  obtain ⟨i, hi, lo, u, z, hhit, -, -, -, -, rfl⟩ := getSymbol_ok h
  obtain ⟨j, hj, h1, hn⟩ := hm.hit (x.freq ((x.model w).cum.headD 0))
  obtain rfl : i = j := Option.some.inj (hhit.symm.trans hj)
  rw [QtCtx.model_setModel_same]
  exact hm.update h1 hn _

/-- A coder between two symbols has its registers in order. -/
theorem QtCtx.coderOk.ordered {x : QtCtx} (h : x.coderOk) : x.Ordered := by
  obtain ⟨hLC, hCH, -⟩ := h
  exact ⟨hLC, hCH⟩

/-- Writing a model leaves the coder. -/
theorem QtCtx.coderOk.setModel {x : QtCtx} (h : x.coderOk) (w : QModelId) (m : QModel) : (x.setModel w m).coderOk := by
  unfold QtCtx.coderOk at h ⊢
  rwa [QtCtx.setModel_L, QtCtx.setModel_H, QtCtx.setModel_C]

/-- GetSymbol on a good model and a coder in order leaves the coder in order (R30). -/
theorem getSymbol_coderOk {cfg : Config} {inp : List Byte} {w : QModelId} {x y : QtCtx} {b : Byte} {n first : Nat}
    (hm : (x.model w).Ok n first) (hx : x.coderOk) (h : getSymbol cfg inp w x = .ok b y) : y.coderOk := by
  obtain ⟨i, hi, lo, u, z, hhit, -, hcumHi, hcumLo, hz, rfl⟩ := getSymbol_ok h
  obtain ⟨total, rest, hc, -, -, htotal⟩ := hm.cum_cons
  have ht : 0 < (x.model w).cum.headD 0 := by rw [hc]; exact htotal
  obtain ⟨-, -, hlo, hlt⟩ := hm.hit_slice hhit (hx.ordered.freq_lt ht)
  rw [List.getD_eq_getElem?_getD, hcumLo] at hlo
  rw [List.getD_eq_getElem?_getD, hcumHi] at hlt
  have hle : hi ≤ (x.model w).cum.headD 0 := Falling.le_headD hm.decreasing (List.mem_of_getElem? hcumHi)
  exact (QtCtx.renormalise_coderOk (hx.ordered.narrow ht hlo hlt hle) hz).setModel w _

/-! ## Tokens, by the formulas of R116 -/

theorem Got.bind_ok_iff {σ α β : Type} {g : Got σ α} {f : α → σ → Got σ β} {b : β} {s : σ} :
    g.bind f = .ok b s ↔ ∃ a s1, g = .ok a s1 ∧ f a s1 = .ok b s :=
  ⟨Got.bind_ok, fun ⟨a, s1, hg, hf⟩ => by rw [hg]; exact hf⟩

theorem rawField_ok_iff {cfg : Config} {inp : List Byte} {n v : Nat} {x y : QtCtx} :
    rawField cfg inp n x = .ok v y ↔ ∃ bm, x.bm.read cfg inp n = .ok v bm ∧ y = { x with bm := bm } := by
  unfold rawField
  cases x.bm.read cfg inp n with
  | ok v' bm => simp [eq_comm]
  | err k bm => simp
  | bug f => simp

/-- The position table is R116's formulas. -/
theorem positionTable_eq : positionTable = (List.range 42).map fun p => (slotBase p, slotBits p) := by decide

/-- The length table is R116's formulas. -/
theorem lengthSlotTable_eq : lengthSlotTable = (List.range 27).map fun l => (lengthSlotBase l, lengthSlotBits l) := by
  decide

theorem positionTable_some_iff {p : Nat} {e : Nat × Nat} :
    positionTable[p]? = some e ↔ p < 42 ∧ e = (slotBase p, slotBits p) := by
  rw [positionTable_eq, List.getElem?_map]
  by_cases hp : p < 42
  · simp [hp, eq_comm]
  · simp [hp]

theorem lengthSlotTable_some_iff {l : Nat} {e : Nat × Nat} :
    lengthSlotTable[l]? = some e ↔ l < 27 ∧ e = (lengthSlotBase l, lengthSlotBits l) := by
  rw [lengthSlotTable_eq, List.getElem?_map]
  by_cases hl : l < 27
  · simp [hl, eq_comm]
  · simp [hl]

/-- A slot and its raw field: the match on the table is the formula, or an index out of the table. -/
theorem decodeOffset_ok_iff {cfg : Config} {inp : List Byte} {w : QModelId} {x y : QtCtx} {off : Nat} :
    decodeOffset cfg inp w x = .ok off y ↔ readsOffset cfg inp w x off y := by
  unfold decodeOffset readsOffset
  rw [Got.bind_ok_iff]
  refine exists_congr fun p => exists_congr fun z => ?_
  cases he : positionTable[p.toNat]? with
  | none =>
    have hp : ¬p.toNat < 42 := fun hp => by simpa [he] using positionTable_some_iff.2 ⟨hp, rfl⟩
    simp [hp]
  | some e =>
    obtain ⟨hp, rfl⟩ := positionTable_some_iff.1 he
    simp only [Got.bind_ok_iff, rawField_ok_iff, matchOffset, Got.ok.injEq]
    grind

theorem decodeLength_ok_iff {cfg : Config} {inp : List Byte} {x y : QtCtx} {len : Nat} :
    decodeLength cfg inp x = .ok len y ↔ readsLength cfg inp x len y := by
  unfold decodeLength readsLength
  rw [Got.bind_ok_iff]
  refine exists_congr fun l => exists_congr fun z => ?_
  cases he : lengthSlotTable[l.toNat]? with
  | none =>
    have hl : ¬l.toNat < 27 := fun hl => by simpa [he] using lengthSlotTable_some_iff.2 ⟨hl, rfl⟩
    simp [hl]
  | some e =>
    obtain ⟨hl, rfl⟩ := lengthSlotTable_some_iff.1 he
    simp only [Got.bind_ok_iff, rawField_ok_iff, variableLength, Got.ok.injEq]
    grind

/-- What follows the selector `sel` in a token (R111, R212). -/
def tokenAfter (cfg : Config) (inp : List Byte) (sel : Byte) (x : QtCtx) : Got QtCtx Instr :=
  match sel.toNat with
  | 0 => (getSymbol cfg inp .m00 x).bind fun b y => .ok (.qlit0 b) y
  | 1 => (getSymbol cfg inp .m40 x).bind fun b y => .ok (.qlit1 b) y
  | 2 => (getSymbol cfg inp .m80 x).bind fun b y => .ok (.qlit2 b) y
  | 3 => (getSymbol cfg inp .mC0 x).bind fun b y => .ok (.qlit3 b) y
  | 4 => (decodeOffset cfg inp .m4 x).bind fun off y => .ok (.qm3 off) y
  | 5 => (decodeOffset cfg inp .m5 x).bind fun off y => .ok (.qm4 off) y
  | 6 =>
    (decodeLength cfg inp x).bind fun len y =>
      (decodeOffset cfg inp .m6pos y).bind fun off z => .ok (.qmv len off) z
  | _ => .bug .indexOutOfRange

theorem decodeToken_eq (cfg : Config) (inp : List Byte) (x : QtCtx) :
    decodeToken cfg inp x = (getSymbol cfg inp .m7 x).bind fun sel y => tokenAfter cfg inp sel y := rfl

/-- A selector is one of the seven, by name, or no selector. -/
theorem selector_cases (sel : Byte) :
    sel = 0 ∨ sel = 1 ∨ sel = 2 ∨ sel = 3 ∨ sel = 4 ∨ sel = 5 ∨ sel = 6 ∨ 7 ≤ sel.toNat := by
  have h : ∀ k : Byte, sel = k ↔ sel.toNat = k.toNat := fun k => BitVec.toNat_inj.symm
  simp only [h]
  simp
  omega

/-- The fields of each selector (R111, R212). -/
theorem tokenAfter_ok_iff {cfg : Config} {inp : List Byte} {sel : Byte} {x y : QtCtx} {i : Instr} :
    tokenAfter cfg inp sel x = .ok i y ↔
      (sel = 0 ∧ ∃ b, i = .qlit0 b ∧ getSymbol cfg inp .m00 x = .ok b y) ∨
      (sel = 1 ∧ ∃ b, i = .qlit1 b ∧ getSymbol cfg inp .m40 x = .ok b y) ∨
      (sel = 2 ∧ ∃ b, i = .qlit2 b ∧ getSymbol cfg inp .m80 x = .ok b y) ∨
      (sel = 3 ∧ ∃ b, i = .qlit3 b ∧ getSymbol cfg inp .mC0 x = .ok b y) ∨
      (sel = 4 ∧ ∃ off, i = .qm3 off ∧ readsOffset cfg inp .m4 x off y) ∨
      (sel = 5 ∧ ∃ off, i = .qm4 off ∧ readsOffset cfg inp .m5 x off y) ∨
      (sel = 6 ∧ ∃ len off z, i = .qmv len off ∧ readsLength cfg inp x len z ∧ readsOffset cfg inp .m6pos z off y) := by
  have one : ∀ {α : Type} (g : Got QtCtx α) (tok : α → Instr),
      (g.bind fun a z => .ok (tok a) z) = .ok i y ↔ ∃ a, i = tok a ∧ g = .ok a y := fun g tok => by
    simp only [Got.bind_ok_iff, Got.ok.injEq]
    grind
  have two : ((decodeLength cfg inp x).bind fun len z => (decodeOffset cfg inp .m6pos z).bind fun off v => .ok (.qmv len off) v)
        = .ok i y ↔
      ∃ len off z, i = .qmv len off ∧ readsLength cfg inp x len z ∧ readsOffset cfg inp .m6pos z off y := by
    simp only [Got.bind_ok_iff, decodeLength_ok_iff, decodeOffset_ok_iff, Got.ok.injEq]
    grind
  obtain rfl | rfl | rfl | rfl | rfl | rfl | rfl | h := selector_cases sel
  · simpa [tokenAfter] using one _ Instr.qlit0
  · simpa [tokenAfter] using one _ Instr.qlit1
  · simpa [tokenAfter] using one _ Instr.qlit2
  · simpa [tokenAfter] using one _ Instr.qlit3
  · simpa [tokenAfter, decodeOffset_ok_iff] using one (decodeOffset cfg inp .m4 x) Instr.qm3
  · simpa [tokenAfter, decodeOffset_ok_iff] using one (decodeOffset cfg inp .m5 x) Instr.qm4
  · simpa [tokenAfter] using two
  · have hne : ∀ k : Byte, k.toNat < 7 → sel ≠ k := fun k hk he => by subst he; omega
    obtain ⟨k, hk⟩ := Nat.exists_eq_add_of_le' h
    have hbug : tokenAfter cfg inp sel x = .bug .indexOutOfRange := by simp [tokenAfter, hk]
    simp [hbug, hne]

/-- Settles O30: GetSymbol by its inversion, tokens by the match on the selector. -/
theorem getSymbolDecodesAndAdapts : Obligations.GetSymbolDecodesAndAdapts := by
  refine ⟨fun cfg inp w n first x y b hm hx h => ⟨getSymbol_coderOk hm hx h, getSymbol_model_ok hm h, ?_, ?_⟩,
    fun cfg inp x y i => ?_⟩
  · obtain ⟨i, hi, lo, u, z, hhit, hsym, hcumHi, hcumLo, hz, rfl⟩ := getSymbol_ok h
    obtain ⟨j, hj, h1, hn⟩ := hm.hit (x.freq ((x.model w).cum.headD 0))
    obtain rfl : i = j := Option.some.inj (hhit.symm.trans hj)
    rw [List.headD_eq_getD] at hhit hz
    refine ⟨i, z, u, hhit, h1, hn, hsym, QtCtx.model_setModel_same .., ?_, by simp, by simp, by simp, by simp⟩
    simpa [List.getD_eq_getElem?_getD, hcumHi, hcumLo] using hz
  · have hs := getSymbol_sameBut h
    exact ⟨hs.others, hs.win, hs.togo, hs.started, hs.fault, hs.wbits, hs.level, hs.wsize⟩
  · show decodeToken cfg inp x = .ok i y ↔ _
    rw [decodeToken_eq, Got.bind_ok_iff]
    exact exists_congr fun sel => exists_congr fun x1 => and_congr_right fun _ => tokenAfter_ok_iff

/-! ## What a fetch keeps -/

/-- Whatever a read ends with, a value or an error, the reader it leaves: `post` after a value, `failed` after an error. Of a
read that stops on a fault nothing is said. -/
def Got.Leaves {σ α : Type} (g : Got σ α) (post failed : σ → Prop) : Prop :=
  match g with
  | .ok _ s => post s
  | .err _ s => failed s
  | .bug _ => True

theorem Got.Leaves.of_ok {σ α : Type} {g : Got σ α} {post failed : σ → Prop} (h : g.Leaves post failed) {a : α} {s : σ}
    (hg : g = .ok a s) : post s := by subst hg; exact h

theorem Got.Leaves.of_err {σ α : Type} {g : Got σ α} {post failed : σ → Prop} (h : g.Leaves post failed) {k : ErrKind}
    {s : σ} (hg : g = .err k s) : failed s := by subst hg; exact h

theorem Got.Leaves.imp {σ α : Type} {g : Got σ α} {post post' failed failed' : σ → Prop} (h : g.Leaves post failed)
    (hp : ∀ s, post s → post' s) (hf : ∀ s, failed s → failed' s) : g.Leaves post' failed' := by
  cases g with
  | ok a s => exact hp s h
  | err k s => exact hf s h
  | bug f => trivial

theorem Got.Leaves.bind {σ α β : Type} {g : Got σ α} {f : α → σ → Got σ β} {mid post failed : σ → Prop}
    (h : g.Leaves mid failed) (hf : ∀ a s, mid s → (f a s).Leaves post failed) : (g.bind f).Leaves post failed := by
  cases g with
  | ok a s => exact hf a s h
  | err k s => exact h
  | bug f => trivial

/-- What a fetch that fails keeps: the registers of the call, and the models good (R205, R290). -/
structure QtCtx.Stopped (cfg : Config) (x y : QtCtx) : Prop extends QtCtx.SameCall x y where
  models : x.ModelsOk cfg → y.ModelsOk cfg

/-- What a fetch that succeeds keeps: with good models the coder in order, too (R30, R205). -/
structure QtCtx.Advanced (cfg : Config) (x y : QtCtx) : Prop extends QtCtx.Stopped cfg x y where
  coder : x.ModelsOk cfg → x.coderOk → y.coderOk

theorem QtCtx.Stopped.after {cfg : Config} {x y z : QtCtx} (h : x.Advanced cfg y) (h' : y.Stopped cfg z) :
    x.Stopped cfg z := ⟨h.toSameCall.trans h'.toSameCall, fun hx => h'.models (h.models hx)⟩

theorem QtCtx.Advanced.trans {cfg : Config} {x y z : QtCtx} (h : x.Advanced cfg y) (h' : y.Advanced cfg z) :
    x.Advanced cfg z :=
  ⟨h'.toStopped.after h, fun hm hc => h'.coder (h.models hm) (h.coder hm hc)⟩

theorem QtCtx.CoderMoved.stopped {x y : QtCtx} (h : x.CoderMoved y) (cfg : Config) : x.Stopped cfg y := by
  refine ⟨h.sameCall, fun hx w => ?_⟩
  rw [h.model w, h.sameCall.wbits]
  exact hx w

theorem getSymbol_leaves (cfg : Config) (inp : List Byte) (w : QModelId) (x : QtCtx) :
    (getSymbol cfg inp w x).Leaves (x.Advanced cfg) (x.Stopped cfg) := by
  cases h : getSymbol cfg inp w x with
  | ok b y =>
    have hs := getSymbol_sameBut h
    refine ⟨⟨hs.toSameCall, fun hm v => ?_⟩, fun hm hc => getSymbol_coderOk (hm w) hc h⟩
    rw [hs.wbits]
    by_cases hv : v = w
    · subst hv; exact getSymbol_model_ok (hm v) h
    · rw [hs.others v hv]; exact hm v
  | err k y => exact (getSymbol_err h).stopped cfg
  | bug f => trivial

/-- A raw field moves the reader alone (R117). -/
theorem rawField_leaves (cfg : Config) (inp : List Byte) (n : Nat) (x : QtCtx) :
    (rawField cfg inp n x).Leaves (x.Advanced cfg) (x.Stopped cfg) := by
  have hmoved : ∀ bm, x.CoderMoved { x with bm := bm } := fun bm => ⟨x.L, x.H, x.C, bm, rfl⟩
  unfold rawField
  cases x.bm.read cfg inp n with
  | ok v bm => exact ⟨(hmoved bm).stopped cfg, fun _ => id⟩
  | err k bm => exact (hmoved bm).stopped cfg
  | bug f => trivial

/-- The rule of sequence for fetches. -/
theorem QtCtx.leaves_then {cfg : Config} {α β : Type} {x : QtCtx} {g : Got QtCtx α} {f : α → QtCtx → Got QtCtx β}
    (h : g.Leaves (x.Advanced cfg) (x.Stopped cfg))
    (hf : ∀ a y, (f a y).Leaves (y.Advanced cfg) (y.Stopped cfg)) :
    (g.bind f).Leaves (x.Advanced cfg) (x.Stopped cfg) :=
  h.bind fun a y hy => (hf a y).imp (fun _ => hy.trans) fun _ hz => hz.after hy

theorem QtCtx.Advanced.refl (cfg : Config) (x : QtCtx) : x.Advanced cfg x :=
  ⟨⟨.refl x, id⟩, fun _ => id⟩

theorem decodeOffset_leaves (cfg : Config) (inp : List Byte) (w : QModelId) (x : QtCtx) :
    (decodeOffset cfg inp w x).Leaves (x.Advanced cfg) (x.Stopped cfg) := by
  refine QtCtx.leaves_then (getSymbol_leaves cfg inp w x) fun p y => ?_
  split
  · trivial
  · exact QtCtx.leaves_then (rawField_leaves cfg inp _ y) fun _ z => .refl cfg z

theorem decodeLength_leaves (cfg : Config) (inp : List Byte) (x : QtCtx) :
    (decodeLength cfg inp x).Leaves (x.Advanced cfg) (x.Stopped cfg) := by
  refine QtCtx.leaves_then (getSymbol_leaves cfg inp .m6len x) fun l y => ?_
  split
  · trivial
  · exact QtCtx.leaves_then (rawField_leaves cfg inp _ y) fun _ z => .refl cfg z

theorem decodeToken_leaves (cfg : Config) (inp : List Byte) (x : QtCtx) :
    (decodeToken cfg inp x).Leaves (x.Advanced cfg) (x.Stopped cfg) := by
  refine QtCtx.leaves_then (getSymbol_leaves cfg inp .m7 x) fun sel y => ?_
  split
  · exact QtCtx.leaves_then (getSymbol_leaves ..) fun _ z => .refl cfg z
  · exact QtCtx.leaves_then (getSymbol_leaves ..) fun _ z => .refl cfg z
  · exact QtCtx.leaves_then (getSymbol_leaves ..) fun _ z => .refl cfg z
  · exact QtCtx.leaves_then (getSymbol_leaves ..) fun _ z => .refl cfg z
  · exact QtCtx.leaves_then (decodeOffset_leaves ..) fun _ z => .refl cfg z
  · exact QtCtx.leaves_then (decodeOffset_leaves ..) fun _ z => .refl cfg z
  · exact QtCtx.leaves_then (decodeLength_leaves ..) fun _ z =>
      QtCtx.leaves_then (decodeOffset_leaves cfg inp .m6pos z) fun _ v => .refl cfg v
  · trivial

/-- The fetch of CODE16 moves the coder and the reader (R203). -/
theorem decodeQt_start_leaves (cfg : Config) (inp : List Byte) (x : QtCtx) :
    (decodeQt cfg inp .start x).Leaves (x.Stopped cfg) (x.Stopped cfg) := by
  have hwrite : x.CoderMoved { x with L := 0, H := 0xFFFF } := ⟨0, 0xFFFF, x.C, x.bm, rfl⟩
  have hmoves := rawField_yields cfg inp 16 { x with L := 0, H := 0xFFFF }
  unfold decodeQt
  cases h : rawField cfg inp 16 { x with L := 0, H := 0xFFFF } with
  | ok v y => exact (hwrite.trans (hmoves.of_ok h)).stopped cfg
  | err k y => rw [h] at hmoves; exact (hwrite.trans hmoves).stopped cfg
  | bug f => trivial

theorem decodeQt_leaves (cfg : Config) (inp : List Byte) (p : QtPhase) (x : QtCtx) :
    (decodeQt cfg inp p x).Leaves (x.Stopped cfg) (x.Stopped cfg) := by
  cases p with
  | start => exact decodeQt_start_leaves cfg inp x
  | tokens => exact (decodeToken_leaves cfg inp x).imp (fun _ h => h.toStopped) fun _ => id

end Sys2Proof.Machine
end

section
/-! PROOF. What a step can do, said once: for each engine the states an element of its grammar can leave, for each command the
states it can leave, and for a step what the fetch adds (10_state.md R24, 60_exceptions.md R290). Every statement about all
steps is then a case split over these. -/

namespace Sys2Proof.Machine

/-! ## Writing back -/

theorem State.emit_nil (s : State) : s.emit [] = s := by simp [State.emit]

theorem set_self_of_some {α : Type} {l : List α} {c : Nat} {x : α} (h : l[c]? = some x) : l.set c x = l := by
  obtain ⟨hc, rfl⟩ := List.getElem?_eq_some_iff.1 h
  exact List.set_getElem_self hc

theorem State.setMz_self {s : State} {c : Nat} {x : MzCtx} (h : s.mz[c]? = some x) : s.setMz c x = s := by
  rw [State.setMz, set_self_of_some h]

theorem State.setQt_self {s : State} {c : Nat} {x : QtCtx} (h : s.qt[c]? = some x) : s.setQt c x = s := by
  rw [State.setQt, set_self_of_some h]

theorem State.setRun_self {s : State} {r : Run} (h : s.run = r) : s.setRun r = s := by rw [State.setRun, ← h]

@[simp] theorem State.setMz_setMz (s : State) (c : Nat) (x y : MzCtx) : (s.setMz c x).setMz c y = s.setMz c y := by
  simp [State.setMz]

@[simp] theorem State.setQt_setQt (s : State) (c : Nat) (x y : QtCtx) : (s.setQt c x).setQt c y = s.setQt c y := by
  simp [State.setQt]

@[simp] theorem State.setLz_setLz (s : State) (c : Nat) (x y : LzCtx) : (s.setLz c x).setLz c y = s.setLz c y := by
  simp [State.setLz]

theorem MzAt.setMz {s : State} {c : Nat} {p : MzPhase} {x : MzCtx} (h : MzAt s c p x) (y : MzCtx) :
    MzAt (s.setMz c y) c p y := ⟨h.1, List.getElem?_set_self (List.getElem?_eq_some_iff.1 h.2).1⟩

theorem QtAt.setQt {s : State} {c : Nat} {p : QtPhase} {x : QtCtx} (h : QtAt s c p x) (y : QtCtx) :
    QtAt (s.setQt c y) c p y := ⟨h.1, List.getElem?_set_self (List.getElem?_eq_some_iff.1 h.2).1⟩

theorem LzAt.setLz {s : State} {c : Nat} {x : LzCtx} (h : LzAt s c x) (y : LzCtx) : LzAt (s.setLz c y) c y :=
  ⟨h.1, List.getElem?_set_self (List.getElem?_eq_some_iff.1 h.2).1⟩

/-- A state works on one context of one engine. -/
theorem MzAt.unique {s : State} {c d : Nat} {p q : MzPhase} {x y : MzCtx} (h : MzAt s c p x) (h' : MzAt s d q y) :
    d = c ∧ q = p ∧ y = x := by
  obtain ⟨rfl, rfl⟩ := Run.mz.inj (h'.1.symm.trans h.1)
  exact ⟨rfl, rfl, Option.some.inj (h'.2.symm.trans h.2)⟩

theorem QtAt.unique {s : State} {c d : Nat} {p q : QtPhase} {x y : QtCtx} (h : QtAt s c p x) (h' : QtAt s d q y) :
    d = c ∧ q = p ∧ y = x := by
  obtain ⟨rfl, rfl⟩ := Run.qt.inj (h'.1.symm.trans h.1)
  exact ⟨rfl, rfl, Option.some.inj (h'.2.symm.trans h.2)⟩

theorem LzAt.unique {s : State} {c d : Nat} {x y : LzCtx} (h : LzAt s c x) (h' : LzAt s d y) : d = c ∧ y = x := by
  obtain rfl := Run.lz.inj (h'.1.symm.trans h.1)
  exact ⟨rfl, Option.some.inj (h'.2.symm.trans h.2)⟩

/-! ## Windows: WinCopy is WinPut of each byte it copies (R72, R74) -/

/-- WinPut of each byte in turn (R72). -/
def Window.putAll (sp : Space) (cap : Nat) (w : Window) (bs : List Byte) : Window := bs.foldl (fun v b => v.put sp cap b) w

@[simp] theorem Window.putAll_nil (sp : Space) (cap : Nat) (w : Window) : w.putAll sp cap [] = w := rfl

@[simp] theorem Window.putAll_cons (sp : Space) (cap : Nat) (w : Window) (b : Byte) (bs : List Byte) :
    w.putAll sp cap (b :: bs) = (w.put sp cap b).putAll sp cap bs := rfl

theorem Window.ok_putAll {sp : Space} {cap : Nat} {w : Window} (h : w.ok sp cap) (bs : List Byte) :
    (w.putAll sp cap bs).ok sp cap := by
  induction bs generalizing w with
  | nil => exact h
  | cons b bs ih => exact ih (Window.ok_put h b)

theorem winCopy_eq_putAll {sp : Space} {cap dist len : Nat} {w w' : Window} {bs : List Byte}
    (h : winCopy sp cap dist len w = some (w', bs)) : w' = w.putAll sp cap bs ∧ bs.length = len := by
  induction len generalizing w bs with
  | zero =>
    obtain ⟨rfl, rfl⟩ : w = w' ∧ [] = bs := by simpa [winCopy] using h
    exact ⟨rfl, rfl⟩
  | succ n ih =>
    simp only [winCopy] at h
    split at h
    · cases h
    · next b _ =>
      split at h
      · cases h
      · next v cs hrest =>
        obtain ⟨rfl, rfl⟩ : v = w' ∧ b :: cs = bs := by simpa using h
        obtain ⟨hw, hlen⟩ := ih hrest
        exact ⟨hw, by simp [hlen]⟩

theorem winCheck_iff (w : Window) (dist len room : Nat) :
    winCheck w dist len room = true ↔ dist ≠ 0 ∧ dist ≤ w.valid ∧ len ≤ room := by
  simp [winCheck, and_assoc]

/-! ## MSZIP elements -/

/-- `y` is `x` after the bytes `bs` have gone through Emit: to the window, counted, and within the request. Registers that say
nothing about window and output are free (R73, R188). -/
structure MzCtx.Emits (bs : List Byte) (x y : MzCtx) : Prop where
  win : y.win = x.win.putAll .mzwin mzWsize bs
  produced : y.produced = x.produced + bs.length
  outLen : y.outLen = x.outLen
  fits : x.produced ≤ x.outLen → y.produced ≤ x.outLen

/-- What an element at `p` on the registers `x` may lead to: never the signature; and to raw bytes that are still due only as
far as they have room, if those due before had it (R174). -/
structure MzPhase.LeadsTo (p : MzPhase) (x : MzCtx) (q : MzPhase) (y : MzCtx) : Prop where
  notSig : q ≠ .sig
  raw : ∀ left, q = .raw left → 1 ≤ left ∧ ((∀ due, p = .raw due → due ≤ x.room) → left ≤ y.room)

theorem MzPhase.LeadsTo.of_notRaw {p q : MzPhase} {x y : MzCtx} (hs : q ≠ .sig) (hr : ∀ left, q ≠ .raw left) :
    p.LeadsTo x q y := ⟨hs, fun left h => absurd h (hr left)⟩

/-- The states an MSZIP element can leave, from an `MZ_DECODE` on context `c` that stands at `p` with the registers `x`
(R170 to R190). -/
inductive MzEffect (s : State) (c : Nat) : MzPhase → MzCtx → State → Prop where
  | opens (x y : MzCtx) (win : y.win = { x.win with wpos := 0, valid := 0 }) (produced : y.produced = 0)
      (outLen : y.outLen = s.outLen) : MzEffect s c .sig x ((s.setMz c y).setRun (.mz c .header))
  | goesOn (bs : List Byte) (p q : MzPhase) (x y : MzCtx) (notSig : p ≠ .sig) (emits : x.Emits bs y)
      (leads : p.LeadsTo x q y) : MzEffect s c p x (((s.emit bs).setMz c y).setRun (.mz c q))
  | finishes (bs : List Byte) (p : MzPhase) (x y : MzCtx) (emits : x.Emits bs y) (full : y.produced = y.outLen) :
      MzEffect s c p x ((s.emit bs).setMz c y).finish
  | fails (k : ErrKind) (bs : List Byte) (p : MzPhase) (x y : MzCtx) (emits : x.Emits bs y) :
      MzEffect s c p x ((s.setMz c y).spoilOut.endWith k)

/-- The MSZIP element that has run left `t`. -/
def MzRan (s t : State) : Prop := ∃ c p x, MzAt s c p x ∧ MzEffect s c p x t

/-- An element that emits nothing leads on. -/
theorem MzEffect.moves {s : State} {c : Nat} {p q : MzPhase} {x y : MzCtx} (hp : p ≠ .sig) (h : x.Emits [] y)
    (hq : p.LeadsTo x q y) : MzEffect s c p x ((s.setMz c y).setRun (.mz c q)) := by
  have := MzEffect.goesOn (s := s) (c := c) [] p q x y hp h hq
  rwa [State.emit_nil] at this

/-- An element that only leads on. -/
theorem MzEffect.leads {s : State} {c : Nat} {p q : MzPhase} {x : MzCtx} (h : MzAt s c p x) (hp : p ≠ .sig)
    (hq : p.LeadsTo x q x) : MzEffect s c p x (s.setRun (.mz c q)) := by
  have := MzEffect.moves (s := s) (c := c) hp ⟨rfl, rfl, rfl, id⟩ hq
  rwa [State.setMz_self h.2] at this

/-- An error after the registers were written (R290). -/
theorem MzEffect.raises {s : State} {c : Nat} {p : MzPhase} {x y : MzCtx} {bs cs : List Byte} (hr : s.run = .mz c p)
    (k : ErrKind) (h : x.Emits bs y) : MzEffect s c p x (((s.emit cs).setMz c y).raise k) := by
  rw [State.raise_setMz (s := s.emit cs) hr]
  exact .fails k bs p x y h

theorem MzEffect.raises_written {s : State} {c : Nat} {p : MzPhase} {x y : MzCtx} (hr : s.run = .mz c p) (k : ErrKind)
    (h : x.Emits [] y) : MzEffect s c p x ((s.setMz c y).raise k) := by
  have := MzEffect.raises (cs := []) hr k h
  rwa [State.emit_nil] at this

/-- An error before any register was written (R290). -/
theorem MzEffect.raises_unwritten {s : State} {c : Nat} {p : MzPhase} {x : MzCtx} (h : MzAt s c p x) (k : ErrKind) :
    MzEffect s c p x (s.raise k) := by
  have := MzEffect.raises_written (x := x) h.1 k ⟨rfl, rfl, rfl, id⟩
  rwa [State.setMz_self h.2] at this

/-- A block that ends after the bytes `bs` (R171, R190). -/
theorem mzBlockEnd_effect {s t : State} {c : Nat} {p : MzPhase} {x y : MzCtx} {bs : List Byte} (hr : s.run = .mz c p)
    (hp : p ≠ .sig) (he : x.Emits bs y) (h : mzBlockEnd (s.emit bs) c y = .next t) : MzEffect s c p x t := by
  obtain ⟨-, -, h'⟩ | ⟨-, hfull, h'⟩ | ⟨-, h'⟩ := mzBlockEnd_cases (s.emit bs) c y <;> rw [h'] at h <;> cases h
  · exact .raises hr _ he
  · exact .finishes bs p x y he hfull
  · exact .goesOn bs p _ x y hp he (.of_notRaw (by simp) (by simp))

/-- Code lengths that are appended touch neither the window nor the output (R182, R184). -/
theorem mzGrowLengths_effect {s t : State} {c : Nat} {x y : MzCtx} {v : BitVec 4} {j : Nat} (hr : s.run = .mz c .codeLens)
    (h : mzGrowLengths s c y v j = .next t) (he : x.Emits [] y) : MzEffect s c .codeLens x t := by
  obtain ⟨hwin, hprod, hlen, hfits⟩ := he
  obtain ⟨-, h'⟩ | ⟨-, h'⟩ | ⟨-, h'⟩ := mzGrowLengths_cases s c y v j <;> rw [h'] at h
  · cases h
    exact .raises_written hr _ ⟨hwin, hprod, hlen, hfits⟩
  · cases h
    rw [← State.setRun_self (s := s.setMz c _) hr]
    exact .moves (by simp) ⟨hwin, hprod, hlen, hfits⟩ (.of_notRaw (by simp) (by simp))
  · obtain ⟨-, h'⟩ | ⟨tl, -, ⟨-, h'⟩ | ⟨td, -, -, h'⟩⟩ := mzBuildTables_cases s c _ <;> rw [h'] at h <;> cases h
    · exact .raises_written hr _ ⟨hwin, hprod, hlen, hfits⟩
    · exact .raises_written hr _ ⟨hwin, hprod, hlen, hfits⟩
    · exact .moves (by simp) ⟨hwin, hprod, hlen, hfits⟩ (.of_notRaw (by simp) (by simp))

theorem execSig_ran {s t : State} (h : execSig s = .next t) : MzRan s t := by
  obtain ⟨c, p, x, hr, hx, h⟩ := withMz_next h
  refine ⟨c, p, x, ⟨hr, hx⟩, ?_⟩
  cases p <;> cases h
  exact .opens x _ rfl rfl rfl

theorem execBlkStored_ran {s t : State} {final : Bool} (h : execBlkStored final s = .next t) : MzRan s t := by
  obtain ⟨c, p, x, hr, hx, h⟩ := withMz_next h
  obtain ⟨rfl, hm⟩ := whereHeader_next h
  cases hm
  exact ⟨c, _, x, ⟨hr, hx⟩, .moves (by simp) ⟨rfl, rfl, rfl, id⟩ (.of_notRaw (by simp) (by simp))⟩

theorem execBlkDynamic_ran {s t : State} {final : Bool} (h : execBlkDynamic final s = .next t) : MzRan s t := by
  obtain ⟨c, p, x, hr, hx, h⟩ := withMz_next h
  obtain ⟨rfl, hm⟩ := whereHeader_next h
  cases hm
  exact ⟨c, _, x, ⟨hr, hx⟩, .moves (by simp) ⟨rfl, rfl, rfl, id⟩ (.of_notRaw (by simp) (by simp))⟩

theorem execBlkReserved_ran {s t : State} {final : Bool} (h : execBlkReserved final s = .next t) : MzRan s t := by
  obtain ⟨c, p, x, hr, hx, h⟩ := withMz_next h
  obtain ⟨rfl, hm⟩ := whereHeader_next h
  cases hm
  exact ⟨c, _, x, ⟨hr, hx⟩, .raises_written hr _ ⟨rfl, rfl, rfl, id⟩⟩

theorem execBlkFixed_ran {s t : State} {final : Bool} (h : execBlkFixed final s = .next t) : MzRan s t := by
  obtain ⟨c, p, x, hr, hx, h⟩ := withMz_next h
  obtain ⟨rfl, hm⟩ := whereHeader_next h
  refine ⟨c, _, x, ⟨hr, hx⟩, ?_⟩
  split at hm <;> cases hm
  · exact .moves (by simp) ⟨rfl, rfl, rfl, id⟩ (.of_notRaw (by simp) (by simp))
  · exact .raises_written hr _ ⟨rfl, rfl, rfl, id⟩

theorem execStoredHdr_ran {s t : State} {len nlen : BitVec 16} (h : execStoredHdr len nlen s = .next t) : MzRan s t := by
  obtain ⟨c, p, x, hr, hx, h⟩ := withMz_next h
  refine ⟨c, p, x, ⟨hr, hx⟩, ?_⟩
  split at h
  · split at h
    · cases h
      exact .raises_unwritten ⟨hr, hx⟩ _
    · split at h
      · cases h
        exact .raises_unwritten ⟨hr, hx⟩ _
      · next hroom =>
        split at h
        · exact mzBlockEnd_effect (bs := []) hr (by simp) ⟨rfl, rfl, rfl, id⟩ (by rwa [State.emit_nil])
        · next hlen =>
          cases h
          have hpos : len.toNat ≠ 0 := fun h0 => hlen (BitVec.eq_of_toNat_eq h0)
          refine .leads ⟨hr, hx⟩ (by simp) ⟨by simp, fun left h => ?_⟩
          obtain rfl := MzPhase.raw.inj h
          exact ⟨by omega, fun _ => by omega⟩
  · cases h

/-- One byte through Emit, with room for it (R188). -/
theorem MzCtx.emits_one {x : MzCtx} (h : x.produced ≤ x.outLen → x.produced < x.outLen) (b : Byte) :
    x.Emits [b] (x.emit b) := ⟨rfl, rfl, rfl, h⟩

theorem execRaw_ran {s t : State} {b : Byte} (h : execRaw b s = .next t) : MzRan s t := by
  obtain ⟨c, p, x, hr, hx, h⟩ := withMz_next h
  refine ⟨c, p, x, ⟨hr, hx⟩, ?_⟩
  split at h
  · next left =>
    split at h
    · cases h
    · next hroom =>
      have hemits : x.Emits [b] (x.emit b) := x.emits_one (fun _ => by simp only [MzCtx.room] at hroom; omega) b
      split at h
      · exact mzBlockEnd_effect hr (by simp) hemits h
      · next hleft =>
        cases h
        refine .goesOn [b] _ _ x _ (by simp) hemits ⟨by simp, fun n hn => ?_⟩
        obtain rfl := MzPhase.raw.inj hn
        refine ⟨by omega, fun hdue => ?_⟩
        have := hdue left rfl
        simp only [MzCtx.room, MzCtx.emit_outLen, MzCtx.emit_produced] at this ⊢
        omega
  · cases h

theorem execDynHdr_ran {s t : State} {hlit hdist : BitVec 5} {hclen : BitVec 4} {clen : List (BitVec 3)}
    (h : execDynHdr hlit hdist hclen clen s = .next t) : MzRan s t := by
  obtain ⟨c, p, x, hr, hx, h⟩ := withMz_next h
  refine ⟨c, p, x, ⟨hr, hx⟩, ?_⟩
  split at h
  · dsimp only at h
    split at h
    · cases h
      exact .raises_written hr _ ⟨rfl, rfl, rfl, id⟩
    · split at h
      · cases h
        exact .raises_written hr _ ⟨rfl, rfl, rfl, id⟩
      · split at h <;> cases h
        · exact .raises_written hr _ ⟨rfl, rfl, rfl, id⟩
        · exact .moves (by simp) ⟨rfl, rfl, rfl, id⟩ (.of_notRaw (by simp) (by simp))
  · cases h

theorem execCl_ran {s t : State} {v : BitVec 4} (h : execCl v s = .next t) : MzRan s t := by
  obtain ⟨c, p, x, hr, hx, h⟩ := withMz_next h
  obtain ⟨rfl, hm⟩ := whereLengths_next h
  exact ⟨c, _, x, ⟨hr, hx⟩, mzGrowLengths_effect hr hm ⟨rfl, rfl, rfl, id⟩⟩

theorem execCl16_ran {s t : State} {rep : Nat} (h : execCl16 rep s = .next t) : MzRan s t := by
  obtain ⟨c, p, x, hr, hx, h⟩ := withMz_next h
  obtain ⟨rfl, hm⟩ := whereLengths_next h
  exact ⟨c, _, x, ⟨hr, hx⟩, mzGrowLengths_effect hr hm ⟨rfl, rfl, rfl, id⟩⟩

/-- CL17 and CL18 have one meaning. -/
theorem execCl17_ran {s t : State} {rep : Nat} (h : execCl17 rep s = .next t) : MzRan s t := by
  obtain ⟨c, p, x, hr, hx, h⟩ := withMz_next h
  obtain ⟨rfl, hm⟩ := whereLengths_next h
  exact ⟨c, _, x, ⟨hr, hx⟩, mzGrowLengths_effect hr hm ⟨rfl, rfl, rfl, id⟩⟩

theorem execLit_ran {s t : State} {b : Byte} (h : execLit b s = .next t) : MzRan s t := by
  obtain ⟨c, p, x, hr, hx, h⟩ := withMz_next h
  obtain ⟨rfl, hm⟩ := whereSymbols_next h
  refine ⟨c, _, x, ⟨hr, hx⟩, ?_⟩
  split at hm <;> cases hm
  · exact .raises_unwritten ⟨hr, hx⟩ _
  · next hfull =>
    rw [← State.setRun_self (s := (s.emit [b]).setMz c _) hr]
    exact .goesOn [b] _ _ x _ (by simp) (x.emits_one (fun _ => by omega) b) (.of_notRaw (by simp) (by simp))

theorem execEob_ran {s t : State} (h : execEob s = .next t) : MzRan s t := by
  obtain ⟨c, p, x, hr, hx, h⟩ := withMz_next h
  obtain ⟨rfl, hm⟩ := whereSymbols_next h
  exact ⟨c, _, x, ⟨hr, hx⟩, mzBlockEnd_effect (bs := []) hr (by simp) ⟨rfl, rfl, rfl, id⟩ (by rwa [State.emit_nil])⟩

theorem execMatch_ran {s t : State} {len : Nat} (h : execMatch len s = .next t) : MzRan s t := by
  obtain ⟨c, p, x, hr, hx, h⟩ := withMz_next h
  obtain ⟨rfl, hm⟩ := whereSymbols_next h
  cases hm
  refine ⟨c, _, x, ⟨hr, hx⟩, ?_⟩
  exact .leads ⟨hr, hx⟩ (by simp) (.of_notRaw (by simp) (by simp))

theorem execLlReserved_ran {s t : State} {sym : Nat} (h : execLlReserved sym s = .next t) : MzRan s t := by
  obtain ⟨c, p, x, hr, hx, h⟩ := withMz_next h
  obtain ⟨rfl, hm⟩ := whereSymbols_next h
  cases hm
  exact ⟨c, _, x, ⟨hr, hx⟩, .raises_unwritten ⟨hr, hx⟩ _⟩

theorem execDist_ran {s t : State} {dist : Nat} (h : execDist dist s = .next t) : MzRan s t := by
  obtain ⟨c, p, x, hr, hx, h⟩ := withMz_next h
  refine ⟨c, p, x, ⟨hr, hx⟩, ?_⟩
  split at h
  · next len =>
    split at h
    · next hcheck =>
      obtain ⟨-, -, hroom⟩ := (winCheck_iff ..).1 hcheck
      simp only [MzCtx.room] at hroom
      split at h
      · cases h
      · next w bs hcopy =>
        obtain ⟨hw, hlen⟩ := winCopy_eq_putAll hcopy
        cases h
        exact .goesOn bs _ _ x _ (by simp) ⟨hw, by simp [hlen], rfl, fun _ => by dsimp only; omega⟩
          (.of_notRaw (by simp) (by simp))
    · cases h
      exact .raises_unwritten ⟨hr, hx⟩ _
  · cases h

theorem execDistReserved_ran {s t : State} {sym : Nat} (h : execDistReserved sym s = .next t) : MzRan s t := by
  obtain ⟨c, p, x, hr, hx, h⟩ := withMz_next h
  refine ⟨c, p, x, ⟨hr, hx⟩, ?_⟩
  cases p <;> cases h
  exact .raises_unwritten ⟨hr, hx⟩ _

/-! ## Quantum elements -/

/-- What a Quantum element that stands at `p` does to the registers `x`, once it has been fetched: CODE16 starts the coder,
a token sends bytes to the window (R203, R212, R216, R221). -/
inductive QtCtx.Executes : QtPhase → QtCtx → QtCtx → Prop where
  | starts (x : QtCtx) (code : BitVec 16) :
      QtCtx.Executes .start x { x with L := 0, H := 0xFFFF, C := code, started := true }
  | emits (x : QtCtx) (bs : List Byte) (fits : bs.length ≤ x.togo) :
      QtCtx.Executes .tokens x { x with win := x.win.putAll .qtwin x.wsize bs, togo := x.togo - bs.length }

/-- The states a Quantum element can leave, from a `QT_DECODE` on context `c` that stands at `p` with the registers `x` after
the fetch (R203, R204, R216, R220). -/
inductive QtEffect (s : State) (c : Nat) (p : QtPhase) (x : QtCtx) : State → Prop where
  | goesOn (y : QtCtx) (runs : QtCtx.Executes p x y) (togo : y.togo ≠ 0) :
      QtEffect s c p x ((s.setQt c y).setRun (.qt c .tokens))
  | finishes (y : QtCtx) (bs : List Byte) (runs : QtCtx.Executes p x y) (togo : y.togo = 0)
      (extract : readRun .qtwin y.wsize y.win.cells (y.extractStart s.outLen) s.outLen = some bs) :
      QtEffect s c p x { s.setQt c y with out := bs }.finish
  | fails (tokens : p = .tokens) : QtEffect s c p x ((s.setQt c { x with fault := true }).spoilOut.endWith .corruptData)

/-- The Quantum element that has run left `t`. -/
def QtRan (s t : State) : Prop := ∃ c p x, QtAt s c p x ∧ QtEffect s c p x t

theorem qtContinue_effect {s t : State} {c : Nat} {p : QtPhase} {x y : QtCtx} (hy : QtCtx.Executes p x y)
    (h : qtContinue s c y = .next t) : QtEffect s c p x t := by
  obtain ⟨-, -, h'⟩ | ⟨bs, ht, hb, h'⟩ | ⟨ht, h'⟩ := qtContinue_cases s c y <;> rw [h'] at h <;> cases h
  · exact .finishes y bs hy ht hb
  · exact .goesOn y hy ht

theorem qtLiteral_ran {s t : State} {b : Byte} (h : qtLiteral s b = .next t) : QtRan s t := by
  obtain ⟨c, x, hr, hx, ht, h⟩ := qtLiteral_next h
  exact ⟨c, _, x, ⟨hr, hx⟩, qtContinue_effect (.emits x [b] (Nat.one_le_iff_ne_zero.2 ht)) h⟩

theorem qtMatch_ran {s t : State} {off len : Nat} (h : qtMatch s off len = .next t) : QtRan s t := by
  obtain ⟨c, x, hr, hx, -, ⟨-, rfl⟩ | ⟨hcheck, w, bs, hcopy, h⟩⟩ := qtMatch_next h
  · refine ⟨c, _, x, ⟨hr, hx⟩, ?_⟩
    have hraise := State.raise_setQt hr x .corruptData
    rw [State.setQt_self hx] at hraise
    rw [hraise]
    exact .fails rfl
  · obtain ⟨-, -, hfits⟩ := (winCheck_iff ..).1 hcheck
    obtain ⟨rfl, rfl⟩ := winCopy_eq_putAll hcopy
    exact ⟨c, _, x, ⟨hr, hx⟩, qtContinue_effect (.emits x bs hfits) h⟩

theorem execCode16_ran {s t : State} {code : BitVec 16} (h : execCode16 code s = .next t) : QtRan s t := by
  obtain ⟨c, p, x, hr, hx, h⟩ := withQt_next h
  refine ⟨c, p, x, ⟨hr, hx⟩, ?_⟩
  split at h
  · exact qtContinue_effect (.starts x code) h
  · cases h

/-! ## LZ elements -/

/-- What the fetch and the elements of an `LZ_DECODE` do to the registers `x`: the table stays good, and the fault flag and the
header registers keep their values (R43, R44, R240). -/
structure LzCtx.Moves (cfg : Config) (x y : LzCtx) : Prop where
  table : x.tableOk cfg → y.tableOk cfg
  fault : y.fault = x.fault
  compType : y.compType = x.compType
  lastChar : y.lastChar = x.lastChar
  realLength : y.realLength = x.realLength

theorem LzCtx.Moves.refl (cfg : Config) (x : LzCtx) : x.Moves cfg x := ⟨id, rfl, rfl, rfl, rfl⟩

theorem LzCtx.Moves.trans {cfg : Config} {x y z : LzCtx} (h : x.Moves cfg y) (h' : y.Moves cfg z) : x.Moves cfg z :=
  ⟨h'.table ∘ h.table, h'.fault.trans h.fault, h'.compType.trans h.compType, h'.lastChar.trans h.lastChar,
    h'.realLength.trans h.realLength⟩

theorem lzCopy_moves (cfg : Config) (n : Nat) (x : LzCtx) : x.Moves cfg (lzCopy cfg n x).1 := by
  obtain ⟨-, -, hct, hlc, hrl, -⟩ := lzCopy_keeps cfg n x
  obtain ⟨-, -, -, hf, -⟩ := lzCopy_counters cfg n x
  exact ⟨lzCopy_tableOk, hf, hct, hlc, hrl⟩

/-- The states an LZ element can leave, from an `LZ_DECODE` on context `c` with the registers `x` (R244 to R249). -/
inductive LzEffect (s : State) (c : Nat) (x : LzCtx) : State → Prop where
  | goesOn (bs : List Byte) (y : LzCtx) (moves : x.Moves s.cfg y) :
      LzEffect s c x (((s.emit bs).setLz c y).setRun (.lz c))
  | finishes (bs : List Byte) (y : LzCtx) (moves : x.Moves s.cfg y) : LzEffect s c x ((s.emit bs).setLz c y).finish

/-- The LZ element that has run left `t`. -/
def LzRan (s t : State) : Prop := ∃ c x, LzAt s c x ∧ LzEffect s c x t

theorem LzEffect.of_moves {s t : State} {c : Nat} {x y : LzCtx} (hxy : x.Moves s.cfg y)
    (h : LzEffect (s.setLz c y) c y t) : LzEffect s c x t := by
  have hset : ∀ bs z, ((s.setLz c y).emit bs).setLz c z = (s.emit bs).setLz c z := fun bs z =>
    State.setLz_setLz (s.emit bs) c y z
  cases h with
  | goesOn bs z hz => rw [hset]; exact .goesOn bs z (hxy.trans hz)
  | finishes bs z hz => rw [hset]; exact .finishes bs z (hxy.trans hz)

theorem lzContinue_effect {s t : State} {c : Nat} {x y : LzCtx} {bs : List Byte} (hy : x.Moves s.cfg y)
    (h : lzContinue (s.emit bs) c y = .next t) : LzEffect s c x t := by
  obtain ⟨-, h'⟩ | ⟨-, h'⟩ := lzContinue_cases (s.emit bs) c y <;> rw [h'] at h <;> cases h
  · exact .finishes bs _ ⟨hy.table, hy.fault, hy.compType, hy.lastChar, hy.realLength⟩
  · exact .goesOn bs y hy

theorem lzRunReference_effect {s t : State} {c : Nat} {x y : LzCtx} (h : lzRunReference s c y = .next t)
    (hy : x.Moves s.cfg y) : LzEffect s c x t :=
  lzContinue_effect (hy.trans (lzCopy_moves ..)) (lzRunReference_next h).2

theorem execFlags_ran {s t : State} {b : Byte} (h : execFlags b s = .next t) : LzRan s t := by
  obtain ⟨c, x, hr, hx, h⟩ := withLz_next h
  refine ⟨c, x, ⟨hr, hx⟩, ?_⟩
  split at h <;> cases h
  have := LzEffect.goesOn (s := s) (c := c) (x := x) [] (x.loadFlags b) ⟨id, rfl, rfl, rfl, rfl⟩
  rwa [State.emit_nil, State.setRun_self (by exact hr)] at this

theorem execLzlit_ran {s t : State} {b : Byte} (h : execLzlit b s = .next t) : LzRan s t := by
  obtain ⟨c, x, hr, hx, h⟩ := withLz_next h
  obtain ⟨-, h⟩ := whereWanted_next h
  refine ⟨c, x, ⟨hr, hx⟩, ?_⟩
  split at h
  · cases h
  · exact lzContinue_effect ⟨fun hok => LzCtx.tableOk_put hok b, rfl, rfl, rfl, rfl⟩ h

theorem execLzref_ran {s t : State} {off : BitVec 12} {lenfield : BitVec 4} (h : execLzref off lenfield s = .next t) :
    LzRan s t := by
  obtain ⟨c, x, hr, hx, h⟩ := withLz_next h
  obtain ⟨-, h⟩ := whereWanted_next h
  refine ⟨c, x, ⟨hr, hx⟩, lzRunReference_effect h ⟨fun hok => ?_, rfl, rfl, rfl, rfl⟩⟩
  obtain ⟨hwf, hcur, -⟩ := hok
  exact ⟨hwf, hcur, off.isLt⟩

/-! ## Commands -/

/-- The context LZ_INIT leaves: at the start of the replay, with the header's values (R266). -/
def LzCtx.opened (lastChar : Byte) (realLength : BitVec 32) (x : LzCtx) : LzCtx :=
  { x.replayReset with compType := lzType, lastChar := lastChar, realLength := realLength, want := 0, fault := false,
                       payload := none }

/-- The states a command can leave when it starts (R261 to R267, R291). A command that refuses its arguments leaves every
context; so does one whose stream elements are still to come, except QT_DECODE, which writes `togo` and the reader. -/
inductive CmdEffect (s : State) : HostCmd → State → Prop where
  | mzNew : CmdEffect s .mzNew { s with mz := s.mz ++ [MzCtx.fresh] }.finish
  | mzRejected (c : Nat) (inp : List Byte) (n : Nat) :
      CmdEffect s (.mzDecode c inp n) ((s.openCall inp n).reject .corruptData)
  | mzOpened (c : Nat) (inp : List Byte) (n : Nat) (fits : n ≤ mzWsize) :
      CmdEffect s (.mzDecode c inp n) ((s.openCall inp n).setRun (.mz c .sig))
  | qtRefused (c : Nat) (w level : BitVec 8) : CmdEffect s (.qtInit c w level) (s.endWith .unsupportedWindowSize)
  | qtInit (c : Nat) (w level : BitVec 8) (next : c ≤ s.qt.length) (low : qtWbitsMin ≤ w.toNat) (high : w.toNat ≤ qtWbitsMax) :
      CmdEffect s (.qtInit c w level)
        { s with qt := putContext s.qt c ((s.qt.getD c QtCtx.blank).setup s.cfg w.toNat (level.setWidth 4)) }.finish
  | qtReset (c : Nat) (x : QtCtx) (found : s.qt[c]? = some x) : CmdEffect s (.qtReset c) (s.setQt c (x.restart s.cfg)).finish
  | qtRejected (c : Nat) (inp : List Byte) (n : Nat) :
      CmdEffect s (.qtDecode c inp n) ((s.openCall inp n).reject .corruptData)
  | qtOpened (c : Nat) (inp : List Byte) (n : Nat) (p : QtPhase) (x : QtCtx) (found : s.qt[c]? = some x)
      (sound : x.fault = false) (fits : n ≤ x.wsize)
      (place : p = .start ∧ x.started = false ∨ p = .tokens ∧ x.started = true ∧ n ≠ 0) :
      CmdEffect s (.qtDecode c inp n)
        (((s.openCall inp n).setQt c { x with bm := Brm.start, togo := n }).setRun (.qt c p))
  | qtEmpty (c : Nat) (inp : List Byte) (x : QtCtx) (found : s.qt[c]? = some x) (sound : x.fault = false)
      (started : x.started = true) :
      CmdEffect s (.qtDecode c inp 0) ((s.openCall inp 0).setQt c { x with bm := Brm.start, togo := 0 }).finish
  | lzOpened (c : Nat) (hdr : List Byte) : CmdEffect s (.lzInit c hdr) ({ s with inp := hdr }.setRun (.lzHdr c))
  | lzReset (c : Nat) (x : LzCtx) (found : s.lz[c]? = some x) :
      CmdEffect s (.lzReset c) (s.setLz c { x.replayReset with want := 0, fault := false }).finish
  | lzSeek (c : Nat) (pos : BitVec 32) (x : LzCtx) (found : s.lz[c]? = some x) :
      CmdEffect s (.lzSeek c pos) (s.setLz c { x with want := pos.toNat }).finish
  | lzRejected (c : Nat) (inp : List Byte) (n : Nat) :
      CmdEffect s (.lzDecode c inp n) ((s.openCall inp n).reject .corruptData)
  | lzResumed (c : Nat) (inp : List Byte) (n : Nat) (x : LzCtx) (t : State) (found : s.lz[c]? = some x)
      (sound : x.fault = false) (runs : LzEffect (s.openCall inp n) c x t) : CmdEffect s (.lzDecode c inp n) t

theorem execQtInit_effect {s t : State} {c : Nat} {w level : BitVec 8} (h : execQtInit c w level s = .next t) :
    s.run = .idle ∧ CmdEffect s (.qtInit c w level) t := by
  obtain ⟨hr, h⟩ := whenIdle_next h
  refine ⟨hr, ?_⟩
  split at h
  · cases h
  · split at h
    · cases h
      exact .qtRefused c w level
    · split at h <;> cases h
      exact .qtInit c w level (by omega) (by omega) (by omega)

theorem execQtDecode_effect {s t : State} {c n : Nat} {inp : List Byte} (h : execQtDecode c inp n s = .next t) :
    s.run = .idle ∧ CmdEffect s (.qtDecode c inp n) t := by
  obtain ⟨hr, h⟩ := whenIdle_next h
  refine ⟨hr, ?_⟩
  split at h
  · cases h
  · next x hx =>
    dsimp only at h
    split at h
    · cases h
      exact .qtRejected c inp n
    · next hsound =>
      have hsound : x.fault = false := by simpa using hsound
      split at h
      · cases h
        exact .qtRejected c inp n
      · next hfits =>
        split at h
        · next hstarted =>
          obtain ⟨-, -, h'⟩ | ⟨bs, hn, hb, h'⟩ | ⟨hn, h'⟩ := qtContinue_cases (s.openCall inp n) c _ <;> rw [h'] at h <;>
            cases h
          · obtain rfl : n = 0 := hn
            obtain rfl : [] = bs := Option.some.inj hb
            exact .qtEmpty c inp x hx hsound hstarted
          · exact .qtOpened c inp n _ x hx hsound (by omega) (.inr ⟨rfl, hstarted, hn⟩)
        · next hstarted =>
          cases h
          exact .qtOpened c inp n _ x hx hsound (by omega) (.inl ⟨rfl, by simpa using hstarted⟩)

theorem execLzDecode_effect {s t : State} {c n : Nat} {inp : List Byte} (h : execLzDecode c inp n s = .next t) :
    s.run = .idle ∧ CmdEffect s (.lzDecode c inp n) t := by
  obtain ⟨hr, h⟩ := whenIdle_next h
  refine ⟨hr, ?_⟩
  split at h
  · cases h
  · next x hx =>
    dsimp only at h
    split at h
    · cases h
      exact .lzRejected c inp n
    · next hsound =>
      split at h
      · cases h
      · refine .lzResumed c inp n x t hx (by simpa using hsound) (lzRunReference_effect h ?_)
        split
        · exact ⟨fun _ => x.tableOk_replayReset _, rfl, rfl, rfl, rfl⟩
        · exact ⟨id, rfl, rfl, rfl, rfl⟩

/-- A command starts only when none is in progress, and has its effect (U1, R261). -/
theorem exec_command {s t : State} (cmd : HostCmd) (h : exec (decodeCmd cmd) s = .next t) :
    s.run = .idle ∧ CmdEffect s cmd t := by
  cases cmd with
  | mzNew =>
    obtain ⟨hr, h⟩ := whenIdle_next h
    split at h <;> cases h
    exact ⟨hr, .mzNew⟩
  | mzDecode c inp n =>
    obtain ⟨hr, h⟩ := whenIdle_next h
    split at h
    · cases h
    · split at h <;> cases h
      · exact ⟨hr, .mzRejected c inp n⟩
      · exact ⟨hr, .mzOpened c inp n (by omega)⟩
  | qtInit c w level => exact execQtInit_effect h
  | qtReset c =>
    obtain ⟨hr, h⟩ := whenIdle_next h
    split at h <;> cases h
    exact ⟨hr, .qtReset c _ ‹_›⟩
  | qtDecode c inp n => exact execQtDecode_effect h
  | lzInit c hdr =>
    obtain ⟨hr, h⟩ := whenIdle_next h
    split at h
    · cases h
    · split at h <;> cases h
      exact ⟨hr, .lzOpened c hdr⟩
  | lzReset c =>
    obtain ⟨hr, h⟩ := whenIdle_next h
    split at h <;> cases h
    exact ⟨hr, .lzReset c _ ‹_›⟩
  | lzSeek c pos =>
    obtain ⟨hr, h⟩ := whenIdle_next h
    split at h <;> cases h
    exact ⟨hr, .lzSeek c pos _ ‹_›⟩
  | lzDecode c inp n => exact execLzDecode_effect h

/-! ## Every element and command -/

/-- What `exec` can do when it answers a next state: the element has run in the command in progress that takes it, or the
command has started. -/
inductive ExecEffect (s : State) (i : Instr) (t : State) : Prop where
  | mz (ran : MzRan s t)
  | qt (ran : QtRan s t)
  | lz (ran : LzRan s t)
  | lzHdr (c : Nat) (last : Byte) (len : BitVec 32) (here : s.run = .lzHdr c) (next : c ≤ s.lz.length)
      (left : t = { s with lz := putContext s.lz c ((s.lz.getD c LzCtx.fresh).opened last len) }.finish)
  | command (cmd : HostCmd) (idle : s.run = .idle) (starts : CmdEffect s cmd t)

theorem execLzHdr_effect {s t : State} {last : Byte} {len : BitVec 32} (h : execLzHdr last len s = .next t) :
    ExecEffect s (.lzHdr last len) t := by
  unfold execLzHdr at h
  split at h
  · next c hr =>
    split at h <;> cases h
    exact .lzHdr c last len hr (by omega) rfl
  · cases h

theorem exec_effect {s t : State} {i : Instr} (h : exec i s = .next t) : ExecEffect s i t := by
  have command : ∀ cmd, exec (decodeCmd cmd) s = .next t → ExecEffect s (decodeCmd cmd) t := fun cmd h =>
    .command cmd (exec_command cmd h).1 (exec_command cmd h).2
  cases i with
  | sig => exact .mz (execSig_ran h)
  | blkStored final => exact .mz (execBlkStored_ran h)
  | blkFixed final => exact .mz (execBlkFixed_ran (final := final) h)
  | blkDynamic final => exact .mz (execBlkDynamic_ran h)
  | blkReserved final => exact .mz (execBlkReserved_ran h)
  | storedHdr len nlen => exact .mz (execStoredHdr_ran h)
  | raw b => exact .mz (execRaw_ran h)
  | dynHdr hlit hdist hclen clen => exact .mz (execDynHdr_ran h)
  | cl v => exact .mz (execCl_ran h)
  | cl16 rep => exact .mz (execCl16_ran h)
  | cl17 rep => exact .mz (execCl17_ran h)
  | cl18 rep => exact .mz (execCl17_ran h)
  | lit b => exact .mz (execLit_ran h)
  | eob => exact .mz (execEob_ran h)
  | mtch len => exact .mz (execMatch_ran h)
  | llReserved sym => exact .mz (execLlReserved_ran (sym := sym) h)
  | dist d => exact .mz (execDist_ran h)
  | distReserved sym => exact .mz (execDistReserved_ran (sym := sym) h)
  | code16 code => exact .qt (execCode16_ran h)
  | qlit0 b => exact .qt (qtLiteral_ran h)
  | qlit1 b => exact .qt (qtLiteral_ran h)
  | qlit2 b => exact .qt (qtLiteral_ran h)
  | qlit3 b => exact .qt (qtLiteral_ran h)
  | qm3 off => exact .qt (qtMatch_ran h)
  | qm4 off => exact .qt (qtMatch_ran h)
  | qmv len off => exact .qt (qtMatch_ran h)
  | lzHdr last len => exact execLzHdr_effect h
  | flags b => exact .lz (execFlags_ran h)
  | lzlit b => exact .lz (execLzlit_ran h)
  | lzref off lenfield => exact .lz (execLzref_ran h)
  | mzNew => exact command .mzNew h
  | mzDecode c inp n => exact command (.mzDecode c inp n) h
  | qtInit c w level => exact command (.qtInit c w level) h
  | qtReset c => exact command (.qtReset c) h
  | qtDecode c inp n => exact command (.qtDecode c inp n) h
  | lzInit c hdr => exact command (.lzInit c hdr) h
  | lzReset c => exact command (.lzReset c) h
  | lzSeek c pos => exact command (.lzSeek c pos) h
  | lzDecode c inp n => exact command (.lzDecode c inp n) h

/-! A state is in one command, so the command in progress says which of these it was. -/

theorem ExecEffect.mzRan {s t : State} {i : Instr} {c : Nat} {p : MzPhase} (h : ExecEffect s i t) (hr : s.run = .mz c p) :
    MzRan s t := by
  cases h with
  | mz ran => exact ran
  | qt ran => obtain ⟨_, _, _, h', -⟩ := ran; exact absurd (hr.symm.trans h'.1) nofun
  | lz ran => obtain ⟨_, _, h', -⟩ := ran; exact absurd (hr.symm.trans h'.1) nofun
  | lzHdr _ _ _ h' => exact absurd (hr.symm.trans h') nofun
  | command _ h' => exact absurd (hr.symm.trans h') nofun

theorem ExecEffect.qtRan {s t : State} {i : Instr} {c : Nat} {p : QtPhase} (h : ExecEffect s i t) (hr : s.run = .qt c p) :
    QtRan s t := by
  cases h with
  | mz ran => obtain ⟨_, _, _, h', -⟩ := ran; exact absurd (hr.symm.trans h'.1) nofun
  | qt ran => exact ran
  | lz ran => obtain ⟨_, _, h', -⟩ := ran; exact absurd (hr.symm.trans h'.1) nofun
  | lzHdr _ _ _ h' => exact absurd (hr.symm.trans h') nofun
  | command _ h' => exact absurd (hr.symm.trans h') nofun

theorem ExecEffect.lzRan {s t : State} {i : Instr} {c : Nat} (h : ExecEffect s i t) (hr : s.run = .lz c) : LzRan s t := by
  cases h with
  | mz ran => obtain ⟨_, _, _, h', -⟩ := ran; exact absurd (hr.symm.trans h'.1) nofun
  | qt ran => obtain ⟨_, _, _, h', -⟩ := ran; exact absurd (hr.symm.trans h'.1) nofun
  | lz ran => exact ran
  | lzHdr _ _ _ h' => exact absurd (hr.symm.trans h') nofun
  | command _ h' => exact absurd (hr.symm.trans h') nofun

theorem ExecEffect.lzOpened {s t : State} {i : Instr} {c : Nat} (h : ExecEffect s i t) (hr : s.run = .lzHdr c) :
    c ≤ s.lz.length ∧ ∃ last len,
      t = { s with lz := putContext s.lz c ((s.lz.getD c LzCtx.fresh).opened last len) }.finish := by
  cases h with
  | mz ran => obtain ⟨_, _, _, h', -⟩ := ran; exact absurd (hr.symm.trans h'.1) nofun
  | qt ran => obtain ⟨_, _, _, h', -⟩ := ran; exact absurd (hr.symm.trans h'.1) nofun
  | lz ran => obtain ⟨_, _, h', -⟩ := ran; exact absurd (hr.symm.trans h'.1) nofun
  | lzHdr c' last len h' hnext left =>
    obtain rfl := Run.lzHdr.inj (hr.symm.trans h')
    exact ⟨hnext, last, len, left⟩
  | command _ h' => exact absurd (hr.symm.trans h') nofun

/-! ## One step -/

/-- Moving the cursor before an MSZIP element changes nothing of its effect: no register of window or output is read (R24). -/
theorem MzEffect.of_fetch {s t : State} {c : Nat} {p : MzPhase} {x : MzCtx} {br : Brl}
    (h : MzEffect (s.setMz c { x with br := br }) c p { x with br := br } t) : MzEffect s c p x t := by
  have hset : ∀ bs y, ((s.setMz c { x with br := br }).emit bs).setMz c y = (s.emit bs).setMz c y := fun bs y =>
    State.setMz_setMz (s.emit bs) c _ y
  cases h with
  | opens _ y hw hp hl => rw [State.setMz_setMz]; exact .opens x y hw hp hl
  | goesOn bs _ q _ y hs he hq => rw [hset]; exact .goesOn bs p q x y hs ⟨he.win, he.produced, he.outLen, he.fits⟩ ⟨hq.notSig, hq.raw⟩
  | finishes bs _ _ y he hf => rw [hset]; exact .finishes bs p x y ⟨he.win, he.produced, he.outLen, he.fits⟩ hf
  | fails k bs _ _ y he => rw [State.setMz_setMz]; exact .fails k bs p x y ⟨he.win, he.produced, he.outLen, he.fits⟩

theorem QtEffect.of_fetch {s t : State} {c : Nat} {p : QtPhase} {y : QtCtx} (h : QtEffect (s.setQt c y) c p y t) :
    QtEffect s c p y t := by
  cases h with
  | goesOn z hz ht => rw [State.setQt_setQt]; exact .goesOn z hz ht
  | finishes z bs hz ht hb => rw [State.setQt_setQt]; exact .finishes z bs hz ht hb
  | fails hp => rw [State.setQt_setQt]; exact .fails hp

/-- The fetch of an LZ element moves the flag register and the stream cursor, and no other (R243, R244). -/
theorem lzGetByte_moves (cfg : Config) (inp : List Byte) (x : LzCtx) :
    (lzGetByte inp x).Leaves (x.Moves cfg) (x.Moves cfg) := by
  unfold lzGetByte
  split
  · exact ⟨id, rfl, rfl, rfl, rfl⟩
  · exact .refl cfg x

theorem decodeLz_moves (cfg : Config) (inp : List Byte) (x : LzCtx) :
    (decodeLz inp x).Leaves (x.Moves cfg) (x.Moves cfg) := by
  have hshift : x.Moves cfg x.shiftFlags := ⟨id, rfl, rfl, rfl, rfl⟩
  have next : ∀ y, x.Moves cfg y → (lzGetByte inp y).Leaves (x.Moves cfg) (x.Moves cfg) := fun y hy =>
    (lzGetByte_moves cfg inp y).imp (fun _ => hy.trans) fun _ => hy.trans
  unfold decodeLz
  split
  · trivial
  · split
    · exact (next x (.refl cfg x)).bind fun _ _ hy => hy
    · split
      · exact (next _ hshift).bind fun _ _ hy => hy
      · exact (next _ hshift).bind fun _ y hy => (next y hy).bind fun _ _ hz => hz

/-- What a step can do. An MSZIP or LZ element includes its fetch; for Quantum the fetch, which advances the coder and the
models, is the decoder's equation (R24, R205). An error of the fetch ends the command (R290). -/
inductive StepEffect (s : State) : State → Prop where
  | idle : StepEffect s s
  | command (cmd : HostCmd) (rest : List HostCmd) (t : State) (here : s.run = .idle) (issued : s.pending = cmd :: rest)
      (starts : CmdEffect { s with pending := rest } cmd t) : StepEffect s t
  | mz (c : Nat) (p : MzPhase) (x : MzCtx) (t : State) (here : MzAt s c p x) (runs : MzEffect s c p x t) : StepEffect s t
  | qt (c : Nat) (p : QtPhase) (x y : QtCtx) (i : Instr) (t : State) (here : QtAt s c p x)
      (fetched : decodeQt s.cfg s.inp p x = .ok i y) (runs : QtEffect s c p y t) : StepEffect s t
  | qtFails (k : ErrKind) (c : Nat) (p : QtPhase) (x y : QtCtx) (here : QtAt s c p x)
      (failed : decodeQt s.cfg s.inp p x = .err k y) :
      StepEffect s ((s.setQt c { y with fault := true }).spoilOut.endWith k)
  | lz (c : Nat) (x : LzCtx) (t : State) (here : LzAt s c x) (runs : LzEffect s c x t) : StepEffect s t
  | lzFails (k : ErrKind) (c : Nat) (x y : LzCtx) (here : LzAt s c x) (moves : x.Moves s.cfg y) :
      StepEffect s ((s.setLz c { y with fault := true }).spoilOut.endWith k)
  | lzHdr (c : Nat) (last : Byte) (len : BitVec 32) (here : s.run = .lzHdr c) (next : c ≤ s.lz.length) :
      StepEffect s { s with lz := putContext s.lz c ((s.lz.getD c LzCtx.fresh).opened last len) }.finish
  | lzHdrFails (k : ErrKind) (c : Nat) (here : s.run = .lzHdr c) : StepEffect s (s.endWith k)

/-- The effect of the element or command that was fetched. -/
theorem fetched_effect {s s' t : State} {i : Instr} (hf : fetch s = .instr i s') (h : exec i s' = .next t) :
    StepEffect s t := by
  obtain ⟨cmd, rest, hr, hp, rfl, rfl⟩ | ⟨c, p, x, br, hr, hx, -, rfl⟩ | ⟨c, p, x, y, hr, hx, hd, rfl⟩ |
    ⟨c, x, y, hr, hx, hd, rfl⟩ | ⟨c, hr, -, rfl⟩ := fetch_instr hf
  · exact .command cmd rest t hr hp (exec_command cmd h).2
  · have here : MzAt s c p x := ⟨hr, hx⟩
    obtain ⟨c', p', x', h', hran⟩ := (exec_effect h).mzRan hr
    obtain ⟨rfl, rfl, rfl⟩ := (here.setMz _).unique h'
    exact .mz _ _ x t here hran.of_fetch
  · have here : QtAt s c p x := ⟨hr, hx⟩
    obtain ⟨c', p', x', h', hran⟩ := (exec_effect h).qtRan hr
    obtain ⟨rfl, rfl, rfl⟩ := (here.setQt _).unique h'
    exact .qt _ _ x _ i t here hd hran.of_fetch
  · have here : LzAt s c x := ⟨hr, hx⟩
    obtain ⟨c', x', h', hran⟩ := (exec_effect h).lzRan hr
    obtain ⟨rfl, rfl⟩ := (here.setLz _).unique h'
    exact .lz _ x t here (.of_moves ((decodeLz_moves s.cfg s.inp x).of_ok hd) hran)
  · obtain ⟨hnext, last, len, rfl⟩ := (exec_effect h).lzOpened hr
    exact .lzHdr c last len hr hnext

/-- An error carried to the state is an error of the read. -/
theorem Got.fetched_error {σ : Type} {g : Got σ Instr} {back : σ → State} {k : ErrKind} {s : State}
    (h : g.fetched back = .error k s) : ∃ x, g = .err k x ∧ s = back x := by
  cases g with
  | ok i x => cases h
  | err k' x => cases h; exact ⟨x, rfl, rfl⟩
  | bug f => cases h

/-- The effect of an error of the fetch (R125, R290). -/
theorem fetch_error_effect {s s' : State} {k : ErrKind} (h : fetch s = .error k s') : StepEffect s (s'.raise k) := by
  cases hr : s.run with
  | idle => cases hp : s.pending <;> simp [fetch, hr, hp] at h
  | mz c p =>
    cases hx : s.mz[c]? with
    | none => simp [fetch, hr, hx] at h
    | some x =>
      rw [fetch_mz ⟨hr, hx⟩] at h
      obtain ⟨br, -, rfl⟩ := Got.fetched_error h
      exact .mz c p x _ ⟨hr, hx⟩ (.raises_written hr k ⟨rfl, rfl, rfl, id⟩)
  | qt c p =>
    cases hx : s.qt[c]? with
    | none => simp [fetch, hr, hx] at h
    | some x =>
      rw [fetch_qt ⟨hr, hx⟩] at h
      obtain ⟨y, hd, rfl⟩ := Got.fetched_error h
      rw [State.raise_setQt hr]
      exact .qtFails k c p x y ⟨hr, hx⟩ hd
  | lz c =>
    cases hx : s.lz[c]? with
    | none => simp [fetch, hr, hx] at h
    | some x =>
      rw [fetch_lz ⟨hr, hx⟩] at h
      obtain ⟨y, hd, rfl⟩ := Got.fetched_error h
      rw [State.raise_setLz hr]
      exact .lzFails k c x y ⟨hr, hx⟩ ((decodeLz_moves s.cfg s.inp x).of_err hd)
  | lzHdr c =>
    rw [fetch_lzHdr hr] at h
    obtain ⟨-, -, rfl⟩ := Got.fetched_error h
    rw [State.raise, hr]
    exact .lzHdrFails k c hr

theorem step_effect {s t : State} (h : step s = .next t) : StepEffect s t := by
  obtain ⟨hf, rfl⟩ | ⟨i, s', hf, h⟩ | ⟨k, s', hf, rfl⟩ := step_next h
  · exact .idle
  · exact fetched_effect hf h
  · exact fetch_error_effect hf

end Sys2Proof.Machine
end

section
/-! PROOF. What a step leaves of the state outside the context it works on, and of that context, engine by engine (10_state.md
R20, R40, R43, R44; 50_programming.md R270): the frame of every step, read off its effects. -/

namespace Sys2Proof.Machine

/-! ## While a command goes on -/

/-- From `s` to `t` a command in progress goes on or ends: parameters, IN, the requested length and the queue stay, and
STATUS is written only at its end (R40, R50, R304). -/
structure State.Within (s t : State) : Prop where
  cfg : t.cfg = s.cfg
  inp : t.inp = s.inp
  outLen : t.outLen = s.outLen
  pending : t.pending = s.pending
  status : t.run ≠ .idle → t.status = s.status

theorem MzEffect.within {s t : State} {c : Nat} {p : MzPhase} {x : MzCtx} (h : MzEffect s c p x t) : s.Within t := by
  cases h with
  | opens => exact ⟨rfl, rfl, rfl, rfl, fun _ => rfl⟩
  | goesOn => exact ⟨rfl, rfl, rfl, rfl, fun _ => rfl⟩
  | finishes => exact ⟨rfl, rfl, rfl, rfl, fun h => absurd rfl h⟩
  | fails => exact ⟨rfl, rfl, rfl, rfl, fun h => absurd rfl h⟩

theorem QtEffect.within {s t : State} {c : Nat} {p : QtPhase} {x : QtCtx} (h : QtEffect s c p x t) : s.Within t := by
  cases h with
  | goesOn => exact ⟨rfl, rfl, rfl, rfl, fun _ => rfl⟩
  | finishes => exact ⟨rfl, rfl, rfl, rfl, fun h => absurd rfl h⟩
  | fails => exact ⟨rfl, rfl, rfl, rfl, fun h => absurd rfl h⟩

theorem LzEffect.within {s t : State} {c : Nat} {x : LzCtx} (h : LzEffect s c x t) : s.Within t := by
  cases h with
  | goesOn => exact ⟨rfl, rfl, rfl, rfl, fun _ => rfl⟩
  | finishes => exact ⟨rfl, rfl, rfl, rfl, fun h => absurd rfl h⟩

/-- A command that starts changes no parameter, and writes STATUS only if it ends at once. -/
theorem CmdEffect.cfg_status {s t : State} {cmd : HostCmd} (h : CmdEffect s cmd t) :
    t.cfg = s.cfg ∧ (t.run ≠ .idle → t.status = s.status) := by
  cases h with
  | lzResumed c inp n x t found sound runs => exact ⟨runs.within.cfg, runs.within.status⟩
  | mzOpened => exact ⟨rfl, fun _ => rfl⟩
  | qtOpened => exact ⟨rfl, fun _ => rfl⟩
  | lzOpened => exact ⟨rfl, fun _ => rfl⟩
  | _ => exact ⟨rfl, fun h => absurd rfl h⟩

theorem StepEffect.cfg_status {s t : State} (h : StepEffect s t) :
    t.cfg = s.cfg ∧ (t.run ≠ .idle → t.status = s.status) := by
  cases h with
  | idle => exact ⟨rfl, fun _ => rfl⟩
  | command cmd rest t hr hp starts => exact starts.cfg_status
  | mz c p x t here runs => exact ⟨runs.within.cfg, runs.within.status⟩
  | qt c p x y i t here fetched runs => exact ⟨runs.within.cfg, runs.within.status⟩
  | lz c x t here runs => exact ⟨runs.within.cfg, runs.within.status⟩
  | _ => exact ⟨rfl, fun h => absurd rfl h⟩

theorem StepEffect.within {s t : State} (h : StepEffect s t) (hr : s.run ≠ .idle) : s.Within t := by
  cases h with
  | idle => exact ⟨rfl, rfl, rfl, rfl, fun _ => rfl⟩
  | command cmd rest t hr' => exact absurd hr' hr
  | mz c p x t here runs => exact runs.within
  | qt c p x y i t here fetched runs => exact runs.within
  | lz c x t here runs => exact runs.within
  | _ => exact ⟨rfl, rfl, rfl, rfl, fun h => absurd rfl h⟩

/-! ## The contexts of each engine -/

theorem starts_of_pending {s : State} {cmd : HostCmd} {rest : List HostCmd} (hr : s.run = .idle)
    (hp : s.pending = cmd :: rest) : starts s cmd := ⟨hr, by rw [hp]; rfl⟩

/-- What a step does to the MZ contexts. -/
inductive MzChange (s t : State) : Prop where
  | none (kept : t.mz = s.mz)
  | created (left : t.mz = s.mz ++ [MzCtx.fresh])
  | ran (c : Nat) (p : MzPhase) (x : MzCtx) (here : MzAt s c p x) (runs : MzEffect s c p x t)

theorem CmdEffect.mz_change {s t : State} {cmd : HostCmd} (h : CmdEffect s cmd t) : MzChange s t := by
  cases h with
  | mzNew => exact .created rfl
  | lzResumed c inp n x t found sound runs => cases runs <;> exact .none rfl
  | _ => exact .none rfl

theorem StepEffect.mz_change {s t : State} (h : StepEffect s t) : MzChange s t := by
  cases h with
  | command cmd rest t hr hp starts =>
    cases starts.mz_change with
    | none kept => exact .none kept
    | created left => exact .created left
    | ran c p x here => exact absurd (here.1.symm.trans hr) nofun
  | mz c p x t here runs => exact .ran c p x here runs
  | qt c p x y i t here fetched runs => cases runs <;> exact .none rfl
  | lz c x t here runs => cases runs <;> exact .none rfl
  | _ => exact .none rfl

/-- What a step of a `QT_DECODE` at `p` makes of the registers `x`: the fetch and the element, or, with an error, what the
fetch left, marked (R205, R290). -/
inductive QtStep (s t : State) (p : QtPhase) (x z : QtCtx) : Prop where
  | executes (i : Instr) (y : QtCtx) (fetched : decodeQt s.cfg s.inp p x = .ok i y) (runs : QtCtx.Executes p y z)
  | fails (y : QtCtx) (stopped : x.Stopped s.cfg y) (marked : z = { y with fault := true }) (ended : t.run = .idle)
      (status : t.status ≠ 0)

theorem ErrKind.code_ne_zero (k : ErrKind) : k.code ≠ 0 := by cases k <;> decide

/-- What a step does to the QT contexts. -/
inductive QtChange (s t : State) : Prop where
  | none (kept : t.qt = s.qt)
  | init (c : Nat) (w level : BitVec 8) (issued : starts s (.qtInit c w level)) (next : c ≤ s.qt.length)
      (low : qtWbitsMin ≤ w.toNat) (high : w.toNat ≤ qtWbitsMax)
      (left : t.qt = putContext s.qt c ((s.qt.getD c QtCtx.blank).setup s.cfg w.toNat (level.setWidth 4)))
  | reset (c : Nat) (x : QtCtx) (issued : starts s (.qtReset c)) (found : s.qt[c]? = some x)
      (left : t.qt = s.qt.set c (x.restart s.cfg))
  | opened (c : Nat) (inp : List Byte) (n : Nat) (x : QtCtx) (issued : starts s (.qtDecode c inp n))
      (found : s.qt[c]? = some x) (left : t.qt = s.qt.set c { x with bm := Brm.start, togo := n })
  | ran (c : Nat) (p : QtPhase) (x z : QtCtx) (here : QtAt s c p x) (runs : QtStep s t p x z) (left : t.qt = s.qt.set c z)

theorem QtEffect.qt_change {s t : State} {c : Nat} {p : QtPhase} {x y : QtCtx} {i : Instr} (here : QtAt s c p x)
    (fetched : decodeQt s.cfg s.inp p x = .ok i y) (h : QtEffect s c p y t) : QtChange s t := by
  cases h with
  | goesOn z runs togo => exact .ran c p x z here (.executes i y fetched runs) rfl
  | finishes z bs runs togo extract => exact .ran c p x z here (.executes i y fetched runs) rfl
  | fails tokens =>
    have hstop := (decodeQt_leaves s.cfg s.inp p x).of_ok fetched
    exact .ran c p x _ here (.fails y hstop rfl rfl (ErrKind.code_ne_zero .corruptData)) rfl

theorem StepEffect.qt_change {s t : State} (h : StepEffect s t) : QtChange s t := by
  cases h with
  | command cmd rest t hr hp start =>
    have issued := starts_of_pending hr hp
    cases start with
    | qtInit c w level next low high => exact .init c w level issued next low high rfl
    | qtReset c x found => exact .reset c x issued found rfl
    | qtOpened c inp n p x found sound fits place => exact .opened c inp n x issued found rfl
    | qtEmpty c inp x found sound started => exact .opened c inp 0 x issued found rfl
    | lzResumed c inp n x t found sound runs => cases runs <;> exact .none rfl
    | _ => exact .none rfl
  | mz c p x t here runs => cases runs <;> exact .none rfl
  | qt c p x y i t here fetched runs => exact runs.qt_change here fetched
  | qtFails k c p x y here failed =>
    have hstop := (decodeQt_leaves s.cfg s.inp p x).of_err failed
    exact .ran c p x _ here (.fails y hstop rfl rfl k.code_ne_zero) rfl
  | lz c x t here runs => cases runs <;> exact .none rfl
  | _ => exact .none rfl

/-- What a step of an `LZ_DECODE` makes of the registers `x`. -/
inductive LzStep (s t : State) (x z : LzCtx) : Prop where
  | moves (moves : x.Moves s.cfg z)
  | fails (y : LzCtx) (moves : x.Moves s.cfg y) (marked : z = { y with fault := true }) (ended : t.run = .idle)
      (status : t.status ≠ 0)

/-- What a step does to the LZ contexts. -/
inductive LzChange (s t : State) : Prop where
  | none (kept : t.lz = s.lz)
  | header (c : Nat) (last : Byte) (len : BitVec 32) (here : s.run = .lzHdr c) (next : c ≤ s.lz.length)
      (left : t.lz = putContext s.lz c ((s.lz.getD c LzCtx.fresh).opened last len))
  | reset (c : Nat) (x : LzCtx) (issued : starts s (.lzReset c)) (found : s.lz[c]? = some x)
      (left : t.lz = s.lz.set c { x.replayReset with want := 0, fault := false })
  | seek (c : Nat) (pos : BitVec 32) (x : LzCtx) (issued : starts s (.lzSeek c pos)) (found : s.lz[c]? = some x)
      (left : t.lz = s.lz.set c { x with want := pos.toNat })
  | opened (c : Nat) (inp : List Byte) (n : Nat) (x z : LzCtx) (issued : starts s (.lzDecode c inp n))
      (found : s.lz[c]? = some x) (moves : x.Moves s.cfg z) (left : t.lz = s.lz.set c z)
  | ran (c : Nat) (x z : LzCtx) (here : LzAt s c x) (runs : LzStep s t x z) (left : t.lz = s.lz.set c z)

theorem LzEffect.written {s t : State} {c : Nat} {x : LzCtx} (h : LzEffect s c x t) :
    ∃ z, x.Moves s.cfg z ∧ t.lz = s.lz.set c z := by
  cases h with
  | goesOn bs z moves => exact ⟨z, moves, rfl⟩
  | finishes bs z moves => exact ⟨z, moves, rfl⟩

theorem StepEffect.lz_change {s t : State} (h : StepEffect s t) : LzChange s t := by
  cases h with
  | command cmd rest t hr hp start =>
    have issued := starts_of_pending hr hp
    cases start with
    | lzReset c x found => exact .reset c x issued found rfl
    | lzSeek c pos x found => exact .seek c pos x issued found rfl
    | lzResumed c inp n x t found sound runs =>
      obtain ⟨z, moves, left⟩ := runs.written
      exact .opened c inp n x z issued found moves left
    | _ => exact .none rfl
  | mz c p x t here runs => cases runs <;> exact .none rfl
  | qt c p x y i t here fetched runs => cases runs <;> exact .none rfl
  | lz c x t here runs =>
    obtain ⟨z, moves, left⟩ := runs.written
    exact .ran c x z here (.moves moves) left
  | lzFails k c x y here moves => exact .ran c x _ here (.fails y moves rfl rfl k.code_ne_zero) rfl
  | lzHdr c last len here next => exact .header c last len here next rfl
  | _ => exact .none rfl

/-! ## Lists of contexts -/

theorem length_putContext_le {α : Type} (l : List α) (c : Nat) (x : α) : l.length ≤ (putContext l c x).length := by
  unfold putContext
  split <;> simp

theorem getElem?_putContext_ne {α : Type} {l : List α} {c d : Nat} (x : α) (hd : d < l.length) (h : c ≠ d) :
    (putContext l c x)[d]? = l[d]? := by
  unfold putContext
  split
  · exact List.getElem?_set_ne h
  · exact List.getElem?_append_left hd

theorem getElem?_putContext_self {α : Type} {l : List α} {c : Nat} (x : α) (h : c ≤ l.length) :
    (putContext l c x)[c]? = some x := by
  unfold putContext
  split
  · next hc => exact List.getElem?_set_self hc
  · obtain rfl : c = l.length := by omega
    simp

theorem forall_mem_set {α : Type} {P : α → Prop} {l : List α} (h : ∀ x ∈ l, P x) (c : Nat) {y : α} (hy : P y) :
    ∀ x ∈ l.set c y, P x := fun x hx => by
  rcases List.mem_or_eq_of_mem_set hx with hx | rfl
  · exact h x hx
  · exact hy

theorem forall_mem_concat {α : Type} {P : α → Prop} {l : List α} (h : ∀ x ∈ l, P x) {y : α} (hy : P y) :
    ∀ x ∈ l ++ [y], P x := fun x hx => by
  rcases List.mem_append.1 hx with hx | hx
  · exact h x hx
  · exact (List.mem_singleton.1 hx) ▸ hy

theorem forall_mem_putContext {α : Type} {P : α → Prop} {l : List α} (h : ∀ x ∈ l, P x) (c : Nat) {y : α} (hy : P y) :
    ∀ x ∈ putContext l c y, P x := by
  unfold putContext
  split
  · exact forall_mem_set h c hy
  · exact forall_mem_concat h hy

/-- A context that a creating command starts from: an old one, or the blank one. -/
theorem forall_getD {α : Type} {P : α → Prop} {l : List α} (h : ∀ x ∈ l, P x) (c : Nat) {y : α} (hy : P y) :
    P (l.getD c y) := by
  rw [List.getD_eq_getElem?_getD]
  cases hc : l[c]? with
  | none => exact hy
  | some x => exact h x (List.mem_of_getElem? hc)

end Sys2Proof.Machine
end

section
/-! PROOF. Which registers no step changes but that of the command they belong to: the other contexts, the parameters, the header
registers and the fault flags (10_state.md R20, R43, R44; 50_programming.md R270). -/

namespace Sys2Proof.Machine

/-- A context beside the one that is written stays. -/
theorem getElem?_set_of_ne {α : Type} {l l' : List α} {c d : Nat} {x : α} (h : l' = l.set c x) (hd : c ≠ d) :
    l'[d]? = l[d]? := by rw [h, List.getElem?_set_ne hd]

theorem MzEffect.written {s t : State} {c : Nat} {p : MzPhase} {x : MzCtx} (h : MzEffect s c p x t) :
    ∃ y, t.mz = s.mz.set c y := by
  cases h with
  | opens _ y => exact ⟨y, rfl⟩
  | goesOn _ _ _ _ y => exact ⟨y, rfl⟩
  | finishes _ _ _ y => exact ⟨y, rfl⟩
  | fails _ _ _ _ y => exact ⟨y, rfl⟩

theorem MzChange.frame {s t : State} (h : MzChange s t) :
    s.mz.length ≤ t.mz.length ∧ ∀ c, c < s.mz.length → ¬usesMz s c → t.mz[c]? = s.mz[c]? := by
  cases h with
  | none kept => exact ⟨by rw [kept], fun c _ _ => by rw [kept]⟩
  | created left => exact ⟨by simp [left], fun c hc _ => by rw [left, List.getElem?_append_left hc]⟩
  | ran c p x here runs =>
    obtain ⟨y, left⟩ := runs.written
    refine ⟨by simp [left], fun d _ hd => getElem?_set_of_ne left ?_⟩
    rintro rfl
    exact hd ⟨p, here.1⟩

theorem QtChange.frame {s t : State} (h : QtChange s t) :
    s.qt.length ≤ t.qt.length ∧ ∀ c, c < s.qt.length → ¬usesQt s c → t.qt[c]? = s.qt[c]? := by
  cases h with
  | none kept => exact ⟨by rw [kept], fun c _ _ => by rw [kept]⟩
  | init c w level issued next low high left =>
    refine ⟨by rw [left]; exact length_putContext_le .., fun d hd hu => ?_⟩
    rw [left, getElem?_putContext_ne _ hd]
    rintro rfl
    exact hu (.inr (.inl ⟨w, level, issued⟩))
  | reset c x issued found left =>
    refine ⟨by simp [left], fun d _ hu => getElem?_set_of_ne left ?_⟩
    rintro rfl
    exact hu (.inr (.inr (.inl issued)))
  | opened c inp n x issued found left =>
    refine ⟨by simp [left], fun d _ hu => getElem?_set_of_ne left ?_⟩
    rintro rfl
    exact hu (.inr (.inr (.inr ⟨inp, n, issued⟩)))
  | ran c p x z here runs left =>
    refine ⟨by simp [left], fun d _ hu => getElem?_set_of_ne left ?_⟩
    rintro rfl
    exact hu (.inl ⟨p, here.1⟩)

theorem LzChange.frame {s t : State} (h : LzChange s t) :
    s.lz.length ≤ t.lz.length ∧ ∀ c, c < s.lz.length → ¬usesLz s c → t.lz[c]? = s.lz[c]? := by
  cases h with
  | none kept => exact ⟨by rw [kept], fun c _ _ => by rw [kept]⟩
  | header c last len here next left =>
    refine ⟨by rw [left]; exact length_putContext_le .., fun d hd hu => ?_⟩
    rw [left, getElem?_putContext_ne _ hd]
    rintro rfl
    exact hu (.inr (.inl here))
  | reset c x issued found left =>
    refine ⟨by simp [left], fun d _ hu => getElem?_set_of_ne left ?_⟩
    rintro rfl
    exact hu (.inr (.inr (.inl issued)))
  | seek c pos x issued found left =>
    refine ⟨by simp [left], fun d _ hu => getElem?_set_of_ne left ?_⟩
    rintro rfl
    exact hu (.inr (.inr (.inr (.inl ⟨pos, issued⟩))))
  | opened c inp n x z issued found moves left =>
    refine ⟨by simp [left], fun d _ hu => getElem?_set_of_ne left ?_⟩
    rintro rfl
    exact hu (.inr (.inr (.inr (.inr ⟨inp, n, issued⟩))))
  | ran c x z here runs left =>
    refine ⟨by simp [left], fun d _ hu => getElem?_set_of_ne left ?_⟩
    rintro rfl
    exact hu (.inl here.1)

/-- Settles O46: the frame of each engine's contexts. -/
theorem otherContextsStayAsTheyWere : Obligations.OtherContextsStayAsTheyWere := by
  intro s t h
  obtain ⟨hmzLen, hmz⟩ := (step_effect h).mz_change.frame
  obtain ⟨hqtLen, hqt⟩ := (step_effect h).qt_change.frame
  obtain ⟨hlzLen, hlz⟩ := (step_effect h).lz_change.frame
  exact ⟨hmz, hqt, hlz, hmzLen, hqtLen, hlzLen⟩

/-! ## One context before and after -/

/-- What a property of the context that was written says of every context: the others are unchanged. -/
theorem of_getElem?_set {α : Type} {P : Nat → α → α → Prop} {l : List α} {c : Nat} {x y : α} (hx : l[c]? = some x)
    (hP : P c x y) (hrefl : ∀ d z, P d z z) : ∀ d u v, l[d]? = some u → (l.set c y)[d]? = some v → P d u v := by
  intro d u v hu hv
  by_cases hd : c = d
  · subst hd
    obtain rfl := getElem?_set_of_some hx hv
    obtain rfl := Option.some.inj (hx.symm.trans hu)
    exact hP
  · rw [List.getElem?_set_ne hd, hu] at hv
    obtain rfl := Option.some.inj hv
    exact hrefl d u

/-- The same for a context that is put in place, new or not. -/
theorem of_getElem?_putContext {α : Type} {P : Nat → α → α → Prop} {l : List α} {c : Nat} {y : α} (hc : c ≤ l.length)
    (hP : ∀ x, P c x y) (hrefl : ∀ d z, P d z z) :
    ∀ d u v, l[d]? = some u → (putContext l c y)[d]? = some v → P d u v := by
  intro d u v hu hv
  by_cases hd : c = d
  · subst hd
    rw [getElem?_putContext_self y hc] at hv
    obtain rfl := Option.some.inj hv
    exact hP u
  · rw [getElem?_putContext_ne y (List.getElem?_eq_some_iff.1 hu).1 hd, hu] at hv
    obtain rfl := Option.some.inj hv
    exact hrefl d u

/-- How two lists that are equal relate. -/
theorem of_getElem?_eq {α : Type} {P : Nat → α → α → Prop} {l : List α} (hrefl : ∀ d z, P d z z) :
    ∀ d u v, l[d]? = some u → l[d]? = some v → P d u v := by
  intro d u v hu hv
  obtain rfl := Option.some.inj (hu.symm.trans hv)
  exact hrefl d u

/-- The header registers of an LZ context agree (R44). -/
def LzCtx.SameHeader (x y : LzCtx) : Prop :=
  y.compType = x.compType ∧ y.lastChar = x.lastChar ∧ y.realLength = x.realLength

theorem LzCtx.SameHeader.refl (x : LzCtx) : x.SameHeader x := ⟨rfl, rfl, rfl⟩

/-- Only LZ_INIT writes the header registers (R44, R266). -/
theorem LzChange.header_kept {s t : State} (h : LzChange s t) :
    ∀ c x y, s.lz[c]? = some x → t.lz[c]? = some y → s.run ≠ .lzHdr c → x.SameHeader y := by
  have hrefl : ∀ (d : Nat) (z : LzCtx), s.run ≠ .lzHdr d → z.SameHeader z := fun _ z _ => .refl z
  cases h with
  | none kept => rw [kept]; exact of_getElem?_eq hrefl
  | header c last len here next left =>
    rw [left]
    exact of_getElem?_putContext next (fun _ hc => absurd here hc) hrefl
  | reset c x issued found left => rw [left]; exact of_getElem?_set found (fun _ => ⟨rfl, rfl, rfl⟩) hrefl
  | seek c pos x issued found left => rw [left]; exact of_getElem?_set found (fun _ => ⟨rfl, rfl, rfl⟩) hrefl
  | opened c inp n x z issued found moves left =>
    rw [left]
    exact of_getElem?_set found (fun _ => ⟨moves.compType, moves.lastChar, moves.realLength⟩) hrefl
  | ran c x z here runs left =>
    rw [left]
    refine of_getElem?_set here.2 (fun _ => ?_) hrefl
    cases runs with
    | moves moves => exact ⟨moves.compType, moves.lastChar, moves.realLength⟩
    | fails y moves marked => rw [marked]; exact ⟨moves.compType, moves.lastChar, moves.realLength⟩

/-- Settles O47: parameters and STATUS from the effect of the step, the header registers from the LZ contexts. -/
theorem statusIsWrittenAtTheEnd : Obligations.StatusIsWrittenAtTheEnd := by
  intro s t h
  have he := step_effect h
  obtain ⟨hcfg, hstatus⟩ := he.cfg_status
  refine ⟨hcfg, fun hne => ?_, fun hr => ?_, he.lz_change.header_kept⟩
  · by_contra hrun
    exact hne (hstatus hrun)
  · have hw := he.within hr
    exact ⟨hw.inp, hw.outLen, hw.pending⟩

/-! ## The fault flags -/

/-- When the fault flag of a QT context may have changed between `x` before the step and `y` after it (R43, R264, R290). -/
structure QtFaultRule (s t : State) (c : Nat) (x y : QtCtx) : Prop where
  clears : x.fault = true → y.fault = false → starts s (.qtReset c) ∨ ∃ w l, starts s (.qtInit c w l)
  sets : x.fault = false → y.fault = true → (∃ p, s.run = .qt c p) ∧ t.run = .idle ∧ t.status ≠ 0

theorem QtFaultRule.of_same {s t : State} {c : Nat} {x y : QtCtx} (h : y.fault = x.fault) : QtFaultRule s t c x y :=
  ⟨fun h1 h2 => by simp [h, h1] at h2, fun h1 h2 => by simp [h, h1] at h2⟩

theorem QtCtx.Executes.fault {p : QtPhase} {x y : QtCtx} (h : QtCtx.Executes p x y) : y.fault = x.fault := by
  cases h <;> rfl

theorem QtChange.fault_rule {s t : State} (h : QtChange s t) :
    ∀ c x y, s.qt[c]? = some x → t.qt[c]? = some y → QtFaultRule s t c x y := by
  have hrefl : ∀ d z, QtFaultRule s t d z z := fun _ _ => .of_same rfl
  cases h with
  | none kept => rw [kept]; exact of_getElem?_eq hrefl
  | init c w level issued next low high left =>
    rw [left]
    exact of_getElem?_putContext next
      (fun _ => ⟨fun _ _ => .inr ⟨w, level, issued⟩, fun _ h => absurd h Bool.false_ne_true⟩) hrefl
  | reset c x issued found left =>
    rw [left]
    exact of_getElem?_set found ⟨fun _ _ => .inl issued, fun _ h => absurd h Bool.false_ne_true⟩ hrefl
  | opened c inp n x issued found left => rw [left]; exact of_getElem?_set found (.of_same rfl) hrefl
  | ran c p x z here runs left =>
    rw [left]
    refine of_getElem?_set here.2 ?_ hrefl
    cases runs with
    | executes i y fetched runs =>
      exact .of_same (runs.fault.trans ((decodeQt_leaves s.cfg s.inp p x).of_ok fetched).fault)
    | fails y stopped marked ended status =>
      rw [marked]
      exact ⟨fun _ h => absurd h.symm Bool.false_ne_true, fun _ _ => ⟨⟨p, here.1⟩, ended, status⟩⟩

/-- The same for an LZ context (R43, R267, R290). -/
structure LzFaultRule (s t : State) (c : Nat) (x y : LzCtx) : Prop where
  clears : x.fault = true → y.fault = false → starts s (.lzReset c) ∨ s.run = .lzHdr c
  sets : x.fault = false → y.fault = true → s.run = .lz c ∧ t.run = .idle ∧ t.status ≠ 0

theorem LzFaultRule.of_same {s t : State} {c : Nat} {x y : LzCtx} (h : y.fault = x.fault) : LzFaultRule s t c x y :=
  ⟨fun h1 h2 => by simp [h, h1] at h2, fun h1 h2 => by simp [h, h1] at h2⟩

theorem LzChange.fault_rule {s t : State} (h : LzChange s t) :
    ∀ c x y, s.lz[c]? = some x → t.lz[c]? = some y → LzFaultRule s t c x y := by
  have hrefl : ∀ d z, LzFaultRule s t d z z := fun _ _ => .of_same rfl
  cases h with
  | none kept => rw [kept]; exact of_getElem?_eq hrefl
  | header c last len here next left =>
    rw [left]
    exact of_getElem?_putContext next (fun _ => ⟨fun _ _ => .inr here, fun _ h => absurd h Bool.false_ne_true⟩) hrefl
  | reset c x issued found left =>
    rw [left]
    exact of_getElem?_set found ⟨fun _ _ => .inl issued, fun _ h => absurd h Bool.false_ne_true⟩ hrefl
  | seek c pos x issued found left => rw [left]; exact of_getElem?_set found (.of_same rfl) hrefl
  | opened c inp n x z issued found moves left => rw [left]; exact of_getElem?_set found (.of_same moves.fault) hrefl
  | ran c x z here runs left =>
    rw [left]
    refine of_getElem?_set here.2 ?_ hrefl
    cases runs with
    | moves moves => exact .of_same moves.fault
    | fails y moves marked ended status =>
      rw [marked]
      exact ⟨fun _ h => absurd h.symm Bool.false_ne_true, fun _ _ => ⟨here.1, ended, status⟩⟩

/-- Settles O48: the rule of each engine's flag. -/
theorem faultFlagRules : Obligations.FaultFlagRules := by
  intro s t h
  have hqt := (step_effect h).qt_change.fault_rule
  have hlz := (step_effect h).lz_change.fault_rule
  exact ⟨fun c x y hx hy => (hqt c x y hx hy).clears, fun c x y hx hy => (hqt c x y hx hy).sets,
    fun c x y hx hy => (hlz c x y hx hy).clears, fun c x y hx hy => (hlz c x y hx hy).sets⟩

end Sys2Proof.Machine
end

section
/-! PROOF. The invariants that every step keeps: the windows and tables (10_state.md R25, R29, R35), OUT as the window of an
`MZ_DECODE` (42_mszip.md R188), and the models and coder of every QT context (10_state.md R29 to R32). -/

namespace Sys2Proof.Machine

/-! ## The windows and tables -/

theorem MzChange.windows {s t : State} (h : MzChange s t) (hs : ∀ x ∈ s.mz, x.win.ok .mzwin mzWsize) :
    ∀ x ∈ t.mz, x.win.ok .mzwin mzWsize := by
  have hemits : ∀ bs (x y : MzCtx), x ∈ s.mz → x.Emits bs y → y.win.ok .mzwin mzWsize := fun bs x y hx he => by
    rw [he.win]; exact Window.ok_putAll (hs x hx) bs
  cases h with
  | none kept => rwa [kept]
  | created left =>
    rw [left]
    exact forall_mem_concat hs ⟨Memory.wf_nil .., show 0 < mzWsize by decide, Nat.zero_le _⟩
  | ran c p x here runs =>
    have hx := List.mem_of_getElem? here.2
    cases runs with
    | opens _ y hwin =>
      refine forall_mem_set hs c ?_
      obtain ⟨hwf, -, -⟩ := hs x hx
      rw [hwin]
      exact ⟨hwf, show 0 < mzWsize by decide, Nat.zero_le _⟩
    | goesOn bs _ q _ y _ he => exact forall_mem_set hs c (hemits bs x y hx he)
    | finishes bs _ _ y he => exact forall_mem_set hs c (hemits bs x y hx he)
    | fails k bs _ _ y he => exact forall_mem_set hs c (hemits bs x y hx he)

theorem QtCtx.Executes.window {p : QtPhase} {x y : QtCtx} (h : QtCtx.Executes p x y) (hx : x.win.ok .qtwin x.wsize) :
    y.win.ok .qtwin y.wsize := by
  cases h with
  | starts => exact hx
  | emits _ bs fits => exact Window.ok_putAll hx bs

theorem QtCtx.SameCall.window {x y : QtCtx} (h : x.SameCall y) (hx : x.win.ok .qtwin x.wsize) :
    y.win.ok .qtwin y.wsize := by rw [h.win, h.wsize]; exact hx

theorem QtCtx.window_restart {x : QtCtx} (cfg : Config) (hx : x.win.ok .qtwin x.wsize) :
    (x.restart cfg).win.ok .qtwin (x.restart cfg).wsize := by
  obtain ⟨hwf, hpos, -⟩ := hx
  exact ⟨hwf, Nat.zero_lt_of_lt hpos, Nat.zero_le _⟩

/-- QT_INIT cuts the window to its new size (R262). -/
theorem QtCtx.window_setup {x : QtCtx} {sp : Nat} (hx : Memory.wf .qtwin sp x.win.cells = true) (cfg : Config) (w : Nat)
    (level : BitVec 4) : (x.setup cfg w level).win.ok .qtwin (x.setup cfg w level).wsize :=
  ⟨Memory.wf_filter hx, Nat.two_pow_pos w, Nat.zero_le _⟩

theorem QtChange.windows {s t : State} (h : QtChange s t) (hs : ∀ x ∈ s.qt, x.win.ok .qtwin x.wsize) :
    ∀ x ∈ t.qt, x.win.ok .qtwin x.wsize := by
  cases h with
  | none kept => rwa [kept]
  | init c w level issued next low high left =>
    rw [left]
    have hold : ∃ sp, Memory.wf .qtwin sp (s.qt.getD c QtCtx.blank).win.cells = true :=
      forall_getD (P := fun x : QtCtx => ∃ sp, Memory.wf .qtwin sp x.win.cells = true)
        (fun x hx => ⟨x.wsize, (hs x hx).1⟩) c ⟨0, rfl⟩
    obtain ⟨sp, hwf⟩ := hold
    exact forall_mem_putContext hs c (QtCtx.window_setup hwf ..)
  | reset c x issued found left =>
    rw [left]
    exact forall_mem_set hs c (QtCtx.window_restart _ (hs x (List.mem_of_getElem? found)))
  | opened c inp n x issued found left =>
    rw [left]
    exact forall_mem_set hs c (hs x (List.mem_of_getElem? found))
  | ran c p x z here runs left =>
    have hx := hs x (List.mem_of_getElem? here.2)
    rw [left]
    refine forall_mem_set hs c ?_
    cases runs with
    | executes i y fetched runs =>
      exact runs.window (((decodeQt_leaves s.cfg s.inp p x).of_ok fetched).toSameCall.window hx)
    | fails y stopped marked => rw [marked]; exact stopped.toSameCall.window hx

theorem LzChange.tables {s t : State} (h : LzChange s t) (hs : ∀ x ∈ s.lz, x.tableOk s.cfg) :
    ∀ x ∈ t.lz, x.tableOk s.cfg := by
  have hreset : ∀ x : LzCtx, x.replayReset.tableOk s.cfg := LzCtx.tableOk_replayReset s.cfg
  cases h with
  | none kept => rwa [kept]
  | header c last len here next left => rw [left]; exact forall_mem_putContext hs c (hreset (s.lz.getD c LzCtx.fresh))
  | reset c x issued found left => rw [left]; exact forall_mem_set hs c (hreset x)
  | seek c pos x issued found left => rw [left]; exact forall_mem_set hs c (hs x (List.mem_of_getElem? found))
  | opened c inp n x z issued found moves left =>
    rw [left]
    exact forall_mem_set hs c (moves.table (hs x (List.mem_of_getElem? found)))
  | ran c x z here runs left =>
    have hx := hs x (List.mem_of_getElem? here.2)
    rw [left]
    refine forall_mem_set hs c ?_
    cases runs with
    | moves moves => exact moves.table hx
    | fails y moves marked => rw [marked]; exact moves.table hx

/-- Settles O50: engine by engine. -/
theorem stepKeepsMemoryForm : Obligations.StepKeepsMemoryForm := by
  intro s t h hstep
  obtain ⟨hmz, hqt, hlz⟩ := h
  have he := step_effect hstep
  refine ⟨he.mz_change.windows hmz, he.qt_change.windows hqt, ?_⟩
  rw [he.cfg_status.1]
  exact he.lz_change.tables hlz

/-! ## OUT and the window of an MZ_DECODE -/

/-- OUT is what has been produced, and the window holds it (R188). -/
def MzCtx.Shown (out : List Byte) (x : MzCtx) : Prop :=
  out.length = x.produced ∧ ∀ a, a < x.produced → memRead .mzwin x.win.cells a = out[a]?

/-- Past the signature an `MZ_DECODE` shows its window, and raw bytes that are due have room (R174, R188). -/
theorem MzPhase.ok_iff {p : MzPhase} (hp : p ≠ .sig) (s : State) (x : MzCtx) :
    p.ok s x ↔ x.Shown s.out ∧ ∀ left, p = .raw left → 1 ≤ left ∧ left ≤ x.room := by
  cases p with
  | sig => exact absurd rfl hp
  | raw left =>
    simp only [MzPhase.ok, MzCtx.Shown, MzPhase.raw.injEq, forall_eq']
    tauto
  | _ => simp [MzPhase.ok, MzCtx.Shown]

/-- A context that agrees in window and counters is as good. -/
theorem MzCtx.ok.congr {x y : MzCtx} (h : x.ok) (hw : y.win = x.win) (hp : y.produced = x.produced)
    (ho : y.outLen = x.outLen) : y.ok := by
  unfold MzCtx.ok at h ⊢
  rwa [hw, hp, ho]

/-- One byte through Emit, within the request: the counters move together, and OUT and the window gain the byte at the same
index (R188). -/
theorem MzCtx.emit_keeps {x : MzCtx} {out : List Byte} (hw : x.win.ok .mzwin mzWsize) (h : x.ok)
    (hroom : x.produced < x.outLen) (b : Byte) :
    (x.emit b).ok ∧ (x.Shown out → (x.emit b).Shown (out ++ [b])) := by
  obtain ⟨hmax, -, hvalid, hpos, hwritten⟩ := h
  have hwpos : x.win.wpos = x.produced := by rw [hpos, Nat.mod_eq_of_lt (by omega)]
  have hread : ∀ a, memRead .mzwin (x.emit b).win.cells a =
      if a = x.produced then some b else memRead .mzwin x.win.cells a := fun a => by
    rw [MzCtx.emit_win, Window.put_cells, memRead_memWrite hw.1, hwpos]
  refine ⟨⟨hmax, hroom, ?_, ?_, fun a ha => ?_⟩, fun ⟨hlen, hshown⟩ => ⟨by simp [hlen], fun a ha => ?_⟩⟩
  · rw [MzCtx.emit_win, Window.put_valid, hvalid, MzCtx.emit_produced]
    omega
  · rw [MzCtx.emit_win, Window.put_wpos, wrapNext, hwpos, MzCtx.emit_produced]
  · rw [hread]
    rw [MzCtx.emit_produced] at ha
    split
    · rfl
    · exact hwritten a (by omega)
  · rw [hread]
    rw [MzCtx.emit_produced] at ha
    split
    · next hlast => rw [hlast, ← hlen, List.getElem?_concat_length]
    · rw [hshown a (by omega), List.getElem?_append_left (by omega)]

/-- The same for the bytes of one element. -/
theorem MzCtx.Emits.keeps {bs : List Byte} {x y : MzCtx} {out : List Byte} (he : x.Emits bs y)
    (hw : x.win.ok .mzwin mzWsize) (h : x.ok) : y.ok ∧ (x.Shown out → y.Shown (out ++ bs)) := by
  obtain ⟨hwin, hprod, hlen, hfits⟩ := he
  have hmost := hfits h.2.1
  clear hfits
  induction bs generalizing x out with
  | nil =>
    refine ⟨h.congr hwin hprod hlen, fun hs => ?_⟩
    unfold MzCtx.Shown at hs ⊢
    rw [hwin, hprod, List.append_nil]
    exact hs
  | cons b bs ih =>
    rw [List.length_cons] at hprod
    obtain ⟨hok, hshown⟩ := MzCtx.emit_keeps (out := out) hw h (by omega) b
    obtain ⟨hy, hys⟩ := ih (x := x.emit b) (out := out ++ [b]) (Window.ok_put hw b) hok hwin
      (by rw [hprod, MzCtx.emit_produced]; omega) hlen hmost
    exact ⟨hy, fun hs => by simpa using hys (hshown hs)⟩

/-- A context that SIG has opened is good (R170). -/
theorem MzCtx.ok_opened {y : MzCtx} (hmax : y.outLen ≤ mzWsize) (hw : y.win.wpos = 0) (hv : y.win.valid = 0)
    (hp : y.produced = 0) : y.ok :=
  ⟨hmax, by omega, by rw [hv, hp], by rw [hw, hp]; rfl, fun a ha => by omega⟩

theorem MzChange.contexts_ok {s t : State} (h : MzChange s t) (hm : MemoryInv s) (hs : MzInv s) : ∀ x ∈ t.mz, x.ok := by
  obtain ⟨hwin, -, -⟩ := hm
  obtain ⟨hok, hrun⟩ := hs
  have hemits : ∀ bs (x y : MzCtx), x ∈ s.mz → x.Emits bs y → y.ok := fun bs x y hx he =>
    (he.keeps (out := []) (hwin x hx) (hok x hx)).1
  cases h with
  | none kept => rwa [kept]
  | created left =>
    rw [left]
    exact forall_mem_concat hok (MzCtx.ok_opened (Nat.zero_le _) rfl rfl rfl)
  | ran c p x here runs =>
    have hx := List.mem_of_getElem? here.2
    cases runs with
    | opens _ y hw hp hl =>
      obtain ⟨hmax, -⟩ : s.outLen ≤ mzWsize ∧ s.out = [] := hrun c .sig x here.1 here.2
      exact forall_mem_set hok c (MzCtx.ok_opened (by rw [hl]; exact hmax) (by rw [hw]) (by rw [hw]) hp)
    | goesOn bs _ q _ y _ he => exact forall_mem_set hok c (hemits bs x y hx he)
    | finishes bs _ _ y he => exact forall_mem_set hok c (hemits bs x y hx he)
    | fails k bs _ _ y he => exact forall_mem_set hok c (hemits bs x y hx he)

/-- An element that goes on keeps what holds at its place (R174, R188). -/
theorem MzEffect.place_ok {s t : State} {c : Nat} {p : MzPhase} {x : MzCtx} (h : MzEffect s c p x t) (here : MzAt s c p x)
    (hw : x.win.ok .mzwin mzWsize) (hx : x.ok) (hp : p.ok s x) :
    ∀ d q y, t.run = .mz d q → t.mz[d]? = some y → q.ok t y := by
  intro d q z hr hz
  cases h with
  | opens _ y hwin hprod hlen =>
    obtain ⟨rfl, rfl⟩ := Run.mz.inj hr
    obtain rfl := getElem?_set_of_some here.2 hz
    obtain ⟨-, hout⟩ : s.outLen ≤ mzWsize ∧ s.out = [] := hp
    refine (MzPhase.ok_iff (by simp) _ _).2 ⟨⟨?_, fun a ha => ?_⟩, by simp⟩
    · simp [hout, hprod]
    · rw [hprod] at ha
      omega
  | goesOn bs _ q' _ y hsig he hleads =>
    obtain ⟨rfl, rfl⟩ := Run.mz.inj hr
    obtain rfl := getElem?_set_of_some here.2 hz
    obtain ⟨hshown, hraw⟩ := (MzPhase.ok_iff hsig s x).1 hp
    refine (MzPhase.ok_iff hleads.notSig _ _).2 ⟨(he.keeps hw hx).2 hshown, fun left hleft => ?_⟩
    obtain ⟨h1, hroom⟩ := hleads.raw left hleft
    exact ⟨h1, hroom fun due hdue => (hraw due hdue).2⟩
  | finishes => cases hr
  | fails => cases hr

/-- An `MZ_DECODE` is in progress after a step because it was before, or because its command has just started. -/
theorem StepEffect.mz_running {s t : State} (h : StepEffect s t) {c : Nat} {p : MzPhase} (hr : t.run = .mz c p) :
    t = s ∨ (p = .sig ∧ t.outLen ≤ mzWsize ∧ t.out = []) ∨ ∃ d q x, MzAt s d q x ∧ MzEffect s d q x t := by
  cases h with
  | idle => exact .inl rfl
  | command cmd rest t hr' hp start =>
    cases start with
    | mzOpened c' inp n fits =>
      obtain ⟨-, rfl⟩ := Run.mz.inj hr
      exact .inr (.inl ⟨rfl, fits, rfl⟩)
    | lzResumed c inp n x t found sound runs => cases runs <;> cases hr
    | _ => cases hr
  | mz d q x t here runs => exact .inr (.inr ⟨d, q, x, here, runs⟩)
  | qt c p x y i t here fetched runs => cases runs <;> cases hr
  | lz c x t here runs => cases runs <;> cases hr
  | _ => cases hr

/-- Settles O51: the contexts, and the place of the `MZ_DECODE` in progress. -/
theorem stepKeepsTheMszipInvariant : Obligations.StepKeepsTheMszipInvariant := by
  intro s t hm hs hstep
  have he := step_effect hstep
  refine ⟨he.mz_change.contexts_ok hm hs, fun c p x hr hx => ?_⟩
  obtain ⟨hok, hrun⟩ := hs
  obtain rfl | ⟨rfl, hfits, hout⟩ | ⟨d, q, y, here, runs⟩ := he.mz_running hr
  · exact hrun c p x hr hx
  · exact ⟨hfits, hout⟩
  · have hy := List.mem_of_getElem? here.2
    exact runs.place_ok here (hm.1 y hy) (hok y hy) (hrun d q y here.1 here.2) c p x hr hx

/-! ## The models and coders of the QT contexts -/

/-- CODE16 leaves a coder in order whatever the code is (R203). -/
theorem QtCtx.coderOk_started (x : QtCtx) (code : BitVec 16) :
    ({ x with L := 0, H := 0xFFFF, C := code, started := true } : QtCtx).coderOk :=
  ⟨Nat.zero_le _, Nat.le_of_lt_succ code.isLt, show 0 < 0x8000 by decide, show 0x8000 ≤ 0xFFFF by decide,
    show ¬(0x4000 ≤ 0 ∧ 0xFFFF < 0xC000) by decide⟩

/-- The sizes of a context and its models, which the fault flag and the coder do not touch (R29, R31, R32). -/
structure QtCtx.Sized (cfg : Config) (x : QtCtx) : Prop where
  low : qtWbitsMin ≤ x.wbits
  high : x.wbits ≤ qtWbitsMax
  wsize : x.wsize = 2 ^ x.wbits
  models : x.ModelsOk cfg

theorem QtCtx.ok_iff (cfg : Config) (x : QtCtx) :
    x.ok cfg ↔ x.Sized cfg ∧ (x.started = true → x.fault = false → x.coderOk) :=
  ⟨fun ⟨hl, hh, hw, hm, hc⟩ => ⟨⟨hl, hh, hw, hm⟩, hc⟩, fun ⟨⟨hl, hh, hw, hm⟩, hc⟩ => ⟨hl, hh, hw, hm, hc⟩⟩

theorem QtCtx.Stopped.sized {cfg : Config} {x y : QtCtx} (h : x.Stopped cfg y) (hx : x.Sized cfg) : y.Sized cfg := by
  obtain ⟨hl, hh, hw, hm⟩ := hx
  refine ⟨?_, ?_, ?_, h.models hm⟩
  · rwa [h.wbits]
  · rwa [h.wbits]
  · rw [h.wsize, h.wbits, hw]

/-- An error leaves the sizes and models, and a coder that the fault flag excuses (R290). -/
theorem QtCtx.Sized.ok_marked {cfg : Config} {x : QtCtx} (h : x.Sized cfg) : ({ x with fault := true } : QtCtx).ok cfg :=
  (QtCtx.ok_iff _ _).2 ⟨⟨h.low, h.high, h.wsize, fun w => by cases w <;> exact h.models _⟩, fun _ hf => absurd hf nofun⟩

/-- Before the coder starts nothing is asked of it. -/
theorem QtCtx.Sized.ok_restart {cfg : Config} (hc : configOk cfg) {x : QtCtx} (hl : qtWbitsMin ≤ x.wbits)
    (hh : x.wbits ≤ qtWbitsMax) (hw : x.wsize = 2 ^ x.wbits) : (x.restart cfg).ok cfg := by
  refine (QtCtx.ok_iff _ _).2 ⟨⟨hl, hh, hw, fun i => ?_⟩, fun hs => absurd hs nofun⟩
  obtain ⟨h1, h64, hf⟩ := modelSize_bounds hc hl hh i
  have h := QModel.init_ok (cfg := cfg) ⟨hc.1, hc.2.1⟩ h1 h64 hf
  cases i <;> exact h

/-- A fetched element keeps a context good: a token leaves the coder where the fetch put it, CODE16 starts it (R203, R205). -/
theorem QtCtx.ok_executes {cfg : Config} {inp : List Byte} {p : QtPhase} {x y z : QtCtx} {i : Instr} (h : x.ok cfg)
    (fetched : decodeQt cfg inp p x = .ok i y) (runs : QtCtx.Executes p y z) : z.ok cfg := by
  obtain ⟨hsized, hcoder⟩ := (QtCtx.ok_iff _ _).1 h
  obtain ⟨hl, hh, hw, hm⟩ := ((decodeQt_leaves cfg inp p x).of_ok fetched).sized hsized
  cases runs with
  | starts _ code =>
    exact (QtCtx.ok_iff _ _).2 ⟨⟨hl, hh, hw, fun w => by cases w <;> exact hm _⟩, fun _ _ => y.coderOk_started code⟩
  | emits =>
    have hadv := (decodeToken_leaves cfg inp x).of_ok fetched
    refine (QtCtx.ok_iff _ _).2 ⟨⟨hl, hh, hw, fun w => by cases w <;> exact hm _⟩, fun hs hf => ?_⟩
    exact hadv.coder hsized.models (hcoder (hadv.started ▸ hs) (hadv.fault ▸ hf))

theorem QtChange.contexts_ok {s t : State} (h : QtChange s t) (hs : QtInv s) : ∀ x ∈ t.qt, x.ok s.cfg := by
  obtain ⟨hcfg, hok⟩ := hs
  cases h with
  | none kept => rwa [kept]
  | init c w level issued next low high left =>
    rw [left]
    exact forall_mem_putContext hok c (QtCtx.Sized.ok_restart hcfg low high rfl)
  | reset c x issued found left =>
    obtain ⟨⟨hl, hh, hw, -⟩, -⟩ := (QtCtx.ok_iff _ _).1 (hok x (List.mem_of_getElem? found))
    rw [left]
    exact forall_mem_set hok c (QtCtx.Sized.ok_restart hcfg hl hh hw)
  | opened c inp n x issued found left =>
    obtain ⟨⟨hl, hh, hw, hm⟩, hc⟩ := (QtCtx.ok_iff _ _).1 (hok x (List.mem_of_getElem? found))
    rw [left]
    exact forall_mem_set hok c ((QtCtx.ok_iff _ _).2 ⟨⟨hl, hh, hw, fun w => by cases w <;> exact hm _⟩, hc⟩)
  | ran c p x z here runs left =>
    have hx := hok x (List.mem_of_getElem? here.2)
    rw [left]
    refine forall_mem_set hok c ?_
    cases runs with
    | executes i y fetched runs => exact QtCtx.ok_executes hx fetched runs
    | fails y stopped marked =>
      rw [marked]
      exact (stopped.sized ((QtCtx.ok_iff _ _).1 hx).1).ok_marked

/-- Settles O52: the parameters stay, and so does the goodness of every context. -/
theorem stepKeepsTheQuantumInvariant : Obligations.StepKeepsTheQuantumInvariant := by
  intro s t hs hstep
  have he := step_effect hstep
  have hcfg := he.cfg_status.1
  refine ⟨by rw [hcfg]; exact hs.1, ?_⟩
  rw [hcfg]
  exact he.qt_change.contexts_ok hs

end Sys2Proof.Machine
end

section
/-! PROOF. The run of a reference through the LZ table (44_lzszdd.md R245, R246): the bytes it reads, which repeat what it has just
written once they reach the write cursor, and where it stores them. -/

namespace Sys2Proof.Machine

/-- The bytes that `n` RefBytes read, delivered or not (R246). -/
def lzRefBytes (cfg : Config) : Nat → LzCtx → List Byte
  | 0, _ => []
  | n + 1, x => (x.refByte cfg).1 :: lzRefBytes cfg n (x.refByte cfg).2

@[simp] theorem lzRefBytes_length (cfg : Config) (n : Nat) (x : LzCtx) : (lzRefBytes cfg n x).length = n := by
  induction n generalizing x with
  | zero => rfl
  | succ n ih => simp [lzRefBytes, ih]

@[simp] theorem LzCtx.refByte_cur (cfg : Config) (x : LzCtx) : (x.refByte cfg).2.cur = (x.cur + 1) % 4096 := rfl
@[simp] theorem LzCtx.refByte_spos (cfg : Config) (x : LzCtx) : (x.refByte cfg).2.spos = (x.spos + 1) % 4096 := rfl

/-- Delivered are the bytes at or after `want` (R249). -/
theorem lzCopy_delivered (cfg : Config) (n : Nat) (x : LzCtx) :
    (lzCopy cfg n x).2 = (lzRefBytes cfg n x).drop (x.want - x.real) := by
  induction n generalizing x with
  | zero => simp [lzCopy, lzRefBytes]
  | succ n ih =>
    simp only [lzCopy, lzRefBytes]
    rw [ih, LzCtx.refByte_want, LzCtx.refByte_real]
    split
    · next h => rw [show x.want - x.real = 0 by omega, show x.want - (x.real + 1) = 0 by omega]; rfl
    · next h => rw [show x.want - x.real = x.want - (x.real + 1) + 1 by omega, List.drop_succ_cons]

/-- The cursors after a run of RefBytes (R245, R246). -/
theorem lzCopy_cursors {cfg : Config} {n : Nat} {x : LzCtx} (hc : x.cur < 4096) (hs : x.spos < 4096) :
    (lzCopy cfg n x).1.cur = (x.cur + n) % 4096 ∧ (lzCopy cfg n x).1.spos = (x.spos + n) % 4096 := by
  induction n generalizing x with
  | zero => exact ⟨(Nat.mod_eq_of_lt hc).symm, (Nat.mod_eq_of_lt hs).symm⟩
  | succ n ih =>
    obtain ⟨hcur, hspos⟩ := ih (x := (x.refByte cfg).2) (Nat.mod_lt _ (by decide)) (Nat.mod_lt _ (by decide))
    rw [LzCtx.refByte_cur] at hcur
    rw [LzCtx.refByte_spos] at hspos
    simp only [lzCopy]
    exact ⟨by omega, by omega⟩

/-- A byte of the LZ table is never missing (R248). -/
theorem memRead_lztab (fill : Byte) (m : Memory) (a : Nat) : memRead (.lztab fill) m a = some (tabRead fill m a) := by
  unfold tabRead memRead
  cases memLookup a m <;> rfl

/-- The table after one RefByte: the byte it read, at the write cursor (R245). -/
theorem LzCtx.refByte_read {cfg : Config} {x : LzCtx} (h : x.tableOk cfg) (a : Nat) :
    memRead (.lztab cfg.lzFill) (x.refByte cfg).2.tab a =
      if a = x.cur then some (x.refByte cfg).1 else memRead (.lztab cfg.lzFill) x.tab a :=
  memRead_memWrite h.1 x.cur a _

/-- Every index outside the run that was written reads as before (R245). -/
theorem lzCopy_frame {cfg : Config} {n a : Nat} {x : LzCtx} (h : x.tableOk cfg) (ha : ¬inRun 4096 x.cur n a) :
    memRead (.lztab cfg.lzFill) (lzCopy cfg n x).1.tab a = memRead (.lztab cfg.lzFill) x.tab a := by
  induction n generalizing x with
  | zero => rfl
  | succ n ih =>
    have hcur : x.cur < 4096 := h.2.1
    have hne : a ≠ x.cur := fun he => ha ⟨0, Nat.succ_pos n, by omega⟩
    have hrest : ¬inRun 4096 (x.refByte cfg).2.cur n a := fun ⟨k, hk, he⟩ =>
      ha ⟨k + 1, by omega, by
        rw [LzCtx.refByte_cur] at he
        omega⟩
    simp only [lzCopy]
    rw [ih (LzCtx.tableOk_refByte h) hrest, LzCtx.refByte_read h, if_neg hne]

/-- The run that was written holds the bytes in order, as it is no longer than the table (R245). -/
theorem lzCopy_stored {cfg : Config} {n k : Nat} {x : LzCtx} (h : x.tableOk cfg) (hn : n ≤ 4096) (hk : k < n) :
    memRead (.lztab cfg.lzFill) (lzCopy cfg n x).1.tab ((x.cur + k) % 4096) = (lzRefBytes cfg n x)[k]? := by
  induction n generalizing k x with
  | zero => omega
  | succ n ih =>
    have hcur : x.cur < 4096 := h.2.1
    simp only [lzCopy, lzRefBytes]
    cases k with
    | zero =>
      have hout : ¬inRun 4096 (x.refByte cfg).2.cur n ((x.cur + 0) % 4096) := fun ⟨j, hj, he⟩ => by
        rw [LzCtx.refByte_cur] at he
        omega
      rw [lzCopy_frame (LzCtx.tableOk_refByte h) hout, LzCtx.refByte_read h, if_pos (by omega), List.getElem?_cons_zero]
    | succ k =>
      rw [List.getElem?_cons_succ, ← ih (LzCtx.tableOk_refByte h) (by omega) (by omega), LzCtx.refByte_cur]
      congr 1
      omega

/-- The distance from the read index to the write cursor (R246). -/
def LzCtx.gap (x : LzCtx) : Nat := (x.cur + 4096 - x.spos) % 4096

/-- The bytes of a run: those of the table, and from the write cursor on those that the run has written (R246). -/
theorem lzRefBytes_getElem? {cfg : Config} {n k : Nat} {x : LzCtx} (h : x.tableOk cfg) (hn : n ≤ 4096) (hk : k < n) :
    (lzRefBytes cfg n x)[k]? =
      if x.spos ≠ x.cur ∧ x.gap ≤ k then (lzRefBytes cfg n x)[k - x.gap]?
      else memRead (.lztab cfg.lzFill) x.tab ((x.spos + k) % 4096) := by
  induction n generalizing k x with
  | zero => omega
  | succ n ih =>
    have hcur : x.cur < 4096 := h.2.1
    have hspos : x.spos < 4096 := h.2.2
    simp only [lzRefBytes]
    cases k with
    | zero =>
      have hgap : ¬(x.spos ≠ x.cur ∧ x.gap ≤ 0) := by unfold LzCtx.gap; omega
      rw [if_neg hgap, List.getElem?_cons_zero, Nat.add_zero, Nat.mod_eq_of_lt hspos, memRead_lztab]
      rfl
    | succ k =>
      have hrest := ih (k := k) (LzCtx.tableOk_refByte h) (by omega) (by omega)
      have hread := LzCtx.refByte_read h
      have hcur' := LzCtx.refByte_cur cfg x
      have hspos' := LzCtx.refByte_spos cfg x
      generalize (x.refByte cfg).2 = y at hrest hread hcur' hspos'
      have hgap : y.gap = x.gap := by unfold LzCtx.gap; omega
      have hpos : x.spos ≠ x.cur → 1 ≤ x.gap := by unfold LzCtx.gap; omega
      rw [List.getElem?_cons_succ, hrest, hread, hgap]
      by_cases hwritten : y.spos ≠ y.cur ∧ x.gap ≤ k
      · -- the byte was written after the first one
        have := hpos (by omega)
        rw [if_pos hwritten, if_pos (by omega), show k + 1 - x.gap = k - x.gap + 1 by omega, List.getElem?_cons_succ]
      · rw [if_neg hwritten]
        by_cases hfirst : x.spos ≠ x.cur ∧ x.gap = k + 1
        · -- the byte is the first one, just written
          have hidx : (y.spos + k) % 4096 = x.cur := by
            have := hfirst.2
            unfold LzCtx.gap at this
            omega
          rw [if_pos hidx, if_pos (by omega), show k + 1 - x.gap = 0 by omega, List.getElem?_cons_zero]
        · -- the table still has its old byte there
          have hidx : (y.spos + k) % 4096 ≠ x.cur := by
            unfold LzCtx.gap at hwritten hfirst
            omega
          rw [if_neg hidx, if_neg (by omega)]
          congr 1
          omega

/-- Settles O15: the bytes are those of `lzRefBytes`. -/
theorem lzReferenceIsRunExpansion : Obligations.LzReferenceIsRunExpansion := by
  intro cfg n x h hn
  refine ⟨lzRefBytes cfg n x, lzRefBytes_length cfg n x, fun k hk => lzRefBytes_getElem? h hn hk, lzCopy_delivered cfg n x,
    fun k hk => lzCopy_stored h hn hk, fun a ha => lzCopy_frame h ha, ?_⟩
  obtain ⟨hflags, hfcnt, hct, hlc, hrl, hpay⟩ := lzCopy_keeps cfg n x
  obtain ⟨hreal, hslen, hwant, hfault, hin⟩ := lzCopy_counters cfg n x
  obtain ⟨hcur, hspos⟩ := lzCopy_cursors (cfg := cfg) (n := n) h.2.1 h.2.2
  rw [← hreal, ← hslen, ← hcur, ← hspos, ← hflags, ← hfcnt, ← hct, ← hlc, ← hrl, ← hpay, ← hwant, ← hfault, ← hin]

end Sys2Proof.Machine
end

section
/-! PROOF. The entry of an error (60_exceptions.md R290) and the two MZ commands (45_host_commands.md R263, 42_mszip.md R170). -/

namespace Sys2Proof.Machine

/-- The QT context that a decode was in progress on is marked, the others stay (R290 (3)). -/
theorem State.raise_qt_at {s : State} {c : Nat} {p : QtPhase} (h : s.run = .qt c p) (k : ErrKind) :
    (s.raise k).qt[c]? = s.qt[c]?.map fun x => { x with fault := true } := by
  rw [State.raise_qt, h]
  exact List.getElem?_modify_eq _ _ _

theorem State.raise_qt_other {s : State} {c : Nat} (h : ∀ p, s.run ≠ .qt c p) (k : ErrKind) :
    (s.raise k).qt[c]? = s.qt[c]? := by
  rw [State.raise_qt]
  split
  · next d p hr =>
    refine List.getElem?_modify_ne _ _ ?_
    rintro rfl
    exact h p hr
  · rfl

theorem State.raise_lz_at {s : State} {c : Nat} (h : s.run = .lz c) (k : ErrKind) :
    (s.raise k).lz[c]? = s.lz[c]?.map fun x => { x with fault := true } := by
  rw [State.raise_lz, h]
  exact List.getElem?_modify_eq _ _ _

theorem State.raise_lz_other {s : State} {c : Nat} (h : s.run ≠ .lz c) (k : ErrKind) :
    (s.raise k).lz[c]? = s.lz[c]? := by
  rw [State.raise_lz]
  split
  · next d hr =>
    refine List.getElem?_modify_ne _ _ ?_
    rintro rfl
    exact h hr
  · rfl

/-- Settles O16: the codes by their table, the registers field by field. -/
theorem errorEntry : Obligations.ErrorEntry := by
  refine ⟨⟨rfl, rfl, rfl, rfl, rfl, rfl, rfl, rfl, rfl, rfl⟩, fun s k => ?_⟩
  exact ⟨s.raise_status k, s.raise_run k, s.raise_mz k, s.raise_cfg k, s.raise_inp k, s.raise_pending k,
    fun _ _ h => State.raise_qt_at h k, fun _ h => State.raise_qt_other h k, fun _ h => State.raise_lz_at h k,
    fun _ h => State.raise_lz_other h k⟩

/-- A context may be created when no limit is set, or fewer exist (D36). -/
theorem mayCreate_of {cfg : Config} {n : Nat} (h : cfg.nCtx = none ∨ ∃ most, cfg.nCtx = some most ∧ n < most) :
    mayCreate cfg n = true := by
  obtain h | ⟨most, h, hn⟩ := h
  · simp [mayCreate, h]
  · simp [mayCreate, h, hn]

/-- Settles O35: each command at an idle machine. -/
theorem mzCommands : Obligations.MzCommands := by
  refine ⟨fun s hr hnew => ⟨MzCtx.fresh, ?_, rfl, rfl, rfl, rfl⟩, fun s c x inp n hr hx => ?_⟩
  · show execMzNew s = _
    rw [execMzNew, whenIdle_at hr, if_pos (mayCreate_of hnew)]
  · show execMzDecode c inp n s = _
    rw [execMzDecode, whenIdle_at hr, hx]
    dsimp only
    rw [show mzWsize = 32768 from rfl]
    split <;> rfl

end Sys2Proof.Machine
end

section
/-! PROOF. The LSB-first reader BRL (40_bitreaders.md R131 to R134): a fetch of a byte changes nothing of the stream it delivers,
a read takes the next bits of it, and so reads field by field what an encoder has laid down (30_encoding.md R60). -/

namespace Sys2Proof.Machine

/-! ## The next byte (R131) -/

/-- `r'` is `r` with more bytes of the same stream held; while no zero was invented, as many bits are held more as were
fetched (R131, R133). -/
structure Brl.Refilled (inp : List Byte) (r r' : Brl) : Prop where
  wf : r'.wf inp
  stream : ∀ i, r'.streamBit inp i = r.streamBit inp i
  position : r'.zf = false → r.zf = false ∧ 8 * r'.inOff + r.nbits = 8 * r.inOff + r'.nbits

theorem Brl.Refilled.refl {inp : List Byte} {r : Brl} (h : r.wf inp) : r.Refilled inp r :=
  ⟨h, fun _ => rfl, fun hz => ⟨hz, rfl⟩⟩

theorem Brl.Refilled.trans {inp : List Byte} {r r' r'' : Brl} (h : r.Refilled inp r') (h' : r'.Refilled inp r'') :
    r.Refilled inp r'' :=
  ⟨h'.wf, fun i => (h'.stream i).trans (h.stream i), fun hz => by
    obtain ⟨hz', hp'⟩ := h'.position hz
    obtain ⟨hz, hp⟩ := h.position hz'
    exact ⟨hz, by omega⟩⟩

/-- The accumulator after a byte has entered above the held bits. -/
theorem testBit_push {acc nbits w i : Nat} (b : Byte) (ha : acc < 2 ^ nbits) (hw : nbits + 8 ≤ w) :
    ((acc ||| (b.toNat <<< nbits)) % 2 ^ w).testBit i =
      if i < nbits then acc.testBit i else b.getLsbD (i - nbits) := by
  rw [Nat.testBit_mod_two_pow, Nat.testBit_lor, Nat.testBit_shiftLeft]
  by_cases hi : i < nbits
  · simp [hi, show i < w by omega, show ¬nbits ≤ i by omega]
  · have hacc : acc.testBit i = false :=
      Nat.testBit_lt_two_pow (lt_of_lt_of_le ha (Nat.pow_le_pow_right (by decide) (by omega)))
    by_cases hiw : i < w
    · simp [hi, hacc, hiw, show nbits ≤ i by omega, BitVec.getLsbD]
    · simp [hi, hiw, BitVec.getLsbD_of_ge b (i - nbits) (by omega)]

theorem push_lt {acc nbits w : Nat} (b : Byte) (ha : acc < 2 ^ nbits) (hw : nbits + 8 ≤ w) :
    (acc ||| (b.toNat <<< nbits)) % 2 ^ w < 2 ^ (nbits + 8) := by
  refine Nat.lt_pow_two_of_testBit _ fun i hi => ?_
  rw [testBit_push b ha hw, if_neg (by omega), BitVec.getLsbD_of_ge b _ (by omega)]

/-- Bytes of IN are eight bits each. -/
theorem lsbBit_add_eight (inp : List Byte) (off i : Nat) : lsbBit inp off (i + 8) = lsbBit inp (off + 1) i := by
  rw [lsbBit, lsbBit, Nat.add_div_right i (by decide), Nat.add_mod_right, show off + (i / 8 + 1) = off + 1 + i / 8 by omega]

theorem lsbBit_past {inp : List Byte} {off : Nat} (h : inp.length ≤ off) (i : Nat) : lsbBit inp off i = false := by
  rw [lsbBit, List.getElem?_eq_none (by omega)]

theorem lsbBit_first {inp : List Byte} {off i : Nat} {b : Byte} (h : inp[off]? = some b) (hi : i < 8) :
    lsbBit inp off i = b.getLsbD i := by
  rw [lsbBit, Nat.div_eq_of_lt hi, Nat.mod_eq_of_lt hi, Nat.add_zero, h]

/-- One fetch (R131): a byte of IN or a zero enters, and the stream is the same. -/
theorem Brl.refilled_fetchByte {cfg : Config} (hc : readersOk cfg) {inp : List Byte} {r : Brl} (h : r.wf inp)
    (hn : r.nbits < 16) : r.Refilled inp (r.fetchByte cfg inp) := by
  obtain ⟨hbits, hacc, hoff⟩ := h
  obtain ⟨hwidth, -, -⟩ := hc
  have hw : r.nbits + 8 ≤ cfg.accWidth := by omega
  unfold Brl.fetchByte
  cases hb : inp[r.inOff]? with
  | some b =>
    have hlt := (List.getElem?_eq_some_iff.1 hb).1
    refine ⟨⟨by simp; omega, push_lt b hacc hw, hlt⟩, fun i => ?_, fun hz => ⟨hz, by simp; omega⟩⟩
    simp only [Brl.streamBit, Brl.push_nbits, Brl.push_acc, Brl.push_inOff, testBit_push b hacc hw]
    by_cases h1 : i < r.nbits
    · simp [h1, show i < r.nbits + 8 by omega]
    · by_cases h2 : i < r.nbits + 8
      · simp [h1, h2, lsbBit_first hb (show i - r.nbits < 8 by omega)]
      · simp [h1, h2, ← lsbBit_add_eight, show i - (r.nbits + 8) + 8 = i - r.nbits by omega]
  | none =>
    have hge : inp.length ≤ r.inOff := List.getElem?_eq_none_iff.1 hb
    refine ⟨⟨by simp; omega, push_lt 0 hacc hw, hoff⟩, fun i => ?_, fun hz => absurd hz (by simp)⟩
    simp only [Brl.streamBit, Brl.push_nbits, Brl.push_acc, Brl.push_inOff, testBit_push 0 hacc hw, lsbBit_past hge]
    by_cases h1 : i < r.nbits
    · simp [h1, show i < r.nbits + 8 by omega]
    · simp [h1]

/-- `need(n)` (R131). -/
theorem Brl.refilled_needLoop {cfg : Config} (hc : readersOk cfg) {inp : List Byte} {n : Nat} (hn : n ≤ 16) (fuel : Nat)
    {r : Brl} (h : r.wf inp) :
    r.Refilled inp (Brl.needLoop cfg inp n fuel r) ∧ (n ≤ r.nbits + 8 * fuel → n ≤ (Brl.needLoop cfg inp n fuel r).nbits) := by
  induction fuel generalizing r with
  | zero => exact ⟨.refl h, id⟩
  | succ fuel ih =>
    rw [Brl.needLoop]
    split
    · have hf := Brl.refilled_fetchByte hc h (by omega)
      obtain ⟨hrest, henough⟩ := ih hf.wf
      have hbits : (r.fetchByte cfg inp).nbits = r.nbits + 8 := by unfold Brl.fetchByte; split <;> rfl
      exact ⟨hf.trans hrest, fun hle => henough (by omega)⟩
    · exact ⟨.refl h, fun _ => by omega⟩

theorem Brl.refilled_need {cfg : Config} (hc : readersOk cfg) {inp : List Byte} {n : Nat} (hn : n ≤ 16) {r : Brl}
    (h : r.wf inp) : r.Refilled inp (r.need cfg inp n) ∧ n ≤ (r.need cfg inp n).nbits := by
  obtain ⟨hf, henough⟩ := Brl.refilled_needLoop hc hn n h
  exact ⟨hf, henough (by omega)⟩

/-! ## Taking bits (R132, R134) -/

theorem Brl.advanced_drop {inp : List Byte} {r : Brl} (h : r.wf inp) {k : Nat} (hk : k ≤ r.nbits) :
    Brl.advanced inp r (r.drop k) k := by
  obtain ⟨hbits, hacc, hoff⟩ := h
  refine ⟨⟨by simp only [Brl.drop]; omega, ?_, hoff⟩, fun j => ?_⟩
  · simp only [Brl.drop]
    rw [Nat.shiftRight_eq_div_pow, Nat.div_lt_iff_lt_mul (Nat.two_pow_pos k), ← Nat.pow_add, Nat.sub_add_cancel hk]
    exact hacc
  · simp only [Brl.streamBit, Brl.drop, Nat.testBit_shiftRight]
    by_cases hj : j < r.nbits - k
    · rw [if_pos hj, if_pos (by omega)]
    · rw [if_neg hj, if_neg (by omega), show j - (r.nbits - k) = k + j - r.nbits by omega]

theorem Brl.advanced.trans {inp : List Byte} {r r' r'' : Brl} {m n : Nat} (h : Brl.advanced inp r r' m)
    (h' : Brl.advanced inp r' r'' n) : Brl.advanced inp r r'' (m + n) :=
  ⟨h'.1, fun j => by rw [h'.2, h.2, Nat.add_assoc]⟩

/-- More bytes held is no move in the stream. -/
theorem Brl.Refilled.advanced_then {inp : List Byte} {r r' r'' : Brl} {n : Nat} (h : r.Refilled inp r')
    (h' : Brl.advanced inp r' r'' n) : Brl.advanced inp r r'' n :=
  ⟨h'.1, fun j => by rw [h'.2, h.stream]⟩

/-- `peek(n)` (R132): the value's bits are the next bits of the stream. -/
theorem Brl.testBit_low {cfg : Config} (hc : readersOk cfg) {inp : List Byte} {n i : Nat} (hn : n ≤ 16) {r : Brl}
    (h : r.wf inp) : ((r.need cfg inp n).low n).testBit i = (decide (i < n) && r.streamBit inp i) := by
  obtain ⟨hf, henough⟩ := Brl.refilled_need hc hn h
  rw [Brl.low, Nat.testBit_mod_two_pow]
  by_cases hi : i < n
  · rw [← hf.stream, Brl.streamBit, if_pos (by omega)]
  · simp [hi]

/-- A read moves as many bits on as it takes (R132). -/
theorem Brl.advanced_readBits {cfg : Config} (hc : readersOk cfg) {inp : List Byte} {n : Nat} (hn : n ≤ 16) {r : Brl}
    (h : r.wf inp) : Brl.advanced inp r (r.readBits cfg inp n).2 n := by
  obtain ⟨hf, henough⟩ := Brl.refilled_need hc hn h
  exact hf.advanced_then (Brl.advanced_drop hf.wf henough)

/-- Settles O8: the read by `need`, `low` and `drop`, aligning by `drop`. -/
theorem brlReadGivesTheNextBits : Obligations.BrlReadGivesTheNextBits := by
  refine ⟨fun cfg inp r n hc hn h => ?_, fun inp r h => ?_⟩
  · obtain ⟨hf, henough⟩ := Brl.refilled_need hc hn h
    refine ⟨Nat.mod_lt _ (Nat.two_pow_pos n), fun i hi => ?_, Brl.advanced_readBits hc hn h, fun hz => ?_⟩
    · exact (Brl.testBit_low hc hn h).trans (by simp [hi])
    · obtain ⟨-, hpos⟩ := hf.position hz
      simp only [Brl.readBits, Brl.peek, Brl.drop]
      omega
  · refine ⟨Brl.advanced_drop h (Nat.mod_le _ _), ?_, rfl, rfl⟩
    show (r.nbits - r.nbits % 8) % 8 = 0
    omega

end Sys2Proof.Machine
end

section
/-! PROOF. The encoder's fields read back (30_encoding.md R60, R92, R94, R95): a read of a field's width, where the stream
delivers the field, gives the field's value and stands where the rest of the encoding follows. -/

namespace Sys2Proof.Machine

/-! ## Delivered bits -/

theorem Brl.delivers_append {inp : List Byte} {r : Brl} {a b : List Bool} (h : r.delivers inp (a ++ b)) :
    r.delivers inp a := fun j hj => by
  rw [h j (by simp; omega), List.getElem_append_left hj]

/-- What follows the first part is delivered after it. -/
theorem Brl.advanced.delivers {inp : List Byte} {r r' : Brl} {n : Nat} {a b : List Bool} (h : Brl.advanced inp r r' n)
    (hn : a.length = n) (hd : r.delivers inp (a ++ b)) : r'.delivers inp b := fun j hj => by
  rw [h.2, hd (n + j) (by simp; omega), List.getElem_append_right (by omega)]
  simp [hn]

@[simp] theorem lsbField_length (n v : Nat) : (lsbField n v).length = n := by simp [lsbField]

/-- The reader finds the field `v` of `n` bits, moves past it and then delivers `rest`. -/
def Brl.ReadsField (cfg : Config) (inp : List Byte) (n v : Nat) (rest : List Bool) (r r' : Brl) : Prop :=
  r.readBits cfg inp n = (v, r') ∧ Brl.advanced inp r r' n ∧ r'.delivers inp rest

/-- Reading back a field (R60, R132). -/
theorem Brl.readBits_field {cfg : Config} (hc : readersOk cfg) {inp : List Byte} {n v : Nat} (hn : n ≤ 16) (hv : v < 2 ^ n)
    {rest : List Bool} {r : Brl} (h : r.wf inp) (hd : r.delivers inp (lsbField n v ++ rest)) :
    ∃ r', Brl.ReadsField cfg inp n v rest r r' := by
  have hadv := Brl.advanced_readBits hc hn h
  refine ⟨_, Prod.ext ?_ rfl, hadv, hadv.delivers (lsbField_length n v) hd⟩
  refine Nat.eq_of_testBit_eq fun i => ?_
  refine (Brl.testBit_low hc hn h).trans ?_
  by_cases hi : i < n
  · have hbit := Brl.delivers_append hd i (by simpa using hi)
    simp [hi, hbit, lsbField]
  · simp [hi, Nat.testBit_lt_two_pow (lt_of_lt_of_le hv (Nat.pow_le_pow_right (by decide) (by omega : n ≤ i)))]

/-- Reading back as many fields of 3 bits as there are (R181). -/
theorem Brl.readMany_fields {cfg : Config} (hc : readersOk cfg) {inp : List Byte} (vs : List (BitVec 3)) {r : Brl}
    (h : r.wf inp) (hd : r.delivers inp (vs.flatMap fun v => lsbField 3 v.toNat)) :
    ∃ r', Brl.readMany cfg inp 3 vs.length r = (vs.map BitVec.toNat, r') ∧
      Brl.advanced inp r r' (vs.flatMap fun v => lsbField 3 v.toNat).length := by
  induction vs generalizing r with
  | nil => exact ⟨r, rfl, h, fun j => by simp⟩
  | cons v vs ih =>
    obtain ⟨r1, hread, hadv, hrest⟩ := Brl.readBits_field hc (by decide : 3 ≤ 16) v.isLt h hd
    obtain ⟨r2, hmany, hadv'⟩ := ih hadv.1 hrest
    refine ⟨r2, by simp only [List.length_cons, Brl.readMany, hread, hmany, List.map_cons], ?_⟩
    rw [List.flatMap_cons, List.length_append, lsbField_length]
    exact hadv.trans hadv'

/-! ## The elements of fixed layout -/

/-- The decoder reads `i` where the reader `r` stands and moves `n` bits. -/
def ReadsElement (inp : List Byte) (g : Got Brl Instr) (i : Instr) (r : Brl) (n : Nat) : Prop :=
  ∃ r', g = .ok i r' ∧ Brl.advanced inp r r' n

section
variable {cfg : Config} (hc : readersOk cfg) {inp : List Byte} {r : Brl} (h : r.wf inp)
include hc h

/-- The two fields of a block header, wherever they lead (R92). -/
theorem decodeHeader_fields {final : Bool} {t : Nat} (ht : t < 4) (hd : r.delivers inp (final :: lsbField 2 t)) :
    ∃ r1 r', r.readBits cfg inp 1 = (final.toNat, r1) ∧ r1.readBits cfg inp 2 = (t, r') ∧ Brl.advanced inp r r' 3 := by
  have hfinal : final :: lsbField 2 t = lsbField 1 final.toNat ++ (lsbField 2 t ++ []) := by cases final <;> simp [lsbField]
  rw [hfinal] at hd
  obtain ⟨r1, hread1, hadv1, hrest⟩ := Brl.readBits_field hc (by decide) (by cases final <;> decide) h hd
  obtain ⟨r2, hread2, hadv2, -⟩ := Brl.readBits_field hc (by decide) ht hadv1.1 hrest
  exact ⟨r1, r2, hread1, hread2, hadv1.trans hadv2⟩

theorem decodeHeader_of_delivers {env : EncEnv} {i : Instr} (hi : MzPhase.header.takes i) {bits : List Bool}
    (he : encode env i = some bits) (hd : r.delivers inp bits) : ReadsElement inp (decodeHeader cfg inp r) i r bits.length := by
  have hflag : ∀ final : Bool, (final.toNat == 1) = final := by decide
  obtain ⟨final, rfl | rfl | rfl | rfl⟩ := hi <;> cases he <;>
    obtain ⟨r1, r', hread1, hread2, hadv⟩ := decodeHeader_fields hc h (by decide) hd <;>
    exact ⟨r', by simp only [decodeHeader, hread1, hread2, hflag], by simpa using hadv⟩

theorem decodeStoredHdr_of_delivers {env : EncEnv} (hpad : env.pad.length = r.nbits % 8) {len nlen : BitVec 16}
    {bits : List Bool} (he : encode env (.storedHdr len nlen) = some bits) (hd : r.delivers inp bits) :
    ReadsElement inp (decodeStoredHdr cfg inp r) (.storedHdr len nlen) r bits.length := by
  cases he
  have halign : Brl.advanced inp r r.align env.pad.length := by rw [hpad]; exact Brl.advanced_drop h (Nat.mod_le _ _)
  rw [List.append_assoc] at hd
  have hd := halign.delivers rfl hd
  obtain ⟨r1, hread1, hadv1, hrest⟩ := Brl.readBits_field hc (by decide) len.isLt halign.1 hd
  rw [← List.append_nil (lsbField 16 _)] at hrest
  obtain ⟨r2, hread2, hadv2, -⟩ := Brl.readBits_field hc (by decide) nlen.isLt hadv1.1 hrest
  exact ⟨r2, by simp [decodeStoredHdr, hread1, hread2], by simpa [Nat.add_assoc] using (halign.trans hadv1).trans hadv2⟩

theorem decodeRaw_of_delivers {env : EncEnv} {b : Byte} {bits : List Bool} (he : encode env (.raw b) = some bits)
    (hd : r.delivers inp bits) : ReadsElement inp (decodeRaw cfg inp r) (.raw b) r bits.length := by
  cases he
  rw [← List.append_nil (lsbField 8 _)] at hd
  obtain ⟨r1, hread, hadv, -⟩ := Brl.readBits_field hc (by decide) b.isLt h hd
  exact ⟨r1, by simp [decodeRaw, hread], by simpa using hadv⟩

theorem decodeDynHdr_of_delivers {env : EncEnv} {hlit hdist : BitVec 5} {hclen : BitVec 4} {clen : List (BitVec 3)}
    (hlen : clen.length = clenCount hclen) {bits : List Bool}
    (he : encode env (.dynHdr hlit hdist hclen clen) = some bits) (hd : r.delivers inp bits) :
    ReadsElement inp (decodeDynHdr cfg inp r) (.dynHdr hlit hdist hclen clen) r bits.length := by
  cases he
  simp only [List.append_assoc] at hd
  obtain ⟨r1, hread1, hadv1, hrest1⟩ := Brl.readBits_field hc (by decide) hlit.isLt h hd
  obtain ⟨r2, hread2, hadv2, hrest2⟩ := Brl.readBits_field hc (by decide) hdist.isLt hadv1.1 hrest1
  obtain ⟨r3, hread3, hadv3, hrest3⟩ := Brl.readBits_field hc (by decide) hclen.isLt hadv2.1 hrest2
  obtain ⟨r4, hread4, hadv4⟩ := Brl.readMany_fields hc clen hadv3.1 hrest3
  rw [hlen] at hread4
  have hadv := ((hadv1.trans hadv2).trans hadv3).trans hadv4
  refine ⟨r4, ?_, by simpa only [List.length_append, lsbField_length, Nat.add_assoc] using hadv⟩
  simp [decodeDynHdr, hread1, hread2, hread3, hread4, Function.comp_def]

end

/-- Settles O5: place by place. -/
theorem mzFieldsDecodeToWhatWasEncoded : Obligations.MzFieldsDecodeToWhatWasEncoded := by
  intro cfg env inp x p i bits hc h hwf htakes hplace hpad he hd
  obtain rfl | rfl | ⟨left, rfl⟩ | rfl := hplace
  · exact decodeHeader_of_delivers hc h htakes he hd
  · obtain ⟨len, nlen, rfl⟩ := htakes
    exact decodeStoredHdr_of_delivers hc h (hpad rfl) he hd
  · obtain ⟨b, rfl⟩ := htakes
    exact decodeRaw_of_delivers hc h he hd
  · obtain ⟨hlit, hdist, hclen, clen, rfl⟩ := htakes
    exact decodeDynHdr_of_delivers hc h (by simpa [Instr.wf, clenCount] using hwf) he hd

end Sys2Proof.Machine
end

section
/-! PROOF. What goes through WinPut byte by byte, and so what WinCopy writes and where (20_memory.md R72, R74). -/

namespace Sys2Proof.Machine

/-- WinPut of one byte, read back at every index (R67, R72). -/
theorem Window.memRead_put {sp : Space} {cap : Nat} {w : Window} (h : w.ok sp cap) (b : Byte) (a : Nat) :
    memRead sp (w.put sp cap b).cells a = if a = w.wpos then some b else memRead sp w.cells a :=
  memRead_memWrite h.1 w.wpos a b

/-- Settles O13: the write is at the cursor, the registers are those of R72. -/
theorem winPutStoresOneByte : Obligations.WinPutStoresOneByte := fun _ _ _ b h =>
  ⟨Window.ok_put h b, Window.memRead_put h b, rfl, rfl⟩

/-! ## Several bytes -/

/-- Fewer steps than a space has indices do not come back. -/
theorem add_mod_ne_self {cap i j : Nat} (hi : i < cap) (h0 : 0 < j) (hj : j < cap) : (i + j) % cap ≠ i := fun he => by
  by_cases hwrap : i + j < cap
  · rw [Nat.mod_eq_of_lt hwrap] at he; omega
  · rw [Nat.mod_eq_sub_mod (by omega), Nat.mod_eq_of_lt (by omega)] at he; omega

section
variable {sp : Space} {cap : Nat} {w : Window} (h : w.ok sp cap) (bs : List Byte)
include h

theorem Window.putAll_wpos : (w.putAll sp cap bs).wpos = (w.wpos + bs.length) % cap := by
  induction bs generalizing w with
  | nil => exact (Nat.mod_eq_of_lt h.2.1).symm
  | cons b bs ih =>
    rw [Window.putAll_cons, ih (Window.ok_put h b), Window.put_wpos, wrapNext, Nat.mod_add_mod, List.length_cons,
      Nat.add_assoc, Nat.add_comm 1]

theorem Window.putAll_valid : (w.putAll sp cap bs).valid = min (w.valid + bs.length) cap := by
  induction bs generalizing w with
  | nil => exact (Nat.min_eq_left h.2.2).symm
  | cons b bs ih =>
    rw [Window.putAll_cons, ih (Window.ok_put h b), Window.put_valid, List.length_cons]
    omega

/-- Bytes outside the run that starts at the cursor stay (R67, R72). -/
theorem Window.memRead_putAll_outside {a : Nat} (ha : ¬inRun cap w.wpos bs.length a) :
    memRead sp (w.putAll sp cap bs).cells a = memRead sp w.cells a := by
  induction bs generalizing w with
  | nil => rfl
  | cons b bs ih =>
    have hcursor : a ≠ w.wpos := fun he => ha ⟨0, by simp, by simp [he, Nat.mod_eq_of_lt h.2.1]⟩
    have hrest : ¬inRun cap (w.put sp cap b).wpos bs.length a := fun ⟨k, hk, he⟩ =>
      ha ⟨k + 1, by simpa using hk, by
        rwa [Window.put_wpos, wrapNext, Nat.mod_add_mod, Nat.add_assoc, Nat.add_comm 1] at he⟩
    rw [Window.putAll_cons, ih (Window.ok_put h b) hrest, Window.memRead_put h, if_neg hcursor]

/-- The bytes stand in order from the cursor on, if they are no more than the window holds (R72). -/
theorem Window.memRead_putAll {k : Nat} (hlen : bs.length ≤ cap) (hk : k < bs.length) :
    memRead sp (w.putAll sp cap bs).cells ((w.wpos + k) % cap) = bs[k]? := by
  induction bs generalizing w k with
  | nil => cases hk
  | cons b bs ih =>
    have hlen : bs.length + 1 ≤ cap := hlen
    have hput := Window.ok_put h b
    rw [Window.putAll_cons]
    cases k with
    | zero =>
      have hcursor : ¬inRun cap (w.put sp cap b).wpos bs.length w.wpos := fun ⟨j, hj, he⟩ => by
        rw [Window.put_wpos, wrapNext, Nat.mod_add_mod, Nat.add_assoc] at he
        exact add_mod_ne_self h.2.1 (by omega) (by omega) he.symm
      rw [Nat.add_zero, Nat.mod_eq_of_lt h.2.1, Window.memRead_putAll_outside hput bs hcursor, Window.memRead_put h, if_pos rfl]
      rfl
    | succ k =>
      have hnext : (w.wpos + (k + 1)) % cap = ((w.put sp cap b).wpos + k) % cap := by
        rw [Window.put_wpos, wrapNext, Nat.mod_add_mod, Nat.add_assoc, Nat.add_comm 1]
      rw [hnext, ih hput (by omega) (by simpa using hk)]
      rfl

end

/-! ## WinCopy (R74) -/

/-- The bytes of a copy: those before the cursor, then the copy's own output again. -/
theorem winCopy_bytes {sp : Space} {cap dist len : Nat} {w w' : Window} {bs : List Byte} (h : w.ok sp cap) (h1 : 1 ≤ dist)
    (h2 : dist ≤ cap) (hc : winCopy sp cap dist len w = some (w', bs)) {k : Nat} (hk : k < len) :
    bs[k]? = if k < dist then memRead sp w.cells ((w.wpos + cap - dist + k) % cap) else bs[k - dist]? := by
  induction len generalizing w bs k with
  | zero => cases hk
  | succ n ih =>
    rw [winCopy] at hc
    split at hc
    · cases hc
    · next b hb =>
      split at hc
      · cases hc
      · next v cs hrest =>
        obtain ⟨rfl, rfl⟩ : v = w' ∧ b :: cs = bs := by simpa using hc
        cases k with
        | zero => rw [if_pos (by omega), Nat.add_zero]; exact hb.symm
        | succ k =>
          have hrec := ih (Window.ok_put h b) hrest (Nat.lt_of_succ_lt_succ hk)
          have hidx : ((w.put sp cap b).wpos + cap - dist + k) % cap = (w.wpos + cap - dist + (k + 1)) % cap := by
            rw [Window.put_wpos, wrapNext, Nat.add_sub_assoc h2, Nat.add_assoc, Nat.mod_add_mod]
            congr 1
            omega
          rw [List.getElem?_cons_succ, hrec, hidx, Window.memRead_put h]
          by_cases hlt : k + 1 < dist
          · have hne : (w.wpos + cap - dist + (k + 1)) % cap ≠ w.wpos := by
              rw [Nat.add_sub_assoc h2, Nat.add_assoc]
              exact add_mod_ne_self h.2.1 (by omega) (by omega)
            rw [if_pos (by omega), if_neg hne, if_pos hlt]
          · rw [if_neg hlt]
            by_cases heq : k + 1 = dist
            · have hcursor : (w.wpos + cap - dist + (k + 1)) % cap = w.wpos := by
                rw [heq, Nat.sub_add_cancel (by omega), Nat.add_mod_right, Nat.mod_eq_of_lt h.2.1]
              rw [if_pos (by omega), if_pos hcursor, heq, Nat.sub_self]
              rfl
            · rw [if_neg (by omega), show k + 1 - dist = k - dist + 1 by omega]
              rfl

/-- Settles O14: which bytes by induction on the length, where they stand by WinPut of each. -/
theorem winCopyIsRunExpansion : Obligations.WinCopyIsRunExpansion := by
  intro sp cap dist len w w' bs h h1 h2 hlen hc
  have hbytes := fun k (hk : k < len) => winCopy_bytes h h1 h2 hc hk
  obtain ⟨rfl, rfl⟩ := winCopy_eq_putAll hc
  exact ⟨rfl, hbytes, Window.ok_putAll h bs, Window.putAll_wpos h bs, Window.putAll_valid h bs,
    fun _ => Window.memRead_putAll h bs hlen, fun _ => Window.memRead_putAll_outside h bs⟩

end Sys2Proof.Machine
end

section
/-! PROOF. The windows of the QT contexts over one step: every valid byte has been written, and the `QT_DECODE` in progress fits
its window (20_memory.md R72, 43_quantum.md R202, R220). -/

namespace Sys2Proof.Machine

theorem Window.filled_putAll {sp : Space} {cap : Nat} {w : Window} (h : w.Filled sp cap) (bs : List Byte) :
    (w.putAll sp cap bs).Filled sp cap := by
  induction bs generalizing w with
  | nil => exact h
  | cons b bs ih => exact ih (Window.filled_put h b)

/-- A window without valid bytes needs none written. -/
theorem Window.filled_of_empty {sp : Space} {cap : Nat} {w : Window} (h : w.ok sp cap) (hv : w.valid = 0) (hp : w.wpos = 0) :
    w.Filled sp cap := ⟨h, fun _ => hp.trans hv.symm, fun a ha => absurd ha (by omega)⟩

/-- Where a `QT_DECODE` for `outLen` bytes stands at `p` (R202, R204, R220). -/
structure QtCtx.InCall (outLen : Nat) (p : QtPhase) (x : QtCtx) : Prop where
  sound : x.fault = false
  within : x.togo ≤ outLen
  fits : outLen ≤ x.wsize
  produced : outLen - x.togo ≤ x.win.valid
  start : p = .start → x.togo = outLen
  tokens : p = .tokens → x.started = true ∧ 1 ≤ x.togo

/-- The invariant of the windows, under names. -/
theorem qtWindowInv_iff {s : State} (hm : ∀ x ∈ s.qt, x.win.ok .qtwin x.wsize) :
    QtWindowInv s ↔ (∀ x ∈ s.qt, x.win.Filled .qtwin x.wsize) ∧ ∀ c p x, QtAt s c p x → x.InCall s.outLen p := by
  constructor
  · rintro ⟨hwin, hcall⟩
    refine ⟨fun x hx => (hwin x hx).2.2.filled (hm x hx), fun c p x here => ?_⟩
    obtain ⟨h1, h2, h3, h4, h5, h6⟩ := hcall c p x here.1 here.2
    exact ⟨h1, h2, h3, h4, h5, h6⟩
  · rintro ⟨hwin, hcall⟩
    refine ⟨fun x hx => ?_, fun c p x hr hx => ?_⟩
    · have hf := hwin x hx
      exact ⟨hf.ok.2.1, hf.ok.2.2, hf.cursor, hf.written⟩
    · have hin := hcall c p x ⟨hr, hx⟩
      exact ⟨hin.sound, hin.within, hin.fits, hin.produced, hin.start, hin.tokens⟩

/-! ## The windows -/

theorem QtCtx.Executes.filled {p : QtPhase} {x y : QtCtx} (h : QtCtx.Executes p x y) (hx : x.win.Filled .qtwin x.wsize) :
    y.win.Filled .qtwin y.wsize := by
  cases h with
  | starts => exact hx
  | emits _ bs fits => exact Window.filled_putAll hx bs

theorem QtCtx.SameCall.filled {x y : QtCtx} (h : x.SameCall y) (hx : x.win.Filled .qtwin x.wsize) :
    y.win.Filled .qtwin y.wsize := by rw [h.win, h.wsize]; exact hx

theorem QtChange.filled {s t : State} (h : QtChange s t) (hm : ∀ x ∈ t.qt, x.win.ok .qtwin x.wsize)
    (hs : ∀ x ∈ s.qt, x.win.Filled .qtwin x.wsize) : ∀ x ∈ t.qt, x.win.Filled .qtwin x.wsize := by
  cases h with
  | none kept => rwa [kept]
  | init c w level issued next low high left =>
    have hin := List.mem_of_getElem? (left ▸ getElem?_putContext_self _ next)
    rw [left]
    exact forall_mem_putContext hs c (Window.filled_of_empty (hm _ hin) rfl rfl)
  | reset c x issued found left =>
    rw [left]
    exact forall_mem_set hs c
      (Window.filled_of_empty (QtCtx.window_restart _ (hs x (List.mem_of_getElem? found)).ok) rfl rfl)
  | opened c inp n x issued found left =>
    rw [left]
    exact forall_mem_set hs c (hs x (List.mem_of_getElem? found))
  | ran c p x z here runs left =>
    have hx := hs x (List.mem_of_getElem? here.2)
    rw [left]
    refine forall_mem_set hs c ?_
    cases runs with
    | executes i y fetched runs =>
      exact runs.filled (((decodeQt_leaves s.cfg s.inp p x).of_ok fetched).toSameCall.filled hx)
    | fails y stopped marked => rw [marked]; exact stopped.toSameCall.filled hx

/-! ## The call in progress -/

theorem QtCtx.SameCall.inCall {x y : QtCtx} (h : x.SameCall y) {outLen : Nat} {p : QtPhase} (hx : x.InCall outLen p) :
    y.InCall outLen p :=
  ⟨h.fault.trans hx.sound, h.togo ▸ hx.within, h.wsize ▸ hx.fits, by rw [h.togo, h.win]; exact hx.produced,
    by rw [h.togo]; exact hx.start, by rw [h.togo, h.started]; exact hx.tokens⟩

/-- An element that leaves bytes to produce leads to the next token (R204). -/
theorem QtCtx.Executes.inCall {p : QtPhase} {x y : QtCtx} (h : QtCtx.Executes p x y) {outLen : Nat} (hx : x.InCall outLen p)
    (hok : x.win.ok .qtwin x.wsize) (hy : y.togo ≠ 0) : y.InCall outLen .tokens := by
  obtain ⟨hsound, hwithin, hfits, hproduced, hstart, htokens⟩ := hx
  cases h with
  | starts _ code => exact ⟨hsound, hwithin, hfits, hproduced, nofun, fun _ => ⟨rfl, Nat.one_le_iff_ne_zero.2 hy⟩⟩
  | emits _ bs hroom =>
    refine ⟨hsound, Nat.le_trans (Nat.sub_le ..) hwithin, hfits, ?_, nofun, fun _ =>
      ⟨(htokens rfl).1, Nat.one_le_iff_ne_zero.2 hy⟩⟩
    show outLen - (x.togo - bs.length) ≤ (x.win.putAll .qtwin x.wsize bs).valid
    rw [Window.putAll_valid hok bs]
    omega

/-- A `QT_DECODE` is in progress after a step because it was before, or because its command has just started. -/
theorem StepEffect.qt_running {s t : State} (h : StepEffect s t) {c : Nat} {p : QtPhase} {z : QtCtx} (ht : QtAt t c p z) :
    t = s ∨
    (z.fault = false ∧ z.togo = t.outLen ∧ t.outLen ≤ z.wsize ∧
      (p = .start ∨ p = .tokens ∧ z.started = true ∧ t.outLen ≠ 0)) ∨
    ∃ q x i y, QtAt s c q x ∧ decodeQt s.cfg s.inp q x = .ok i y ∧ QtCtx.Executes q y z ∧ z.togo ≠ 0 ∧ p = .tokens ∧
      t.outLen = s.outLen := by
  obtain ⟨hr, hz⟩ := ht
  cases h with
  | idle => exact .inl rfl
  | command cmd rest t hr' hp start =>
    cases start with
    | qtOpened c' inp n q x found sound fits place =>
      obtain ⟨rfl, rfl⟩ := Run.qt.inj hr
      obtain rfl := getElem?_set_of_some found hz
      exact .inr (.inl ⟨sound, rfl, fits, place.imp And.left id⟩)
    | lzResumed c inp n x t found sound runs => cases runs <;> cases hr
    | _ => cases hr
  | mz d q x t here runs => cases runs <;> cases hr
  | qt d q x y i t here fetched runs =>
    cases runs with
    | goesOn w runs togo =>
      obtain ⟨rfl, rfl⟩ := Run.qt.inj hr
      obtain rfl := getElem?_set_of_some here.2 hz
      exact .inr (.inr ⟨q, x, i, y, here, fetched, runs, togo, rfl, rfl⟩)
    | finishes => cases hr
    | fails => cases hr
  | lz c x t here runs => cases runs <;> cases hr
  | _ => cases hr

/-- Settles O53: the contexts, and the `QT_DECODE` in progress. -/
theorem stepKeepsTheQuantumWindow : Obligations.StepKeepsTheQuantumWindow := by
  intro s t hm hs hstep
  have he := step_effect hstep
  have hmt := stepKeepsMemoryForm s t hm hstep
  obtain ⟨hwin, hcall⟩ := (qtWindowInv_iff hm.2.1).1 hs
  refine (qtWindowInv_iff hmt.2.1).2 ⟨he.qt_change.filled hmt.2.1 hwin, fun c p z ht => ?_⟩
  obtain rfl | ⟨hsound, htogo, hfits, hplace⟩ | ⟨q, x, i, y, here, fetched, runs, hz, rfl, hlen⟩ := he.qt_running ht
  · exact hcall c p z ht
  · refine ⟨hsound, htogo.le, hfits, by omega, fun _ => htogo, fun hp => ?_⟩
    obtain rfl | ⟨-, hstarted, hn⟩ := hplace
    · cases hp
    · exact ⟨hstarted, by omega⟩
  · have hsame := ((decodeQt_leaves s.cfg s.inp q x).of_ok fetched).toSameCall
    rw [hlen]
    exact runs.inCall (hsame.inCall (hcall c q x here)) (hsame.window (hm.2.1 x (List.mem_of_getElem? here.2))) hz

end Sys2Proof.Machine
end

section
/-! PROOF. What the MSZIP elements that go to the window or end a block do (42_mszip.md R174, R186 to R190). -/

namespace Sys2Proof.Machine

/-- An error in an `MZ_DECODE` (R290). -/
theorem State.raise_of_mz {s : State} {c : Nat} {p : MzPhase} (h : s.run = .mz c p) (k : ErrKind) :
    s.raise k = s.spoilOut.endWith k := by simp [State.raise, h]

/-- The end of a block (R171, R190). -/
theorem mzBlockEnd_eq_afterBlock {s : State} {c : Nat} {p : MzPhase} (h : s.run = .mz c p) (x : MzCtx) :
    mzBlockEnd s c x = .next (afterBlock s c x) := by
  unfold afterBlock
  obtain ⟨hf, hp, he⟩ | ⟨hf, hp, he⟩ | ⟨hf, he⟩ := mzBlockEnd_cases s c x <;> rw [he]
  · rw [if_neg (by simp [hf]), if_neg hp, State.raise_setMz h]
  · rw [if_neg (by simp [hf]), if_pos hp]
  · rw [if_pos hf]

/-- Settles O18: the checks in their order, then the byte. -/
theorem storedBlockElements : Obligations.StoredBlockElements := by
  refine ⟨fun s c x len nlen ⟨hr, hx⟩ => ?_, fun s c x left b ⟨hr, hx⟩ hleft hroom => ?_⟩
  · show execStoredHdr len nlen s = _
    rw [execStoredHdr, withMz_at hr hx]
    dsimp only
    rw [State.raise_of_mz hr, State.raise_of_mz hr, mzBlockEnd_eq_afterBlock hr, MzCtx.room]
    split
    · rfl
    · split
      · rfl
      · split <;> rfl
  · show execRaw b s = _
    have hnonzero : x.room ≠ 0 := by rw [MzCtx.room]; omega
    rw [execRaw, withMz_at hr hx]
    dsimp only
    rw [if_neg hnonzero, mzBlockEnd_eq_afterBlock (s := s.emit [b]) hr]
    by_cases hlast : left = 1
    · rw [if_pos hlast.le, if_pos hlast]; rfl
    · rw [if_neg (by omega), if_neg hlast]; rfl

/-- Settles O21: each element where the symbol loop takes it. -/
theorem symbolElements : Obligations.SymbolElements := by
  refine ⟨fun s c x b ⟨hr, hx⟩ hroom => ?_, fun s c x ⟨hr, hx⟩ => ?_, fun s c x len ⟨hr, hx⟩ => ?_,
    fun s c x sym ⟨hr, hx⟩ => ?_, fun s c x len sym ⟨hr, hx⟩ => ?_⟩
  · show execLit b s = _
    rw [execLit, withMz_at hr hx, whereSymbols, if_neg hroom]; rfl
  · show execEob s = _
    rw [execEob, withMz_at hr hx, whereSymbols, mzBlockEnd_eq_afterBlock hr]
  · show execMatch len s = _
    rw [execMatch, withMz_at hr hx, whereSymbols]
  · show execLlReserved sym s = _
    rw [execLlReserved, withMz_at hr hx, whereSymbols, State.raise_of_mz hr]
  · show execDistReserved sym s = _
    rw [execDistReserved, withMz_at hr hx]
    exact congrArg Host.Outcome.next (State.raise_of_mz hr _)

/-- The check of a back-reference fails on each of its three grounds (R73). -/
theorem winCheck_eq_false {w : Window} {dist len room : Nat} (h : dist = 0 ∨ w.valid < dist ∨ room < len) :
    winCheck w dist len room = false := by
  rw [← Bool.not_eq_true, winCheck_iff]
  omega

/-- Settles O23: a distance that passes the check meets no unwritten byte. -/
theorem matchIsCopiedOrRejected : Obligations.MatchIsCopiedOrRejected := by
  refine ⟨fun s c x len d hm hs ⟨hr, hx⟩ h1 h2 hlen => ?_, fun s c x len d ⟨hr, hx⟩ hbad => ?_⟩
  · have hin := List.mem_of_getElem? hx
    obtain ⟨w, bs, hcopy, -, -⟩ := winCopy_filled h1 len ((hs.1 x hin).filled (hm.1 x hin)) h2
    refine ⟨w, bs, hcopy, (winCopy_eq_putAll hcopy).2, ?_⟩
    show execDist d s = _
    rw [execDist, withMz_at hr hx]
    dsimp only
    rw [if_pos ((winCheck_iff x.win d len x.room).2 ⟨by omega, h2, hlen⟩), hcopy]
  · show execDist d s = _
    rw [execDist, withMz_at hr hx]
    dsimp only
    rw [MzCtx.room, winCheck_eq_false hbad, State.raise_of_mz hr]
    rfl

end Sys2Proof.Machine
end

section
/-! PROOF. A Quantum match: what goes to the window, and OUT when it was the last (43_quantum.md R212, R216, R220). -/

namespace Sys2Proof.Machine

/-- A run of bytes, read in order (R220). -/
theorem readRun_bytes {sp : Space} {cap : Nat} {m : Memory} {start len : Nat} {bs : List Byte} (hs : start < cap)
    (h : readRun sp cap m start len = some bs) :
    bs.length = len ∧ ∀ k, k < len → bs[k]? = memRead sp m ((start + k) % cap) := by
  induction len generalizing start bs with
  | zero =>
    obtain rfl : [] = bs := Option.some.inj h
    exact ⟨rfl, fun k hk => absurd hk (Nat.not_lt_zero k)⟩
  | succ n ih =>
    rw [readRun] at h
    split at h
    · cases h
    · next b hb =>
      split at h
      · cases h
      · next cs hrest =>
        obtain rfl : b :: cs = bs := Option.some.inj h
        obtain ⟨hlen, hbytes⟩ := ih (Nat.mod_lt _ (by omega)) hrest
        refine ⟨by rw [List.length_cons, hlen], fun k hk => ?_⟩
        cases k with
        | zero => rw [Nat.add_zero, Nat.mod_eq_of_lt hs, hb]; rfl
        | succ k =>
          rw [List.getElem?_cons_succ, hbytes k (by omega), Nat.mod_add_mod, Nat.add_assoc, Nat.add_comm 1]

/-- While bytes are left to produce the next token follows (R204). -/
theorem qtContinue_more {s : State} {c : Nat} {x : QtCtx} (h : x.togo ≠ 0) :
    qtContinue s c x = .next ((s.setQt c x).setRun (.qt c .tokens)) := if_neg h

/-- When nothing is left to produce OUT gets the bytes that end at the cursor (R220). -/
theorem qtContinue_done {s : State} {c : Nat} {x : QtCtx} (h : x.Producing s.outLen) (hz : x.togo = 0) :
    ∃ bs, qtContinue s c x = .next ({ s.setQt c x with out := bs }).finish ∧ bs.length = s.outLen ∧
      ∀ k, k < s.outLen → bs[k]? = memRead .qtwin x.win.cells ((x.win.wpos + x.wsize - s.outLen + k) % x.wsize) := by
  have hvalid : s.outLen ≤ x.win.valid := by have := h.produced; omega
  obtain ⟨bs, hread⟩ := Option.isSome_iff_exists.1 (h.filled.trailing_written hvalid)
  have hpos := h.filled.ok.2.1
  obtain ⟨hlen, hbytes⟩ := readRun_bytes (Nat.mod_lt _ (by omega)) hread
  refine ⟨bs, ?_, hlen, fun k hk => by rw [hbytes k hk, Nat.mod_add_mod]⟩
  have hread : readRun .qtwin x.wsize x.win.cells (x.extractStart s.outLen) s.outLen = some bs := hread
  rw [qtContinue, if_pos hz, hread]

/-- The three match elements are DoMatch (R212). -/
theorem exec_qtMatch {s : State} {i : Instr} {off len : Nat}
    (h : i = .qm3 off ∧ len = 3 ∨ i = .qm4 off ∧ len = 4 ∨ i = .qmv len off) : exec i s = qtMatch s off len := by
  obtain ⟨rfl, rfl⟩ | ⟨rfl, rfl⟩ | rfl := h <;> rfl

/-- Settles O33: a match that passes the check meets no unwritten byte, nor does Extract after it. -/
theorem quantumMatchIsCopiedOrRejected : Obligations.QuantumMatchIsCopiedOrRejected := by
  refine ⟨fun s c x off len i hm hs here hi h1 h2 hlen => ?_, fun s c x off len i ⟨hr, hx⟩ htogo hi hbad => ?_⟩
  · obtain ⟨hwin, hcall⟩ := (qtWindowInv_iff hm.2.1).1 hs
    have hfilled := hwin x (List.mem_of_getElem? here.2)
    have hin := hcall c .tokens x here
    obtain ⟨w, bs, hcopy, hw, hv⟩ := winCopy_filled h1 len hfilled h2
    refine ⟨w, bs, hcopy, ?_⟩
    intro y
    have hproducing : y.Producing s.outLen := by
      have hfits := hin.fits
      have hproduced := hin.produced
      have hwithin := hin.within
      refine ⟨hw, hfits, ?_⟩
      show s.outLen - (x.togo - len) ≤ w.valid
      omega
    have hexec : exec i s = qtContinue s c y := by
      rw [exec_qtMatch hi, qtMatch, withQt_at here.1 here.2, whereTokens]
      have htogo : x.togo ≠ 0 := by have := (hin.tokens rfl).2; omega
      rw [if_neg htogo, if_pos ((winCheck_iff ..).2 ⟨by omega, h2, hlen⟩), hcopy]
    rw [hexec]
    have hleft : y.togo = x.togo - len := rfl
    exact ⟨fun hlt => qtContinue_more (by omega), fun heq => qtContinue_done hproducing (by omega)⟩
  · rw [exec_qtMatch hi, qtMatch, withQt_at hr hx, whereTokens]
    have hraise := State.raise_setQt hr x .corruptData
    rw [State.setQt_self hx] at hraise
    rw [if_neg htogo, winCheck_eq_false hbad, hraise]
    rfl

end Sys2Proof.Machine
end

section
/-! PROOF. The MSB-first reader BRM (40_bitreaders.md R135 to R137): how many unread bits a read asks for, what it answers when
they are there and when not, and that sub-reads in sequence are one read. -/

namespace Sys2Proof.Machine

/-! ## What a read answers (R136) -/

/-- From `r`, a read that asks for `n` bits succeeds with `post` when they are there or zeros may be supplied, and else fails
with TruncatedInput; of the bits that were there it leaves all but `k`. -/
structure Brm.Answers {α : Type} (cfg : Config) (inp : List Byte) (n k : Nat) (r : Brm) (g : Got Brm α)
    (post : α → Brm → Prop) : Prop where
  served : cfg.qtZeroFill = true ∨ n ≤ r.bitsLeft inp →
    ∃ a r', g = .ok a r' ∧ post a r' ∧ (cfg.qtZeroFill = false → r'.bitsLeft inp + k = r.bitsLeft inp)
  truncated : cfg.qtZeroFill = false → r.bitsLeft inp < n → ∃ r', g = .err .truncatedInput r'

/-- A read that has what it asks for. -/
theorem Brm.Answers.of_held {α : Type} {cfg : Config} {inp : List Byte} {n k : Nat} {r r' : Brm} {a : α}
    {post : α → Brm → Prop} (hn : n ≤ r.bitsLeft inp) (hpost : post a r') (hk : r'.bitsLeft inp + k = r.bitsLeft inp) :
    Brm.Answers cfg inp n k r (.ok a r') post :=
  ⟨fun _ => ⟨a, r', rfl, hpost, fun _ => hk⟩, fun _ hlt => absurd hn (by omega)⟩

/-- Two reads in sequence ask for the bits of both (R137). -/
theorem Brm.Answers.bind {α β : Type} {cfg : Config} {inp : List Byte} {m n k : Nat} {r : Brm} {g : Got Brm α}
    {f : α → Brm → Got Brm β} {mid : α → Brm → Prop} {post : β → Brm → Prop} (h : Brm.Answers cfg inp m m r g mid)
    (hf : ∀ a r', mid a r' → Brm.Answers cfg inp n k r' (f a r') post) :
    Brm.Answers cfg inp (m + n) (m + k) r (g.bind f) post := by
  constructor
  · intro hserved
    obtain ⟨a, r1, rfl, hmid, hleft⟩ := h.served (hserved.imp_right fun hn => by omega)
    have hserved' : cfg.qtZeroFill = true ∨ n ≤ r1.bitsLeft inp := by
      cases hz : cfg.qtZeroFill with
      | true => exact .inl rfl
      | false =>
        have hn := hserved.resolve_left (by simp [hz])
        have := hleft hz
        exact .inr (by omega)
    obtain ⟨b, r2, hok, hpost, hleft'⟩ := (hf a r1 hmid).served hserved'
    exact ⟨b, r2, hok, hpost, fun hz => by have := hleft hz; have := hleft' hz; omega⟩
  · intro hz hlt
    by_cases hm : m ≤ r.bitsLeft inp
    · obtain ⟨a, r1, rfl, hmid, hleft⟩ := h.served (.inr hm)
      have := hleft hz
      exact (hf a r1 hmid).truncated hz (by omega)
    · obtain ⟨r1, rfl⟩ := h.truncated hz (by omega)
      exact ⟨r1, rfl⟩

theorem Brm.Answers.imp {α : Type} {cfg : Config} {inp : List Byte} {n k : Nat} {r : Brm} {g : Got Brm α}
    {post post' : α → Brm → Prop} (h : Brm.Answers cfg inp n k r g post) (hp : ∀ a r', post a r' → post' a r') :
    Brm.Answers cfg inp n k r g post' :=
  ⟨fun hserved => by
    obtain ⟨a, r', hok, hpost, hleft⟩ := h.served hserved
    exact ⟨a, r', hok, hp a r' hpost, hleft⟩, h.truncated⟩

/-! ## The next byte (R135) -/

/-- `r'` is `r` with more bytes of the same stream held. -/
def Brm.Refilled (inp : List Byte) (r r' : Brm) : Prop := r'.wf inp ∧ ∀ i, r'.streamBit inp i = r.streamBit inp i

theorem Brm.Refilled.trans {inp : List Byte} {r r' r'' : Brm} (h : Brm.Refilled inp r r') (h' : Brm.Refilled inp r' r'') :
    Brm.Refilled inp r r'' := ⟨h'.1, fun i => (h'.2 i).trans (h.2 i)⟩

/-- The accumulator after a byte has entered below the held bits. -/
theorem testBit_pushBelow {acc nbits w i : Nat} (b : Byte) (ha : acc < 2 ^ nbits) (hw : nbits + 8 ≤ w) :
    (((acc <<< 8) ||| b.toNat) % 2 ^ w).testBit i = if i < 8 then b.getLsbD i else acc.testBit (i - 8) := by
  rw [Nat.testBit_mod_two_pow, Nat.testBit_lor, Nat.testBit_shiftLeft]
  by_cases hi : i < 8
  · simp [hi, show i < w by omega, show ¬8 ≤ i by omega, BitVec.getLsbD]
  · have hbyte : b.toNat.testBit i = false := BitVec.getLsbD_of_ge b i (by omega)
    by_cases hiw : i < w
    · simp [hi, hiw, hbyte, show 8 ≤ i by omega]
    · have hacc : acc.testBit (i - 8) = false :=
        Nat.testBit_lt_two_pow (lt_of_lt_of_le ha (Nat.pow_le_pow_right (by decide) (by omega)))
      simp [hi, hiw, hacc]

theorem pushBelow_lt {acc nbits w : Nat} (b : Byte) (ha : acc < 2 ^ nbits) (hw : nbits + 8 ≤ w) :
    ((acc <<< 8) ||| b.toNat) % 2 ^ w < 2 ^ (nbits + 8) := by
  refine Nat.lt_pow_two_of_testBit _ fun i hi => ?_
  rw [testBit_pushBelow b ha hw, if_neg (by omega)]
  exact Nat.testBit_lt_two_pow (lt_of_lt_of_le ha (Nat.pow_le_pow_right (by decide) (by omega)))

theorem msbBit_add_eight (inp : List Byte) (off i : Nat) : msbBit inp off (i + 8) = msbBit inp (off + 1) i := by
  rw [msbBit, msbBit, Nat.add_div_right i (by decide), Nat.add_mod_right, show off + (i / 8 + 1) = off + 1 + i / 8 by omega]

theorem msbBit_past {inp : List Byte} {off : Nat} (h : inp.length ≤ off) (i : Nat) : msbBit inp off i = false := by
  rw [msbBit, List.getElem?_eq_none (by omega)]

theorem msbBit_first {inp : List Byte} {off i : Nat} {b : Byte} (h : inp[off]? = some b) (hi : i < 8) :
    msbBit inp off i = b.getLsbD (7 - i) := by
  rw [msbBit, Nat.div_eq_of_lt hi, Nat.mod_eq_of_lt hi, Nat.add_zero, h]

section
variable {cfg : Config} (hc : readersOk cfg) {inp : List Byte} {r : Brm} (h : r.wf inp)
include hc h

/-- A byte enters that is the next of the stream, the cursor then at `off` (R135, R136). -/
theorem Brm.refilled_push (hn : r.nbits < 16) (b : Byte) {off : Nat} (hoff : off ≤ inp.length)
    (hfirst : ∀ i, i < 8 → msbBit inp r.inOff i = b.getLsbD (7 - i))
    (hrest : ∀ i, msbBit inp r.inOff (i + 8) = msbBit inp off i) :
    Brm.Refilled inp r (({ r with inOff := off }).push cfg b) := by
  obtain ⟨hbits, hacc, -⟩ := h
  obtain ⟨hwidth, -, -⟩ := hc
  have hw : r.nbits + 8 ≤ cfg.accWidth := by omega
  refine ⟨⟨by simp only [Brm.push]; omega, pushBelow_lt b hacc hw, hoff⟩, fun i => ?_⟩
  simp only [Brm.streamBit, Brm.push, testBit_pushBelow b hacc hw]
  by_cases h1 : i < r.nbits
  · rw [if_pos (by omega), if_neg (by omega), if_pos h1, show r.nbits + 8 - 1 - i - 8 = r.nbits - 1 - i by omega]
  · rw [if_neg h1]
    by_cases h2 : i < r.nbits + 8
    · rw [if_pos h2, if_pos (by omega), hfirst _ (by omega), show r.nbits + 8 - 1 - i = 7 - (i - r.nbits) by omega]
    · rw [if_neg h2, ← hrest, show i - (r.nbits + 8) + 8 = i - r.nbits by omega]

/-- `qneed(n)` (R135, R136). -/
theorem Brm.needLoop_answers {n : Nat} (hn : n ≤ 16) (fuel : Nat) (henough : n ≤ r.nbits + 8 * fuel) :
    Brm.Answers cfg inp n 0 r (Brm.needLoop cfg inp n fuel r) fun _ r' => Brm.Refilled inp r r' ∧ n ≤ r'.nbits := by
  have hheld : n ≤ r.nbits → Brm.Answers cfg inp n 0 r (.ok () r) fun _ r' => Brm.Refilled inp r r' ∧ n ≤ r'.nbits :=
    fun hle => .of_held (by unfold Brm.bitsLeft; omega) ⟨⟨h, fun _ => rfl⟩, hle⟩ rfl
  induction fuel generalizing r with
  | zero => exact hheld henough
  | succ fuel ih =>
    rw [Brm.needLoop]
    split
    · next hlt =>
      have next : ∀ r1 : Brm, r1.nbits = r.nbits + 8 → Brm.Refilled inp r r1 →
          Brm.Answers cfg inp n 0 r1 (Brm.needLoop cfg inp n fuel r1) fun _ r' => Brm.Refilled inp r r' ∧ n ≤ r'.nbits :=
        fun r1 hbits hf => (ih hf.1 (by omega) fun hle =>
          .of_held (by unfold Brm.bitsLeft; omega) ⟨⟨hf.1, fun _ => rfl⟩, hle⟩ rfl).imp
            fun _ _ hr' => ⟨hf.trans hr'.1, hr'.2⟩
      split
      · next b hb =>
        have hlen := (List.getElem?_eq_some_iff.1 hb).1
        have hans := next _ rfl (Brm.refilled_push hc h (by omega) b hlen (fun i hi => msbBit_first hb hi)
          (msbBit_add_eight inp r.inOff))
        have hleft : (({ r with inOff := r.inOff + 1 } : Brm).push cfg b).bitsLeft inp = r.bitsLeft inp := by
          simp only [Brm.bitsLeft, Brm.push]; omega
        exact ⟨by rw [← hleft]; exact hans.served, by rw [← hleft]; exact hans.truncated⟩
      · next hb =>
        have hge : inp.length ≤ r.inOff := List.getElem?_eq_none_iff.1 hb
        have hempty : r.bitsLeft inp = r.nbits := by unfold Brm.bitsLeft; omega
        have hzero : ∀ i, i < 8 → msbBit inp r.inOff i = (0 : Byte).getLsbD (7 - i) := fun i _ => by
          rw [msbBit_past hge]; exact (BitVec.getLsbD_zero).symm
        split
        · next hz =>
          have hans := next _ rfl (Brm.refilled_push hc h (by omega) 0 h.2.2 hzero fun i => by
            rw [msbBit_past hge, msbBit_past hge])
          refine ⟨fun _ => ?_, fun hz' => absurd hz (by simp [hz'])⟩
          obtain ⟨a, r', hok, hpost, -⟩ := hans.served (.inl hz)
          exact ⟨a, r', hok, hpost, fun hz' => absurd hz (by simp [hz'])⟩
        · next hz => exact ⟨fun hserved => absurd (hserved.resolve_left hz) (by omega), fun _ _ => ⟨r, rfl⟩⟩
    · exact hheld (by omega)

end

/-! ## Taking bits (R137) -/

/-- `v` is the next `n` bits of the stream, the first as the most significant, and `r'` stands behind them. -/
structure Brm.Took (inp : List Byte) (n : Nat) (r : Brm) (v : Nat) (r' : Brm) : Prop where
  small : v < 2 ^ n
  bits : ∀ i, i < n → v.testBit (n - 1 - i) = r.streamBit inp i
  wf : r'.wf inp
  stream : ∀ j, r'.streamBit inp j = r.streamBit inp (n + j)

@[simp] theorem Brm.dropTop_nbits (n : Nat) (r : Brm) : (r.dropTop n).nbits = r.nbits - n := rfl
@[simp] theorem Brm.dropTop_acc (n : Nat) (r : Brm) : (r.dropTop n).acc = r.acc % 2 ^ (r.nbits - n) := rfl
@[simp] theorem Brm.dropTop_inOff (n : Nat) (r : Brm) : (r.dropTop n).inOff = r.inOff := rfl

/-- The top bits of the accumulator are the next of the stream. -/
theorem Brm.took_top {inp : List Byte} {n : Nat} {r : Brm} (h : r.wf inp) (hn : n ≤ r.nbits) :
    Brm.Took inp n r (r.top n) (r.dropTop n) := by
  obtain ⟨hbits, -, hoff⟩ := h
  refine ⟨Nat.mod_lt _ (Nat.two_pow_pos n), fun i hi => ?_, ⟨by rw [Brm.dropTop_nbits]; omega, ?_, hoff⟩, fun j => ?_⟩
  · rw [Brm.top, Nat.testBit_mod_two_pow, Nat.testBit_shiftRight, Brm.streamBit, if_pos (by omega),
      show r.nbits - n + (n - 1 - i) = r.nbits - 1 - i by omega]
    simp [show n - 1 - i < n by omega]
  · exact Nat.mod_lt _ (Nat.two_pow_pos _)
  · rw [Brm.streamBit, Brm.streamBit, Brm.dropTop_nbits, Brm.dropTop_acc, Brm.dropTop_inOff]
    by_cases hj : j < r.nbits - n
    · rw [if_pos hj, if_pos (by omega), Nat.testBit_mod_two_pow, show r.nbits - n - 1 - j = r.nbits - 1 - (n + j) by omega]
      simp [show r.nbits - 1 - (n + j) < r.nbits - n by omega]
    · rw [if_neg hj, if_neg (by omega), show j - (r.nbits - n) = n + j - r.nbits by omega]

theorem Brm.Refilled.took {inp : List Byte} {n v : Nat} {r r1 r2 : Brm} (h : Brm.Refilled inp r r1)
    (ht : Brm.Took inp n r1 v r2) : Brm.Took inp n r v r2 :=
  ⟨ht.small, fun i hi => (ht.bits i hi).trans (h.2 i), ht.wf, fun j => (ht.stream j).trans (h.2 _)⟩

/-- The leading bits first (R137). -/
theorem Brm.Took.append {inp : List Byte} {m n hi lo : Nat} {r r1 r2 : Brm} (h : Brm.Took inp m r hi r1)
    (h' : Brm.Took inp n r1 lo r2) : Brm.Took inp (m + n) r ((hi <<< n) ||| lo) r2 := by
  refine ⟨?_, fun i hi' => ?_, h'.wf, fun j => by rw [h'.stream, h.stream, Nat.add_assoc]⟩
  · rw [← Nat.shiftLeft_add_eq_or_of_lt h'.small, Nat.shiftLeft_eq]
    have hsmall := h'.small
    calc hi * 2 ^ n + lo < (hi + 1) * 2 ^ n := by rw [Nat.add_mul, Nat.one_mul]; omega
      _ ≤ 2 ^ m * 2 ^ n := Nat.mul_le_mul_right _ h.small
      _ = 2 ^ (m + n) := (Nat.pow_add 2 m n).symm
  · rw [Nat.testBit_lor, Nat.testBit_shiftLeft]
    by_cases him : i < m
    · have hlo : lo.testBit (m + n - 1 - i) = false :=
        Nat.testBit_lt_two_pow (lt_of_lt_of_le h'.small (Nat.pow_le_pow_right (by decide) (by omega)))
      rw [hlo, show m + n - 1 - i - n = m - 1 - i by omega, h.bits i him]
      simp [show n ≤ m + n - 1 - i by omega]
    · rw [show m + n - 1 - i = n - 1 - (i - m) by omega, h'.bits (i - m) (by omega), h.stream,
        show m + (i - m) = i by omega]
      simp [show ¬n ≤ n - 1 - (i - m) by omega]

/-- A sub-read (R137). -/
theorem Brm.read16_answers {cfg : Config} (hc : readersOk cfg) {inp : List Byte} {n : Nat} (hn : n ≤ 16) {r : Brm}
    (h : r.wf inp) : Brm.Answers cfg inp n n r (r.read16 cfg inp n) (Brm.Took inp n r) := by
  unfold Brm.read16
  split
  · next hz =>
    subst hz
    exact .of_held (Nat.zero_le _) ⟨Nat.one_pos, fun i hi => absurd hi (Nat.not_lt_zero i), h, fun j => by rw [Nat.zero_add]⟩ rfl
  · have hneed := Brm.needLoop_answers hc h hn n (by omega)
    constructor
    · intro hserved
      obtain ⟨_, r1, hok, ⟨hf, hheld⟩, hleft⟩ := hneed.served hserved
      refine ⟨r1.top n, r1.dropTop n, by rw [Brm.need, hok]; rfl, hf.took (Brm.took_top hf.1 hheld), fun hz => ?_⟩
      rw [← hleft hz]
      simp only [Brm.bitsLeft, Brm.dropTop_nbits, Brm.dropTop_inOff]
      omega
    · intro hz hlt
      obtain ⟨r1, herr⟩ := hneed.truncated hz hlt
      exact ⟨r1, by rw [Brm.need, herr]; rfl⟩

/-- A read of any width, in sub-reads (R137). -/
theorem Brm.read_answers {cfg : Config} (hc : readersOk cfg) {inp : List Byte} (n : Nat) {r : Brm} (h : r.wf inp) :
    Brm.Answers cfg inp n n r (r.read cfg inp n) (Brm.Took inp n r) := by
  obtain ⟨-, h1, h16⟩ := id hc
  induction n using Nat.strong_induction_on generalizing r with
  | _ n ih =>
    by_cases hn : n ≤ cfg.brmSubRead
    · rw [Brm.read_narrow hn]
      exact Brm.read16_answers hc (by omega) h
    · have hsplit : n - cfg.brmSubRead + cfg.brmSubRead = n := by omega
      rw [Brm.read_wide h1 (by omega)]
      have := (ih (n - cfg.brmSubRead) (by omega) h).bind (k := cfg.brmSubRead + 0) fun hi r1 hhi =>
        (Brm.read16_answers hc h16 hhi.wf).bind fun lo r2 hlo =>
          Brm.Answers.of_held (k := 0) (a := (hi <<< cfg.brmSubRead) ||| lo) (Nat.zero_le _) (hhi.append hlo) rfl
      simpa only [Nat.add_zero, hsplit] using this

/-- Settles O9: a clause for each way a read of `n` bits comes out. -/
theorem brmReadGivesTheNextBitsOrFails : Obligations.BrmReadGivesTheNextBitsOrFails := by
  intro cfg inp r n hc _ h
  have hans := Brm.read_answers hc n h
  refine ⟨fun hz hn => ?_, hans.truncated, fun hz => ?_⟩
  · obtain ⟨v, r', hok, ht, hleft⟩ := hans.served (.inr hn)
    exact ⟨v, r', hok, ht.small, ht.bits, ht.wf, ht.stream, hleft hz⟩
  · obtain ⟨v, r', hok, ht, -⟩ := hans.served (.inl hz)
    exact ⟨v, r', hok, ht.small, ht.bits, ht.wf, ht.stream⟩

end Sys2Proof.Machine
end

section
/-! PROOF. The byte-wise elements and the commands: what the decoder reads is what was encoded (30_encoding.md R62, R64, R66,
R120 to R124, 45_host_commands.md R261), and some words of the spec's text. -/

namespace Sys2Proof.Machine

/-! ## Numbers from their bytes -/

/-- A 32-bit number is the little-endian number of its four bytes (R62). -/
theorem word32_extractLsb' (w : BitVec 32) :
    word32 (w.extractLsb' 0 8) (w.extractLsb' 8 8) (w.extractLsb' 16 8) (w.extractLsb' 24 8) = w := by
  refine BitVec.eq_of_getLsbD_eq fun i hi => ?_
  simp only [word32, BitVec.getLsbD_or, BitVec.getLsbD_shiftLeft, BitVec.getLsbD_setWidth, BitVec.getLsbD_extractLsb']
  obtain h | h | h | h : i < 8 ∨ (8 ≤ i ∧ i < 16) ∨ (16 ≤ i ∧ i < 24) ∨ 24 ≤ i := by omega
  all_goals grind

/-- The two bytes of a reference carry its table offset (R124). -/
theorem refOffset_bytes (off : BitVec 12) (len : BitVec 4) :
    refOffset (off.setWidth 8) (((off >>> 8).setWidth 8 <<< 4) ||| len.setWidth 8) = off := by
  refine BitVec.eq_of_getLsbD_eq fun i hi => ?_
  interval_cases i <;> simp [refOffset]

/-- They carry its length field (R124). -/
theorem refLenField_bytes (off : BitVec 12) (len : BitVec 4) :
    refLenField (((off >>> 8).setWidth 8 <<< 4) ||| len.setWidth 8) = len := by
  refine BitVec.eq_of_getLsbD_eq fun i hi => ?_
  simp only [refLenField, BitVec.getLsbD_or, BitVec.getLsbD_shiftLeft, BitVec.getLsbD_setWidth]
  grind

/-! ## The bytes at the cursor (R243) -/

/-- GetByte, where the next byte is known. -/
theorem lzGetByte_at {inp : List Byte} {x : LzCtx} {b : Byte} (h : inp[x.inPos]? = some b) :
    lzGetByte inp x = .ok b { x with inPos := x.inPos + 1 } := by rw [lzGetByte, h]

/-- Bytes that stand somewhere in a list, each at its place. -/
theorem getElem?_of_take_drop {inp bs : List Byte} {n : Nat} (h : (inp.drop n).take bs.length = bs) {k : Nat}
    (hk : k < bs.length) : inp[n + k]? = bs[k]? := by
  rw [← List.getElem?_drop, ← List.getElem?_take_of_lt hk, h]

section
variable {inp : List Byte} {x : LzCtx} (hs : x.slen = 0)
include hs

theorem decodeLz_flags {b : Byte} (hf : x.fcnt = 0) (h : (inp.drop x.inPos).take 1 = [b]) :
    decodeLz inp x = .ok (.flags b) { x with inPos := x.inPos + 1 } := by
  have hb : inp[x.inPos]? = some b := getElem?_of_take_drop (bs := [b]) (k := 0) h (by simp)
  rw [decodeLz, if_neg (by simp [hs]), if_pos hf, lzGetByte_at hb]
  rfl

theorem decodeLz_literal {b : Byte} (hf : x.fcnt ≠ 0) (hflag : x.flags.getLsbD 0 = true)
    (h : (inp.drop x.inPos).take 1 = [b]) :
    decodeLz inp x = .ok (.lzlit b) { x with flags := x.flags >>> 1, fcnt := x.fcnt - 1, inPos := x.inPos + 1 } := by
  have hb : inp[x.shiftFlags.inPos]? = some b := getElem?_of_take_drop (bs := [b]) (k := 0) h (by simp)
  rw [decodeLz, if_neg (by simp [hs]), if_neg hf, LzCtx.nextIsLiteral, if_pos hflag, lzGetByte_at hb]
  rfl

theorem decodeLz_reference {b1 b2 : Byte} (hf : x.fcnt ≠ 0) (hflag : x.flags.getLsbD 0 = false)
    (h : (inp.drop x.inPos).take 2 = [b1, b2]) :
    decodeLz inp x =
      .ok (.lzref (refOffset b1 b2) (refLenField b2))
        { x with flags := x.flags >>> 1, fcnt := x.fcnt - 1, inPos := x.inPos + 2 } := by
  have hb1 : inp[x.shiftFlags.inPos]? = some b1 :=
    getElem?_of_take_drop (bs := [b1, b2]) (k := 0) h (by simp)
  have hb2 : inp[({ x.shiftFlags with inPos := x.shiftFlags.inPos + 1 } : LzCtx).inPos]? = some b2 :=
    getElem?_of_take_drop (bs := [b1, b2]) (k := 1) h (by simp)
  rw [decodeLz, if_neg (by simp [hs]), if_neg hf, LzCtx.nextIsLiteral, if_neg (by simp only [hflag]; decide),
    lzGetByte_at hb1, Got.bind, lzGetByte_at hb2]
  rfl

end

/-- LZ_HDR from the 14 bytes of the header (R120, R266). -/
theorem decodeLzHdr_bytes {hdr : List Byte} {last b0 b1 b2 b3 : Byte}
    (h : hdr.take 14 = lzMagic ++ [lzType, last, b0, b1, b2, b3]) :
    decodeLzHdr hdr = .ok (.lzHdr last (word32 b0 b1 b2 b3)) () := by
  have hlen : ¬hdr.length < lzHeaderSize := fun hlt => by
    have := congrArg List.length h
    rw [List.length_take, List.length_append] at this
    simp only [lzMagic, lzHeaderSize, List.length_cons, List.length_nil] at this hlt
    omega
  have hbyte : ∀ k, k < 14 → hdr.getD k 0 = (lzMagic ++ [lzType, last, b0, b1, b2, b3]).getD k 0 := fun k hk => by
    rw [← h, List.getD_eq_getElem?_getD, List.getD_eq_getElem?_getD, List.getElem?_take_of_lt hk]
  have hmagic : hdr.take 8 = lzMagic := by
    have := congrArg (List.take 8) h
    rwa [List.take_take] at this
  rw [decodeLzHdr, if_neg hlen, if_neg (by simp [hmagic]), hbyte 8 (by decide), hbyte 9 (by decide), hbyte 10 (by decide),
    hbyte 11 (by decide), hbyte 12 (by decide), hbyte 13 (by decide), if_neg (by simp [lzMagic])]
  rfl

/-- Settles O7: element by element, and the commands by their table. -/
theorem byteElementsAndCommandsDecodeToWhatWasEncoded : Obligations.ByteElementsAndCommandsDecodeToWhatWasEncoded := by
  refine ⟨⟨fun inp r h => if_pos h, fun hdr last len bs he h => ?_, fun inp x b bs hs hf he h => ?_,
    fun inp x b bs hs hf hflag he h => ?_, fun inp x off len bs hs hf hflag he h => ?_⟩, fun i cmd => ?_⟩
  · cases he
    rw [decodeLzHdr_bytes h, word32_extractLsb']
  · cases he
    exact decodeLz_flags hs hf h
  · cases he
    exact decodeLz_literal hs hf hflag h
  · cases he
    rw [decodeLz_reference hs hf hflag h, refOffset_bytes, refLenField_bytes]
    rfl
  · constructor
    · intro h
      cases i <;> cases h <;> rfl
    · rintro rfl
      cases cmd <;> rfl

/-- Settles O3: each word by running the decoder on it. -/
theorem specWordsDecode : Obligations.SpecWordsDecode :=
  ⟨rfl, rfl, rfl, rfl, rfl, rfl, rfl, rfl, rfl⟩

end Sys2Proof.Machine
end

section
/-! PROOF. What is refused: elements outside their grammar or place (30_encoding.md R90), and the commands that
93_implementation_defined.md marks *refuse* (U1, U2, U6, U8, U10). -/

namespace Sys2Proof.Machine

/-! ## Access -/

theorem withMz_refused {s : State} (h : ∀ c p, s.run ≠ .mz c p) (k : Nat → MzPhase → MzCtx → Result) :
    withMz s k = .refused .outOfPlace := by
  unfold withMz
  split
  · next c p hr => exact absurd hr (h c p)
  · rfl

theorem withQt_refused {s : State} (h : ∀ c p, s.run ≠ .qt c p) (k : Nat → QtPhase → QtCtx → Result) :
    withQt s k = .refused .outOfPlace := by
  unfold withQt
  split
  · next c p hr => exact absurd hr (h c p)
  · rfl

theorem withLz_refused {s : State} (h : ∀ c, s.run ≠ .lz c) (k : Nat → LzCtx → Result) :
    withLz s k = .refused .outOfPlace := by
  unfold withLz
  split
  · next c hr => exact absurd hr (h c)
  · rfl

theorem whenIdle_refused {s : State} (h : s.run ≠ .idle) (r : Result) : whenIdle s r = .refused .commandInProgress := by
  unfold whenIdle
  split
  · next hr => exact absurd hr h
  · rfl

theorem whereHeader_refused {p : MzPhase} (h : p ≠ .header) (r : Result) : whereHeader p r = .refused .outOfPlace := by
  cases p with
  | header => exact absurd rfl h
  | _ => rfl

theorem whereLengths_refused {p : MzPhase} (h : p ≠ .codeLens) (r : Result) : whereLengths p r = .refused .outOfPlace := by
  cases p with
  | codeLens => exact absurd rfl h
  | _ => rfl

theorem whereSymbols_refused {p : MzPhase} (h : p ≠ .symbols) (r : Result) : whereSymbols p r = .refused .outOfPlace := by
  cases p with
  | symbols => exact absurd rfl h
  | _ => rfl

theorem whereTokens_refused {p : QtPhase} {x : QtCtx} (h : p ≠ .tokens ∨ x.togo = 0) (r : Result) :
    whereTokens p x r = .refused .outOfPlace := by
  cases p with
  | start => rfl
  | tokens => exact if_pos (h.resolve_left fun hne => hne rfl)

theorem whereWanted_refused {s : State} {x : LzCtx} (h : x.want + s.outLen ≤ x.real) (r : Result) :
    whereWanted s x r = .refused .outOfPlace := if_pos h

theorem whereWanted_of_lt {s : State} {x : LzCtx} (h : x.real < x.want + s.outLen) (r : Result) : whereWanted s x r = r :=
  if_neg (Nat.not_le.2 h)

/-! ## The grammars (R90) -/

/-- A stream element belongs to one of the grammars (R90, R129). -/
theorem Instr.grammar {i : Instr} (h : encodeCmd i = none) :
    (∃ p : MzPhase, p.takes i) ∨ (∃ p : QtPhase, p.takes i) ∨
    ((∃ b, i = .flags b ∨ i = .lzlit b) ∨ ∃ off lenfield, i = .lzref off lenfield) ∨ ∃ last len, i = .lzHdr last len := by
  cases i with
  | sig => exact .inl ⟨.sig, rfl⟩
  | blkStored f => exact .inl ⟨.header, f, .inl rfl⟩
  | blkFixed f => exact .inl ⟨.header, f, .inr (.inl rfl)⟩
  | blkDynamic f => exact .inl ⟨.header, f, .inr (.inr (.inl rfl))⟩
  | blkReserved f => exact .inl ⟨.header, f, .inr (.inr (.inr rfl))⟩
  | storedHdr len nlen => exact .inl ⟨.storedHdr, len, nlen, rfl⟩
  | raw b => exact .inl ⟨.raw 0, b, rfl⟩
  | dynHdr hlit hdist hclen clen => exact .inl ⟨.dynHdr, hlit, hdist, hclen, clen, rfl⟩
  | cl v => exact .inl ⟨.codeLens, .inl ⟨v, rfl⟩⟩
  | cl16 rep => exact .inl ⟨.codeLens, .inr ⟨rep, .inl rfl⟩⟩
  | cl17 rep => exact .inl ⟨.codeLens, .inr ⟨rep, .inr (.inl rfl)⟩⟩
  | cl18 rep => exact .inl ⟨.codeLens, .inr ⟨rep, .inr (.inr rfl)⟩⟩
  | lit b => exact .inl ⟨.symbols, .inr (.inl ⟨b, rfl⟩)⟩
  | eob => exact .inl ⟨.symbols, .inl rfl⟩
  | mtch len => exact .inl ⟨.symbols, .inr (.inr (.inl ⟨len, rfl⟩))⟩
  | llReserved sym => exact .inl ⟨.symbols, .inr (.inr (.inr ⟨sym, rfl⟩))⟩
  | dist d => exact .inl ⟨.distance 0, .inl ⟨d, rfl⟩⟩
  | distReserved sym => exact .inl ⟨.distance 0, .inr ⟨sym, rfl⟩⟩
  | code16 code => exact .inr (.inl ⟨.start, code, rfl⟩)
  | qlit0 b => exact .inr (.inl ⟨.tokens, .inl ⟨b, .inl rfl⟩⟩)
  | qlit1 b => exact .inr (.inl ⟨.tokens, .inl ⟨b, .inr (.inl rfl)⟩⟩)
  | qlit2 b => exact .inr (.inl ⟨.tokens, .inl ⟨b, .inr (.inr (.inl rfl))⟩⟩)
  | qlit3 b => exact .inr (.inl ⟨.tokens, .inl ⟨b, .inr (.inr (.inr rfl))⟩⟩)
  | qm3 off => exact .inr (.inl ⟨.tokens, .inr (.inl ⟨off, .inl rfl⟩)⟩)
  | qm4 off => exact .inr (.inl ⟨.tokens, .inr (.inl ⟨off, .inr rfl⟩)⟩)
  | qmv len off => exact .inr (.inl ⟨.tokens, .inr (.inr ⟨len, off, rfl⟩)⟩)
  | lzHdr last len => exact .inr (.inr (.inr ⟨last, len, rfl⟩))
  | flags b => exact .inr (.inr (.inl (.inl ⟨b, .inl rfl⟩)))
  | lzlit b => exact .inr (.inr (.inl (.inl ⟨b, .inr rfl⟩)))
  | lzref off lenfield => exact .inr (.inr (.inl (.inr ⟨off, lenfield, rfl⟩)))
  | _ => cases h

/-- An MSZIP element works on the `MZ_DECODE` in progress, and not at a place that does not take it (R90). -/
theorem exec_mzElement {q : MzPhase} {i : Instr} (h : q.takes i) (s : State) :
    ∃ k, exec i s = withMz s k ∧ ∀ c p x, ¬p.takes i → k c p x = .refused .outOfPlace := by
  have here := h
  cases q with
  | sig =>
    obtain rfl := h
    refine ⟨_, rfl, fun c p x hp => ?_⟩
    cases p with
    | sig => exact absurd rfl hp
    | _ => rfl
  | header =>
    obtain ⟨f, rfl | rfl | rfl | rfl⟩ := h <;>
      exact ⟨_, rfl, fun c p x hp => whereHeader_refused (fun he : p = _ => hp (he ▸ here)) _⟩
  | storedHdr =>
    obtain ⟨len, nlen, rfl⟩ := h
    refine ⟨_, rfl, fun c p x hp => ?_⟩
    cases p with
    | storedHdr => exact absurd here hp
    | _ => rfl
  | raw left =>
    obtain ⟨b, rfl⟩ := h
    refine ⟨_, rfl, fun c p x hp => ?_⟩
    cases p with
    | raw left => exact absurd here hp
    | _ => rfl
  | dynHdr =>
    obtain ⟨hlit, hdist, hclen, clen, rfl⟩ := h
    refine ⟨_, rfl, fun c p x hp => ?_⟩
    cases p with
    | dynHdr => exact absurd here hp
    | _ => rfl
  | codeLens =>
    obtain ⟨v, rfl⟩ | ⟨rep, rfl | rfl | rfl⟩ := h <;>
      exact ⟨_, rfl, fun c p x hp => whereLengths_refused (fun he : p = _ => hp (he ▸ here)) _⟩
  | symbols =>
    obtain rfl | ⟨b, rfl⟩ | ⟨len, rfl⟩ | ⟨sym, rfl⟩ := h <;>
      exact ⟨_, rfl, fun c p x hp => whereSymbols_refused (fun he : p = _ => hp (he ▸ here)) _⟩
  | distance len =>
    obtain ⟨d, rfl⟩ | ⟨sym, rfl⟩ := h <;> refine ⟨_, rfl, fun c p x hp => ?_⟩ <;> cases p with
    | distance len => exact absurd here hp
    | _ => rfl

/-- A Quantum token works in the token loop, while bytes are left to produce (R90, R204). -/
theorem exec_qtToken {i : Instr} (h : QtPhase.tokens.takes i) (s : State) :
    ∃ k, exec i s = withQt s k ∧ ∀ c p x, p ≠ .tokens ∨ x.togo = 0 → k c p x = .refused .outOfPlace := by
  obtain ⟨b, rfl | rfl | rfl | rfl⟩ | ⟨off, rfl | rfl⟩ | ⟨len, off, rfl⟩ := h <;>
    exact ⟨_, rfl, fun c p x hp => whereTokens_refused hp _⟩

/-- A Quantum element works on the `QT_DECODE` in progress, and not at a place that does not take it (R90). -/
theorem exec_qtElement {q : QtPhase} {i : Instr} (h : q.takes i) (s : State) :
    ∃ k, exec i s = withQt s k ∧ ∀ c p x, ¬p.takes i → k c p x = .refused .outOfPlace := by
  cases q with
  | start =>
    have here := h
    obtain ⟨code, rfl⟩ := h
    refine ⟨_, rfl, fun c p x hp => ?_⟩
    cases p with
    | start => exact absurd here hp
    | tokens => rfl
  | tokens =>
    obtain ⟨k, he, hrefused⟩ := exec_qtToken h s
    exact ⟨k, he, fun c p x hp => hrefused c p x (.inl fun heq => hp (heq ▸ h))⟩

/-- An element outside the grammar of the command in progress (R90). -/
theorem exec_outside_grammar {s : State} {i : Instr} (h : encodeCmd i = none) (hr : ¬s.run.reads i) :
    exec i s = .refused .outOfPlace := by
  obtain ⟨q, hq⟩ | ⟨q, hq⟩ | hlz | hhdr := Instr.grammar h
  · obtain ⟨k, he, -⟩ := exec_mzElement hq s
    rw [he]
    exact withMz_refused (fun c p hrun => hr (hrun ▸ ⟨q, hq⟩)) k
  · obtain ⟨k, he, -⟩ := exec_qtElement hq s
    rw [he]
    exact withQt_refused (fun c p hrun => hr (hrun ▸ ⟨q, hq⟩)) k
  · have hrun : ∀ c, s.run ≠ .lz c := fun c hrun => hr (hrun ▸ hlz)
    obtain ⟨b, rfl | rfl⟩ | ⟨off, lenfield, rfl⟩ := hlz <;> exact withLz_refused hrun _
  · have hrun : ∀ c, s.run ≠ .lzHdr c := fun c hrun => hr (hrun ▸ hhdr)
    obtain ⟨last, len, rfl⟩ := hhdr
    show execLzHdr last len s = _
    unfold execLzHdr
    split
    · next c hc => exact absurd hc (hrun c)
    · rfl

/-! ## Commands -/

/-- No command runs while another one is in progress (U1). -/
theorem exec_command_busy {s : State} {cmd : HostCmd} (h : s.run ≠ .idle) :
    exec (decodeCmd cmd) s = .refused .commandInProgress := by
  cases cmd <;> exact whenIdle_refused h _

/-! A command that names no context (U2). -/

theorem exec_noMzContext {s : State} {c : Nat} (hr : s.run = .idle) (hc : s.mz.length ≤ c) (inp : List Byte) (n : Nat) :
    exec (.mzDecode c inp n) s = .refused .noContext :=
  (whenIdle_at hr _).trans (by rw [List.getElem?_eq_none hc])

theorem exec_noQtContext {s : State} {c : Nat} (hr : s.run = .idle) (hc : s.qt.length ≤ c) (inp : List Byte) (n : Nat) :
    exec (.qtReset c) s = .refused .noContext ∧ exec (.qtDecode c inp n) s = .refused .noContext :=
  ⟨(whenIdle_at hr _).trans (by rw [List.getElem?_eq_none hc]), (whenIdle_at hr _).trans (by rw [List.getElem?_eq_none hc])⟩

theorem exec_noLzContext {s : State} {c : Nat} (hr : s.run = .idle) (hc : s.lz.length ≤ c) (inp : List Byte) (n : Nat)
    (pos : BitVec 32) :
    exec (.lzReset c) s = .refused .noContext ∧ exec (.lzSeek c pos) s = .refused .noContext ∧
    exec (.lzDecode c inp n) s = .refused .noContext :=
  ⟨(whenIdle_at hr _).trans (by rw [List.getElem?_eq_none hc]), (whenIdle_at hr _).trans (by rw [List.getElem?_eq_none hc]),
    (whenIdle_at hr _).trans (by rw [List.getElem?_eq_none hc])⟩

/-- A reference that would pass the last position (U6). -/
theorem lzRunReference_refused {s : State} {c : Nat} {x : LzCtx}
    (h : lzPositionLimit ≤ x.real + min x.slen (x.want + s.outLen - x.real)) :
    lzRunReference s c x = .refused .lzPositionOverflow := if_pos h

/-- Whether LZ_DECODE may take a payload (U8). -/
theorem LzCtx.accepts_iff (x : LzCtx) (inp : List Byte) :
    x.accepts inp = true ↔ x.payload = none ∨ x.payload = some inp := by
  unfold LzCtx.accepts
  cases x.payload <;> simp

theorem mayCreate_full {cfg : Config} {most n : Nat} (h : cfg.nCtx = some most) (hn : most ≤ n) : mayCreate cfg n = false := by
  simp [mayCreate, h, hn]

/-- Settles O43: the elements, the commands, the contexts, the positions, the payload, the limit. -/
theorem whatTheSpecRefusesIsRefused : Obligations.WhatTheSpecRefusesIsRefused := by
  refine ⟨⟨fun s i => exec_outside_grammar, fun s c p x i here ⟨q, hq⟩ hp => ?_, fun s c p x i here ⟨q, hq⟩ hp => ?_,
    fun s c x i here hz hi => ?_, fun s c x b here hf => ?_, fun s c x b off lenfield here hend => ⟨?_, ?_⟩⟩,
    fun s i cmd hr hcmd => ?_,
    ⟨fun s c inp n hr hc => exec_noMzContext hr hc inp n, fun s c inp n hr hc => exec_noQtContext hr hc inp n,
      fun s c inp n pos hr hc => exec_noLzContext hr hc inp n pos,
      fun s c w level hr hc => (whenIdle_at hr _).trans (if_pos hc), fun s c hdr hr hc => (whenIdle_at hr _).trans (if_pos hc)⟩,
    ⟨fun s c x b here hwant hpos => ?_, fun s c x off lenfield here hwant hpos => ?_,
      fun s c x inp n hr hx hf hpay hle hpos => ?_⟩,
    fun s c x inp n first hr hx hf hpay hne => ?_,
    fun s most hr hmost => ⟨fun hn => ?_, fun hn w level h10 h21 => ?_, fun hn hdr => ?_⟩⟩
  · obtain ⟨k, he, hrefused⟩ := exec_mzElement hq s
    rw [he, withMz_at here.1 here.2]
    exact hrefused c p x hp
  · obtain ⟨k, he, hrefused⟩ := exec_qtElement hq s
    rw [he, withQt_at here.1 here.2]
    exact hrefused c p x hp
  · obtain ⟨k, he, hrefused⟩ := exec_qtToken hi s
    rw [he, withQt_at here.1 here.2]
    exact hrefused c _ x (.inr hz)
  · exact (withLz_at here.1 here.2 _).trans (if_pos hf)
  · exact (withLz_at here.1 here.2 _).trans (whereWanted_refused hend _)
  · exact (withLz_at here.1 here.2 _).trans (whereWanted_refused hend _)
  · obtain rfl := (byteElementsAndCommandsDecodeToWhatWasEncoded.2 i cmd).1 hcmd
    exact exec_command_busy hr
  · exact (withLz_at here.1 here.2 _).trans ((whereWanted_of_lt hwant _).trans (if_pos hpos))
  · exact (withLz_at here.1 here.2 _).trans ((whereWanted_of_lt hwant _).trans (lzRunReference_refused hpos))
  · refine (whenIdle_at hr _).trans ?_
    rw [hx]
    dsimp only
    rw [if_neg (by simp [hf]), (LzCtx.accepts_iff x inp).2 hpay, if_neg (by simp), if_neg (Nat.not_lt.2 hle)]
    exact lzRunReference_refused hpos
  · have hrejects : x.accepts inp = false := by
      rw [← Bool.not_eq_true, LzCtx.accepts_iff, hpay]
      simpa using hne
    refine (whenIdle_at hr _).trans ?_
    rw [hx]
    dsimp only
    rw [if_neg (by simp [hf]), hrejects, if_pos (by simp)]
  · refine (whenIdle_at hr _).trans ?_
    rw [mayCreate_full hmost hn, if_neg (by simp)]
  · refine (whenIdle_at hr _).trans ?_
    rw [if_neg (Nat.lt_irrefl _), if_neg (by simp only [qtWbitsMin, qtWbitsMax]; omega),
      if_pos ⟨rfl, mayCreate_full hmost hn⟩]
  · refine (whenIdle_at hr _).trans ?_
    rw [if_neg (Nat.lt_irrefl _), if_pos ⟨rfl, mayCreate_full hmost hn⟩]

end Sys2Proof.Machine
end

section
/-! PROOF. Frames of the byte spaces (20_memory.md R67, R72, R74, R80, 44_lzszdd.md R245, R246): for each engine, which indices
of one window or table an element may write; an element that stores nothing is the case of no index at all. -/

namespace Sys2Proof.Machine

/-! ## One context written -/

/-- From `s` to `t` only the MZ context `c` changes, from `x` to `y`, and of its window at most `n` bytes from the cursor on. -/
structure MzWritten (s : State) (c n : Nat) (x y : MzCtx) (t : State) : Prop where
  here : s.mz[c]? = some x
  mz : t.mz = s.mz.set c y
  qt : t.qt = s.qt
  lz : t.lz = s.lz
  cfg : t.cfg = s.cfg
  bytes : ∀ a, ¬inRun mzWsize x.win.wpos n a → memRead .mzwin y.win.cells a = memRead .mzwin x.win.cells a

/-- From `s` to `t` only the QT context `c` changes, from `x` to `y`, and of its window at most `n` bytes from the cursor on. -/
structure QtWritten (s : State) (c n : Nat) (x y : QtCtx) (t : State) : Prop where
  here : s.qt[c]? = some x
  qt : t.qt = s.qt.set c y
  mz : t.mz = s.mz
  lz : t.lz = s.lz
  cfg : t.cfg = s.cfg
  bytes : ∀ a, ¬inRun x.wsize x.win.wpos n a → memRead .qtwin y.win.cells a = memRead .qtwin x.win.cells a

/-- From `s` to `t` only the LZ context `c` changes, from `x` to `y`, and of its table at most `n` bytes from the cursor on. -/
structure LzWritten (s : State) (c n : Nat) (x y : LzCtx) (t : State) : Prop where
  here : s.lz[c]? = some x
  lz : t.lz = s.lz.set c y
  mz : t.mz = s.mz
  qt : t.qt = s.qt
  cfg : t.cfg = s.cfg
  bytes : ∀ a, ¬inRun lzTsize x.cur n a →
    memRead (.lztab s.cfg.lzFill) y.tab a = memRead (.lztab s.cfg.lzFill) x.tab a

theorem readMz_eq_of_mz_eq {s t : State} (h : t.mz = s.mz) (c a : Nat) : readMz t c a = readMz s c a := by
  simp only [readMz, h]

theorem readQt_eq_of_qt_eq {s t : State} (h : t.qt = s.qt) (c a : Nat) : readQt t c a = readQt s c a := by
  simp only [readQt, h]

theorem readLz_eq_of_lz_eq {s t : State} (h : t.lz = s.lz) (hcfg : t.cfg = s.cfg) (c a : Nat) :
    readLz t c a = readLz s c a := by
  simp only [readLz, h, hcfg]

theorem getElem?_set_here {α : Type} {l : List α} {c : Nat} {x : α} (h : l[c]? = some x) (y : α) :
    (l.set c y)[c]? = some y := List.getElem?_set_self (List.getElem?_eq_some_iff.1 h).1

theorem MzWritten.frame {s t : State} {c n : Nat} {x y : MzCtx} (h : MzWritten s c n x y t) :
    (∀ a, ¬inRun mzWsize x.win.wpos n a → readMz t c a = readMz s c a) ∧
    (∀ c' a, c' ≠ c → readMz t c' a = readMz s c' a) ∧ (∀ c' a, readQt t c' a = readQt s c' a) ∧
    ∀ c' a, readLz t c' a = readLz s c' a := by
  refine ⟨fun a ha => ?_, fun c' a hne => ?_, readQt_eq_of_qt_eq h.qt, readLz_eq_of_lz_eq h.lz h.cfg⟩
  · simp only [readMz, h.mz, getElem?_set_here h.here, h.here]
    exact h.bytes a ha
  · simp only [readMz, h.mz, List.getElem?_set_ne hne.symm]

theorem QtWritten.frame {s t : State} {c n : Nat} {x y : QtCtx} (h : QtWritten s c n x y t) :
    (∀ a, ¬inRun x.wsize x.win.wpos n a → readQt t c a = readQt s c a) ∧
    (∀ c' a, c' ≠ c → readQt t c' a = readQt s c' a) ∧ (∀ c' a, readMz t c' a = readMz s c' a) ∧
    ∀ c' a, readLz t c' a = readLz s c' a := by
  refine ⟨fun a ha => ?_, fun c' a hne => ?_, readMz_eq_of_mz_eq h.mz, readLz_eq_of_lz_eq h.lz h.cfg⟩
  · simp only [readQt, h.qt, getElem?_set_here h.here, h.here]
    exact h.bytes a ha
  · simp only [readQt, h.qt, List.getElem?_set_ne hne.symm]

theorem LzWritten.frame {s t : State} {c n : Nat} {x y : LzCtx} (h : LzWritten s c n x y t) :
    (∀ a, ¬inRun lzTsize x.cur n a → readLz t c a = readLz s c a) ∧
    (∀ c' a, c' ≠ c → readLz t c' a = readLz s c' a) ∧ (∀ c' a, readMz t c' a = readMz s c' a) ∧
    ∀ c' a, readQt t c' a = readQt s c' a := by
  refine ⟨fun a ha => ?_, fun c' a hne => ?_, readMz_eq_of_mz_eq h.mz, readQt_eq_of_qt_eq h.qt⟩
  · simp only [readLz, h.lz, h.cfg, getElem?_set_here h.here, h.here]
    exact h.bytes a ha
  · simp only [readLz, h.lz, h.cfg, List.getElem?_set_ne hne.symm]

/-! ## No byte written -/

theorem not_inRun_zero (cap start a : Nat) : ¬inRun cap start 0 a := fun ⟨k, hk, _⟩ => Nat.not_lt_zero k hk

theorem MzWritten.sameBytes {s t : State} {c : Nat} {x y : MzCtx} (h : MzWritten s c 0 x y t) : sameBytes s t := by
  obtain ⟨hhere, hothers, hqt, hlz⟩ := h.frame
  refine ⟨fun c' a => ?_, hqt, hlz⟩
  by_cases hc : c' = c
  · rw [hc]; exact hhere a (not_inRun_zero _ _ _)
  · exact hothers c' a hc

theorem QtWritten.sameBytes {s t : State} {c : Nat} {x y : QtCtx} (h : QtWritten s c 0 x y t) : sameBytes s t := by
  obtain ⟨hhere, hothers, hmz, hlz⟩ := h.frame
  refine ⟨hmz, fun c' a => ?_, hlz⟩
  by_cases hc : c' = c
  · rw [hc]; exact hhere a (not_inRun_zero _ _ _)
  · exact hothers c' a hc

theorem LzWritten.sameBytes {s t : State} {c : Nat} {x y : LzCtx} (h : LzWritten s c 0 x y t) : sameBytes s t := by
  obtain ⟨hhere, hothers, hmz, hqt⟩ := h.frame
  refine ⟨hmz, hqt, fun c' a => ?_⟩
  by_cases hc : c' = c
  · rw [hc]; exact hhere a (not_inRun_zero _ _ _)
  · exact hothers c' a hc

theorem sameBytes_of_contexts {s t : State} (mz : t.mz = s.mz) (qt : t.qt = s.qt) (lz : t.lz = s.lz) (cfg : t.cfg = s.cfg) :
    sameBytes s t := ⟨readMz_eq_of_mz_eq mz, readQt_eq_of_qt_eq qt, readLz_eq_of_lz_eq lz cfg⟩

/-! ## MSZIP elements that store nothing -/

section
variable {s t : State} {c : Nat} {p : MzPhase} {x y : MzCtx}

/-- Other registers of the context are written, then the command goes on. -/
theorem sameBytes_setMz (hx : s.mz[c]? = some x) (r : Run) (hy : y.win.cells = x.win.cells := by rfl) :
    sameBytes s ((s.setMz c y).setRun r) :=
  MzWritten.sameBytes (x := x) (y := y) ⟨hx, rfl, rfl, rfl, rfl, fun a _ => by rw [hy]⟩

/-- Other registers of the context are written, then the command ends with an error. -/
theorem sameBytes_setMz_raise (hr : s.run = .mz c p) (hx : s.mz[c]? = some x) (k : ErrKind)
    (hy : y.win.cells = x.win.cells := by rfl) :
    sameBytes s ((s.setMz c y).raise k) := by
  rw [State.raise_setMz hr]
  exact MzWritten.sameBytes (x := x) (y := y) ⟨hx, rfl, rfl, rfl, rfl, fun a _ => by rw [hy]⟩

theorem sameBytes_setRun (s : State) (r : Run) : sameBytes s (s.setRun r) := sameBytes_of_contexts rfl rfl rfl rfl

theorem sameBytes_raise (hr : s.run = .mz c p) (k : ErrKind) : sameBytes s (s.raise k) := by
  rw [State.raise_of_mz hr]
  exact sameBytes_of_contexts rfl rfl rfl rfl

/-- What the end of a block writes back is the context it is given (R171, R190). -/
theorem afterBlock_contexts (s : State) (c : Nat) (y : MzCtx) :
    (afterBlock s c y).mz = s.mz.set c y ∧ (afterBlock s c y).qt = s.qt ∧ (afterBlock s c y).lz = s.lz ∧
    (afterBlock s c y).cfg = s.cfg := by
  unfold afterBlock
  split
  · exact ⟨rfl, rfl, rfl, rfl⟩
  · split <;> exact ⟨rfl, rfl, rfl, rfl⟩

theorem mzBlockEnd_sameBytes (hr : s.run = .mz c p) (hx : s.mz[c]? = some x) (h : mzBlockEnd s c x = .next t) :
    sameBytes s t := by
  rw [mzBlockEnd_eq_afterBlock hr] at h
  cases h
  obtain ⟨hmz, hqt, hlz, hcfg⟩ := afterBlock_contexts s c x
  exact sameBytes_of_contexts (by rw [hmz, set_self_of_some hx]) hqt hlz hcfg

/-- Code lengths are no bytes of a window (R182, R184). -/
theorem mzGrowLengths_sameBytes (hr : s.run = .mz c p) (hx : s.mz[c]? = some x) {v : BitVec 4} {j : Nat}
    (h : mzGrowLengths s c y v j = .next t) (hy : y.win.cells = x.win.cells := by rfl) : sameBytes s t := by
  obtain ⟨-, h'⟩ | ⟨-, h'⟩ | ⟨-, h'⟩ := mzGrowLengths_cases s c y v j <;> rw [h'] at h
  · cases h
    exact sameBytes_setMz_raise hr hx _ hy
  · cases h
    rw [← State.setRun_self (s := s.setMz c _) hr]
    exact sameBytes_setMz hx _ hy
  · obtain ⟨-, h'⟩ | ⟨tl, -, ⟨-, h'⟩ | ⟨td, -, -, h'⟩⟩ := mzBuildTables_cases s c _ <;> rw [h'] at h <;> cases h
    · exact sameBytes_setMz_raise hr hx _ hy
    · exact sameBytes_setMz_raise hr hx _ hy
    · exact sameBytes_setMz hx _ hy

end

section
variable {s t : State}

theorem execSig_sameBytes (h : execSig s = .next t) : sameBytes s t := by
  obtain ⟨c, p, x, -, hx, h⟩ := withMz_next h
  split at h <;> cases h
  exact sameBytes_setMz hx _

/-- Every block header writes its two fields, and BLK_FIXED the tables (R172, R176). -/
theorem execHeader_sameBytes {i : Instr} (hi : MzPhase.header.takes i) (h : exec i s = .next t) : sameBytes s t := by
  obtain ⟨f, rfl | rfl | rfl | rfl⟩ := hi <;> obtain ⟨c, p, x, hr, hx, h⟩ := withMz_next h <;>
    obtain ⟨-, h⟩ := whereHeader_next h
  · cases h
    exact sameBytes_setMz hx _
  · split at h <;> cases h
    · exact sameBytes_setMz hx _
    · exact sameBytes_setMz_raise hr hx _
  · cases h
    exact sameBytes_setMz hx _
  · cases h
    exact sameBytes_setMz_raise hr hx _

theorem execStoredHdr_sameBytes {len nlen : BitVec 16} (h : execStoredHdr len nlen s = .next t) : sameBytes s t := by
  obtain ⟨c, p, x, hr, hx, h⟩ := withMz_next h
  split at h
  · split at h
    · cases h
      exact sameBytes_raise hr _
    · split at h
      · cases h
        exact sameBytes_raise hr _
      · split at h
        · exact mzBlockEnd_sameBytes hr hx h
        · cases h
          exact sameBytes_setRun s _
  · cases h

theorem execDynHdr_sameBytes {hlit hdist : BitVec 5} {hclen : BitVec 4} {clen : List (BitVec 3)}
    (h : execDynHdr hlit hdist hclen clen s = .next t) : sameBytes s t := by
  obtain ⟨c, p, x, hr, hx, h⟩ := withMz_next h
  split at h
  · dsimp only at h
    split at h
    · cases h
      exact sameBytes_setMz_raise hr hx _
    · split at h
      · cases h
        exact sameBytes_setMz_raise hr hx _
      · split at h <;> cases h
        · exact sameBytes_setMz_raise hr hx _
        · exact sameBytes_setMz hx _
  · cases h

/-- Every code-length element (R182). -/
theorem execLengths_sameBytes {i : Instr} (hi : MzPhase.codeLens.takes i) (h : exec i s = .next t) : sameBytes s t := by
  obtain ⟨v, rfl⟩ | ⟨rep, rfl | rfl | rfl⟩ := hi <;> obtain ⟨c, p, x, hr, hx, h⟩ := withMz_next h <;>
    exact mzGrowLengths_sameBytes hr hx (whereLengths_next h).2

theorem execEob_sameBytes (h : execEob s = .next t) : sameBytes s t := by
  obtain ⟨c, p, x, hr, hx, h⟩ := withMz_next h
  exact mzBlockEnd_sameBytes hr hx (whereSymbols_next h).2

theorem execMatch_sameBytes {len : Nat} (h : execMatch len s = .next t) : sameBytes s t := by
  obtain ⟨c, p, x, -, -, h⟩ := withMz_next h
  obtain ⟨-, h⟩ := whereSymbols_next h
  cases h
  exact sameBytes_setRun s _

theorem execLlReserved_sameBytes {sym : Nat} (h : execLlReserved sym s = .next t) : sameBytes s t := by
  obtain ⟨c, p, x, hr, -, h⟩ := withMz_next h
  obtain ⟨-, h⟩ := whereSymbols_next h
  cases h
  exact sameBytes_raise hr _

theorem execDistReserved_sameBytes {sym : Nat} (h : execDistReserved sym s = .next t) : sameBytes s t := by
  obtain ⟨c, p, x, hr, -, h⟩ := withMz_next h
  split at h <;> cases h
  exact sameBytes_raise hr _

/-! ## CODE16, FLAGS and the commands that store nothing -/

/-- What a Quantum element writes back is the context it hands on, whether the command goes on or ends (R204, R220). -/
theorem qtContinue_contexts {c : Nat} {y : QtCtx} (h : qtContinue s c y = .next t) :
    t.qt = s.qt.set c y ∧ t.mz = s.mz ∧ t.lz = s.lz ∧ t.cfg = s.cfg := by
  obtain ⟨-, -, h'⟩ | ⟨bs, -, -, h'⟩ | ⟨-, h'⟩ := qtContinue_cases s c y <;> rw [h'] at h <;> cases h
  · exact ⟨rfl, rfl, rfl, rfl⟩
  · exact ⟨rfl, rfl, rfl, rfl⟩

theorem execCode16_sameBytes {code : BitVec 16} (h : execCode16 code s = .next t) : sameBytes s t := by
  obtain ⟨c, p, x, -, hx, h⟩ := withQt_next h
  split at h
  · obtain ⟨hqt, hmz, hlz, hcfg⟩ := qtContinue_contexts h
    exact QtWritten.sameBytes ⟨hx, hqt, hmz, hlz, hcfg, fun _ _ => rfl⟩
  · cases h

theorem execFlags_sameBytes {b : Byte} (h : execFlags b s = .next t) : sameBytes s t := by
  obtain ⟨c, x, -, hx, h⟩ := withLz_next h
  split at h <;> cases h
  exact LzWritten.sameBytes (x := x) ⟨hx, rfl, rfl, rfl, rfl, fun _ _ => rfl⟩

/-- A new MZ context has no byte that was there before (R263). -/
theorem sameBytes_mzNew (s : State) : sameBytes s { s with mz := s.mz ++ [MzCtx.fresh] }.finish := by
  refine ⟨fun c a => ?_, fun _ _ => rfl, fun _ _ => rfl⟩
  simp only [readMz, State.finish_mz]
  by_cases hc : c < s.mz.length
  · rw [List.getElem?_append_left hc]
  · rw [List.getElem?_append_right (Nat.not_lt.1 hc), List.getElem?_eq_none (Nat.not_lt.1 hc)]
    cases c - s.mz.length <;> rfl

theorem CmdEffect.sameBytes {cmd : HostCmd} (h : CmdEffect s cmd t) (hs : storesNothing (decodeCmd cmd) = true) :
    sameBytes s t := by
  cases h with
  | mzNew => exact sameBytes_mzNew s
  | qtReset c x found => exact QtWritten.sameBytes (x := x) ⟨found, rfl, rfl, rfl, rfl, fun _ _ => rfl⟩
  | qtOpened c inp n p x found => exact QtWritten.sameBytes (x := x) ⟨found, rfl, rfl, rfl, rfl, fun _ _ => rfl⟩
  | qtEmpty c inp x found => exact QtWritten.sameBytes (x := x) ⟨found, rfl, rfl, rfl, rfl, fun _ _ => rfl⟩
  | lzSeek c pos x found => exact LzWritten.sameBytes (x := x) ⟨found, rfl, rfl, rfl, rfl, fun _ _ => rfl⟩
  | qtRefused => cases hs
  | qtInit => cases hs
  | lzReset => cases hs
  | lzRejected => cases hs
  | lzResumed => cases hs
  | _ => exact sameBytes_of_contexts rfl rfl rfl rfl

/-- Settles O44: element by element, and the commands by what they can leave. -/
theorem elementsThatStoreNothingKeepEveryByte : Obligations.ElementsThatStoreNothingKeepEveryByte := by
  intro s t i hs h
  have command : ∀ cmd, exec (decodeCmd cmd) s = .next t → storesNothing (decodeCmd cmd) = true → sameBytes s t :=
    fun cmd h hs => (exec_command cmd h).2.sameBytes hs
  cases i with
  | sig => exact execSig_sameBytes h
  | blkStored f => exact execHeader_sameBytes ⟨f, .inl rfl⟩ h
  | blkFixed f => exact execHeader_sameBytes ⟨f, .inr (.inl rfl)⟩ h
  | blkDynamic f => exact execHeader_sameBytes ⟨f, .inr (.inr (.inl rfl))⟩ h
  | blkReserved f => exact execHeader_sameBytes ⟨f, .inr (.inr (.inr rfl))⟩ h
  | storedHdr len nlen => exact execStoredHdr_sameBytes h
  | dynHdr hlit hdist hclen clen => exact execDynHdr_sameBytes h
  | cl v => exact execLengths_sameBytes (.inl ⟨v, rfl⟩) h
  | cl16 rep => exact execLengths_sameBytes (.inr ⟨rep, .inl rfl⟩) h
  | cl17 rep => exact execLengths_sameBytes (.inr ⟨rep, .inr (.inl rfl)⟩) h
  | cl18 rep => exact execLengths_sameBytes (.inr ⟨rep, .inr (.inr rfl)⟩) h
  | eob => exact execEob_sameBytes h
  | mtch len => exact execMatch_sameBytes h
  | llReserved sym => exact execLlReserved_sameBytes (sym := sym) h
  | distReserved sym => exact execDistReserved_sameBytes (sym := sym) h
  | code16 code => exact execCode16_sameBytes h
  | flags b => exact execFlags_sameBytes h
  | mzNew => exact command .mzNew h hs
  | mzDecode c inp n => exact command (.mzDecode c inp n) h hs
  | qtReset c => exact command (.qtReset c) h hs
  | qtDecode c inp n => exact command (.qtDecode c inp n) h hs
  | lzInit c hdr => exact command (.lzInit c hdr) h hs
  | lzSeek c pos => exact command (.lzSeek c pos) h hs
  | _ => cases hs

end

/-! ## Elements that store -/

section
variable {s t : State} {c : Nat}

/-- The frame of an element that only ended its command (R290). -/
theorem MzWritten.failed {p : MzPhase} {x : MzCtx} (here : MzAt s c p x) (n : Nat) (k : ErrKind) :
    MzWritten s c n x x (s.raise k) := by
  rw [State.raise_of_mz here.1]
  exact ⟨here.2, (set_self_of_some here.2).symm, rfl, rfl, rfl, fun _ _ => rfl⟩

section
variable {p : MzPhase} {x : MzCtx} (here : MzAt s c p x) (hok : x.win.ok .mzwin mzWsize)
include here hok

theorem execRaw_writes {b : Byte} (h : execRaw b s = .next t) : ∃ y, MzWritten s c 1 x y t := by
  have hbytes := fun a => Window.memRead_putAll_outside hok [b] (a := a)
  rw [execRaw, withMz_at here.1 here.2] at h
  refine ⟨x.emit b, ?_⟩
  split at h
  · split at h
    · cases h
    · split at h
      · rw [mzBlockEnd_eq_afterBlock (s := s.emit [b]) here.1] at h
        cases h
        obtain ⟨hmz, hqt, hlz, hcfg⟩ := afterBlock_contexts (s.emit [b]) c (x.emit b)
        exact ⟨here.2, hmz, hqt, hlz, hcfg, hbytes⟩
      · cases h
        exact ⟨here.2, rfl, rfl, rfl, rfl, hbytes⟩
  · cases h

theorem execLit_writes {b : Byte} (h : execLit b s = .next t) : ∃ y, MzWritten s c 1 x y t := by
  rw [execLit, withMz_at here.1 here.2] at h
  obtain ⟨-, h⟩ := whereSymbols_next h
  split at h <;> cases h
  · exact ⟨x, .failed here 1 _⟩
  · exact ⟨x.emit b, here.2, rfl, rfl, rfl, rfl, fun a => Window.memRead_putAll_outside hok [b]⟩

end

theorem execDist_writes {len d : Nat} {x : MzCtx} (here : MzAt s c (.distance len) x) (hok : x.win.ok .mzwin mzWsize)
    (h : execDist d s = .next t) : ∃ y, MzWritten s c len x y t := by
  rw [execDist, withMz_at here.1 here.2] at h
  dsimp only at h
  split at h
  · split at h
    · cases h
    · next w bs hcopy =>
      cases h
      obtain ⟨rfl, rfl⟩ := winCopy_eq_putAll hcopy
      exact ⟨_, here.2, rfl, rfl, rfl, rfl, fun a => Window.memRead_putAll_outside hok bs⟩
  · cases h
    exact ⟨x, .failed here len _⟩

section
variable {p : QtPhase} {x : QtCtx} (here : QtAt s c p x) (hok : x.win.ok .qtwin x.wsize)
include here hok

theorem qtLiteral_writes {b : Byte} (h : qtLiteral s b = .next t) : ∃ y, QtWritten s c 1 x y t := by
  obtain ⟨c', x', hr, hx, -, h⟩ := qtLiteral_next h
  obtain ⟨rfl, rfl, rfl⟩ := here.unique ⟨hr, hx⟩
  obtain ⟨hqt, hmz, hlz, hcfg⟩ := qtContinue_contexts h
  exact ⟨_, hx, hqt, hmz, hlz, hcfg, fun a => Window.memRead_putAll_outside hok [b]⟩

theorem qtMatch_writes {off len : Nat} (h : qtMatch s off len = .next t) : ∃ y, QtWritten s c len x y t := by
  obtain ⟨c', x', hr, hx, -, ⟨-, rfl⟩ | ⟨-, w, bs, hcopy, h⟩⟩ := qtMatch_next h <;>
    obtain ⟨rfl, rfl, rfl⟩ := here.unique ⟨hr, hx⟩
  · have hraise := State.raise_setQt hr x' .corruptData
    rw [State.setQt_self hx] at hraise
    rw [hraise]
    exact ⟨{ x' with fault := true }, hx, rfl, rfl, rfl, rfl, fun _ _ => rfl⟩
  · obtain ⟨hqt, hmz, hlz, hcfg⟩ := qtContinue_contexts h
    obtain ⟨rfl, rfl⟩ := winCopy_eq_putAll hcopy
    exact ⟨_, hx, hqt, hmz, hlz, hcfg, fun a => Window.memRead_putAll_outside hok bs⟩

end

/-- What an LZ element writes back is the table it hands on (R249). -/
theorem LzWritten.of_continue {n : Nat} {x y : LzCtx} {bs : List Byte} (hx : s.lz[c]? = some x)
    (h : lzContinue (s.emit bs) c y = .next t)
    (hy : ∀ a, ¬inRun lzTsize x.cur n a → memRead (.lztab s.cfg.lzFill) y.tab a = memRead (.lztab s.cfg.lzFill) x.tab a) :
    ∃ z, LzWritten s c n x z t := by
  obtain ⟨-, h'⟩ | ⟨-, h'⟩ := lzContinue_cases (s.emit bs) c y <;> rw [h'] at h <;> cases h
  · exact ⟨_, hx, rfl, rfl, rfl, rfl, hy⟩
  · exact ⟨_, hx, rfl, rfl, rfl, rfl, hy⟩

section
variable {x : LzCtx} (here : LzAt s c x) (hok : x.tableOk s.cfg)
include here hok

theorem execLzlit_writes {b : Byte} (h : execLzlit b s = .next t) : ∃ y, LzWritten s c 1 x y t := by
  rw [execLzlit, withLz_at here.1 here.2] at h
  obtain ⟨-, h⟩ := whereWanted_next h
  split at h
  · cases h
  · refine LzWritten.of_continue here.2 h fun a ha => ?_
    have hne : a ≠ x.cur := fun he => ha ⟨0, Nat.one_pos, by rw [he, Nat.add_zero, Nat.mod_eq_of_lt hok.2.1]⟩
    rw [LzCtx.put_tab, memRead_memWrite hok.1, if_neg hne]

theorem execLzref_writes {off : BitVec 12} {lenfield : BitVec 4} (h : execLzref off lenfield s = .next t) :
    ∃ y, LzWritten s c (refLength s.cfg lenfield) x y t := by
  rw [execLzref, withLz_at here.1 here.2] at h
  obtain ⟨-, h⟩ := whereWanted_next h
  obtain ⟨-, h⟩ := lzRunReference_next h
  refine LzWritten.of_continue here.2 h fun a ha => ?_
  exact lzCopy_frame (x := { x with spos := off.toNat, slen := refLength s.cfg lenfield }) ⟨hok.1, hok.2.1, off.isLt⟩
    fun ⟨k, hk, he⟩ => ha ⟨k, Nat.lt_of_lt_of_le hk (Nat.min_le_left ..), he⟩

end

end

/-- Settles O45: what each element writes, and the frame of that. -/
theorem storingElementsWriteOnlyAtTheCursor : Obligations.StoringElementsWriteOnlyAtTheCursor := by
  refine ⟨fun s t c p x i len hm here h hi => ?_, fun s t c p x i len hm here h hi => ?_, fun s t c x i len hm here h hi => ?_⟩
  · have hok := hm.1 x (List.mem_of_getElem? here.2)
    obtain ⟨⟨b, rfl⟩, rfl⟩ | ⟨⟨b, rfl⟩, rfl⟩ | ⟨⟨d, rfl⟩, rfl⟩ := hi
    · obtain ⟨y, hy⟩ := execRaw_writes here hok h
      exact hy.frame
    · obtain ⟨y, hy⟩ := execLit_writes here hok h
      exact hy.frame
    · obtain ⟨y, hy⟩ := execDist_writes here hok h
      exact hy.frame
  · have hok := hm.2.1 x (List.mem_of_getElem? here.2)
    have literal : ∀ b, qtLiteral s b = .next t → ∃ y, QtWritten s c 1 x y t := fun b => qtLiteral_writes here hok
    have matched : ∀ off len, qtMatch s off len = .next t → ∃ y, QtWritten s c len x y t := fun off len =>
      qtMatch_writes here hok
    have hwrites : ∃ y, QtWritten s c len x y t := by
      obtain ⟨⟨b, rfl | rfl | rfl | rfl⟩, rfl⟩ | ⟨⟨off, rfl⟩, rfl⟩ | ⟨⟨off, rfl⟩, rfl⟩ | ⟨off, rfl⟩ := hi
      · exact literal b h
      · exact literal b h
      · exact literal b h
      · exact literal b h
      · exact matched off 3 h
      · exact matched off 4 h
      · exact matched off len h
    obtain ⟨y, hy⟩ := hwrites
    exact hy.frame
  · have hok := hm.2.2 x (List.mem_of_getElem? here.2)
    obtain ⟨⟨b, rfl⟩, rfl⟩ | ⟨off, lenfield, rfl, rfl⟩ := hi
    · obtain ⟨y, hy⟩ := execLzlit_writes here hok h
      exact hy.frame
    · obtain ⟨y, hy⟩ := execLzref_writes here hok h
      exact hy.frame

end Sys2Proof.Machine
end

section
/-! PROOF. Canonical Huffman codes (41_huffman.md R151 to R154): in a set of lengths that is not over-subscribed every code fits
its length, and no code is the beginning of another. -/

namespace Sys2Proof.Machine

/-! ## Bits in reverse order (R154) -/

theorem bitReverse_lt (l c : Nat) : bitReverse l c < 2 ^ l := by
  induction l generalizing c with
  | zero => exact Nat.one_pos
  | succ l ih =>
    have hrest := ih (c / 2)
    have hbit : c % 2 * 2 ^ l ≤ 1 * 2 ^ l := Nat.mul_le_mul_right _ (by omega)
    rw [bitReverse, Nat.pow_succ]
    omega

theorem testBit_bitReverse (l c i : Nat) : (bitReverse l c).testBit i = (decide (i < l) && c.testBit (l - 1 - i)) := by
  induction l generalizing c with
  | zero => simp [bitReverse]
  | succ l ih =>
    rw [bitReverse, Nat.mul_comm, Nat.testBit_two_pow_mul_add _ (bitReverse_lt ..), ih]
    by_cases hi : i < l
    · rw [if_pos hi, show l + 1 - 1 - i = l - 1 - i + 1 by omega, Nat.testBit_succ]
      simp [hi, show i < l + 1 by omega]
    · rw [if_neg hi]
      by_cases heq : i = l
      · subst heq
        simp only [Nat.sub_self, Nat.add_sub_cancel, Nat.lt_succ_self, decide_true, Bool.true_and]
        rw [Nat.testBit_zero, Nat.testBit_zero, Nat.mod_mod]
      · rw [Nat.testBit_lt_two_pow (lt_of_lt_of_le (by omega : c % 2 < 2 ^ 1) (Nat.pow_le_pow_right (by decide) (by omega)))]
        simp [show ¬i < l + 1 by omega]

/-- A reversed code that begins with another: the codes themselves do (R154, R158). -/
theorem shiftRight_eq_of_bitReverse {l k c d : Nat} (hlk : l ≤ k) (hc : c < 2 ^ l) (hd : d < 2 ^ k)
    (h : bitReverse k d % 2 ^ l = bitReverse l c) : d >>> (k - l) = c := by
  refine Nat.eq_of_testBit_eq fun i => ?_
  rw [Nat.testBit_shiftRight]
  by_cases hi : i < l
  · have hbit := congrArg (fun v => Nat.testBit v (l - 1 - i)) h
    simp only [Nat.testBit_mod_two_pow, testBit_bitReverse] at hbit
    rw [show k - 1 - (l - 1 - i) = k - l + i by omega, show l - 1 - (l - 1 - i) = i by omega] at hbit
    simpa [show l - 1 - i < l by omega, show l - 1 - i < k by omega] using hbit
  · rw [Nat.testBit_lt_two_pow (lt_of_lt_of_le hd (Nat.pow_le_pow_right (by decide) (by omega))),
      Nat.testBit_lt_two_pow (lt_of_lt_of_le hc (Nat.pow_le_pow_right (by decide) (by omega)))]

/-! ## The first code of each length (R152, R154) -/

/-- How many codes have length `k`; length 0 is none (R154). -/
def hufUsed (lens : List Nat) (k : Nat) : Nat := if k = 0 then 0 else hufCount lens k

theorem hufFirstCode_succ (lens : List Nat) (k : Nat) :
    hufFirstCode lens (k + 1) = (hufFirstCode lens k + hufUsed lens k) * 2 := rfl

/-- What is left of the code space (R152). -/
theorem hufLeft_balance {lens : List Nat} {k left : Nat} (h : hufLeft lens k = some left) :
    hufFirstCode lens k + hufUsed lens k + left = 2 ^ k := by
  induction k generalizing left with
  | zero =>
    obtain rfl : 1 = left := Option.some.inj h
    rfl
  | succ k ih =>
    rw [hufLeft] at h
    split at h
    · cases h
    · next rest hrest =>
      split at h
      · cases h
      · next hfits =>
        obtain rfl := Option.some.inj h
        have hbal := ih hrest
        rw [hufFirstCode_succ, Nat.pow_succ, ← hbal, show hufUsed lens (k + 1) = hufCount lens (k + 1) from rfl]
        omega

/-- A set that is not over-subscribed is so at no length (R152). -/
theorem hufLeft_isSome_of_le {lens : List Nat} {j k : Nat} (hjk : j ≤ k) (h : (hufLeft lens k).isSome) :
    (hufLeft lens j).isSome := by
  induction k with
  | zero => rwa [Nat.le_zero.1 hjk]
  | succ k ih =>
    rcases Nat.le_succ_iff.1 hjk with hle | rfl
    · refine ih hle ?_
      rw [hufLeft] at h
      split at h
      · cases h
      · next hrest => rw [hrest]; rfl
    · exact h

/-- The codes of one length end where those of the next begin, shifted (R154). -/
theorem hufFirstCode_mono (lens : List Nat) {j k : Nat} (hjk : j < k) :
    (hufFirstCode lens j + hufUsed lens j) * 2 ^ (k - j) ≤ hufFirstCode lens k := by
  induction k with
  | zero => cases hjk
  | succ k ih =>
    rw [hufFirstCode_succ]
    rcases Nat.lt_succ_iff_lt_or_eq.1 hjk with hlt | rfl
    · rw [show k + 1 - j = k - j + 1 by omega, Nat.pow_succ, ← Nat.mul_assoc]
      exact Nat.mul_le_mul_right 2 (Nat.le_trans (ih hlt) (Nat.le_add_right ..))
    · rw [Nat.add_sub_cancel_left, Nat.pow_one]

/-! ## The code of each symbol (R154) -/

theorem getElem?_of_getD_pos {lens : List Nat} {s : Nat} (h : 0 < lens.getD s 0) : lens[s]? = some (lens.getD s 0) := by
  rw [List.getD_eq_getElem?_getD] at h ⊢
  cases hs : lens[s]? with
  | none => simp [hs] at h
  | some l => rfl

/-- Earlier symbols of a length are fewer before an earlier symbol. -/
theorem count_take_lt {lens : List Nat} {s s' l : Nat} (hs : lens[s]? = some l) (h : s < s') :
    (lens.take s).count l < (lens.take s').count l := by
  have hnext : (lens.take (s + 1)).count l = (lens.take s).count l + 1 := by
    rw [List.take_add_one, hs, List.count_append]
    simp
  have hmono := (List.take_sublist_take_left (l := lens) (show s + 1 ≤ s' from h)).count_le l
  omega

section
variable {lens : List Nat} {s : Nat} (hs : 0 < lens.getD s 0)
include hs

/-- A code lies among those of its length. -/
theorem hufCodeOf_lt : hufCodeOf lens s < hufFirstCode lens (lens.getD s 0) + hufUsed lens (lens.getD s 0) := by
  have hat := getElem?_of_getD_pos hs
  have hlt := count_take_lt hat (List.getElem?_eq_some_iff.1 hat).1
  rw [List.take_length] at hlt
  rw [hufUsed, if_neg (by omega), hufCount, hufCodeOf]
  omega

theorem hufCodeOf_lt_two_pow (hlen : lens.getD s 0 ≤ hufMaxLen) (hleft : (hufLeft lens hufMaxLen).isSome) :
    hufCodeOf lens s < 2 ^ lens.getD s 0 := by
  obtain ⟨left, hleft⟩ := Option.isSome_iff_exists.1 (hufLeft_isSome_of_le hlen hleft)
  have hbal := hufLeft_balance hleft
  have hlt := hufCodeOf_lt hs
  omega

/-- No code is the beginning of another's, nor another's equal (R154). -/
theorem hufCodeOf_prefix_free {s' : Nat} (hs' : 0 < lens.getD s' 0) (hle : lens.getD s 0 ≤ lens.getD s' 0)
    (h : hufCodeOf lens s' >>> (lens.getD s' 0 - lens.getD s 0) = hufCodeOf lens s) : s' = s := by
  have hlt := hufCodeOf_lt hs
  rcases Nat.lt_or_eq_of_le hle with hshort | hsame
  · have hfirst := hufFirstCode_mono lens hshort
    have hcode : hufFirstCode lens (lens.getD s' 0) ≤ hufCodeOf lens s' := Nat.le_add_right ..
    rw [Nat.shiftRight_eq_div_pow] at h
    have hdiv : hufFirstCode lens (lens.getD s 0) + hufUsed lens (lens.getD s 0) ≤ hufCodeOf lens s := by
      rw [← h, Nat.le_div_iff_mul_le (Nat.two_pow_pos _)]
      omega
    omega
  · have hat := getElem?_of_getD_pos hs
    have hat' := getElem?_of_getD_pos hs'
    rw [← hsame] at hat'
    rw [← hsame, Nat.sub_self, Nat.shiftRight_zero, hufCodeOf, hufCodeOf, ← hsame] at h
    rcases Nat.lt_trichotomy s' s with hlt' | heq | hgt
    · have := count_take_lt hat' hlt'; omega
    · exact heq
    · have := count_take_lt hat hgt; omega

end

/-! ## The members of a table (R154, R158) -/

/-- The table's entry for the symbol `s`. -/
def hufCodeFor (lens : List Nat) (s : Nat) : HufCode :=
  { sym := s, len := lens.getD s 0, rev := bitReverse (lens.getD s 0) (hufCodeOf lens s) }

/-- The assignment in symbol order, from any point on: every symbol of some length takes the next code of that length. -/
theorem mem_hufAssign {ls next : List Nat} {first : Nat} (hls : ∀ l ∈ ls, l < next.length) (c : HufCode) :
    c ∈ hufAssign ls first next ↔
      ∃ k l, ls[k]? = some l ∧ l ≠ 0 ∧
        c = { sym := first + k, len := l, rev := bitReverse l (next.getD l 0 + (ls.take k).count l) } := by
  induction ls generalizing first next with
  | nil => simp [hufAssign]
  | cons l ls ih =>
    have hl : l < next.length := hls l (by simp)
    have hrest : ∀ l' ∈ ls, l' < next.length := fun l' h => hls l' (by simp [h])
    rw [hufAssign]
    split
    · next hzero =>
      subst hzero
      rw [ih hrest]
      constructor
      · rintro ⟨k, l', hk, hl', rfl⟩
        exact ⟨k + 1, l', hk, hl', by simp [Ne.symm hl', Nat.add_assoc, Nat.add_comm 1]⟩
      · rintro ⟨k, l', hk, hl', rfl⟩
        cases k with
        | zero => exact absurd (Option.some.inj hk).symm hl'
        | succ k => exact ⟨k, l', hk, hl', by simp [Ne.symm hl', Nat.add_assoc, Nat.add_comm 1]⟩
    · next hnonzero =>
      have hnext : ∀ l' k, (next.set l (next.getD l 0 + 1)).getD l' 0 + (ls.take k).count l' =
          next.getD l' 0 + ((l :: ls).take (k + 1)).count l' := fun l' k => by
        rw [List.getD_eq_getElem?_getD, List.getElem?_set, List.take_succ_cons, List.count_cons]
        by_cases heq : l = l'
        · subst heq; simp [hl]; omega
        · simp [heq, List.getD_eq_getElem?_getD]
      rw [List.mem_cons, ih (by simpa using hrest)]
      constructor
      · rintro (rfl | ⟨k, l', hk, hl', rfl⟩)
        · exact ⟨0, l, rfl, hnonzero, by simp⟩
        · exact ⟨k + 1, l', hk, hl', by rw [hnext, Nat.add_assoc, Nat.add_comm 1]⟩
      · rintro ⟨k, l', hk, hl', rfl⟩
        cases k with
        | zero =>
          obtain rfl : l = l' := Option.some.inj hk
          exact .inl (by simp)
        | succ k => exact .inr ⟨k, l', hk, hl', by rw [hnext, Nat.add_assoc, Nat.add_comm 1]⟩

theorem mem_hufMembers {lens : List Nat} (hlens : ∀ l ∈ lens, l ≤ hufMaxLen) (c : HufCode) :
    c ∈ hufMembers lens ↔ ∃ s, 0 < lens.getD s 0 ∧ c = hufCodeFor lens s := by
  have hfirst : ∀ l ≤ hufMaxLen, ((List.range (hufMaxLen + 1)).map (hufFirstCode lens)).getD l 0 = hufFirstCode lens l :=
    fun l hl => by simp [List.getD_eq_getElem?_getD, List.getElem?_range (Nat.lt_succ_of_le hl)]
  rw [hufMembers, mem_hufAssign (fun l hl => by simpa using Nat.lt_succ_of_le (hlens l hl))]
  constructor
  · rintro ⟨s, l, hs, hl, rfl⟩
    have hget : lens.getD s 0 = l := by rw [List.getD_eq_getElem?_getD, hs]; rfl
    refine ⟨s, by omega, ?_⟩
    rw [hufCodeFor, hufCodeOf, hget, hfirst l (hlens l (List.mem_of_getElem? hs)), Nat.zero_add]
  · rintro ⟨s, hs, rfl⟩
    have hat := getElem?_of_getD_pos hs
    refine ⟨s, _, hat, by omega, ?_⟩
    rw [hufCodeFor, hufCodeOf, hfirst _ (hlens _ (List.mem_of_getElem? hat)), Nat.zero_add]

/-- The codes of a table: each fits its length, and none is the beginning of another (R154, R158). -/
structure HufCodesOk (members : List HufCode) : Prop where
  long : ∀ c ∈ members, 0 < c.len ∧ c.len ≤ hufMaxLen
  fits : ∀ c ∈ members, c.rev < 2 ^ c.len
  free : ∀ c ∈ members, ∀ d ∈ members, c.len ≤ d.len → d.rev % 2 ^ c.len = c.rev → d = c

theorem hufMembers_ok {lens : List Nat} (hlens : ∀ l ∈ lens, l ≤ hufMaxLen) (hleft : (hufLeft lens hufMaxLen).isSome) :
    HufCodesOk (hufMembers lens) := by
  have hle : ∀ s, 0 < lens.getD s 0 → lens.getD s 0 ≤ hufMaxLen := fun s hs =>
    hlens _ (List.mem_of_getElem? (getElem?_of_getD_pos hs))
  refine ⟨fun c hc => ?_, fun c hc => ?_, fun c hc d hd hcd hpre => ?_⟩
  · obtain ⟨s, hs, rfl⟩ := (mem_hufMembers hlens c).1 hc
    exact ⟨hs, hle s hs⟩
  · obtain ⟨s, hs, rfl⟩ := (mem_hufMembers hlens c).1 hc
    exact bitReverse_lt ..
  · obtain ⟨s, hs, rfl⟩ := (mem_hufMembers hlens c).1 hc
    obtain ⟨s', hs', rfl⟩ := (mem_hufMembers hlens d).1 hd
    have hshift := shiftRight_eq_of_bitReverse hcd (hufCodeOf_lt_two_pow hs (hle s hs) hleft)
      (hufCodeOf_lt_two_pow hs' (hle s' hs') hleft) hpre
    rw [hufCodeOf_prefix_free hs hs' hcd hshift]

end Sys2Proof.Machine
end

section
/-! PROOF. The multi-level decode table (41_huffman.md R157 to R160): the table that is built leads from its root along the bits
of each code to the leaf of its symbol, and the decoder walks that way (R164). -/

namespace Sys2Proof.Machine

/-! ## The way of a code through the tables -/

/-- From subtable `t` of width `w` the next `n` bits, which make the number `q` with the first bit lowest, lead to the leaf of
`sym`: here, or over a link to a later subtable (R157, R160). -/
inductive HufPath (arena : List (List HufEntry)) (sym : Nat) : Nat → Nat → Nat → Nat → Prop where
  | leaf (t w n q : Nat) (width : w ≤ 16) (fits : n ≤ w) (small : q < 2 ^ n)
      (here : ∀ ix, ix < 2 ^ w → ix % 2 ^ n = q → (arena.getD t [])[ix]? = some (.leaf n sym)) : HufPath arena sym t w n q
  | link (t w n q sub w' : Nat) (width : w ≤ 16) (more : w < n) (later : t < sub)
      (here : (arena.getD t [])[q % 2 ^ w]? = some (.link w sub w')) (rest : HufPath arena sym sub w' (n - w) (q >>> w)) :
      HufPath arena sym t w n q

/-- Reduced values of the next bits. -/
theorem Brl.low_mod {cfg : Config} (hc : readersOk cfg) {inp : List Byte} {w n q : Nat} (hw : w ≤ 16) {r : Brl} (h : r.wf inp)
    (hn : n ≤ w) (hq : ∀ i, i < n → r.streamBit inp i = q.testBit i) : (r.need cfg inp w).low w % 2 ^ n = q % 2 ^ n := by
  refine Nat.eq_of_testBit_eq fun i => ?_
  rw [Nat.testBit_mod_two_pow, Nat.testBit_mod_two_pow, Brl.testBit_low hc hw h]
  by_cases hi : i < n
  · simp [hi, show i < w by omega, hq i hi]
  · simp [hi]

/-- The walk of HufDecode takes the way of the bits that come next; it visits later and later subtables, so as many passes as
there are subtables are enough (R159, R160). -/
theorem hufWalk_of_path {cfg : Config} (hc : readersOk cfg) {inp : List Byte} {arena : List (List HufEntry)}
    {sym t w n q : Nat} (hp : HufPath arena sym t w n q) {fuel : Nat} (hfuel : arena.length ≤ fuel + t) {r : Brl}
    (h : r.wf inp) (hq : ∀ i, i < n → r.streamBit inp i = q.testBit i) :
    ∃ r', hufWalk cfg inp arena fuel t w r = .ok sym r' ∧ Brl.advanced inp r r' n := by
  have inside : ∀ {t ix : Nat} {e : HufEntry}, (arena.getD t [])[ix]? = some e → t < arena.length := fun {t ix e} he => by
    by_contra hge
    rw [List.getD_eq_getElem?_getD, List.getElem?_eq_none (Nat.not_lt.1 hge)] at he
    cases he
  induction hp generalizing fuel r with
  | leaf t w n q width fits small here =>
    obtain ⟨hf, henough⟩ := Brl.refilled_need hc width h
    have hix := Brl.low_mod hc width h fits hq
    rw [Nat.mod_eq_of_lt small] at hix
    have hentry := here _ (Nat.mod_lt _ (Nat.two_pow_pos w)) hix
    obtain ⟨fuel, rfl⟩ : ∃ f, fuel = f + 1 := ⟨fuel - 1, by have := inside hentry; omega⟩
    refine ⟨(r.need cfg inp w).drop n, ?_, hf.advanced_then (Brl.advanced_drop hf.wf (by omega))⟩
    simp only [hufWalk, Brl.peek]
    rw [show (arena.getD t [])[(r.need cfg inp w).low w]? = _ from hentry]
  | link t w n q sub w' width more later here rest ih =>
    obtain ⟨hf, henough⟩ := Brl.refilled_need hc width h
    have hix := Brl.low_mod hc width h (Nat.le_refl w) fun i hi => hq i (by omega)
    rw [Nat.mod_eq_of_lt (show (r.need cfg inp w).low w < 2 ^ w from Nat.mod_lt _ (Nat.two_pow_pos w))] at hix
    obtain ⟨fuel, rfl⟩ : ∃ f, fuel = f + 1 := ⟨fuel - 1, by have := inside here; omega⟩
    have hdrop := hf.advanced_then (Brl.advanced_drop hf.wf henough)
    obtain ⟨r', hwalk, hadv⟩ := ih (fuel := fuel) (by omega) hdrop.1 fun i hi => by
      rw [hdrop.2, hq (w + i) (by omega), Nat.testBit_shiftRight]
    refine ⟨r', ?_, by simpa [Nat.add_sub_cancel' more.le] using hdrop.trans hadv⟩
    simp only [hufWalk, Brl.peek]
    rw [hix, here]
    exact hwalk

/-! ## MakeTable, part by part (R158) -/

/-- The width of the subtable at depth `w`. -/
def hufWidth (m w : Nat) (members : List HufCode) : Nat := min m ((members.map HufCode.len).foldl Nat.max 0 - w)

/-- The codes that end in it. -/
def hufShort (w width : Nat) (members : List HufCode) : List HufCode := members.filter fun c => c.len - w ≤ width

/-- The codes that go on below it. -/
def hufLong (w width : Nat) (members : List HufCode) : List HufCode := members.filter fun c => width < c.len - w

/-- Those that go on at one of its entries. -/
def hufKeyed (w width : Nat) (members : List HufCode) (key : Nat) : List HufCode :=
  (hufLong w width members).filter fun c => (c.rev >>> w) % 2 ^ width == key

/-- Its entries before the links are made. -/
def hufLeaves (w width : Nat) (members : List HufCode) : List HufEntry :=
  (List.range (2 ^ width)).map (hufLeafAt w (hufShort w width members))

/-- The link at one of its entries, and the subtable behind it, if a code goes on there. -/
def hufAddLink (m fuel w width : Nat) (members : List HufCode) (acc : List (List HufEntry) × List HufEntry) (key : Nat) :
    List (List HufEntry) × List HufEntry :=
  match hufKeyed w width members key with
  | [] => acc
  | sub =>
    ((makeTable m fuel (w + width) sub acc.1).1,
      acc.2.set key (.link width acc.1.length (makeTable m fuel (w + width) sub acc.1).2))

/-- The entries at which a link may be made. -/
def hufKeys (w width : Nat) (members : List HufCode) : List Nat :=
  if (hufLong w width members).isEmpty then [] else List.range (2 ^ width)

theorem makeTable_succ (m fuel w : Nat) (members : List HufCode) (arena : List (List HufEntry)) :
    makeTable m (fuel + 1) w members arena =
      let width := hufWidth m w members
      let leaves := hufLeaves w width members
      let filled := (hufKeys w width members).foldl (hufAddLink m fuel w width members) (arena ++ [leaves], leaves)
      (filled.1.set arena.length filled.2, width) := rfl

theorem hufAddLink_of_none {m fuel w width key : Nat} {members : List HufCode} (h : hufKeyed w width members key = [])
    (acc : List (List HufEntry) × List HufEntry) : hufAddLink m fuel w width members acc key = acc := by
  unfold hufAddLink
  rw [h]

theorem hufAddLink_of_some {m fuel w width key : Nat} {members : List HufCode} (h : hufKeyed w width members key ≠ [])
    (acc : List (List HufEntry) × List HufEntry) :
    hufAddLink m fuel w width members acc key =
      ((makeTable m fuel (w + width) (hufKeyed w width members key) acc.1).1,
        acc.2.set key (.link width acc.1.length (makeTable m fuel (w + width) (hufKeyed w width members key) acc.1).2)) := by
  unfold hufAddLink
  split
  · next hnil => exact absurd hnil h
  · rfl

/-! ## The arena only grows -/

/-- The links of one subtable only append, if the subtables behind them do. -/
theorem foldl_hufAddLink_prefix {m fuel : Nat} (ih : ∀ w members arena, arena <+: (makeTable m fuel w members arena).1)
    (w width : Nat) (members : List HufCode) (keys : List Nat) (acc : List (List HufEntry) × List HufEntry) :
    acc.1 <+: (keys.foldl (hufAddLink m fuel w width members) acc).1 := by
  induction keys generalizing acc with
  | nil => exact List.prefix_rfl
  | cons key keys ihk =>
    refine List.IsPrefix.trans ?_ (ihk _)
    by_cases hk : hufKeyed w width members key = []
    · rw [hufAddLink_of_none hk]
    · rw [hufAddLink_of_some hk]; exact ih ..

theorem makeTable_prefix (m fuel w : Nat) (members : List HufCode) (arena : List (List HufEntry)) :
    arena <+: (makeTable m fuel w members arena).1 := by
  induction fuel generalizing w members arena with
  | zero => exact List.prefix_rfl
  | succ fuel ih =>
    rw [makeTable_succ]
    dsimp only
    obtain ⟨rest, hrest⟩ := foldl_hufAddLink_prefix ih w (hufWidth m w members) members
      (hufKeys w (hufWidth m w members) members)
      (arena ++ [hufLeaves w (hufWidth m w members) members], hufLeaves w (hufWidth m w members) members)
    rw [← hrest, List.append_assoc, List.set_append_right _ _ (Nat.le_refl _)]
    exact List.prefix_append ..

/-! ## The entries of one subtable -/

/-- An entry at which no code goes on is not touched by the links. -/
theorem foldl_hufAddLink_other {m fuel w width : Nat} {members : List HufCode} {j : Nat} (keys : List Nat)
    (h : j ∈ keys → hufKeyed w width members j = []) (acc : List (List HufEntry) × List HufEntry) :
    (keys.foldl (hufAddLink m fuel w width members) acc).2[j]? = acc.2[j]? := by
  induction keys generalizing acc with
  | nil => rfl
  | cons key keys ih =>
    rw [List.foldl_cons, ih fun hj => h (List.mem_cons_of_mem _ hj)]
    by_cases hk : hufKeyed w width members key = []
    · rw [hufAddLink_of_none hk]
    · rw [hufAddLink_of_some hk]
      refine List.getElem?_set_ne fun heq => hk ?_
      subst heq
      exact h (List.mem_cons_self ..)

/-- An entry at which codes go on links to a subtable of theirs, made on the arena as far as it had come. -/
theorem foldl_hufAddLink_linked {m fuel w width : Nat} {members : List HufCode} {key : Nat} {keys : List Nat}
    (hnodup : keys.Nodup) (hmem : key ∈ keys) (hkey : hufKeyed w width members key ≠ [])
    {acc : List (List HufEntry) × List HufEntry} (hlt : key < acc.2.length) :
    ∃ arena, acc.1 <+: arena ∧
      (keys.foldl (hufAddLink m fuel w width members) acc).2[key]? =
        some (.link width arena.length (makeTable m fuel (w + width) (hufKeyed w width members key) arena).2) ∧
      (makeTable m fuel (w + width) (hufKeyed w width members key) arena).1 <+:
        (keys.foldl (hufAddLink m fuel w width members) acc).1 := by
  induction keys generalizing acc with
  | nil => cases hmem
  | cons first keys ih =>
    obtain ⟨hfirst, hnodup⟩ := List.nodup_cons.1 hnodup
    rw [List.foldl_cons]
    rcases List.mem_cons.1 hmem with rfl | hmem
    · refine ⟨acc.1, List.prefix_rfl, ?_, ?_⟩
      · rw [foldl_hufAddLink_other keys fun hj => absurd hj hfirst, hufAddLink_of_some hkey, List.getElem?_set_self hlt]
      · refine List.IsPrefix.trans ?_ (foldl_hufAddLink_prefix (makeTable_prefix m fuel) w width members keys _)
        rw [hufAddLink_of_some hkey]
    · have hgrow := foldl_hufAddLink_prefix (makeTable_prefix m fuel) w width members [first] acc
      have hlen : key < (hufAddLink m fuel w width members acc first).2.length := by
        by_cases hk : hufKeyed w width members first = []
        · rwa [hufAddLink_of_none hk]
        · rwa [hufAddLink_of_some hk, List.length_set]
      obtain ⟨arena, hpre, hentry, htable⟩ := ih hnodup hmem hlen
      exact ⟨arena, hgrow.trans hpre, hentry, htable⟩

/-- The entry of a code that ends here, at every index that begins with the code (R158). -/
theorem hufLeafAt_eq {w n j : Nat} {short : List HufCode} {c : HufCode} (hc : c ∈ short)
    (hj : j % 2 ^ (c.len - w) = c.rev >>> w) (hfree : ∀ d ∈ short, j % 2 ^ (d.len - w) = d.rev >>> w → d = c)
    (hn : n = c.len - w) : hufLeafAt w short j = .leaf n c.sym := by
  unfold hufLeafAt
  split
  · next d hd =>
    obtain rfl := hfree d (List.mem_of_find?_eq_some hd) (by simpa using List.find?_some hd)
    rw [hn]
  · next hnone =>
    have := List.find?_eq_none.1 hnone c hc
    simp [hj] at this

/-! ## The members of one subtable -/

theorem le_foldl_max {l : List Nat} {x : Nat} (h : x ∈ l) (a : Nat) : x ≤ l.foldl Nat.max a := by
  have start_le : ∀ (l : List Nat) (a : Nat), a ≤ l.foldl Nat.max a := fun l => by
    induction l with
    | nil => exact fun a => Nat.le_refl a
    | cons y l ih => exact fun a => Nat.le_trans (Nat.le_max_left a y) (ih _)
  induction l generalizing a with
  | nil => cases h
  | cons y l ih =>
    rcases List.mem_cons.1 h with rfl | h
    · exact Nat.le_trans (Nat.le_max_right a x) (start_le l _)
    · exact ih h _

theorem foldl_max_le {l : List Nat} {a n : Nat} (h : ∀ x ∈ l, x ≤ n) (ha : a ≤ n) : l.foldl Nat.max a ≤ n := by
  induction l generalizing a with
  | nil => exact ha
  | cons y l ih => exact ih (fun x hx => h x (by simp [hx])) (Nat.max_le.2 ⟨ha, h y (by simp)⟩)

/-- What holds of the members of a subtable at depth `w` (R158): good codes, longer than `w`, with the same first `w` bits. -/
structure HufMembersOk (w : Nat) (members : List HufCode) : Prop extends HufCodesOk members where
  deeper : ∀ c ∈ members, w < c.len
  shared : ∀ c ∈ members, ∀ d ∈ members, c.rev % 2 ^ w = d.rev % 2 ^ w

section
variable {w : Nat} {members : List HufCode} (h : HufMembersOk w members)
include h

/-- A subtable has at least one bit and at most 15. -/
theorem HufMembersOk.width_bounds {m : Nat} (hm : 1 ≤ m) {c : HufCode} (hc : c ∈ members) :
    1 ≤ hufWidth m w members ∧ hufWidth m w members ≤ hufMaxLen := by
  have hle := le_foldl_max (List.mem_map_of_mem (f := HufCode.len) hc) 0
  have hmax : (members.map HufCode.len).foldl Nat.max 0 ≤ hufMaxLen := foldl_max_le (fun x hx => by
    obtain ⟨d, hd, rfl⟩ := List.mem_map.1 hx
    exact (h.long d hd).2) (Nat.zero_le _)
  have hdeep := h.deeper c hc
  unfold hufWidth
  omega

/-- Below depth `w`, too, no code is the beginning of another. -/
theorem HufMembersOk.free_below {c d : HufCode} (hc : c ∈ members) (hd : d ∈ members) (hcd : c.len ≤ d.len)
    (hpre : (d.rev >>> w) % 2 ^ (c.len - w) = c.rev >>> w) : d = c := by
  refine h.free c hc d hd hcd ?_
  have hsplit : 2 ^ c.len = 2 ^ w * 2 ^ (c.len - w) := by
    rw [← Nat.pow_add, Nat.add_sub_cancel' (h.deeper c hc).le]
  rw [Nat.shiftRight_eq_div_pow, Nat.shiftRight_eq_div_pow] at hpre
  rw [hsplit, Nat.mod_mul, hpre, h.shared d hd c hc, Nat.mod_add_div]

/-- Two codes that both begin with the bits of one index are one. -/
theorem HufMembersOk.eq_of_index {c d : HufCode} (hc : c ∈ members) (hd : d ∈ members) {j : Nat}
    (hjc : j % 2 ^ (c.len - w) = c.rev >>> w) (hjd : j % 2 ^ (d.len - w) = d.rev >>> w) : d = c := by
  have cut : ∀ {a b : HufCode}, a.len ≤ b.len → j % 2 ^ (a.len - w) = a.rev >>> w → j % 2 ^ (b.len - w) = b.rev >>> w →
      (b.rev >>> w) % 2 ^ (a.len - w) = a.rev >>> w := fun {a b} hab ha hb => by
    rw [← hb, Nat.mod_mod_of_dvd j (Nat.pow_dvd_pow 2 (by omega)), ha]
  rcases Nat.le_total c.len d.len with hle | hle
  · exact h.free_below hc hd hle (cut hle hjc hjd)
  · exact (h.free_below hd hc hle (cut hle hjd hjc)).symm

/-- The members behind a link (R158). -/
theorem HufMembersOk.keyed (width key : Nat) : HufMembersOk (w + width) (hufKeyed w width members key) := by
  have back : ∀ c ∈ hufKeyed w width members key, c ∈ members ∧ width < c.len - w ∧ (c.rev >>> w) % 2 ^ width = key :=
    fun c hc => by
      obtain ⟨hlong, hkey⟩ := List.mem_filter.1 hc
      obtain ⟨hmem, hlong⟩ := List.mem_filter.1 hlong
      exact ⟨hmem, by simpa using hlong, by simpa using hkey⟩
  refine ⟨⟨fun c hc => h.long c (back c hc).1, fun c hc => h.fits c (back c hc).1,
    fun c hc d hd => h.free c (back c hc).1 d (back d hd).1⟩, fun c hc => ?_, fun c hc d hd => ?_⟩
  · obtain ⟨-, hlong, -⟩ := back c hc
    omega
  · obtain ⟨hc, -, hkc⟩ := back c hc
    obtain ⟨hd, -, hkd⟩ := back d hd
    rw [Nat.shiftRight_eq_div_pow] at hkc hkd
    rw [Nat.pow_add, Nat.mod_mul, Nat.mod_mul, h.shared c hc d hd, hkc, hkd]

/-- At an index that begins with a short code no code goes on. -/
theorem HufMembersOk.keyed_nil {c : HufCode} (hc : c ∈ members) {width j : Nat} (hshort : c.len - w ≤ width)
    (hj : j % 2 ^ (c.len - w) = c.rev >>> w) : hufKeyed w width members j = [] := by
  refine List.filter_eq_nil_iff.2 fun d hd hkey => ?_
  obtain ⟨hmem, hlong⟩ := List.mem_filter.1 hd
  have hlong : width < d.len - w := by simpa using hlong
  have hkey : (d.rev >>> w) % 2 ^ width = j := by simpa using hkey
  have hpre : (d.rev >>> w) % 2 ^ (c.len - w) = c.rev >>> w := by
    rw [← hj, ← hkey, Nat.mod_mod_of_dvd _ (Nat.pow_dvd_pow 2 hshort)]
  obtain rfl := h.free_below hc hmem (by omega) hpre
  omega

end

/-- In an arena that has kept what MakeTable built, the way of every member's code leads to its symbol's leaf (R158, R159). -/
theorem makeTable_paths {m fuel w : Nat} {members : List HufCode} {arena final : List (List HufEntry)} (hm : 1 ≤ m)
    (hfuel : hufMaxLen < fuel + w) (h : HufMembersOk w members)
    (hfinal : ∀ j, arena.length ≤ j → j < (makeTable m fuel w members arena).1.length →
      final[j]? = (makeTable m fuel w members arena).1[j]?) {c : HufCode} (hc : c ∈ members) :
    HufPath final c.sym arena.length (makeTable m fuel w members arena).2 (c.len - w) (c.rev >>> w) := by
  induction fuel generalizing w members arena with
  | zero =>
    have hdeep := h.deeper c hc
    have hlen := (h.long c hc).2
    omega
  | succ fuel ih =>
    obtain ⟨hw1, hw15⟩ := h.width_bounds hm hc
    have hw16 : hufWidth m w members ≤ 16 := Nat.le_trans hw15 (by decide)
    rw [makeTable_succ] at hfinal ⊢
    dsimp only at hfinal ⊢
    generalize hufWidth m w members = width at hw1 hw16 hfinal ⊢
    generalize hleaves : hufLeaves w width members = leaves at hfinal
    generalize hfilled : (hufKeys w width members).foldl (hufAddLink m fuel w width members)
      (arena ++ [leaves], leaves) = filled at hfinal
    have hgrow : (arena ++ [leaves]).length ≤ filled.1.length := by
      rw [← hfilled]
      exact (foldl_hufAddLink_prefix (makeTable_prefix m fuel) w width members _ (arena ++ [leaves], leaves)).length_le
    rw [List.length_append, List.length_singleton] at hgrow
    have hroot : final.getD arena.length [] = filled.2 := by
      rw [List.getD_eq_getElem?_getD, hfinal _ (Nat.le_refl _) (by rw [List.length_set]; omega),
        List.getElem?_set_self (by omega)]
      rfl
    by_cases hshort : c.len - w ≤ width
    · refine .leaf _ _ _ _ hw16 hshort ?_ fun ix hix hcode => ?_
      · rw [Nat.shiftRight_eq_div_pow, Nat.div_lt_iff_lt_mul (Nat.two_pow_pos w), ← Nat.pow_add,
          Nat.sub_add_cancel (h.deeper c hc).le]
        exact h.fits c hc
      · have hin : c ∈ hufShort w width members := List.mem_filter.2 ⟨hc, by simpa using hshort⟩
        have hleaf := hufLeafAt_eq hin hcode (fun d hd hjd => h.eq_of_index hc (List.mem_filter.1 hd).1 hcode hjd) rfl
        rw [hroot, ← hfilled, foldl_hufAddLink_other _ fun _ => h.keyed_nil hc hshort hcode, ← hleaves, hufLeaves,
          List.getElem?_map, List.getElem?_range hix, Option.map_some, hleaf]
    · have hlong : c ∈ hufLong w width members := List.mem_filter.2 ⟨hc, decide_eq_true (by omega)⟩
      have hkeyed : c ∈ hufKeyed w width members ((c.rev >>> w) % 2 ^ width) := List.mem_filter.2 ⟨hlong, by simp⟩
      have hkey : (c.rev >>> w) % 2 ^ width < 2 ^ width := Nat.mod_lt _ (Nat.two_pow_pos width)
      have hkeys : hufKeys w width members = List.range (2 ^ width) := if_neg (by
        rw [List.isEmpty_iff]; exact List.ne_nil_of_mem hlong)
      rw [hkeys] at hfilled
      obtain ⟨sub, hpre, hentry, htable⟩ := foldl_hufAddLink_linked (m := m) (fuel := fuel) (acc := (arena ++ [leaves], leaves))
        List.nodup_range (List.mem_range.2 hkey) (List.ne_nil_of_mem hkeyed) (by rw [← hleaves]; simpa [hufLeaves] using hkey)
      rw [hfilled] at hentry htable
      have hlater : arena.length < sub.length := by
        have := hpre.length_le
        rw [List.length_append, List.length_singleton] at this
        omega
      refine .link _ _ _ _ sub.length _ hw16 (by omega) hlater (by rw [hroot]; exact hentry) ?_
      have hrest := ih (arena := sub) (by omega) (h.keyed width _) (fun j hj hlt => ?_) hkeyed
      · rwa [Nat.shiftRight_add, ← Nat.sub_sub] at hrest
      · obtain ⟨tail, htail⟩ := htable
        have hlen : j < filled.1.length := by rw [← htail, List.length_append]; omega
        rw [hfinal j (by omega) (by rw [List.length_set]; omega), List.getElem?_set_ne (by omega), ← htail,
          List.getElem?_append_left hlt]

/-! ## The whole table (R150 to R160) -/

/-- What the builder has checked, and what it has built, when some symbol has a code (R151 to R156). -/
theorem hufBuild_some {lens : List Nat} {mReq : Nat} {allow : Bool} {t : HufTable} (h : hufBuild lens mReq allow = some t)
    {s : Nat} (hs : 0 < lens.getD s 0) :
    (hufLeft lens hufMaxLen).isSome ∧
      t = { empty := false, m := max (hufMinLen lens) (min mReq (hufMaxUsed lens)),
            arena := (makeTable (max (hufMinLen lens) (min mReq (hufMaxUsed lens))) (hufMaxLen + 1) 0 (hufMembers lens) []).1 } := by
  have hsome : hufCount lens 0 ≠ lens.length := fun hall => by
    have hat := getElem?_of_getD_pos hs
    have := List.count_eq_length.1 hall _ (List.mem_of_getElem? hat)
    omega
  rw [hufBuild, if_neg hsome] at h
  split at h
  · cases h
  · next left hleft =>
    split at h
    · cases h
    · exact ⟨by rw [hleft]; rfl, (Option.some.inj h).symm⟩

section
variable {lens : List Nat} (hlens : ∀ l ∈ lens, l ≤ hufMaxLen)
include hlens

/-- The longest code of the table is at least as long as any length in use. -/
theorem le_longest_member {l : Nat} (hl : l ∈ lens) : l ≤ ((hufMembers lens).map HufCode.len).foldl Nat.max 0 := by
  rcases Nat.eq_zero_or_pos l with rfl | hpos
  · exact Nat.zero_le _
  · obtain ⟨s, hs⟩ := List.getElem?_of_mem hl
    have hget : lens.getD s 0 = l := by rw [List.getD_eq_getElem?_getD, hs]; rfl
    have hmem : hufCodeFor lens s ∈ hufMembers lens := (mem_hufMembers hlens _).2 ⟨s, by omega, rfl⟩
    have := le_foldl_max (List.mem_map_of_mem (f := HufCode.len) hmem) 0
    rwa [show (hufCodeFor lens s).len = l from hget] at this

/-- The root has at least one bit, and its width is no cut by the longest code (R155, R156). -/
theorem rootWidth_eq (mReq : Nat) {s : Nat} (hs : 0 < lens.getD s 0) :
    1 ≤ max (hufMinLen lens) (min mReq (hufMaxUsed lens)) ∧
      hufWidth (max (hufMinLen lens) (min mReq (hufMaxUsed lens))) 0 (hufMembers lens) =
        max (hufMinLen lens) (min mReq (hufMaxUsed lens)) := by
  have hmin : 1 ≤ hufMinLen lens ∧ hufMinLen lens ∈ lens := by
    have hat := List.mem_of_getElem? (getElem?_of_getD_pos hs)
    unfold hufMinLen
    cases hfind : (List.range (hufMaxLen + 1)).find? fun k => 1 ≤ k && 0 < hufCount lens k with
    | none =>
      have := List.find?_eq_none.1 hfind (lens.getD s 0) (List.mem_range.2 (Nat.lt_succ_of_le (hlens _ hat)))
      have hcount : 0 < hufCount lens (lens.getD s 0) := List.count_pos_iff.2 hat
      simp only [Bool.and_eq_true, decide_eq_true_eq] at this
      exact absurd ⟨hs, hcount⟩ this
    | some k =>
      have := List.find?_some hfind
      simp only [Bool.and_eq_true, decide_eq_true_eq] at this
      exact ⟨this.1, List.count_pos_iff.1 this.2⟩
  have hmax : hufMaxUsed lens ≤ ((hufMembers lens).map HufCode.len).foldl Nat.max 0 :=
    foldl_max_le (fun _ => le_longest_member hlens) (Nat.zero_le _)
  have hminle := le_longest_member hlens hmin.2
  unfold hufWidth
  omega

/-- A table that was built decodes each symbol from its code, and takes exactly the code's bits (R154, R160, R164). -/
theorem hufDecode_of_code {cfg : Config} (hc : readersOk cfg) {mReq : Nat} {allow : Bool} {t : HufTable}
    (hbuild : hufBuild lens mReq allow = some t) {inp : List Byte} {r : Brl} (h : r.wf inp) {s : Nat}
    (hs : 0 < lens.getD s 0) (hcode : ∀ i, i < lens.getD s 0 → r.streamBit inp i = hufCodeBit lens s i) :
    ∃ r', hufDecode cfg inp t r = .ok s r' ∧ Brl.advanced inp r r' (lens.getD s 0) := by
  obtain ⟨hleft, rfl⟩ := hufBuild_some hbuild hs
  obtain ⟨hm, hwidth⟩ := rootWidth_eq hlens mReq hs
  have hmem : hufCodeFor lens s ∈ hufMembers lens := (mem_hufMembers hlens _).2 ⟨s, hs, rfl⟩
  have hok : HufMembersOk 0 (hufMembers lens) :=
    ⟨hufMembers_ok hlens hleft, fun c hc => ((hufMembers_ok hlens hleft).long c hc).1, fun _ _ _ _ => by
      rw [Nat.pow_zero, Nat.mod_one, Nat.mod_one]⟩
  have hpath := makeTable_paths (arena := []) hm (Nat.lt_succ_self hufMaxLen) hok (fun _ _ _ => rfl) hmem
  rw [show (makeTable _ (hufMaxLen + 1) 0 (hufMembers lens) []).2 = _ from hwidth, Nat.shiftRight_zero, Nat.sub_zero] at hpath
  have hbits : ∀ i, i < lens.getD s 0 → r.streamBit inp i = (hufCodeFor lens s).rev.testBit i := fun i hi => by
    rw [hcode i hi, hufCodeBit, hufCodeFor, testBit_bitReverse, decide_eq_true hi, Bool.true_and]
  exact hufWalk_of_path hc hpath (Nat.le_add_right _ _) h hbits

end

end Sys2Proof.Machine
end

section
/-! PROOF. The coded elements read back (30_encoding.md R63, R96 to R99, R104, R105, R108): a decoder whose table was built from the
encoder's code lengths reads the symbol, and behind it the extra bits. -/

namespace Sys2Proof.Machine

/-! ## The entry of a base table that covers a value (R104, R105) -/

/-- In a table whose entries leave no gap, the entry the encoder chooses covers the value. -/
theorem fieldIndex_covers {e : Nat × Nat} {table : List (Nat × Nat)} {v : Nat} (hfirst : e.1 ≤ v)
    (hgapless : (e :: table).IsChain fun a b => b.1 ≤ a.1 + 2 ^ a.2)
    (hlast : ∀ f ∈ (e :: table).getLast?, v < f.1 + 2 ^ f.2) :
    ∃ f, (e :: table)[fieldIndex (e :: table) v]? = some f ∧ f.1 ≤ v ∧ v < f.1 + 2 ^ f.2 := by
  induction table generalizing e with
  | nil => exact ⟨e, by simp [fieldIndex, hfirst], hfirst, hlast e rfl⟩
  | cons e' table ih =>
    obtain ⟨hnext, hrest⟩ := List.isChain_cons_cons.1 hgapless
    by_cases hle : e'.1 ≤ v
    · obtain ⟨f, hf, hcover⟩ := ih hle hrest fun f hf => hlast f (by rwa [List.getLast?_cons_cons])
      have hindex : fieldIndex (e :: e' :: table) v = fieldIndex (e' :: table) v + 1 := by
        simp [fieldIndex, hfirst, hle]
      exact ⟨f, by rw [hindex, List.getElem?_cons_succ, hf], hcover⟩
    · exact ⟨e, by simp [fieldIndex, hfirst, hle], hfirst, by omega⟩

/-- The match lengths (R104). -/
theorem lengthTable_covers {len : Nat} (h3 : 3 ≤ len) (h258 : len ≤ 258) :
    ∃ f, lengthTable[fieldIndex lengthTable len]? = some f ∧ f.1 ≤ len ∧ len < f.1 + 2 ^ f.2 :=
  fieldIndex_covers h3 (by decide) fun f hf => by
    obtain rfl : (258, 0) = f := Option.some.inj hf
    exact Nat.lt_succ_of_le h258

/-- The match distances (R105). -/
theorem distTable_covers {d : Nat} (h1 : 1 ≤ d) (hmax : d ≤ 32768) :
    ∃ f, distTable[fieldIndex distTable d]? = some f ∧ f.1 ≤ d ∧ d < f.1 + 2 ^ f.2 :=
  fieldIndex_covers h1 (by decide) fun f hf => by
    obtain rfl : (24577, 13) = f := Option.some.inj hf
    exact Nat.lt_succ_of_le hmax

/-! ## A symbol and its extra bits (R99, R108) -/

theorem thenBits_eq_some {a : Option (List Bool)} {b bits : List Bool} (h : thenBits a b = some bits) :
    ∃ code, a = some code ∧ bits = code ++ b := by
  cases a with
  | none => cases h
  | some code => exact ⟨code, rfl, (Option.some.inj h).symm⟩

section
variable {cfg : Config} (hc : readersOk cfg) {lens : List Nat} (hlens : ∀ l ∈ lens, l ≤ hufMaxLen) {t : HufTable}
  (hbuild : ∃ m a, hufBuild lens m a = some t) {inp : List Byte} {r : Brl} (h : r.wf inp)
include hc hlens hbuild h

/-- A delivered code is decoded to its symbol; what follows it is delivered then (R63, R164). -/
theorem hufDecode_codeBits {s : Nat} {code rest : List Bool} (he : codeBits lens s = some code)
    (hd : r.delivers inp (code ++ rest)) :
    ∃ r', hufDecode cfg inp t r = .ok s r' ∧ Brl.advanced inp r r' code.length ∧ r'.delivers inp rest := by
  obtain ⟨m, a, hbuild⟩ := hbuild
  unfold codeBits at he
  split at he
  · cases he
  · next hs =>
    obtain rfl := Option.some.inj he
    have hlen : (msbField (lens.getD s 0) (hufCodeOf lens s)).length = lens.getD s 0 := by simp [msbField]
    obtain ⟨r', hok, hadv⟩ := hufDecode_of_code hlens hc hbuild h (Nat.pos_of_ne_zero hs) fun i hi => by
      rw [Brl.delivers_append hd i (by rwa [hlen])]
      simp [msbField, hufCodeBit]
    exact ⟨r', hok, by rwa [hlen], hadv.delivers hlen hd⟩

/-- A code alone. -/
theorem hufDecode_code {s : Nat} {bits : List Bool} (he : codeBits lens s = some bits) (hd : r.delivers inp bits) :
    ∃ r', hufDecode cfg inp t r = .ok s r' ∧ Brl.advanced inp r r' bits.length := by
  rw [← List.append_nil bits] at hd
  obtain ⟨r', hok, hadv, -⟩ := hufDecode_codeBits hc hlens hbuild h he hd
  exact ⟨r', hok, hadv⟩

/-- A code with extra bits behind it. -/
theorem hufDecode_code_field {s n v : Nat} {bits : List Bool} (hn : n ≤ 16) (hv : v < 2 ^ n)
    (he : thenBits (codeBits lens s) (lsbField n v) = some bits) (hd : r.delivers inp bits) :
    ∃ r1 r2, hufDecode cfg inp t r = .ok s r1 ∧ r1.readBits cfg inp n = (v, r2) ∧ Brl.advanced inp r r2 bits.length := by
  obtain ⟨code, hcode, rfl⟩ := thenBits_eq_some he
  obtain ⟨r1, hok, hadv, hrest⟩ := hufDecode_codeBits hc hlens hbuild h hcode hd
  rw [← List.append_nil (lsbField n v)] at hrest
  obtain ⟨r2, hread, hadv', -⟩ := Brl.readBits_field hc hn hv hadv.1 hrest
  refine ⟨r1, r2, hok, hread, ?_⟩
  rw [List.length_append, lsbField_length]
  exact hadv.trans hadv'

/-- The symbol of a base table that covers a value, and the rest of the value behind it. -/
theorem hufDecode_fieldBits {table : List (Nat × Nat)} {first v : Nat} {bits : List Bool} {f : Nat × Nat}
    (hf : table[fieldIndex table v]? = some f) (hn : ∀ e ∈ table, e.2 ≤ 16) (hlow : f.1 ≤ v) (hhigh : v < f.1 + 2 ^ f.2)
    (he : fieldBits lens table first v = some bits) (hd : r.delivers inp bits) :
    ∃ r1 r2, hufDecode cfg inp t r = .ok (first + fieldIndex table v) r1 ∧ r1.readBits cfg inp f.2 = (v - f.1, r2) ∧
      Brl.advanced inp r r2 bits.length := by
  have hget : table.getD (fieldIndex table v) (0, 0) = f := by rw [List.getD_eq_getElem?_getD, hf]; rfl
  rw [fieldBits, hget] at he
  exact hufDecode_code_field hc hlens hbuild h (hn f (List.mem_of_getElem? hf)) (by omega) he hd

/-! ## The elements -/

theorem decodeCodeLen_of_delivers {env : EncEnv} (henv : env.clLens = lens) {i : Instr} (hwf : i.wf = true)
    (hi : MzPhase.codeLens.takes i) {bits : List Bool} (he : encode env i = some bits) (hd : r.delivers inp bits) :
    ReadsElement inp (decodeCodeLen cfg inp t r) i r bits.length := by
  subst henv
  obtain ⟨v, rfl⟩ | ⟨rep, rfl | rfl | rfl⟩ := hi
  · obtain ⟨r1, hok, hadv⟩ := hufDecode_code hc hlens hbuild h he hd
    exact ⟨r1, by simp [decodeCodeLen, hok, Got.bind, show v.toNat < 16 from v.isLt], hadv⟩
  · have hrep : 3 ≤ rep ∧ rep ≤ 6 := by simpa [Instr.wf] using hwf
    obtain ⟨r1, r2, hok, hread, hadv⟩ := hufDecode_code_field hc hlens hbuild h (by decide) (by omega) he hd
    exact ⟨r2, by simp [decodeCodeLen, hok, Got.bind, repeatField, hread, Nat.add_sub_cancel' hrep.1], hadv⟩
  · have hrep : 3 ≤ rep ∧ rep ≤ 10 := by simpa [Instr.wf] using hwf
    obtain ⟨r1, r2, hok, hread, hadv⟩ := hufDecode_code_field hc hlens hbuild h (by decide) (by omega) he hd
    exact ⟨r2, by simp [decodeCodeLen, hok, Got.bind, repeatField, hread, Nat.add_sub_cancel' hrep.1], hadv⟩
  · have hrep : 11 ≤ rep ∧ rep ≤ 138 := by simpa [Instr.wf] using hwf
    obtain ⟨r1, r2, hok, hread, hadv⟩ := hufDecode_code_field hc hlens hbuild h (by decide) (by omega) he hd
    exact ⟨r2, by simp [decodeCodeLen, hok, Got.bind, repeatField, hread, Nat.add_sub_cancel' hrep.1], hadv⟩

theorem decodeSymbol_of_delivers {env : EncEnv} (henv : env.llLens = lens) {i : Instr} (hwf : i.wf = true)
    (hi : MzPhase.symbols.takes i) {bits : List Bool} (he : encode env i = some bits) (hd : r.delivers inp bits) :
    ReadsElement inp (decodeSymbol cfg inp t r) i r bits.length := by
  subst henv
  obtain rfl | ⟨b, rfl⟩ | ⟨len, rfl⟩ | ⟨sym, rfl⟩ := hi
  · obtain ⟨r1, hok, hadv⟩ := hufDecode_code hc hlens hbuild h he hd
    exact ⟨r1, by simp [decodeSymbol, hok, Got.bind], hadv⟩
  · obtain ⟨r1, hok, hadv⟩ := hufDecode_code hc hlens hbuild h he hd
    exact ⟨r1, by simp [decodeSymbol, hok, Got.bind, show b.toNat < 256 from b.isLt], hadv⟩
  · have hlen : 3 ≤ len ∧ len ≤ 258 := by simpa [Instr.wf] using hwf
    obtain ⟨f, hf, hlow, hhigh⟩ := lengthTable_covers hlen.1 hlen.2
    obtain ⟨r1, r2, hok, hread, hadv⟩ := hufDecode_fieldBits hc hlens hbuild h hf (by decide) hlow hhigh he hd
    have hfield : lengthField (257 + fieldIndex lengthTable len) = some f := by
      rw [lengthField, if_neg (by omega), Nat.add_sub_cancel_left, hf]
    refine ⟨r2, ?_, hadv⟩
    rw [decodeSymbol, hok, Got.bind]
    dsimp only
    rw [if_neg (by omega), if_neg (by omega), hfield]
    dsimp only
    rw [hread]
    dsimp only
    rw [Nat.add_sub_cancel' hlow]
  · obtain ⟨r1, hok, hadv⟩ := hufDecode_code hc hlens hbuild h he hd
    have hsym : sym = 286 ∨ sym = 287 := by simpa [Instr.wf] using hwf
    refine ⟨r1, ?_, hadv⟩
    obtain rfl | rfl := hsym <;> simp [decodeSymbol, hok, Got.bind, lengthField, lengthTable, mzNlitMax]

theorem decodeDistance_of_delivers {env : EncEnv} (henv : env.dLens = lens) {i : Instr} (hwf : i.wf = true) {len : Nat}
    (hi : (MzPhase.distance len).takes i) {bits : List Bool} (he : encode env i = some bits) (hd : r.delivers inp bits) :
    ReadsElement inp (decodeDistance cfg inp t r) i r bits.length := by
  subst henv
  obtain ⟨d, rfl⟩ | ⟨sym, rfl⟩ := hi
  · have hdist : 1 ≤ d ∧ d ≤ 32768 := by simpa [Instr.wf] using hwf
    obtain ⟨f, hf, hlow, hhigh⟩ := distTable_covers hdist.1 hdist.2
    obtain ⟨r1, r2, hok, hread, hadv⟩ := hufDecode_fieldBits hc hlens hbuild h hf (by decide) hlow hhigh he hd
    rw [Nat.zero_add] at hok
    have hfield : distField (fieldIndex distTable d) = some f := hf
    refine ⟨r2, ?_, hadv⟩
    rw [decodeDistance, hok, Got.bind]
    dsimp only
    rw [hfield]
    dsimp only
    rw [hread]
    dsimp only
    rw [Nat.add_sub_cancel' hlow]
  · obtain ⟨r1, hok, hadv⟩ := hufDecode_code hc hlens hbuild h he hd
    have hsym : sym = 30 ∨ sym = 31 := by simpa [Instr.wf] using hwf
    refine ⟨r1, ?_, hadv⟩
    obtain rfl | rfl := hsym <;> simp [decodeDistance, hok, Got.bind, distField, distTable, mzNdistMax]

end

/-- Settles O6: place by place. -/
theorem mzSymbolsDecodeToWhatWasEncoded : Obligations.MzSymbolsDecodeToWhatWasEncoded := by
  intro cfg env inp x p i bits hc hlens hcl hll hdist h hwf htakes hplace he hd
  have hle : ∀ l ∈ env.clLens ++ env.llLens ++ env.dLens, l ≤ hufMaxLen := hlens
  simp only [List.forall_mem_append] at hle
  obtain ⟨⟨hleCl, hleLl⟩, hleDist⟩ := hle
  obtain rfl | rfl | ⟨len, rfl⟩ := hplace
  · exact decodeCodeLen_of_delivers hc hleCl hcl h rfl hwf htakes he hd
  · exact decodeSymbol_of_delivers hc hleLl hll h rfl hwf htakes he hd
  · exact decodeDistance_of_delivers hc hleDist hdist h rfl hwf htakes he hd

end Sys2Proof.Machine
end

section
/-! PROOF. Whatever the bytes of IN are, a fetched element has operands its format can carry (30_encoding.md R95 to R98, R111,
R117): the values of the raw fields by the readers, the bases by the tables, and the literals by the models. -/

namespace Sys2Proof.Machine

/-! ## Field values (R132, R137) -/

theorem Brl.readBits_lt (cfg : Config) (inp : List Byte) (n : Nat) (r : Brl) : (r.readBits cfg inp n).1 < 2 ^ n :=
  Nat.mod_lt _ (Nat.two_pow_pos n)

theorem Brl.readMany_length (cfg : Config) (inp : List Byte) (n count : Nat) (r : Brl) :
    (Brl.readMany cfg inp n count r).1.length = count := by
  induction count generalizing r with
  | zero => rfl
  | succ count ih => rw [Brl.readMany, List.length_cons, ih]

theorem Brm.read16_lt {cfg : Config} {inp : List Byte} {n v : Nat} {r r' : Brm} (h : r.read16 cfg inp n = .ok v r') :
    v < 2 ^ n := by
  unfold Brm.read16 at h
  split at h
  · cases h
    exact Nat.two_pow_pos n
  · obtain ⟨-, r1, -, h⟩ := Got.bind_ok h
    cases h
    exact Nat.mod_lt _ (Nat.two_pow_pos n)

/-- A read of `n` bits gives an `n`-bit value, whatever the reader holds. -/
theorem Brm.read_lt {cfg : Config} {inp : List Byte} {n v : Nat} {r r' : Brm} (h : r.read cfg inp n = .ok v r') :
    v < 2 ^ n := by
  unfold Brm.read at h
  generalize n + 1 = fuel at h
  induction fuel generalizing n v r r' with
  | zero =>
    cases h
    exact Nat.two_pow_pos n
  | succ fuel ih =>
    rw [Brm.readLoop] at h
    split at h
    · exact Brm.read16_lt h
    · obtain ⟨hi, r1, hhi, h⟩ := Got.bind_ok h
      obtain ⟨lo, r2, hlo, h⟩ := Got.bind_ok h
      cases h
      have hsplit : n - cfg.brmSubRead + cfg.brmSubRead = n := by omega
      have hshift : hi <<< cfg.brmSubRead < 2 ^ n := by
        rw [Nat.shiftLeft_eq, ← hsplit, Nat.pow_add]
        exact Nat.mul_lt_mul_of_pos_right (ih hhi) (Nat.two_pow_pos _)
      exact Nat.or_lt_two_pow hshift ((Brm.read16_lt hlo).trans_le (Nat.pow_le_pow_right (by decide) (by omega)))

/-! ## MSZIP (R95 to R98) -/

/-- A length symbol and its extra bits give 3..258 (R97, R104). -/
theorem lengthField_range {sym base extra : Nat} (h : lengthField sym = some (base, extra)) :
    3 ≤ base ∧ base + 2 ^ extra ≤ 259 := by
  have htable : ∀ e ∈ lengthTable, 3 ≤ e.1 ∧ e.1 + 2 ^ e.2 ≤ 259 := by decide
  unfold lengthField at h
  split at h
  · cases h
  · exact htable _ (List.mem_of_getElem? h)

/-- A distance symbol and its extra bits give 1..32768 (R98, R105). -/
theorem distField_range {sym base extra : Nat} (h : distField sym = some (base, extra)) :
    1 ≤ base ∧ base + 2 ^ extra ≤ 32769 := by
  have htable : ∀ e ∈ distTable, 1 ≤ e.1 ∧ e.1 + 2 ^ e.2 ≤ 32769 := by decide
  exact htable _ (List.mem_of_getElem? h)

/-- A symbol above 256 with no length is a reserved one or none at all (R97, R104). -/
theorem le_of_lengthField_none {sym : Nat} (h : lengthField sym = none) (hsym : 257 ≤ sym) : 286 ≤ sym := by
  rw [lengthField, if_neg (by omega), List.getElem?_eq_none_iff] at h
  have : lengthTable.length = 29 := rfl
  omega

theorem le_of_distField_none {sym : Nat} (h : distField sym = none) : 30 ≤ sym := List.getElem?_eq_none_iff.1 h

/-- What the read gives, if it gives an element, is well formed. -/
abbrev Got.GivesWf {σ : Type} (g : Got σ Instr) : Prop := g.Yields (fun i _ => i.wf = true) fun _ => True

theorem decodeDynHdr_wf (cfg : Config) (inp : List Byte) (r : Brl) : (decodeDynHdr cfg inp r).GivesWf := by
  simp [decodeDynHdr, Got.Yields, Instr.wf, Brl.readMany_length, clenCount]

theorem decodeCodeLen_wf (cfg : Config) (inp : List Byte) (tc : HufTable) (r : Brl) :
    (decodeCodeLen cfg inp tc r).GivesWf := by
  refine (hufDecode_safe cfg inp tc r).bind fun s r1 _ => ?_
  split
  · rfl
  · split
    · next base extra hfield =>
      have hv := Brl.readBits_lt cfg inp extra r1
      unfold repeatField at hfield
      split at hfield <;> cases hfield
      all_goals
        simp only [Got.Yields, Instr.wf, Bool.and_eq_true, decide_eq_true_eq]
        omega
    · trivial

theorem decodeSymbol_wf (cfg : Config) (inp : List Byte) (tl : HufTable) (r : Brl) :
    (decodeSymbol cfg inp tl r).GivesWf := by
  refine (hufDecode_safe cfg inp tl r).bind fun s r1 _ => ?_
  split
  · rfl
  · split
    · rfl
    · split
      · next base extra hfield =>
        have hrange := lengthField_range hfield
        have hv := Brl.readBits_lt cfg inp extra r1
        simp only [Got.Yields, Instr.wf, Bool.and_eq_true, decide_eq_true_eq]
        omega
      · next hfield =>
        split
        · next hmax =>
          have hlow := le_of_lengthField_none hfield (by omega)
          simp only [Got.Yields, Instr.wf, mzNlitMax, Bool.or_eq_true, beq_iff_eq] at hmax ⊢
          omega
        · trivial

theorem decodeDistance_wf (cfg : Config) (inp : List Byte) (td : HufTable) (r : Brl) :
    (decodeDistance cfg inp td r).GivesWf := by
  refine (hufDecode_safe cfg inp td r).bind fun d r1 _ => ?_
  split
  · next base extra hfield =>
    have hrange := distField_range hfield
    have hv := Brl.readBits_lt cfg inp extra r1
    simp only [Got.Yields, Instr.wf, Bool.and_eq_true, decide_eq_true_eq]
    omega
  · next hfield =>
    split
    · next hmax =>
      have hlow := le_of_distField_none hfield
      simp only [Got.Yields, Instr.wf, mzNdistMax, Bool.or_eq_true, beq_iff_eq] at hmax ⊢
      omega
    · trivial

/-- Whatever the tables hold, an MSZIP element that is read is well formed (R95 to R98). -/
theorem decodeMz_wf (cfg : Config) (inp : List Byte) (p : MzPhase) (x : MzCtx) : (decodeMz cfg inp p x).GivesWf := by
  cases p with
  | sig => simp only [decodeMz, decodeSig]; split <;> trivial
  | header => simp only [decodeMz, decodeHeader]; split <;> rfl
  | storedHdr => rfl
  | raw left => rfl
  | dynHdr => exact decodeDynHdr_wf ..
  | codeLens => exact decodeCodeLen_wf ..
  | symbols => exact decodeSymbol_wf ..
  | distance len => exact decodeDistance_wf ..

/-! ## Quantum (R111, R117) -/

/-- The position slots reach up to 2^21 (R116, R117). -/
theorem readsOffset_range {cfg : Config} {inp : List Byte} {w : QModelId} {x y : QtCtx} {off : Nat}
    (h : readsOffset cfg inp w x off y) : offsetInRange off = true := by
  obtain ⟨p, z, v, bm, -, hp, hread, rfl, -⟩ := h
  have hslot : ∀ p < 42, slotBase p + 2 ^ slotBits p ≤ maxOffset := by decide
  have hbase := hslot _ hp
  have hv := Brm.read_lt hread
  simp only [offsetInRange, Bool.and_eq_true, decide_eq_true_eq]
  omega

/-- The length slots reach up to 259 (R116, R117). -/
theorem readsLength_range {cfg : Config} {inp : List Byte} {x y : QtCtx} {len : Nat} (h : readsLength cfg inp x len y) :
    5 ≤ len ∧ len ≤ 259 := by
  obtain ⟨l, z, v, bm, -, hl, hread, rfl, -⟩ := h
  have hslot : ∀ l < 27, lengthSlotBase l + 2 ^ lengthSlotBits l ≤ 255 := by decide
  have hbase := hslot _ hl
  have hv := Brm.read_lt hread
  omega

/-- A literal lies in the quarter of its model (R32, R111). -/
theorem getSymbol_inQuarter {cfg : Config} {inp : List Byte} {w : QModelId} {q : Nat} {x y : QtCtx} {b : Byte}
    (hm : (x.model w).Ok 64 (64 * q)) (h : getSymbol cfg inp w x = .ok b y) : inQuarter q b = true := by
  obtain ⟨k, hi, lo, u, z, -, hb, -⟩ := getSymbol_ok h
  have hrange := hm.symRange b (List.mem_of_getElem? hb)
  simp only [inQuarter, beq_iff_eq]
  omega

/-- With good models a token that is read is well formed (R111, R117). -/
theorem decodeToken_wf {cfg : Config} {inp : List Byte} {x y : QtCtx} {i : Instr} (hx : x.ModelsOk cfg)
    (h : decodeToken cfg inp x = .ok i y) : i.wf = true := by
  rw [decodeToken_eq] at h
  obtain ⟨sel, x1, hsel, h⟩ := Got.bind_ok h
  have literal := fun {w : QModelId} (hw : w ≠ .m7) => (getSymbol_sameBut hsel).model_ok hx hw
  obtain ⟨-, b, rfl, hb⟩ | ⟨-, b, rfl, hb⟩ | ⟨-, b, rfl, hb⟩ | ⟨-, b, rfl, hb⟩ | ⟨-, off, rfl, hoff⟩ | ⟨-, off, rfl, hoff⟩ |
    ⟨-, len, off, z, rfl, hlen, hoff⟩ := tokenAfter_ok_iff.1 h
  · exact getSymbol_inQuarter (q := 0) (literal (w := .m00) (by decide)) hb
  · exact getSymbol_inQuarter (q := 1) (literal (w := .m40) (by decide)) hb
  · exact getSymbol_inQuarter (q := 2) (literal (w := .m80) (by decide)) hb
  · exact getSymbol_inQuarter (q := 3) (literal (w := .mC0) (by decide)) hb
  · exact readsOffset_range hoff
  · exact readsOffset_range hoff
  · obtain ⟨hlow, hhigh⟩ := readsLength_range hlen
    simp only [Instr.wf, readsOffset_range hoff, Bool.and_true, Bool.and_eq_true, decide_eq_true_eq]
    exact ⟨hlow, hhigh⟩

theorem decodeQt_wf {cfg : Config} {inp : List Byte} {p : QtPhase} {x y : QtCtx} {i : Instr} (hx : x.ModelsOk cfg)
    (h : decodeQt cfg inp p x = .ok i y) : i.wf = true := by
  cases p with
  | start =>
    obtain ⟨c, x1, -, h⟩ := Got.bind_ok h
    cases h
    rfl
  | tokens => exact decodeToken_wf hx h

/-! ## LZ/SZDD (R120 to R124) -/

theorem decodeLz_wf {inp : List Byte} {x y : LzCtx} {i : Instr} (h : decodeLz inp x = .ok i y) : i.wf = true := by
  unfold decodeLz at h
  split at h
  · cases h
  · split at h
    · obtain ⟨b, x1, -, h⟩ := Got.bind_ok h
      cases h
      rfl
    · split at h
      · obtain ⟨b, x1, -, h⟩ := Got.bind_ok h
        cases h
        rfl
      · obtain ⟨b1, x1, -, h⟩ := Got.bind_ok h
        obtain ⟨b2, x2, -, h⟩ := Got.bind_ok h
        cases h
        rfl

theorem decodeLzHdr_wf (hdr : List Byte) : (decodeLzHdr hdr).GivesWf := by
  unfold decodeLzHdr
  split
  · trivial
  · split
    · trivial
    · split <;> trivial

/-! ## The fetch -/

/-- Settles O4: engine by engine; only the Quantum tokens need the invariant. -/
theorem fetchedElementIsWellFormed : Obligations.FetchedElementIsWellFormed := by
  intro s s' i hs h
  obtain ⟨cmd, -, -, -, rfl, -⟩ | ⟨c, p, x, br, -, -, hd, -⟩ | ⟨c, p, x, y, -, hx, hd, -⟩ | ⟨c, x, y, -, -, hd, -⟩ |
    ⟨c, -, hd, -⟩ := fetch_instr h
  · cases cmd <;> rfl
  · exact (decodeMz_wf s.cfg s.inp p x).of_ok hd
  · obtain ⟨-, -, -, hmodels, -⟩ := hs.2 x (List.mem_of_getElem? hx)
    exact decodeQt_wf hmodels hd
  · exact decodeLz_wf hd
  · exact (decodeLzHdr_wf s.inp).of_ok hd

end Sys2Proof.Machine
end

section
/-! PROOF. The header of a dynamic block and its code lengths (30_encoding.md R95, R96, R106, 42_mszip.md R180 to R184). -/

namespace Sys2Proof.Machine

/-! ## The code-length-code lengths, in the order of BORDER (R106, R181) -/

/-- The list after each value of `ps` has been written at its index. -/
def setAll {α : Type} (l : List α) (ps : List (Nat × α)) : List α := ps.foldl (fun m p => m.set p.1 p.2) l

theorem setAll_cons {α : Type} (l : List α) (p : Nat × α) (ps : List (Nat × α)) :
    setAll l (p :: ps) = setAll (l.set p.1 p.2) ps := rfl

theorem setAll_length {α : Type} (l : List α) (ps : List (Nat × α)) : (setAll l ps).length = l.length := by
  induction ps generalizing l with
  | nil => rfl
  | cons p ps ih => rw [setAll_cons, ih, List.length_set]

theorem setAll_other {α : Type} {l : List α} {ps : List (Nat × α)} {k : Nat} (h : k ∉ ps.map Prod.fst) :
    (setAll l ps)[k]? = l[k]? := by
  induction ps generalizing l with
  | nil => rfl
  | cons p ps ih =>
    rw [List.map_cons, List.mem_cons, not_or] at h
    rw [setAll_cons, ih h.2, List.getElem?_set_ne (Ne.symm h.1)]

/-- With no index twice, each value stands at its index. -/
theorem setAll_written {α : Type} {l : List α} {ps : List (Nat × α)} {k : Nat} {v : α} (hps : (ps.map Prod.fst).Nodup)
    (hmem : (k, v) ∈ ps) (hk : k < l.length) : (setAll l ps)[k]? = some v := by
  induction ps generalizing l with
  | nil => cases hmem
  | cons p ps ih =>
    rw [List.map_cons, List.nodup_cons] at hps
    rw [setAll_cons]
    obtain rfl | hmem := List.mem_cons.1 hmem
    · rw [setAll_other hps.1, List.getElem?_set_self hk]
    · exact ih hps.2 hmem (by rwa [List.length_set])

theorem clArray_eq (clen : List (BitVec 3)) : clArray clen = setAll (List.replicate 19 0) (border.zip clen) := rfl

theorem clArray_length (clen : List (BitVec 3)) : (clArray clen).length = 19 := by
  rw [clArray_eq, setAll_length, List.length_replicate]

theorem border_nodup : border.Nodup := by decide

theorem border_lt {j : Nat} (h : j < 19) : border.getD j 0 < 19 :=
  (show ∀ j < 19, border.getD j 0 < 19 by decide) j h

theorem border_getElem? {j : Nat} (h : j < 19) : border[j]? = some (border.getD j 0) := by
  rw [List.getD_eq_getElem?_getD, List.getElem?_eq_getElem (show j < border.length from h), Option.getD_some]

/-- The symbols that have a field are the first of BORDER. -/
theorem border_zip_fst {clen : List (BitVec 3)} (h : clen.length ≤ 19) :
    (border.zip clen).map Prod.fst = border.take clen.length := by
  have hmin : min border.length clen.length = clen.length := Nat.min_eq_right h
  rw [List.zip_eq_zip_take_min, List.map_fst_zip (by simp), hmin]

theorem clArray_field {clen : List (BitVec 3)} (h : clen.length ≤ 19) {j : Nat} (hj : j < clen.length) :
    (clArray clen)[border.getD j 0]? = clen[j]? := by
  have hnodup : ((border.zip clen).map Prod.fst).Nodup := by
    rw [border_zip_fst h]
    exact border_nodup.sublist (List.take_sublist _ _)
  have hmem : (border.getD j 0, clen[j]) ∈ border.zip clen :=
    List.mem_of_getElem? (List.getElem?_zip_eq_some.2 ⟨border_getElem? (by omega), List.getElem?_eq_getElem hj⟩)
  rw [clArray_eq, List.getElem?_eq_getElem hj]
  exact setAll_written hnodup hmem (by simpa only [List.length_replicate] using border_lt (by omega))

theorem clArray_noField {clen : List (BitVec 3)} (h : clen.length ≤ 19) {j : Nat} (hj : clen.length ≤ j) (h19 : j < 19) :
    (clArray clen)[border.getD j 0]? = some 0 := by
  have hlater : border.getD j 0 ∈ border.drop clen.length :=
    List.mem_of_getElem? (i := j - clen.length) (by rw [List.getElem?_drop, Nat.add_sub_cancel' hj, border_getElem? h19])
  have hother : border.getD j 0 ∉ (border.zip clen).map Prod.fst := by
    rw [border_zip_fst h]
    exact fun hearlier => List.disjoint_take_drop border_nodup le_rfl hearlier hlater
  rw [clArray_eq, setAll_other hother, List.getElem?_replicate_of_lt (border_lt h19)]

/-- Settles O19: BORDER names every symbol once; the count limits are met by the widths of the fields. -/
theorem dynamicHeaderBuildsTheCodeLengthTable : Obligations.DynamicHeaderBuildsTheCodeLengthTable := by
  refine ⟨fun clen hlen => ⟨clArray_length clen, fun j => clArray_field hlen, fun j => clArray_noField hlen⟩,
    fun s c x hlit hdist hclen clen ⟨hr, hx⟩ => ?_⟩
  have hcounts : ¬(mzNlitMax < litCount hlit ∨ mzNdistMax < distCount hdist) := by
    have := hlit.isLt
    have := hdist.isLt
    simp only [mzNlitMax, mzNdistMax, litCount, distCount]
    omega
  have hexec : exec (.dynHdr hlit hdist hclen clen) s = execDynHdr hlit hdist hclen clen s := rfl
  rw [hexec, execDynHdr, withMz_at hr hx]
  dsimp only
  rw [if_neg hcounts]
  refine ⟨fun tc hb he => ?_, fun tc hb he => ?_, fun hb => ?_⟩ <;> rw [hb]
  · exact if_neg (by simp [he])
  · exact (if_pos he).trans (congrArg _ (State.raise_setMz hr _ _))
  · exact congrArg _ (State.raise_setMz hr _ _)

/-! ## Code lengths (R182 to R184) -/

/-- The four code-length elements are one operation: a run of equal lengths, and the previous length after it (R96). -/
theorem exec_lengthRun {s : State} {c : Nat} {x : MzCtx} {i : Instr} {v prev : BitVec 4} {j : Nat}
    (here : MzAt s c .codeLens x) (hi : lengthRun x i = some (v, j, prev)) :
    exec i s = mzGrowLengths s c { x with prev := prev } v j := by
  obtain ⟨hr, hx⟩ := here
  cases i with
  | cl w => cases hi; exact withMz_at hr hx _
  | cl16 rep => cases hi; exact withMz_at hr hx _
  | cl17 rep => cases hi; exact withMz_at hr hx _
  | cl18 rep => cases hi; exact withMz_at hr hx _
  | _ => cases hi

/-- Settles O20: the three ways a run of lengths comes out, and the ways the tables do. -/
theorem codeLengthElements : Obligations.CodeLengthElements := by
  refine ⟨fun s c x i v j prev here hi hlt => ?_, fun s c x i v j prev here hi hlt => ?_,
    fun s c x i v j prev here hi heq => ?_⟩
  · obtain ⟨h, -⟩ | ⟨-, h⟩ | ⟨h, -⟩ := mzGrowLengths_cases s c { x with prev := prev } v j
    · exact absurd h hlt.asymm
    · rw [exec_lengthRun here hi, h]
    · exact absurd h hlt.ne
  · obtain ⟨-, h⟩ | ⟨h, -⟩ | ⟨h, -⟩ := mzGrowLengths_cases s c { x with prev := prev } v j
    · rw [exec_lengthRun here hi, h, State.raise_setMz here.1]
    · exact absurd h hlt.asymm
    · exact absurd h hlt.ne'
  · intro y litBuilt distBuilt
    have hexec : exec i s = mzBuildTables s c y := by
      obtain ⟨h, -⟩ | ⟨h, -⟩ | ⟨-, h⟩ := mzGrowLengths_cases s c { x with prev := prev } v j
      · exact absurd heq h.ne'
      · exact absurd heq h.ne
      · rw [exec_lengthRun here hi, h]
    rw [hexec]
    obtain ⟨hlit, h⟩ | ⟨tl, hlit, ⟨hbad, h⟩ | ⟨td, hne, hdist, h⟩⟩ := mzBuildTables_cases s c y <;> rw [h]
    · exact ⟨fun _ _ hl => absurd (hlit.symm.trans hl) nofun, fun _ => congrArg _ (State.raise_setMz here.1 _ _),
        fun _ hl => absurd (hlit.symm.trans hl) nofun⟩
    · refine ⟨fun tl' td hl he hd => ?_, fun hl => absurd (hlit.symm.trans hl) nofun, fun tl' hl _ => ?_⟩ <;>
        obtain rfl : tl = tl' := Option.some.inj (hlit.symm.trans hl)
      · obtain hempty | hnone := hbad
        · exact absurd he (by simp [hempty])
        · exact absurd (hnone.symm.trans hd) nofun
      · exact congrArg _ (State.raise_setMz here.1 _ _)
    · refine ⟨fun tl' td' hl _ hd => ?_, fun hl => absurd (hlit.symm.trans hl) nofun, fun tl' hl hbad => ?_⟩ <;>
        obtain rfl : tl = tl' := Option.some.inj (hlit.symm.trans hl)
      · obtain rfl : td = td' := Option.some.inj (hdist.symm.trans hd)
        rfl
      · obtain hempty | hnone := hbad
        · exact absurd hempty (by simp [hne])
        · exact absurd (hdist.symm.trans hnone) nofun

end Sys2Proof.Machine
end

section
/-! PROOF. The start of the Quantum coder (30_encoding.md R110, 43_quantum.md R202, R203): the first 16 bits of IN, and how far
the reader has come when it has delivered them. -/

namespace Sys2Proof.Machine

/-! ## How far BRM has come (R135, R137) -/

/-- The reader has delivered `t` bits of IN, and holds the rest of the bytes fetched: less than a byte of them. -/
def Brm.StandsAt (t : Nat) (r : Brm) : Prop := 8 * r.inOff = t + r.nbits ∧ r.nbits < 8

theorem Brm.standsAt_start : Brm.start.StandsAt 0 := ⟨rfl, by decide⟩

section
variable {cfg : Config} {inp : List Byte} {n t : Nat} {r r' : Brm} (hfits : t + n ≤ 8 * inp.length)
include hfits

/-- `qneed` fetches no byte beyond the one that holds the last bit needed. -/
theorem Brm.needLoop_fetched {fuel : Nat} {u : Unit} (hoff : 8 * r.inOff = t + r.nbits) (hheld : r.nbits < n + 8)
    (henough : n ≤ r.nbits + 8 * fuel) (h : Brm.needLoop cfg inp n fuel r = .ok u r') :
    8 * r'.inOff = t + r'.nbits ∧ n ≤ r'.nbits ∧ r'.nbits < n + 8 := by
  induction fuel generalizing r with
  | zero =>
    cases h
    exact ⟨hoff, henough, hheld⟩
  | succ fuel ih =>
    rw [Brm.needLoop] at h
    split at h
    · next hlt =>
      rw [List.getElem?_eq_getElem (by omega)] at h
      refine ih ?_ ?_ ?_ h <;> simp only [Brm.push] <;> omega
    · cases h
      exact ⟨hoff, by omega, hheld⟩

theorem Brm.StandsAt.read16 {v : Nat} (hr : r.StandsAt t) (h : r.read16 cfg inp n = .ok v r') : r'.StandsAt (t + n) := by
  obtain ⟨hoff, hheld⟩ := hr
  unfold Brm.read16 at h
  split at h
  · next hz =>
    cases h
    exact ⟨by omega, hheld⟩
  · obtain ⟨u, r1, hneed, h⟩ := Got.bind_ok h
    cases h
    obtain ⟨hoff1, hlow, hhigh⟩ := Brm.needLoop_fetched hfits hoff (by omega) (by omega) hneed
    exact ⟨by rw [Brm.dropTop_inOff, Brm.dropTop_nbits]; omega, by rw [Brm.dropTop_nbits]; omega⟩

end

theorem Brm.StandsAt.read {cfg : Config} (hc : readersOk cfg) {inp : List Byte} {n t v : Nat} {r r' : Brm}
    (hfits : t + n ≤ 8 * inp.length) (hr : r.StandsAt t) (h : r.read cfg inp n = .ok v r') : r'.StandsAt (t + n) := by
  obtain ⟨-, h1, -⟩ := hc
  induction n using Nat.strong_induction_on generalizing v r' with
  | _ n ih =>
    by_cases hn : n ≤ cfg.brmSubRead
    · rw [Brm.read_narrow hn] at h
      exact hr.read16 hfits h
    · rw [Brm.read_wide h1 (by omega)] at h
      obtain ⟨hi, r1, hhi, h⟩ := Got.bind_ok h
      obtain ⟨lo, r2, hlo, h⟩ := Got.bind_ok h
      cases h
      have hlead := ih (n - cfg.brmSubRead) (by omega) (by omega) hhi
      have hall := hlead.read16 (by omega) hlo
      rwa [Nat.add_assoc, Nat.sub_add_cancel (by omega)] at hall

/-- Behind whole bytes nothing is held. -/
theorem Brm.StandsAt.eq_of_bytes {inp : List Byte} {k : Nat} {r : Brm} (h : r.StandsAt (8 * k)) (hwf : r.wf inp) :
    r = { inOff := k, acc := 0, nbits := 0 } := by
  obtain ⟨hoff, hheld⟩ := h
  obtain ⟨-, hacc, -⟩ := hwf
  cases r with
  | mk inOff acc nbits =>
    dsimp only at hoff hheld hacc
    obtain rfl : nbits = 0 := by omega
    obtain rfl : inOff = k := by omega
    obtain rfl : acc = 0 := by simpa using hacc
    rfl

/-! ## The first 16 bits (R61, R110) -/

/-- Two bytes as a stream, the most significant bit first. -/
theorem msbBit_two_bytes {inp : List Byte} {b0 b1 : Byte} (h : inp.take 2 = [b0, b1]) {i : Nat} (hi : i < 16) :
    msbBit inp 0 i = (256 * b0.toNat + b1.toNat).testBit (15 - i) := by
  have hb0 : inp[0]? = some b0 := getElem?_of_take_drop (bs := [b0, b1]) (n := 0) (k := 0) h (by simp)
  have hb1 : inp[1]? = some b1 := getElem?_of_take_drop (bs := [b0, b1]) (n := 0) (k := 1) h (by simp)
  rw [show 256 = 2 ^ 8 from rfl, Nat.testBit_two_pow_mul_add _ b1.isLt]
  by_cases h8 : i < 8
  · rw [msbBit_first hb0 h8, if_neg (by omega), show 15 - i - 8 = 7 - i by omega]
    rfl
  · obtain ⟨k, rfl⟩ := Nat.exists_eq_add_of_le' (not_lt.1 h8)
    rw [msbBit_add_eight, msbBit_first hb1 (by omega), if_pos (by omega), show 15 - (k + 8) = 7 - k by omega]
    rfl

/-- A fresh reader gives the first 16 bits as one number, and then stands behind them with nothing held. -/
theorem Brm.read_first16 {cfg : Config} (hc : readersOk cfg) {inp : List Byte} {b0 b1 : Byte} (h : inp.take 2 = [b0, b1]) :
    Brm.start.read cfg inp 16 = .ok (256 * b0.toNat + b1.toNat) { inOff := 2, acc := 0, nbits := 0 } := by
  have hlen : 2 ≤ inp.length := by
    have := congrArg List.length h
    simp only [List.length_take, List.length_cons, List.length_nil] at this
    omega
  have hwf : Brm.start.wf inp := ⟨by decide, by decide, Nat.zero_le _⟩
  have hleft : Brm.start.bitsLeft inp = 8 * inp.length := by simp [Brm.bitsLeft, Brm.start]
  obtain ⟨v, bm, hread, htook, -⟩ := (Brm.read_answers hc 16 hwf).served (.inr (by omega))
  have hbm := (Brm.standsAt_start.read hc (by omega) hread).eq_of_bytes (k := 2) htook.wf
  have hv : v = 256 * b0.toNat + b1.toNat := by
    refine Nat.eq_of_testBit_eq fun j => ?_
    by_cases hj : j < 16
    · have hbit := htook.bits (15 - j) (by omega)
      rw [show 16 - 1 - (15 - j) = j by omega] at hbit
      have hstream : Brm.start.streamBit inp (15 - j) = msbBit inp 0 (15 - j) := rfl
      rw [hbit, hstream, msbBit_two_bytes h (by omega), show 15 - (15 - j) = j by omega]
    · have hpow : 2 ^ 16 ≤ 2 ^ j := Nat.pow_le_pow_right (by decide) (by omega)
      have hsmall := htook.small
      rw [Nat.testBit_lt_two_pow (by omega), Nat.testBit_lt_two_pow (by omega)]
  rw [hread, hv, hbm]

/-! ## CODE16 (R203) -/

theorem exec_code16 {s : State} {c : Nat} {x : QtCtx} (here : QtAt s c .start x) (code : BitVec 16) :
    exec (.code16 code) s = qtContinue s c { x with L := 0, H := 0xFFFF, C := code, started := true } :=
  withQt_at here.1 here.2 _

/-- Settles O31: the fetch from two bytes, the element in its two outcomes, and the fetch from fewer. -/
theorem code16StartsTheCoder : Obligations.Code16StartsTheCoder := by
  refine ⟨fun cfg env inp x b0 b1 hc hbm h => ?_, fun s c x code here htogo => ?_, fun s c x code here htogo hlen => ?_,
    fun s c x here hc hz hbm hlen => ?_⟩
  · intro code
    have hcode : code.toNat = 256 * b0.toNat + b1.toNat := by
      rw [BitVec.toNat_ofNat, Nat.mod_eq_of_lt (by omega)]
    constructor
    · rw [decodeQt, rawField]
      dsimp only
      rw [hbm, Brm.read_first16 hc h]
      rfl
    · rw [encode, msbField, hcode]
      exact congrArg some (List.map_congr_left fun i hi => (msbBit_two_bytes h (List.mem_range.1 hi)).symm)
  · rw [exec_code16 here]
    exact qtContinue_more htogo
  · rw [exec_code16 here, qtContinue, if_pos htogo, hlen]
    rfl
  · have hwf : x.bm.wf s.inp := by
      rw [hbm]
      exact ⟨by decide, by decide, Nat.zero_le _⟩
    have hleft : x.bm.bitsLeft s.inp < 16 := by
      simp only [hbm, Brm.bitsLeft, Brm.start]
      omega
    obtain ⟨bm, hread⟩ := (Brm.read_answers hc 16 hwf).truncated hz hleft
    have hfetch : decodeQt s.cfg s.inp .start x = .err .truncatedInput { x with L := 0, H := 0xFFFF, bm := bm } := by
      rw [decodeQt, rawField]
      dsimp only
      rw [hread]
      rfl
    have hstep := step_of_error (s := s) (by rw [fetch_qt here, hfetch]; rfl)
    rw [State.raise_setQt here.1] at hstep
    exact ⟨bm, _, hstep, rfl, rfl, getElem?_set_here here.2 _⟩

end Sys2Proof.Machine
end

section
/-! PROOF. LZ_INIT and the header it reads (30_encoding.md R120, 44_lzszdd.md R248, 45_host_commands.md R266). -/

namespace Sys2Proof.Machine

/-! ## The header checks, in their order (R284) -/

theorem decodeLzHdr_short {hdr : List Byte} (h : hdr.length < 14) : decodeLzHdr hdr = .err .truncatedInput () := if_pos h

theorem decodeLzHdr_badMagic {hdr : List Byte} (h : 14 ≤ hdr.length) (hmagic : hdr.take 8 ≠ lzMagic) :
    decodeLzHdr hdr = .err .invalidSignature () := by
  rw [decodeLzHdr, if_neg (by simpa only [lzHeaderSize, not_lt] using h), if_pos hmagic]

theorem decodeLzHdr_badType {hdr : List Byte} (h : 14 ≤ hdr.length) (hmagic : hdr.take 8 = lzMagic)
    (htype : hdr[8]? ≠ some lzType) : decodeLzHdr hdr = .err .invalidBlockType () := by
  have hbyte : hdr.getD 8 0 ≠ lzType := fun he => htype (by
    rw [List.getD_eq_getElem?_getD, List.getElem?_eq_getElem (by omega), Option.getD_some] at he
    rw [List.getElem?_eq_getElem (by omega), he])
  rw [decodeLzHdr, if_neg (by simpa only [lzHeaderSize, not_lt] using h), if_neg (not_not.2 hmagic), if_pos hbyte]

/-- A header that is refused ends LZ_INIT with the error, and changes no context (R290). -/
theorem step_lzHdr_err {s : State} {c : Nat} {k : ErrKind} (hr : s.run = .lzHdr c)
    (h : decodeLzHdr s.inp = .err k ()) : step s = .next (s.endWith k) := by
  rw [step_of_error (by rw [fetch_lzHdr hr, h]; rfl), State.raise, hr]

/-- Settles O39: the command, the three checks, and the context that a good header leaves. -/
theorem lzInitReadsTheHeader : Obligations.LzInitReadsTheHeader := by
  refine ⟨fun s c hdr hr hc hnew => ?_, fun s c hr => ⟨fun hlen => ?_, fun hlen hmagic => ?_, fun hlen hmagic htype => ?_⟩,
    fun s c last len hr hc => ?_⟩
  · have hmay : ¬(c = s.lz.length ∧ mayCreate s.cfg s.lz.length = false) := fun ⟨heq, hno⟩ => by
      rw [mayCreate_of (hnew.resolve_left (by omega))] at hno
      cases hno
    show execLzInit c hdr s = _
    rw [execLzInit, whenIdle_at hr, if_neg (by omega), if_neg hmay]
    rfl
  · exact step_lzHdr_err hr (decodeLzHdr_short hlen)
  · exact step_lzHdr_err hr (decodeLzHdr_badMagic hlen hmagic)
  · exact step_lzHdr_err hr (decodeLzHdr_badType hlen hmagic htype)
  · refine ⟨(s.lz.getD c LzCtx.fresh).opened last len, ?_, rfl, rfl, rfl, rfl, rfl, rfl, rfl, rfl, rfl, rfl, rfl, rfl,
      fun a => rfl, getElem?_putContext_self _ hc⟩
    show execLzHdr last len s = _
    rw [execLzHdr, hr]
    exact if_neg (by omega)

end Sys2Proof.Machine
end

section
/-! PROOF. Which sets of code lengths the builder accepts (41_huffman.md R151 to R153): what R152 leaves of the code space is what
the codes do not take of it. -/

namespace Sys2Proof.Machine

/-! ## Sets without a code (R151) -/

theorem hufCount_zero_eq_length {lens : List Nat} : hufCount lens 0 = lens.length ↔ ∀ l ∈ lens, l = 0 := by
  rw [hufCount, List.count_eq_length]
  exact forall₂_congr fun _ _ => eq_comm

theorem hufBuild_of_zero {lens : List Nat} (h : ∀ l ∈ lens, l = 0) (mReq : Nat) (allow : Bool) :
    hufBuild lens mReq allow = some HufTable.none := if_pos (hufCount_zero_eq_length.2 h)

theorem exists_getD_pos {lens : List Nat} (h : ¬∀ l ∈ lens, l = 0) : ∃ s, 0 < lens.getD s 0 := by
  obtain ⟨l, hl, hne⟩ : ∃ l ∈ lens, l ≠ 0 := by simpa using h
  obtain ⟨s, hs⟩ := List.getElem?_of_mem hl
  exact ⟨s, by rw [List.getD_eq_getElem?_getD, hs]; exact Nat.pos_of_ne_zero hne⟩

/-- How many symbols have a code (R153). -/
theorem length_sub_hufCount_zero (lens : List Nat) : lens.length - hufCount lens 0 = lens.countP fun l => l ≠ 0 := by
  have hsplit := lens.length_eq_countP_add_countP fun l => l == 0
  have hnot : (lens.countP fun l => l ≠ 0) = lens.countP fun l => ¬(l == 0) = true := List.countP_congr fun l _ => by simp
  rw [hufCount, List.count, hnot]
  omega

/-! ## The code space (R152) -/

/-- How much of a code space of `2 ^ k` the codes of at most `k` bits take. -/
def codeSpace (lens : List Nat) (k : Nat) : Nat := (lens.map fun l => if l = 0 ∨ k < l then 0 else 2 ^ (k - l)).sum

/-- With one bit more each code takes twice as much, and the codes of that length take one each. -/
theorem codeSpace_succ (lens : List Nat) (k : Nat) : codeSpace lens (k + 1) = codeSpace lens k * 2 + hufCount lens (k + 1) := by
  induction lens with
  | nil => rfl
  | cons l lens ih =>
    have hone : (if l = 0 ∨ k + 1 < l then 0 else 2 ^ (k + 1 - l)) =
        (if l = 0 ∨ k < l then 0 else 2 ^ (k - l)) * 2 + if l = k + 1 then 1 else 0 := by
      rcases Nat.lt_trichotomy l (k + 1) with hlt | rfl | hgt
      · by_cases hzero : l = 0
        · simp [hzero]
        · rw [if_neg (by omega), if_neg (by omega), if_neg (by omega), Nat.succ_sub (by omega), Nat.pow_succ, Nat.add_zero]
      · simp
      · rw [if_pos (by omega), if_pos (by omega), if_neg (by omega)]
    simp only [codeSpace, hufCount, List.map_cons, List.sum_cons, List.count_cons, beq_iff_eq] at ih ⊢
    omega

/-- The codes that R154 gives out are the space taken. -/
theorem codeSpace_eq (lens : List Nat) (k : Nat) : codeSpace lens k = hufFirstCode lens k + hufUsed lens k := by
  induction k with
  | zero =>
    refine List.sum_eq_zero fun x hx => ?_
    obtain ⟨l, -, rfl⟩ := List.mem_map.1 hx
    exact if_pos (by omega)
  | succ k ih => rw [codeSpace_succ, ih, hufFirstCode_succ]; rfl

theorem kraft_eq_codeSpace {lens : List Nat} (hlens : ∀ l ∈ lens, l ≤ hufMaxLen) : kraft lens = codeSpace lens hufMaxLen := by
  refine congrArg List.sum (List.map_congr_left fun l hl => ?_)
  have hle := hlens l hl
  simp only [show ¬hufMaxLen < l by omega, or_false]

/-- The check of R152 fails only if the codes take more than there is. -/
theorem codeSpace_of_hufLeft_none {lens : List Nat} {k : Nat} (h : hufLeft lens k = none) : 2 ^ k < codeSpace lens k := by
  induction k with
  | zero => cases h
  | succ k ih =>
    rw [codeSpace_succ, Nat.pow_succ]
    rw [hufLeft] at h
    split at h
    · next hnone =>
      have := ih hnone
      omega
    · next left hleft =>
      have hbal := hufLeft_balance hleft
      rw [← codeSpace_eq] at hbal
      split at h
      · omega
      · cases h

/-! ## The builder's answer (R151 to R153) -/

/-- A set with some code is accepted if it is not over-subscribed, and complete, or a single code, or allowed to be incomplete. -/
def HufAccepts (lens : List Nat) (allow : Bool) : Prop :=
  kraft lens ≤ 32768 ∧ (kraft lens = 32768 ∨ (lens.countP fun l => l ≠ 0) = 1 ∨ allow = true)

theorem hufBuild_of_used {lens : List Nat} (hlens : ∀ l ∈ lens, l ≤ hufMaxLen) (hused : ∃ l ∈ lens, l ≠ 0) (mReq : Nat)
    (allow : Bool) :
    HufAccepts lens allow ∧ (∃ t, hufBuild lens mReq allow = some t ∧ t.empty = false) ∨
      ¬HufAccepts lens allow ∧ hufBuild lens mReq allow = none := by
  obtain ⟨l, hl, hne⟩ := hused
  rw [hufBuild, if_neg fun hall => hne (hufCount_zero_eq_length.1 hall l hl)]
  rw [HufAccepts, kraft_eq_codeSpace hlens, length_sub_hufCount_zero]
  split
  · next hnone =>
    have hover : 32768 < codeSpace lens hufMaxLen := codeSpace_of_hufLeft_none hnone
    exact .inr ⟨fun ⟨hle, _⟩ => by omega, rfl⟩
  · next left hleft =>
    have hbal : codeSpace lens hufMaxLen + left = 32768 := codeSpace_eq lens _ ▸ hufLeft_balance hleft
    have hcheck : (0 < left && !((lens.countP fun l => l ≠ 0) == 1 || allow)) = true ↔
        ¬(codeSpace lens hufMaxLen = 32768 ∨ (lens.countP fun l => l ≠ 0) = 1 ∨ allow = true) := by
      rw [show codeSpace lens hufMaxLen = 32768 ↔ left = 0 by omega]
      simp [Nat.pos_iff_ne_zero]
    split
    · next hrefuse => exact .inr ⟨fun ⟨_, hok⟩ => hcheck.1 hrefuse hok, rfl⟩
    · next haccept => exact .inl ⟨⟨by omega, not_not.1 (mt hcheck.2 haccept)⟩, _, rfl, rfl⟩

/-- Settles O10: what R152 leaves of the code space is what the Kraft sum lacks of 1. -/
theorem hufBuildAcceptsTheRightSets : Obligations.HufBuildAcceptsTheRightSets := by
  intro lens m allow hlens
  refine ⟨fun hzero => ⟨_, hufBuild_of_zero hzero m allow, rfl⟩, fun hused => ?_⟩
  obtain ⟨hacc, t, hbuild, hempty⟩ | ⟨hrej, hbuild⟩ := hufBuild_of_used hlens hused m allow
  · refine ⟨iff_of_true ⟨t, hbuild, hempty⟩ hacc, iff_of_false ?_ (not_not.2 hacc)⟩
    rw [hbuild]
    exact Option.some_ne_none t
  · refine ⟨iff_of_false ?_ hrej, iff_of_true hbuild hrej⟩
    rintro ⟨t, hsome, -⟩
    cases hbuild.symm.trans hsome

end Sys2Proof.Machine
end

section
/-! PROOF. What the decode table does not hold (41_huffman.md R157 to R162): every leaf and every link of a built table stands on
the way of some code, so the decoder answers a symbol only behind that symbol's code (R164). -/

namespace Sys2Proof.Machine

/-! ## The entries of one subtable, and nothing else (R158) -/

theorem mem_hufKeyed {w width key : Nat} {members : List HufCode} {c : HufCode} :
    c ∈ hufKeyed w width members key ↔ c ∈ members ∧ width < c.len - w ∧ (c.rev >>> w) % 2 ^ width = key := by
  rw [hufKeyed, hufLong, List.mem_filter, List.mem_filter, and_assoc, beq_iff_eq, decide_eq_true_iff]

/-- `final` has kept the subtables that were appended to `arena` and make `built`. -/
def HufKept (final arena built : List (List HufEntry)) : Prop :=
  ∀ j, arena.length ≤ j → j < built.length → final[j]? = built[j]?

/-- An entry is a leaf only where a code that ends in the subtable begins the index. -/
theorem hufLeafAt_cases (w j : Nat) (short : List HufCode) :
    hufLeafAt w short j = .invalid ∨
      ∃ c ∈ short, j % 2 ^ (c.len - w) = c.rev >>> w ∧ hufLeafAt w short j = .leaf (c.len - w) c.sym := by
  unfold hufLeafAt
  split
  · next c hfind => exact .inr ⟨c, List.mem_of_find?_eq_some hfind, by simpa using List.find?_some hfind, rfl⟩
  · exact .inl rfl

/-- An entry of a built subtable is the one put there first, or the link to the subtable of the codes that go on there. -/
theorem makeTable_entry {m fuel w width ix : Nat} {members : List HufCode} {arena final : List (List HufEntry)} {e : HufEntry}
    (hwidth : hufWidth m w members = width) (hkept : HufKept final arena (makeTable m (fuel + 1) w members arena).1)
    (he : (final.getD arena.length [])[ix]? = some e) :
    e = hufLeafAt w (hufShort w width members) ix ∨
      hufKeyed w width members ix ≠ [] ∧ ∃ sub,
        e = .link width sub.length (makeTable m fuel (w + width) (hufKeyed w width members ix) sub).2 ∧
        HufKept final sub (makeTable m fuel (w + width) (hufKeyed w width members ix) sub).1 := by
  rw [makeTable_succ, hwidth] at hkept
  dsimp only at hkept
  generalize hkeys : hufKeys w width members = keys at hkept
  generalize hstart : (arena ++ [hufLeaves w width members], hufLeaves w width members) = start at hkept
  have hlen : start.1.length = arena.length + 1 := by rw [← hstart]; exact List.length_append
  have hgrow := (foldl_hufAddLink_prefix (makeTable_prefix m fuel) w width members keys start).length_le
  have hroot : final.getD arena.length [] = (keys.foldl (hufAddLink m fuel w width members) start).2 := by
    rw [List.getD_eq_getElem?_getD, hkept _ (Nat.le_refl _) (by rw [List.length_set]; omega),
      List.getElem?_set_self (by omega), Option.getD_some]
  rw [hroot] at he
  by_cases hlink : ix ∈ keys ∧ hufKeyed w width members ix ≠ []
  · obtain ⟨hmem, hkeyed⟩ := hlink
    obtain ⟨hix, hnodup⟩ : ix < 2 ^ width ∧ keys.Nodup := by
      rw [← hkeys, hufKeys] at hmem ⊢
      split at hmem
      · cases hmem
      · next hlong => exact ⟨List.mem_range.1 hmem, by rw [if_neg hlong]; exact List.nodup_range⟩
    obtain ⟨sub, hpre, hentry, tail, htail⟩ := foldl_hufAddLink_linked (m := m) (fuel := fuel) (acc := start) hnodup hmem
      hkeyed (by rw [← hstart]; simpa [hufLeaves] using hix)
    have hbefore := hpre.length_le
    refine .inr ⟨hkeyed, sub, Option.some.inj (he.symm.trans hentry), fun j hj hlt => ?_⟩
    rw [hkept j (by omega) (by rw [List.length_set, ← htail, List.length_append]; omega), List.getElem?_set_ne (by omega),
      ← htail, List.getElem?_append_left hlt]
  · have hsame := foldl_hufAddLink_other (m := m) (fuel := fuel) keys
      (fun hmem => by_contra fun hne => hlink ⟨hmem, hne⟩) start
    rw [hsame, ← hstart, hufLeaves, List.getElem?_map] at he
    obtain ⟨j, hj, rfl⟩ := Option.map_eq_some_iff.1 he
    obtain ⟨-, rfl⟩ := List.getElem?_eq_some_iff.1 hj
    exact .inl (by rw [List.getElem_range])

section
variable {m fuel w width ix n : Nat} {members : List HufCode} {arena final : List (List HufEntry)}
  (hwidth : hufWidth m w members = width) (hkept : HufKept final arena (makeTable m (fuel + 1) w members arena).1)
include hwidth hkept

/-- Each of its leaves stands at an index that begins with the symbol's code. -/
theorem makeTable_leaf {sym : Nat} (he : (final.getD arena.length [])[ix]? = some (.leaf n sym)) :
    n ≤ width ∧ ∃ c ∈ members, c.sym = sym ∧ c.len - w = n ∧ ix % 2 ^ n = c.rev >>> w := by
  obtain hfirst | ⟨-, sub, hlink, -⟩ := makeTable_entry hwidth hkept he
  · obtain hinv | ⟨c, hc, hix, hleaf⟩ := hufLeafAt_cases w ix (hufShort w width members)
    · cases hfirst.trans hinv
    · cases hfirst.trans hleaf
      obtain ⟨hmem, hshort⟩ := List.mem_filter.1 hc
      exact ⟨of_decide_eq_true hshort, c, hmem, rfl, rfl, hix⟩
  · cases hlink

/-- Each of its links takes the whole index, and leads to the subtable of the codes that go on there. -/
theorem makeTable_link {sub width' : Nat} (he : (final.getD arena.length [])[ix]? = some (.link n sub width')) :
    n = width ∧ hufKeyed w width members ix ≠ [] ∧ ∃ before, sub = before.length ∧
      width' = (makeTable m fuel (w + width) (hufKeyed w width members ix) before).2 ∧
      HufKept final before (makeTable m fuel (w + width) (hufKeyed w width members ix) before).1 := by
  obtain hfirst | ⟨hkeyed, before, hlink, hsub⟩ := makeTable_entry hwidth hkept he
  · obtain hinv | ⟨c, -, -, hleaf⟩ := hufLeafAt_cases w ix (hufShort w width members)
    · cases hfirst.trans hinv
    · cases hfirst.trans hleaf
  · cases hlink
    exact ⟨rfl, hkeyed, before, rfl, rfl, hsub⟩

end

/-- Every leaf of the subtable `t` of width `width` at depth `w`, and of the subtables behind its links, belongs to a code of
`members`; the link at an index leads to the codes that go on there (R157, R158). -/
inductive HufTree (arena : List (List HufEntry)) : List HufCode → Nat → Nat → Nat → Prop where
  | node (members : List HufCode) (w t width : Nat) (narrow : width ≤ 16)
      (leaf : ∀ ix n sym : Nat, (arena.getD t [])[ix]? = some (.leaf n sym) →
        n ≤ width ∧ ∃ c ∈ members, c.sym = sym ∧ c.len - w = n ∧ ix % 2 ^ n = c.rev >>> w)
      (linkWidth : ∀ ix n sub width' : Nat, (arena.getD t [])[ix]? = some (.link n sub width') → n = width)
      (link : ∀ ix sub width' : Nat, (arena.getD t [])[ix]? = some (.link width sub width') →
        HufTree arena (hufKeyed w width members ix) (w + width) sub width') : HufTree arena members w t width

/-- What MakeTable builds holds nothing but the members (R158). -/
theorem makeTable_tree {m fuel w : Nat} {members : List HufCode} {arena final : List (List HufEntry)} (hm : 1 ≤ m)
    (hfuel : hufMaxLen < fuel + w) (h : HufMembersOk w members) (hne : members ≠ [])
    (hkept : HufKept final arena (makeTable m fuel w members arena).1) :
    HufTree final members w arena.length (makeTable m fuel w members arena).2 := by
  obtain ⟨c, hc⟩ := List.exists_mem_of_ne_nil members hne
  induction fuel generalizing w members arena c with
  | zero =>
    have hdeep := h.deeper c hc
    have hlen := (h.long c hc).2
    omega
  | succ fuel ih =>
    obtain ⟨hpos, hle⟩ := h.width_bounds hm hc
    show HufTree final members w arena.length (hufWidth m w members)
    generalize hwidth : hufWidth m w members = width at hpos hle
    refine .node _ _ _ _ (Nat.le_trans hle (by decide)) (fun _ _ _ => makeTable_leaf hwidth hkept)
      (fun _ _ _ _ he => (makeTable_link hwidth hkept he).1) fun ix sub width' he => ?_
    obtain ⟨-, hkeyed, before, rfl, rfl, hsub⟩ := makeTable_link hwidth hkept he
    obtain ⟨d, hd⟩ := List.exists_mem_of_ne_nil _ hkeyed
    exact ih (by omega) (h.keyed width ix) hkeyed hsub d hd

/-! ## The decoder on such a table (R160, R162) -/

/-- The walk answers a symbol or InvalidSymbol, and nothing else. -/
theorem hufWalk_answers (cfg : Config) (inp : List Byte) (arena : List (List HufEntry)) (fuel t w : Nat) (r : Brl) :
    (∃ sym r', hufWalk cfg inp arena fuel t w r = .ok sym r') ∨ ∃ r', hufWalk cfg inp arena fuel t w r = .err .invalidSymbol r' := by
  induction fuel generalizing t w r with
  | zero => exact .inr ⟨r, rfl⟩
  | succ fuel ih =>
    rw [hufWalk]
    dsimp only
    split
    · exact .inl ⟨_, _, rfl⟩
    · exact ih ..
    · exact .inr ⟨_, rfl⟩

/-- The bits of the index that the walk looks up are the next bits of the stream (R132, R160). -/
theorem streamBit_of_low_mod {cfg : Config} (hc : readersOk cfg) {inp : List Byte} {w n q i : Nat} (hw : w ≤ 16) {r : Brl}
    (h : r.wf inp) (hn : n ≤ w) (hq : (r.need cfg inp w).low w % 2 ^ n = q) (hi : i < n) : r.streamBit inp i = q.testBit i := by
  rw [← hq, Nat.testBit_mod_two_pow, Brl.testBit_low hc hw h]
  simp [hi, show i < w by omega]

/-- A walk that answers a symbol has passed the bits of a code of that symbol (R160, R164). -/
theorem HufTree.code_of_walk {cfg : Config} (hc : readersOk cfg) {inp : List Byte} {arena : List (List HufEntry)}
    {members : List HufCode} {w t width fuel sym : Nat} {r r' : Brl} (ht : HufTree arena members w t width) (h : r.wf inp)
    (hwalk : hufWalk cfg inp arena fuel t width r = .ok sym r') :
    ∃ c ∈ members, c.sym = sym ∧ ∀ i, i < c.len - w → r.streamBit inp i = (c.rev >>> w).testBit i := by
  induction fuel generalizing members w t width r with
  | zero => cases hwalk
  | succ fuel ih =>
    obtain ⟨_, _, _, _, narrow, leaf, linkWidth, link⟩ := ht
    obtain ⟨hf, henough⟩ := Brl.refilled_need hc narrow h
    rw [hufWalk] at hwalk
    dsimp only [Brl.peek] at hwalk
    split at hwalk
    · next n sym' he =>
      cases hwalk
      obtain ⟨hn, c, hmem, hsym, hlen, hix⟩ := leaf _ _ _ he
      exact ⟨c, hmem, hsym, fun i hi => streamBit_of_low_mod hc narrow h hn hix (by omega)⟩
    · next n sub width' he =>
      obtain rfl := linkWidth _ _ _ _ he
      have hdrop := hf.advanced_then (Brl.advanced_drop hf.wf henough)
      obtain ⟨c, hmem, hsym, hbits⟩ := ih (link _ _ _ he) hdrop.1 hwalk
      obtain ⟨hmem, -, hkey⟩ := mem_hufKeyed.1 hmem
      refine ⟨c, hmem, hsym, fun i hi => ?_⟩
      by_cases hnow : i < n
      · rw [streamBit_of_low_mod hc narrow h le_rfl (Nat.mod_eq_of_lt (Nat.mod_lt _ (Nat.two_pow_pos n))) hnow, ← hkey,
          Nat.testBit_mod_two_pow, decide_eq_true hnow, Bool.true_and]
      · have hrest := hbits (i - n) (by omega)
        rwa [hdrop.2, Nat.add_sub_cancel' (by omega), Nat.shiftRight_add, Nat.testBit_shiftRight,
          Nat.add_sub_cancel' (by omega)] at hrest
    · cases hwalk

/-- A member's bits, first to last, are those of its symbol's code (R154, R158). -/
theorem testBit_hufCodeFor (lens : List Nat) {s i : Nat} (hi : i < lens.getD s 0) :
    (hufCodeFor lens s).rev.testBit i = hufCodeBit lens s i := by
  rw [hufCodeFor, testBit_bitReverse, decide_eq_true hi, Bool.true_and, hufCodeBit]

theorem hufDecode_answers (cfg : Config) (inp : List Byte) (t : HufTable) (r : Brl) :
    (∃ sym r', hufDecode cfg inp t r = .ok sym r') ∨ ∃ r', hufDecode cfg inp t r = .err .invalidSymbol r' := by
  rw [hufDecode]
  split
  · exact .inr ⟨r, rfl⟩
  · exact hufWalk_answers ..

/-- The whole table holds nothing but the codes of the set (R156, R158). -/
theorem hufBuild_tree {lens : List Nat} (hlens : ∀ l ∈ lens, l ≤ hufMaxLen) {mReq : Nat} {allow : Bool} {t : HufTable}
    (hbuild : hufBuild lens mReq allow = some t) {s : Nat} (hs : 0 < lens.getD s 0) :
    t.empty = false ∧ HufTree t.arena (hufMembers lens) 0 0 t.m := by
  obtain ⟨hleft, rfl⟩ := hufBuild_some hbuild hs
  obtain ⟨hm, hwidth⟩ := rootWidth_eq hlens mReq hs
  have hgood := hufMembers_ok hlens hleft
  have hroot : HufMembersOk 0 (hufMembers lens) :=
    ⟨hgood, fun c hc => (hgood.long c hc).1, fun _ _ _ _ => by rw [Nat.pow_zero, Nat.mod_one, Nat.mod_one]⟩
  have htree := makeTable_tree (arena := []) hm (Nat.lt_succ_self hufMaxLen) hroot
    (List.ne_nil_of_mem ((mem_hufMembers hlens _).2 ⟨s, hs, rfl⟩)) fun _ _ _ => rfl
  rw [show (makeTable _ (hufMaxLen + 1) 0 (hufMembers lens) []).2 = _ from hwidth] at htree
  exact ⟨rfl, htree⟩

/-- A table that was built answers a symbol only if the symbol's code comes next (R154, R164). -/
theorem code_of_hufDecode {lens : List Nat} (hlens : ∀ l ∈ lens, l ≤ hufMaxLen) {cfg : Config} (hc : readersOk cfg)
    {mReq : Nat} {allow : Bool} {t : HufTable} (hbuild : hufBuild lens mReq allow = some t) {inp : List Byte} {r r' : Brl}
    (h : r.wf inp) {s : Nat} (hok : hufDecode cfg inp t r = .ok s r') :
    0 < lens.getD s 0 ∧ ∀ i, i < lens.getD s 0 → r.streamBit inp i = hufCodeBit lens s i := by
  by_cases hzero : ∀ l ∈ lens, l = 0
  · obtain rfl := Option.some.inj (hbuild.symm.trans (hufBuild_of_zero hzero mReq allow))
    cases hok
  · obtain ⟨used, hused⟩ := exists_getD_pos hzero
    obtain ⟨hempty, htree⟩ := hufBuild_tree hlens hbuild hused
    rw [hufDecode, if_neg (by rw [hempty]; decide)] at hok
    obtain ⟨c, hmem, rfl, hbits⟩ := htree.code_of_walk hc h hok
    obtain ⟨s, hs, rfl⟩ := (mem_hufMembers hlens c).1 hmem
    exact ⟨hs, fun i hi => (hbits i hi).trans (testBit_hufCodeFor lens hi)⟩

/-- Settles O12: HufDecode asks for an empty table before it looks at the stream. -/
theorem emptyTableDecodesNothing : Obligations.EmptyTableDecodesNothing := fun _ _ _ _ hempty => if_pos hempty

/-- Settles O11: the way of each code leads to its symbol, and every leaf lies on the way of a code. -/
theorem hufDecodeFollowsTheCodes : Obligations.HufDecodeFollowsTheCodes := by
  intro cfg lens m allow t inp r hc hlens hbuild h
  refine ⟨fun s hs hcode => hufDecode_of_code hlens hc hbuild h hs hcode, fun hnone => ?_⟩
  obtain ⟨s, r', hok⟩ | herr := hufDecode_answers cfg inp t r
  · obtain ⟨hs, hcode⟩ := code_of_hufDecode hlens hc hbuild h hok
    obtain ⟨i, hi, hbit⟩ := hnone s hs
    exact absurd (hcode i hi) hbit
  · exact herr

end Sys2Proof.Machine
end

section
/-! PROOF. SIG and the block headers (42_mszip.md R170 to R180), a literal without room (R189), and what a successful MZ_DECODE
leaves in OUT (R190). -/

namespace Sys2Proof.Machine

/-! ## The fixed tables (R107, R176) -/

/-- An accepted set has a table (R152, R153). -/
theorem hufBuild_of_accepts {lens : List Nat} (hlens : ∀ l ∈ lens, l ≤ hufMaxLen) (hused : ∃ l ∈ lens, l ≠ 0) {allow : Bool}
    (h : HufAccepts lens allow) (mReq : Nat) : ∃ t, hufBuild lens mReq allow = some t := by
  obtain ⟨-, t, hbuild, -⟩ | ⟨hrej, -⟩ := hufBuild_of_used hlens hused mReq allow
  · exact ⟨t, hbuild⟩
  · exact absurd h hrej

/-- The fixed literal/length code is complete: 144 codes of 8 bits, 112 of 9, 24 of 7 and 8 of 8. -/
theorem kraft_fixedLL : kraft fixedLL = 32768 := by
  simp [kraft, fixedLL, hufMaxLen, -List.reduceReplicate]

/-- The fixed distance code is not: 30 codes of 5 bits leave two unused. -/
theorem kraft_fixedD : kraft fixedD = 30720 := by
  simp [kraft, fixedD, hufMaxLen, -List.reduceReplicate]

theorem hufBuild_fixedLL (mReq : Nat) (allow : Bool) : ∃ tl, hufBuild fixedLL mReq allow = some tl := by
  refine hufBuild_of_accepts ?_ ⟨8, by simp [fixedLL, -List.reduceReplicate], by decide⟩
    ⟨kraft_fixedLL.le, .inl kraft_fixedLL⟩ mReq
  simp [fixedLL, hufMaxLen, or_imp, forall_and, -List.reduceReplicate]

theorem hufBuild_fixedD (mReq : Nat) : ∃ td, hufBuild fixedD mReq true = some td := by
  refine hufBuild_of_accepts ?_ ⟨5, by simp [fixedD], by decide⟩ ⟨by rw [kraft_fixedD]; decide, .inr (.inr rfl)⟩ mReq
  simp [fixedD, hufMaxLen, -List.reduceReplicate]

/-! ## The elements -/

theorem decodeSig_err {inp : List Byte} (h : inp.take 2 ≠ [0x43, 0x4B]) (r : Brl) :
    decodeSig inp r = .err .invalidSignature r := if_neg h

/-- A fetch that fails without a read leaves the context as it was, and the command ends (R125, R290). -/
theorem step_of_mz_err {s : State} {c : Nat} {p : MzPhase} {x : MzCtx} {k : ErrKind} (here : MzAt s c p x)
    (h : decodeMz s.cfg s.inp p x = .err k x.br) : step s = .next (s.spoilOut.endWith k) := by
  have hfetch : fetch s = .error k s := by
    rw [fetch_mz here, h]
    exact congrArg (Fetched.error k) (State.setMz_self here.2)
  rw [step_of_error hfetch, State.raise_of_mz here.1]

/-- Settles O17: each element where it is due; the two fixed tables exist because the builder accepts their sets. -/
theorem sigAndBlockHeadersDispatch : Obligations.SigAndBlockHeadersDispatch := by
  obtain ⟨tl, hl⟩ := hufBuild_fixedLL mzFixedLroot false
  obtain ⟨td, hd⟩ := hufBuild_fixedD mzFixedDroot
  refine ⟨⟨fun s c x ⟨hr, hx⟩ => ?_, fun s c x here hsig => step_of_mz_err here (decodeSig_err hsig x.br)⟩,
    fun s c x final ⟨hr, hx⟩ => ?_, ⟨tl, td, hl, hd, fun s c x final ⟨hr, hx⟩ => ?_⟩, fun s c x final ⟨hr, hx⟩ => ?_,
    fun s c x final ⟨hr, hx⟩ => ?_⟩
  · exact withMz_at hr hx _
  · exact withMz_at hr hx _
  · show execBlkFixed final s = _
    rw [execBlkFixed, withMz_at hr hx, whereHeader, hl, hd]
    rfl
  · exact withMz_at hr hx _
  · show execBlkReserved final s = _
    rw [execBlkReserved, withMz_at hr hx, whereHeader, State.raise_setMz hr]
    rfl

/-- Settles O22: the error of the full output, and that an error of an MZ_DECODE writes no context. -/
theorem literalWhenFullIsCorruptData : Obligations.LiteralWhenFullIsCorruptData := by
  intro s c x b ⟨hr, hx⟩ hfull
  have hexec : exec (.lit b) s = .next (s.spoilOut.endWith .corruptData) := by
    show execLit b s = _
    rw [execLit, withMz_at hr hx, whereSymbols, if_pos hfull, State.raise_of_mz hr]
  exact ⟨_, hexec, rfl, rfl, rfl, rfl, rfl⟩

/-! ## The end of an MZ_DECODE -/

/-- A step of an `MZ_DECODE` in progress is the effect of one element, or of the error of its fetch. -/
theorem StepEffect.mz_runs {s t : State} {c : Nat} {p : MzPhase} {x : MzCtx} (h : StepEffect s t) (here : MzAt s c p x) :
    t = s ∨ MzEffect s c p x t := by
  have hr := here.1
  cases h with
  | idle => exact .inl rfl
  | command cmd rest t hidle => cases hr.symm.trans hidle
  | mz c' p' x' t here' runs =>
    obtain ⟨rfl, rfl, rfl⟩ := here.unique here'
    exact .inr runs
  | qt c' p' x' y i t here' => cases hr.symm.trans here'.1
  | qtFails k c' p' x' y here' => cases hr.symm.trans here'.1
  | lz c' x' t here' => cases hr.symm.trans here'.1
  | lzFails k c' x' y here' => cases hr.symm.trans here'.1
  | lzHdr c' last len here' => cases hr.symm.trans here'
  | lzHdrFails k c' here' => cases hr.symm.trans here'

/-- An `MZ_DECODE` ends with `Ok` only after its last bytes have filled the output (R190). -/
theorem MzEffect.finished {s t : State} {c : Nat} {p : MzPhase} {x : MzCtx} (h : MzEffect s c p x t) (hr : t.run = .idle)
    (hok : t.status = 0) :
    ∃ bs y, x.Emits bs y ∧ y.produced = y.outLen ∧ t = ((s.emit bs).setMz c y).finish := by
  cases h with
  | opens => cases hr
  | goesOn => cases hr
  | finishes bs _ _ y emits full => exact ⟨bs, y, emits, full, rfl⟩
  | fails k => exact absurd hok k.code_ne_zero

theorem readMz_of_getElem? {s : State} {c : Nat} {x : MzCtx} (h : s.mz[c]? = some x) (a : Nat) :
    readMz s c a = memRead .mzwin x.win.cells a := by rw [readMz, h]

/-- Settles O57: the element that ends the call keeps OUT the bytes of the window, and the output is full then. -/
theorem mzDecodeFillsTheOutput : Obligations.MzDecodeFillsTheOutput := by
  intro s t c p x hm ⟨hok, hrun⟩ here hsig hstep hidle hstatus
  have hx := List.mem_of_getElem? here.2
  obtain rfl | runs := (step_effect hstep).mz_runs here
  · cases here.1.symm.trans hidle
  · obtain ⟨bs, y, emits, hfull, rfl⟩ := runs.finished hidle hstatus
    obtain ⟨hshown, -⟩ := (MzPhase.ok_iff hsig s x).1 (hrun c p x here.1 here.2)
    obtain ⟨hlen, hbytes⟩ := (emits.keeps (hm.1 x hx) (hok x hx)).2 hshown
    have hproduced : y.produced = x.outLen := hfull.trans emits.outLen
    exact ⟨hlen.trans hproduced, fun a ha => (readMz_of_getElem? (here.setMz y).2 a).trans (hbytes a (hproduced ▸ ha))⟩

end Sys2Proof.Machine
end

section
/-! PROOF. With which error kinds each command can end, at its entry and past it (42_mszip.md R193, 43_quantum.md R223,
44_lzszdd.md R253, 45_host_commands.md R262 to R267, 60_exceptions.md R281). -/

namespace Sys2Proof.Machine

/-- The error kinds of an MZ_DECODE past its entry (R193). -/
def mzKinds : List ErrKind :=
  [.invalidSignature, .invalidBlockType, .malformedHuffmanCode, .invalidSymbol, .lengthOverrun, .corruptLength, .corruptData]

/-- The error kinds of the command in progress past its entry (R193, R223, R253, R266). -/
def Run.kinds : Run → List ErrKind
  | .idle => []
  | .mz _ _ => mzKinds
  | .qt _ _ => [.corruptData, .truncatedInput]
  | .lz _ => [.truncatedInput]
  | .lzHdr _ => [.invalidSignature, .invalidBlockType, .truncatedInput]

/-- If the command is over, it ended with `Ok` or with one of these kinds. -/
def State.EndsIn (kinds : List ErrKind) (t : State) : Prop := t.run = .idle → t.status ∈ statusOk :: kinds.map ErrKind.code

theorem State.endsIn_finish (kinds : List ErrKind) (s : State) : s.finish.EndsIn kinds := fun _ => List.mem_cons_self

theorem State.endsIn_raise {kinds : List ErrKind} {k : ErrKind} (hk : k ∈ kinds) (s : State) : (s.raise k).EndsIn kinds :=
  fun _ => by
    rw [State.raise_status]
    exact List.mem_cons_of_mem _ (List.mem_map_of_mem hk)

theorem State.endsIn_endWith {kinds : List ErrKind} {k : ErrKind} (hk : k ∈ kinds) (s : State) :
    (s.endWith k).EndsIn kinds := fun _ => List.mem_cons_of_mem _ (List.mem_map_of_mem hk)

theorem State.endsIn_of_running {t : State} (h : t.run ≠ .idle) (kinds : List ErrKind) : t.EndsIn kinds :=
  fun hr => absurd hr h

theorem State.endsIn_setRun (kinds : List ErrKind) (s : State) {r : Run} (hr : r ≠ .idle := by nofun) :
    (s.setRun r).EndsIn kinds := State.endsIn_of_running hr kinds

/-! ## A failed fetch (R125, R136, R243, R284) -/

/-- A read that fails does so with one of these kinds. -/
def Got.FailsIn {σ α : Type} (kinds : List ErrKind) (g : Got σ α) : Prop :=
  match g with
  | .err k _ => k ∈ kinds
  | _ => True

theorem Got.failsIn_err {σ α : Type} {kinds : List ErrKind} {k : ErrKind} (hk : k ∈ kinds) (s : σ) :
    (Got.err k s : Got σ α).FailsIn kinds := hk

theorem Got.FailsIn.of_err {σ α : Type} {kinds : List ErrKind} {g : Got σ α} (h : g.FailsIn kinds) {k : ErrKind} {s : σ}
    (hg : g = .err k s) : k ∈ kinds := by subst hg; exact h

theorem Got.FailsIn.bind {σ α β : Type} {kinds : List ErrKind} {g : Got σ α} {f : α → σ → Got σ β} (h : g.FailsIn kinds)
    (hf : ∀ a s, (f a s).FailsIn kinds) : (g.bind f).FailsIn kinds := by
  cases g with
  | ok a s => exact hf a s
  | err k s => exact h
  | bug f => trivial

theorem Got.FailsIn.weaken {σ α : Type} {kinds more : List ErrKind} {g : Got σ α} (h : g.FailsIn kinds)
    (hsub : kinds ⊆ more) : g.FailsIn more := by
  cases g with
  | err k s => exact hsub h
  | _ => trivial

theorem hufDecode_failsIn (cfg : Config) (inp : List Byte) (t : HufTable) (r : Brl) :
    (hufDecode cfg inp t r).FailsIn [.invalidSymbol] := by
  obtain ⟨sym, r', h⟩ | ⟨r', h⟩ := hufDecode_answers cfg inp t r <;> rw [h]
  · trivial
  · exact List.mem_singleton_self _

theorem decodeCodeLen_failsIn (cfg : Config) (inp : List Byte) (tc : HufTable) (r : Brl) :
    (decodeCodeLen cfg inp tc r).FailsIn [.invalidSymbol] := by
  refine (hufDecode_failsIn cfg inp tc r).bind fun s r1 => ?_
  split
  · trivial
  · split
    · dsimp only
      split <;> trivial
    · exact List.mem_singleton_self _

theorem decodeSymbol_failsIn (cfg : Config) (inp : List Byte) (tl : HufTable) (r : Brl) :
    (decodeSymbol cfg inp tl r).FailsIn [.invalidSymbol] := by
  refine (hufDecode_failsIn cfg inp tl r).bind fun s r1 => ?_
  split
  · trivial
  · split
    · trivial
    · split
      · trivial
      · split
        · trivial
        · exact List.mem_singleton_self _

theorem decodeDistance_failsIn (cfg : Config) (inp : List Byte) (td : HufTable) (r : Brl) :
    (decodeDistance cfg inp td r).FailsIn [.invalidSymbol] := by
  refine (hufDecode_failsIn cfg inp td r).bind fun d r1 => ?_
  split
  · trivial
  · split
    · trivial
    · exact List.mem_singleton_self _

/-- An MSZIP element cannot be read where the signature is missing, or no code fits (R125, R160, R170). -/
theorem decodeMz_failsIn (cfg : Config) (inp : List Byte) (p : MzPhase) (x : MzCtx) :
    (decodeMz cfg inp p x).FailsIn mzKinds := by
  have hsymbol : [ErrKind.invalidSymbol] ⊆ mzKinds := by decide
  cases p with
  | sig =>
    simp only [decodeMz, decodeSig]
    split
    · trivial
    · exact List.mem_cons_self
  | header => simp only [decodeMz, decodeHeader]; split <;> trivial
  | storedHdr => trivial
  | raw left => trivial
  | dynHdr => trivial
  | codeLens => exact (decodeCodeLen_failsIn ..).weaken hsymbol
  | symbols => exact (decodeSymbol_failsIn ..).weaken hsymbol
  | distance len => exact (decodeDistance_failsIn ..).weaken hsymbol

/-! The Quantum coder and the LZ decoder fail only with the input (R136, R205, R243). -/

theorem Brm.needLoop_failsIn (cfg : Config) (inp : List Byte) (n fuel : Nat) (r : Brm) :
    (Brm.needLoop cfg inp n fuel r).FailsIn [.truncatedInput] := by
  induction fuel generalizing r with
  | zero => trivial
  | succ fuel ih =>
    simp only [Brm.needLoop]
    split
    · split
      · exact ih _
      · split
        · exact ih _
        · exact List.mem_singleton_self _
    · trivial

theorem Brm.read16_failsIn (cfg : Config) (inp : List Byte) (n : Nat) (r : Brm) :
    (r.read16 cfg inp n).FailsIn [.truncatedInput] := by
  unfold Brm.read16
  split
  · trivial
  · exact (Brm.needLoop_failsIn cfg inp n n r).bind fun _ _ => trivial

theorem Brm.read_failsIn (cfg : Config) (inp : List Byte) (n : Nat) (r : Brm) :
    (r.read cfg inp n).FailsIn [.truncatedInput] := by
  unfold Brm.read
  generalize n + 1 = fuel
  induction fuel generalizing n r with
  | zero => trivial
  | succ fuel ih =>
    simp only [Brm.readLoop]
    split
    · exact Brm.read16_failsIn ..
    · exact (ih _ r).bind fun _ _ => (Brm.read16_failsIn ..).bind fun _ _ => trivial

theorem rawField_failsIn (cfg : Config) (inp : List Byte) (n : Nat) (x : QtCtx) :
    (rawField cfg inp n x).FailsIn [.truncatedInput] := by
  have hr := Brm.read_failsIn cfg inp n x.bm
  unfold rawField
  cases hb : x.bm.read cfg inp n with
  | err k bm => exact hr.of_err hb
  | _ => trivial

theorem QtCtx.shift_failsIn (cfg : Config) (inp : List Byte) (x : QtCtx) : (x.shift cfg inp).FailsIn [.truncatedInput] := by
  have hr := Brm.read_failsIn cfg inp 1 x.bm
  unfold QtCtx.shift
  cases hb : x.bm.read cfg inp 1 with
  | err k bm => exact hr.of_err hb
  | _ => trivial

theorem renormLoop_failsIn (cfg : Config) (inp : List Byte) (fuel : Nat) (x : QtCtx) :
    (renormLoop cfg inp fuel x).FailsIn [.truncatedInput] := by
  induction fuel generalizing x with
  | zero => trivial
  | succ fuel ih =>
    simp only [renormLoop]
    split
    · split
      · exact (QtCtx.shift_failsIn cfg inp _).bind fun _ y => ih y
      · trivial
    · exact (QtCtx.shift_failsIn cfg inp x).bind fun _ y => ih y

theorem getSymbol_failsIn (cfg : Config) (inp : List Byte) (w : QModelId) (x : QtCtx) :
    (getSymbol cfg inp w x).FailsIn [.truncatedInput] := by
  unfold getSymbol
  dsimp only
  split
  · trivial
  · split
    · exact (renormLoop_failsIn cfg inp _ _).bind fun _ _ => trivial
    · trivial

theorem decodeOffset_failsIn (cfg : Config) (inp : List Byte) (w : QModelId) (x : QtCtx) :
    (decodeOffset cfg inp w x).FailsIn [.truncatedInput] := by
  refine (getSymbol_failsIn cfg inp w x).bind fun p y => ?_
  split
  · trivial
  · exact (rawField_failsIn cfg inp _ y).bind fun _ _ => trivial

theorem decodeLength_failsIn (cfg : Config) (inp : List Byte) (x : QtCtx) :
    (decodeLength cfg inp x).FailsIn [.truncatedInput] := by
  refine (getSymbol_failsIn cfg inp .m6len x).bind fun l y => ?_
  split
  · trivial
  · exact (rawField_failsIn cfg inp _ y).bind fun _ _ => trivial

theorem decodeQt_failsIn (cfg : Config) (inp : List Byte) (p : QtPhase) (x : QtCtx) :
    (decodeQt cfg inp p x).FailsIn [.truncatedInput] := by
  cases p with
  | start => exact (rawField_failsIn cfg inp 16 _).bind fun _ _ => trivial
  | tokens =>
    refine (getSymbol_failsIn cfg inp .m7 x).bind fun sel y => ?_
    split
    · exact (getSymbol_failsIn ..).bind fun _ _ => trivial
    · exact (getSymbol_failsIn ..).bind fun _ _ => trivial
    · exact (getSymbol_failsIn ..).bind fun _ _ => trivial
    · exact (getSymbol_failsIn ..).bind fun _ _ => trivial
    · exact (decodeOffset_failsIn ..).bind fun _ _ => trivial
    · exact (decodeOffset_failsIn ..).bind fun _ _ => trivial
    · exact (decodeLength_failsIn ..).bind fun _ _ => (decodeOffset_failsIn ..).bind fun _ _ => trivial
    · trivial

theorem lzGetByte_failsIn (inp : List Byte) (x : LzCtx) : (lzGetByte inp x).FailsIn [.truncatedInput] := by
  unfold lzGetByte
  split
  · trivial
  · exact List.mem_singleton_self _

theorem decodeLz_failsIn (inp : List Byte) (x : LzCtx) : (decodeLz inp x).FailsIn [.truncatedInput] := by
  unfold decodeLz
  split
  · trivial
  · split
    · exact (lzGetByte_failsIn inp x).bind fun _ _ => trivial
    · split
      · exact (lzGetByte_failsIn inp _).bind fun _ _ => trivial
      · exact (lzGetByte_failsIn inp _).bind fun _ _ => (lzGetByte_failsIn inp _).bind fun _ _ => trivial

theorem decodeLzHdr_failsIn (hdr : List Byte) :
    (decodeLzHdr hdr).FailsIn [.invalidSignature, .invalidBlockType, .truncatedInput] := by
  unfold decodeLzHdr
  split
  · exact Got.failsIn_err (by decide) _
  · split
    · exact Got.failsIn_err (by decide) _
    · split
      · exact Got.failsIn_err (by decide) _
      · trivial

theorem Got.FailsIn.of_fetched {σ : Type} {kinds : List ErrKind} {g : Got σ Instr} {back : σ → State} (h : g.FailsIn kinds)
    {k : ErrKind} {s : State} (hg : g.fetched back = .error k s) : k ∈ kinds := by
  obtain ⟨x, hx, -⟩ := Got.fetched_error hg
  exact h.of_err hx

/-- A fetch fails with a kind of the command in progress. -/
theorem fetch_error_kind {s s' : State} {k : ErrKind} (h : fetch s = .error k s') : k ∈ s.run.kinds := by
  unfold fetch at h
  split at h
  · split at h <;> cases h
  · next c p hr =>
    rw [hr]
    split at h
    · cases h
    · exact (decodeMz_failsIn ..).of_fetched h
  · next c p hr =>
    rw [hr]
    split at h
    · cases h
    · exact ((decodeQt_failsIn ..).weaken (List.subset_cons_self ..)).of_fetched h
  · next c hr =>
    rw [hr]
    split at h
    · cases h
    · exact (decodeLz_failsIn ..).of_fetched h
  · next c hr =>
    rw [hr]
    exact (decodeLzHdr_failsIn _).of_fetched h

/-! ## The MSZIP elements (R193) -/

section
variable {s t : State} {c : Nat} {p : MzPhase} {x : MzCtx}

theorem mzBlockEnd_endsIn (h : mzBlockEnd s c x = .next t) : t.EndsIn mzKinds := by
  obtain ⟨-, -, h'⟩ | ⟨-, -, h'⟩ | ⟨-, h'⟩ := mzBlockEnd_cases s c x <;> rw [h'] at h <;> cases h
  · exact State.endsIn_raise (by decide) _
  · exact State.endsIn_finish _ _
  · exact State.endsIn_setRun _ _

theorem mzGrowLengths_endsIn {v : BitVec 4} {j : Nat} (hr : s.run = .mz c p) (h : mzGrowLengths s c x v j = .next t) :
    t.EndsIn mzKinds := by
  obtain ⟨-, h'⟩ | ⟨-, h'⟩ | ⟨-, h'⟩ := mzGrowLengths_cases s c x v j <;> rw [h'] at h
  · cases h
    exact State.endsIn_raise (by decide) _
  · cases h
    exact State.endsIn_of_running (by rw [State.setMz_run, hr]; nofun) _
  · obtain ⟨-, h'⟩ | ⟨tl, -, ⟨-, h'⟩ | ⟨td, -, -, h'⟩⟩ := mzBuildTables_cases s c _ <;> rw [h'] at h <;> cases h
    · exact State.endsIn_raise (by decide) _
    · exact State.endsIn_raise (by decide) _
    · exact State.endsIn_setRun _ _

end

section
variable {s t : State} {i : Instr}

theorem execHeader_endsIn (hi : MzPhase.header.takes i) (h : exec i s = .next t) : t.EndsIn mzKinds := by
  obtain ⟨f, rfl | rfl | rfl | rfl⟩ := hi <;> obtain ⟨c, p, x, -, -, h⟩ := withMz_next h <;>
    obtain ⟨-, h⟩ := whereHeader_next h
  · cases h
    exact State.endsIn_setRun _ _
  · split at h <;> cases h
    · exact State.endsIn_setRun _ _
    · exact State.endsIn_raise (by decide) _
  · cases h
    exact State.endsIn_setRun _ _
  · cases h
    exact State.endsIn_raise (by decide) _

theorem execStoredHdr_endsIn {len nlen : BitVec 16} (h : execStoredHdr len nlen s = .next t) : t.EndsIn mzKinds := by
  obtain ⟨c, p, x, -, -, h⟩ := withMz_next h
  split at h
  · split at h
    · cases h
      exact State.endsIn_raise (by decide) _
    · split at h
      · cases h
        exact State.endsIn_raise (by decide) _
      · split at h
        · exact mzBlockEnd_endsIn h
        · cases h
          exact State.endsIn_setRun _ _
  · cases h

theorem execRaw_endsIn {b : Byte} (h : execRaw b s = .next t) : t.EndsIn mzKinds := by
  obtain ⟨c, p, x, -, -, h⟩ := withMz_next h
  split at h
  · split at h
    · cases h
    · split at h
      · exact mzBlockEnd_endsIn h
      · cases h
        exact State.endsIn_setRun _ _
  · cases h

theorem execDynHdr_endsIn {hlit hdist : BitVec 5} {hclen : BitVec 4} {clen : List (BitVec 3)}
    (h : execDynHdr hlit hdist hclen clen s = .next t) : t.EndsIn mzKinds := by
  obtain ⟨c, p, x, -, -, h⟩ := withMz_next h
  split at h
  · dsimp only at h
    split at h
    · cases h
      exact State.endsIn_raise (by decide) _
    · split at h
      · cases h
        exact State.endsIn_raise (by decide) _
      · split at h <;> cases h
        · exact State.endsIn_raise (by decide) _
        · exact State.endsIn_setRun _ _
  · cases h

theorem execLengths_endsIn (hi : MzPhase.codeLens.takes i) (h : exec i s = .next t) : t.EndsIn mzKinds := by
  obtain ⟨v, rfl⟩ | ⟨rep, rfl | rfl | rfl⟩ := hi <;> obtain ⟨c, p, x, hr, -, h⟩ := withMz_next h <;>
    exact mzGrowLengths_endsIn hr (whereLengths_next h).2

theorem execSymbols_endsIn (hi : MzPhase.symbols.takes i) (h : exec i s = .next t) : t.EndsIn mzKinds := by
  obtain rfl | ⟨b, rfl⟩ | ⟨len, rfl⟩ | ⟨sym, rfl⟩ := hi <;> obtain ⟨c, p, x, hr, -, h⟩ := withMz_next h <;>
    obtain ⟨-, h⟩ := whereSymbols_next h
  · exact mzBlockEnd_endsIn h
  · split at h <;> cases h
    · exact State.endsIn_raise (by decide) _
    · exact State.endsIn_of_running (by rw [State.setMz_run, State.emit_run, hr]; nofun) _
  · cases h
    exact State.endsIn_setRun _ _
  · cases h
    exact State.endsIn_raise (by decide) _

theorem execDistance_endsIn {len : Nat} (hi : (MzPhase.distance len).takes i) (h : exec i s = .next t) :
    t.EndsIn mzKinds := by
  obtain ⟨d, rfl⟩ | ⟨sym, rfl⟩ := hi <;> obtain ⟨c, p, x, -, -, h⟩ := withMz_next h <;> split at h
  · split at h
    · split at h <;> cases h
      exact State.endsIn_setRun _ _
    · cases h
      exact State.endsIn_raise (by decide) _
  · cases h
  · cases h
    exact State.endsIn_raise (by decide) _
  · cases h

/-- Every element of the grammar, phase by phase. -/
theorem execMz_endsIn {p : MzPhase} (hi : p.takes i) (h : exec i s = .next t) : t.EndsIn mzKinds := by
  cases p with
  | sig =>
    obtain rfl := hi
    obtain ⟨c, p, x, -, -, h⟩ := withMz_next h
    cases p <;> cases h
    exact State.endsIn_setRun _ _
  | header => exact execHeader_endsIn hi h
  | storedHdr =>
    obtain ⟨len, nlen, rfl⟩ := hi
    exact execStoredHdr_endsIn h
  | raw left =>
    obtain ⟨b, rfl⟩ := hi
    exact execRaw_endsIn h
  | dynHdr =>
    obtain ⟨hlit, hdist, hclen, clen, rfl⟩ := hi
    exact execDynHdr_endsIn h
  | codeLens => exact execLengths_endsIn hi h
  | symbols => exact execSymbols_endsIn hi h
  | distance len => exact execDistance_endsIn hi h

/-! ## Past the entry -/

/-- What runs while a command is in progress is an element of its grammar (R90, U1). -/
theorem exec_reads (hr : s.run ≠ .idle) (h : exec i s = .next t) : s.run.reads i := by
  by_contra hno
  cases hcmd : encodeCmd i with
  | none => cases (exec_outside_grammar hcmd hno).symm.trans h
  | some cmd =>
    obtain rfl := (byteElementsAndCommandsDecodeToWhatWasEncoded.2 i cmd).1 hcmd
    cases (exec_command_busy hr).symm.trans h

end

theorem QtEffect.endsIn {s t : State} {c : Nat} {p : QtPhase} {x : QtCtx} (h : QtEffect s c p x t) :
    t.EndsIn (Run.qt c p).kinds := by
  cases h with
  | goesOn => exact State.endsIn_setRun _ _
  | finishes => exact State.endsIn_finish _ _
  | fails => exact State.endsIn_endWith List.mem_cons_self _

/-- An LZ element never fails: its fetch does (R243, R253). -/
theorem LzEffect.endsIn {s t : State} {c : Nat} {x : LzCtx} (h : LzEffect s c x t) (kinds : List ErrKind) :
    t.EndsIn kinds := by
  cases h with
  | goesOn => exact State.endsIn_setRun _ _
  | finishes => exact State.endsIn_finish _ _

theorem exec_endsIn {s t : State} {i : Instr} (hr : s.run ≠ .idle) (h : exec i s = .next t) : t.EndsIn s.run.kinds := by
  cases hrun : s.run with
  | idle => exact absurd hrun hr
  | mz c p =>
    have hreads := exec_reads hr h
    rw [hrun] at hreads
    obtain ⟨q, hq⟩ := hreads
    exact execMz_endsIn hq h
  | qt c p =>
    obtain ⟨c', p', x, -, runs⟩ := (exec_effect h).qtRan hrun
    exact runs.endsIn
  | lz c =>
    obtain ⟨c', x, -, runs⟩ := (exec_effect h).lzRan hrun
    exact runs.endsIn _
  | lzHdr c =>
    obtain ⟨-, last, len, rfl⟩ := (exec_effect h).lzOpened hrun
    exact State.endsIn_finish _ _

/-- The fetch of an element stays in its command. -/
theorem fetch_run {s s' : State} {i : Instr} (h : fetch s = .instr i s') : s'.run = s.run := by
  obtain ⟨cmd, rest, -, -, -, rfl⟩ | ⟨c, p, x, br, -, -, -, rfl⟩ | ⟨c, p, x, y, -, -, -, rfl⟩ |
    ⟨c, x, y, -, -, -, rfl⟩ | ⟨c, -, -, rfl⟩ := fetch_instr h <;> rfl

theorem step_endsIn {s t : State} (hr : s.run ≠ .idle) (h : step s = .next t) : t.EndsIn s.run.kinds := by
  obtain ⟨-, rfl⟩ | ⟨i, s', hf, h⟩ | ⟨k, s', hf, rfl⟩ := step_next h
  · exact State.endsIn_of_running hr _
  · have hrun := fetch_run hf
    rw [← hrun] at hr ⊢
    exact exec_endsIn hr h
  · exact State.endsIn_raise (fetch_error_kind hf) _

/-! ## At the entry -/

/-- The error kinds with which a command can end at its entry step (R262 to R267, R291). -/
def entryKinds : HostCmd → List ErrKind
  | .mzDecode _ _ _ => [.corruptData]
  | .qtDecode _ _ _ => [.corruptData]
  | .lzDecode _ _ _ => [.corruptData]
  | .qtInit _ _ _ => [.unsupportedWindowSize]
  | _ => []

theorem CmdEffect.endsIn {s t : State} {cmd : HostCmd} (h : CmdEffect s cmd t) : t.EndsIn (entryKinds cmd) := by
  cases h with
  | mzRejected => exact State.endsIn_endWith List.mem_cons_self _
  | mzOpened => exact State.endsIn_setRun _ _
  | qtRefused => exact State.endsIn_endWith List.mem_cons_self _
  | qtRejected => exact State.endsIn_endWith List.mem_cons_self _
  | qtOpened => exact State.endsIn_setRun _ _
  | lzOpened => exact State.endsIn_setRun _ _
  | lzRejected => exact State.endsIn_endWith List.mem_cons_self _
  | lzResumed c inp n x t found sound runs => exact runs.endsIn _
  | _ => exact State.endsIn_finish _ _

/-- The step that starts a command has the command's effect (R3, R261). -/
theorem starts_effect {s t : State} {cmd : HostCmd} (hs : starts s cmd) (h : step s = .next t) :
    ∃ rest, CmdEffect { s with pending := rest } cmd t := by
  obtain ⟨hr, hp⟩ := hs
  obtain ⟨rest, hp⟩ := List.head?_eq_some_iff.1 hp
  have hfetch : fetch s = .instr (decodeCmd cmd) { s with pending := rest } := by simp [fetch, hr, hp]
  rw [step_of_instr hfetch] at h
  exact ⟨rest, (exec_command cmd h).2⟩

theorem starts_endsIn {s t : State} {cmd : HostCmd} (hs : starts s cmd) (h : step s = .next t) :
    t.EndsIn (entryKinds cmd) := by
  obtain ⟨rest, effect⟩ := starts_effect hs h
  exact effect.endsIn

/-- Settles O49: past the entry by the command in progress, at the entry by the command that starts. -/
theorem errorKindsPerEngine : Obligations.ErrorKindsPerEngine := by
  intro s t h hidle
  have past : ∀ r, r ≠ .idle → s.run = r → t.status ∈ statusOk :: r.kinds.map ErrKind.code := fun r hr hrun => by
    subst hrun
    exact step_endsIn hr h hidle
  have entry : ∀ cmd, starts s cmd → t.status ∈ statusOk :: (entryKinds cmd).map ErrKind.code := fun cmd hs =>
    starts_endsIn hs h hidle
  refine ⟨fun c p hr => past (.mz c p) nofun hr, fun c p hr => past (.qt c p) nofun hr,
    fun c hr => past (.lz c) nofun hr, fun c hr => past (.lzHdr c) nofun hr, fun c inp n hs => ?_,
    fun c inp n hs => entry _ hs, fun c inp n hs => entry _ hs, fun c w l hs => entry _ hs, fun c hdr hs => ?_, fun hs => ?_⟩
  · obtain ⟨rest, effect⟩ := starts_effect hs h
    cases effect with
    | mzRejected => rfl
    | mzOpened => cases hidle
  · obtain ⟨rest, effect⟩ := starts_effect hs h
    cases effect
    cases hidle
  · obtain hs | ⟨c, hs | hs | ⟨pos, hs⟩⟩ := hs <;> exact List.mem_singleton.1 (entry _ hs)

end Sys2Proof.Machine
end

section
/-! PROOF. Every `QT_DECODE` ends (43_quantum.md R204, 70_reset_and_hazards.md R331): a step of it ends the command, or starts
the coder, or produces at least one byte. -/

namespace Sys2Proof.Machine

/-! ## Commands that end -/

theorem endsWithin_of_step {s t : State} {n : Nat} (h : step s = .next t) (ht : endsWithin n t) : endsWithin (n + 1) s := by
  obtain ⟨k, u, hk, hrun, hidle⟩ := ht
  exact ⟨k + 1, u, Nat.succ_le_succ hk, by rw [runSteps, h]; exact hrun, hidle⟩

theorem endsWithin_of_idle {s : State} (h : s.run = .idle) (n : Nat) : endsWithin n s := ⟨0, s, Nat.zero_le n, rfl, h⟩

theorem endsWithin_mono {s : State} {n m : Nat} (h : endsWithin n s) (hnm : n ≤ m) : endsWithin m s := by
  obtain ⟨k, t, hk, hrun, hidle⟩ := h
  exact ⟨k, t, hk.trans hnm, hrun, hidle⟩

/-- A bound on the steps left, which falls with each step until the command is over. -/
theorem endsWithin_of_falling {left : State → Nat → Prop}
    (turn : ∀ s n, left s n → 0 < n ∧ ∃ t, step s = .next t ∧ (t.run = .idle ∨ ∃ m < n, left t m)) {s : State} {n : Nat}
    (h : left s n) : endsWithin n s := by
  induction n using Nat.strong_induction_on generalizing s with
  | _ n ih =>
    obtain ⟨hn, t, hstep, hnext⟩ := turn s n h
    obtain ⟨n, rfl⟩ := Nat.exists_eq_add_of_lt hn
    rw [Nat.zero_add] at hnext ⊢
    refine endsWithin_of_step hstep ?_
    obtain hidle | ⟨m, hm, hleft⟩ := hnext
    · exact endsWithin_of_idle hidle n
    · exact endsWithin_mono (ih m (by omega) hleft) (Nat.le_of_lt_succ hm)

/-! ## What a step of a QT_DECODE leaves of the rest -/

/-- The LZ contexts stay good while no `LZ_DECODE` is in progress and nothing writes them. -/
theorem LzInv.of_kept {s t : State} (h : LzInv s) (hcfg : t.cfg = s.cfg) (hlz : t.lz = s.lz) (hrun : ∀ c, t.run ≠ .lz c) :
    LzInv t := by
  obtain ⟨hbias, hreplays, -⟩ := h
  refine ⟨by rwa [hcfg], ?_, fun c x hr => absurd hr (hrun c)⟩
  rwa [hcfg, hlz]

theorem StepEffect.lz_kept {s t : State} {c : Nat} {p : QtPhase} {x : QtCtx} (h : StepEffect s t) (here : QtAt s c p x) :
    t.lz = s.lz ∧ ∀ d, t.run ≠ .lz d := by
  have hr := here.1
  cases h with
  | idle => exact ⟨rfl, fun d hd => nomatch hr.symm.trans hd⟩
  | command cmd rest t hr' => exact nomatch hr.symm.trans hr'
  | mz d q y t here' => exact nomatch hr.symm.trans here'.1
  | qt d q y z i t here' fetched runs => cases runs <;> exact ⟨rfl, nofun⟩
  | qtFails => exact ⟨rfl, nofun⟩
  | lz d y t here' => exact nomatch hr.symm.trans here'.1
  | lzFails k d y z here' => exact nomatch hr.symm.trans here'.1
  | lzHdr d last len here' => exact nomatch hr.symm.trans here'
  | lzHdrFails k d here' => exact nomatch hr.symm.trans here'

/-- A step of a `QT_DECODE` leads from a good state to a good one. -/
theorem State.Inv.qt_step {s t : State} {c : Nat} {p : QtPhase} {x : QtCtx} (h : s.Inv) (here : QtAt s c p x)
    (hstep : step s = .next t) : t.Inv := by
  obtain ⟨hmem, hmz, hqt, hwin, hlz⟩ := h
  have effect := step_effect hstep
  obtain ⟨hkept, hrun⟩ := effect.lz_kept here
  exact ⟨stepKeepsMemoryForm s t hmem hstep, stepKeepsTheMszipInvariant s t hmem hmz hstep,
    stepKeepsTheQuantumInvariant s t hqt hstep, stepKeepsTheQuantumWindow s t hmem hwin hstep,
    hlz.of_kept effect.cfg_status.1 hkept hrun⟩

/-! ## The elements -/

/-- The fetch gives an element of the grammar, where it is due (R110, R111). -/
theorem decodeQt_takes {cfg : Config} {inp : List Byte} {p : QtPhase} {x y : QtCtx} {i : Instr}
    (h : decodeQt cfg inp p x = .ok i y) : p.takes i := by
  cases p with
  | start =>
    obtain ⟨code, z, -, h⟩ := Got.bind_ok h
    cases h
    exact ⟨_, rfl⟩
  | tokens =>
    obtain ⟨sel, z, -, ⟨-, b, rfl, -⟩ | ⟨-, b, rfl, -⟩ | ⟨-, b, rfl, -⟩ | ⟨-, b, rfl, -⟩ | ⟨-, off, rfl, -⟩ |
      ⟨-, off, rfl, -⟩ | ⟨-, len, off, v, rfl, -⟩⟩ := (getSymbolDecodesAndAdapts.2 cfg inp x y i).1 h
    · exact .inl ⟨b, .inl rfl⟩
    · exact .inl ⟨b, .inr (.inl rfl)⟩
    · exact .inl ⟨b, .inr (.inr (.inl rfl))⟩
    · exact .inl ⟨b, .inr (.inr (.inr rfl))⟩
    · exact .inr (.inl ⟨off, .inl rfl⟩)
    · exact .inr (.inl ⟨off, .inr rfl⟩)
    · exact .inr (.inr ⟨len, off, rfl⟩)

/-- The four literals do the same (R212). -/
theorem exec_qtLiteral {i : Instr} {b : Byte} (h : i ∈ [Instr.qlit0 b, .qlit1 b, .qlit2 b, .qlit3 b]) (s : State) :
    exec i s = qtLiteral s b := by
  simp only [List.mem_cons, List.not_mem_nil, or_false] at h
  obtain rfl | rfl | rfl | rfl := h <;> rfl

/-- While bytes are left to produce a literal emits its byte (R212). -/
theorem qtLiteral_at {s : State} {c : Nat} {x : QtCtx} (here : QtAt s c .tokens x) (htogo : x.togo ≠ 0) (b : Byte) :
    qtLiteral s b = qtContinue s c (x.emit b) := by
  rw [qtLiteral, withQt_at here.1 here.2, whereTokens, if_neg htogo]

/-- While bytes are left to produce a match is rejected, or copied whole (R216). The middle case is one that no good state
meets. -/
theorem qtMatch_at {s : State} {c : Nat} {x : QtCtx} (here : QtAt s c .tokens x) (htogo : x.togo ≠ 0) (off len : Nat) :
    qtMatch s off len = .next (s.raise .corruptData) ∨ qtMatch s off len = .fault .unwrittenByte ∨
    ∃ w, qtMatch s off len = qtContinue s c { x with win := w, togo := x.togo - len } := by
  rw [qtMatch, withQt_at here.1 here.2, whereTokens, if_neg htogo]
  split
  · split
    · exact .inr (.inl rfl)
    · exact .inr (.inr ⟨_, rfl⟩)
  · exact .inl rfl

/-! ## The steps left -/

/-- How many steps a `QT_DECODE` that stands at `p` takes at most: one per byte still to produce, and one for the coder start
(R203, R204). -/
def QtPhase.stepsLeft (p : QtPhase) (x : QtCtx) : Nat :=
  match p with
  | .start => x.togo + 1
  | .tokens => x.togo

/-- After a step of the `QT_DECODE` on context `c` the command is over, or fewer than `n` bytes are left to produce. -/
def QtNearer (c n : Nat) (t : State) : Prop := t.run = .idle ∨ ∃ y, QtAt t c .tokens y ∧ y.togo < n

/-- Going on with fewer bytes to produce is nearer to the end (R204). -/
theorem qtContinue_nearer {s : State} {c n : Nat} {p : QtPhase} {x y : QtCtx} (here : QtAt s c p x)
    (hsafe : NoFault (qtContinue s c y)) (hy : y.togo < n) : ∃ t, qtContinue s c y = .next t ∧ QtNearer c n t := by
  obtain ⟨-, -, he⟩ | ⟨bs, -, -, he⟩ | ⟨-, he⟩ := qtContinue_cases s c y
  · rw [he] at hsafe
    exact hsafe.elim
  · exact ⟨_, he, .inl rfl⟩
  · exact ⟨_, he, .inr ⟨y, ⟨rfl, (here.setQt y).2⟩, hy⟩⟩

/-- A match of at least one byte is nearer to the end, whether it is copied or rejected (R216). -/
theorem qtMatch_nearer {s : State} {c off len : Nat} {x : QtCtx} (here : QtAt s c .tokens x) (htogo : x.togo ≠ 0)
    (hlen : 1 ≤ len) (hsafe : NoFault (qtMatch s off len)) :
    ∃ t, qtMatch s off len = .next t ∧ QtNearer c x.togo t := by
  obtain he | he | ⟨w, he⟩ := qtMatch_at here htogo off len <;> rw [he] at hsafe ⊢
  · exact ⟨_, rfl, .inl (s.raise_run _)⟩
  · exact hsafe.elim
  · exact qtContinue_nearer here hsafe (show x.togo - len < x.togo by omega)

/-- Every element of a `QT_DECODE` is nearer to the end: CODE16 by the coder start, a literal by its byte, a match by its
length, which is at least 3 (R117, R212). -/
theorem exec_nearer {s : State} {c : Nat} {p : QtPhase} {x : QtCtx} {i : Instr} (here : QtAt s c p x) (hi : p.takes i)
    (hwf : i.wf = true) (htogo : p = .tokens → x.togo ≠ 0) (hsafe : NoFault (exec i s)) :
    ∃ t, exec i s = .next t ∧ QtNearer c (p.stepsLeft x) t := by
  cases p with
  | start =>
    obtain ⟨code, rfl⟩ := hi
    rw [exec_code16 here] at hsafe ⊢
    exact qtContinue_nearer here hsafe (Nat.lt_succ_self x.togo)
  | tokens =>
    have htogo := htogo rfl
    have literal : ∀ b, i ∈ [Instr.qlit0 b, .qlit1 b, .qlit2 b, .qlit3 b] →
        ∃ t, exec i s = .next t ∧ QtNearer c x.togo t := fun b hb => by
      rw [exec_qtLiteral hb, qtLiteral_at here htogo] at hsafe ⊢
      exact qtContinue_nearer here hsafe (show x.togo - 1 < x.togo by omega)
    obtain ⟨b, hb⟩ | ⟨off, rfl | rfl⟩ | ⟨len, off, rfl⟩ := hi
    · exact literal b (by simpa using hb)
    · exact qtMatch_nearer here htogo (by decide) hsafe
    · exact qtMatch_nearer here htogo (by decide) hsafe
    · have hlen : 5 ≤ len := by
        simp only [Instr.wf, Bool.and_eq_true, decide_eq_true_eq] at hwf
        obtain ⟨⟨hlow, -⟩, -⟩ := hwf
        exact hlow
      exact qtMatch_nearer here htogo (by omega) hsafe

/-- From a good state every step of a `QT_DECODE` is nearer to the end: an error ends it, an element produces bytes. -/
theorem State.Inv.qt_nearer {s : State} {c : Nat} {p : QtPhase} {x : QtCtx} (h : s.Inv) (here : QtAt s c p x) :
    ∃ t, step s = .next t ∧ QtNearer c (p.stepsLeft x) t := by
  have hsafe := goodStatesNeverFault s h
  obtain ⟨hmem, -, ⟨hcfg, hqt⟩, hwin, -⟩ := h
  have hx := hqt x (List.mem_of_getElem? here.2)
  have hfetch := fetch_qt here
  cases hd : decodeQt s.cfg s.inp p x with
  | bug f => exact absurd hd ((decodeQt_yields hcfg s.inp p hx).not_bug f)
  | err k y =>
    rw [hd] at hfetch
    exact ⟨_, step_of_error hfetch, .inl (State.raise_run _ k)⟩
  | ok i y =>
    rw [hd] at hfetch
    rw [step_of_instr hfetch] at hsafe ⊢
    have hsame := (decodeQt_yields hcfg s.inp p hx).of_ok hd
    have hin := ((qtWindowInv_iff hmem.2.1).1 hwin).2 c p x here
    obtain ⟨-, -, -, hmodels, -⟩ := hx
    have hsteps : p.stepsLeft y = p.stepsLeft x := by cases p <;> simp only [QtPhase.stepsLeft, hsame.togo]
    rw [← hsteps]
    refine exec_nearer (here.setQt y) (decodeQt_takes hd) (decodeQt_wf hmodels hd) (fun hp => ?_) hsafe
    rw [hsame.togo]
    exact Nat.one_le_iff_ne_zero.1 (hin.tokens hp).2

/-- A good state with a `QT_DECODE` on context `c` in progress that has at most `n` steps left. -/
def QtLeft (c : Nat) (s : State) (n : Nat) : Prop := s.Inv ∧ ∃ p x, QtAt s c p x ∧ p.stepsLeft x = n

/-- The steps left fall with each step until the command is over, and a command in progress has one left. -/
theorem QtLeft.falls {c n : Nat} {s : State} (h : QtLeft c s n) :
    0 < n ∧ ∃ t, step s = .next t ∧ (t.run = .idle ∨ ∃ m < n, QtLeft c t m) := by
  obtain ⟨hinv, p, x, here, rfl⟩ := h
  obtain ⟨t, hstep, hnearer⟩ := hinv.qt_nearer here
  obtain ⟨hmem, -, -, hwin, -⟩ := id hinv
  have hin := ((qtWindowInv_iff hmem.2.1).1 hwin).2 c p x here
  refine ⟨?_, t, hstep, hnearer.imp_right fun ⟨y, hy, hlt⟩ => ⟨y.togo, hlt, hinv.qt_step here hstep, .tokens, y, hy, rfl⟩⟩
  cases p with
  | start => exact Nat.succ_pos _
  | tokens => exact (hin.tokens rfl).2

/-- Settles O58: the steps left are the bytes to produce, and one more before the coder start. -/
theorem qtDecodeEnds : Obligations.QtDecodeEnds := by
  intro s c p x h here
  refine endsWithin_mono (endsWithin_of_falling (fun _ _ => QtLeft.falls) ⟨h, p, x, here, rfl⟩) ?_
  cases p with
  | start => exact le_rfl
  | tokens => exact Nat.le_succ _

end Sys2Proof.Machine
end

section
/-! PROOF. What an update does to the cumulative values short of a rebuild: the bump below the threshold, the halving above it
(43_quantum.md R208, R209), and a first entry that is decoded again and again (R211). -/

namespace Sys2Proof.Machine

/-! ## The halving, entry by entry (R209) -/

/-- A halved value is raised above its successor where it must be. -/
theorem cumHalve_cons (c : Nat) {rest : List Nat} (hne : rest ≠ []) :
    cumHalve (c :: rest) = max (c / 2) ((cumHalve rest).headD 0 + 1) :: cumHalve rest := by
  rw [cumHalve]
  · rw [Nat.shiftRight_one]
    refine congrArg (· :: cumHalve rest) ?_
    split <;> omega
  · exact hne

theorem cumHalve_getD : ∀ {cum : List Nat} {k : Nat}, k + 1 < cum.length →
    (cumHalve cum).getD k 0 = max (cum.getD k 0 / 2) ((cumHalve cum).getD (k + 1) 0 + 1)
  | c :: d :: rest, 0, _ => by
    rw [cumHalve_cons c (List.cons_ne_nil d rest), List.headD_eq_getD]
    rfl
  | c :: d :: rest, k + 1, hk => by
    rw [cumHalve_cons c (List.cons_ne_nil d rest)]
    exact cumHalve_getD (cum := d :: rest) (Nat.lt_of_succ_lt_succ hk)

/-- The sentinel of a good model is its entry `n` (R31). -/
theorem QModel.Ok.getD_sentinel {n first : Nat} {m : QModel} (h : m.Ok n first) : m.cum.getD n 0 = 0 := by
  have hlast := h.sentinel
  rw [List.getLast?_eq_getElem?, h.cumLength] at hlast
  rw [List.getD_eq_getElem?_getD, show n = n + 1 - 1 from rfl, hlast]
  rfl

/-! ## The update below and above the threshold (R208) -/

/-- With the bumped total at most 3800 an update is a bump (R208). -/
theorem QModel.update_bump {how : Resort} {i : Nat} {m : QModel} (ht : (cumBump i m.cum).headD 0 ≤ qtLimit) :
    m.update how i = { m with cum := cumBump i m.cum } := if_neg (Nat.not_lt.2 ht)

/-- Above it, and with the counter not running out, a bump and a halving (R208, R209). -/
theorem QModel.update_halve {how : Resort} {i : Nat} {m : QModel} (ht : qtLimit < (cumBump i m.cum).headD 0)
    (hr : 2 ≤ m.reorder) :
    m.update how i = { m with cum := cumHalve (cumBump i m.cum), reorder := m.reorder - 1 } := by
  have hcount : m.reorder - 1 ≠ 0 := by omega
  simp only [QModel.update, QModel.rescale]
  rw [if_pos ht, if_pos hcount]
  rfl

/-- Settles O25: the two outcomes of the threshold, entry by entry. -/
theorem updateBumpsOrHalves : Obligations.UpdateBumpsOrHalves := by
  intro how n first i m h h1 hn u bumped
  have hok : u.Ok n first := h.update h1 hn how
  have hcum := h.cumLength
  have hlen : (cumBump i m.cum).length = n + 1 := (cumBump_length i m.cum).trans hcum
  have hbumped : ∀ k, k ≤ n → (cumBump i m.cum).getD k 0 = bumped k := fun k hk => cumBump_getD (by omega)
  have htotal : (cumBump i m.cum).headD 0 = bumped 0 := by rw [List.headD_eq_getD, hbumped 0 (Nat.zero_le n)]
  refine ⟨hok.size.trans h.size.symm, hok.base.trans h.base.symm, fun hle => ?_, fun hlt hr => ?_⟩
  · have hu : u = { m with cum := cumBump i m.cum } := QModel.update_bump (htotal.trans_le hle)
    rw [hu]
    exact ⟨rfl, rfl, rfl, hlen, hbumped⟩
  · have hu : u = { m with cum := cumHalve (cumBump i m.cum), reorder := m.reorder - 1 } :=
      QModel.update_halve (hlt.trans_eq htotal.symm) hr
    have hsentinel : u.cum.getD n 0 = 0 := hok.getD_sentinel
    refine ⟨by rw [hu], by rw [hu], by rw [hu], hok.cumLength, hsentinel, fun k hk => ?_⟩
    rw [hu, ← hbumped k hk.le]
    exact cumHalve_getD (by omega)

/-! ## Entry 0 again and again (R211) -/

/-- The bump of the total alone (R208). -/
theorem cumBump_one (total : Nat) (rest : List Nat) : cumBump 1 (total :: rest) = (total + 8) :: rest := rfl

/-- While the total stays at most 3800, each decode of entry 0 adds 8 to it and changes nothing else (R208). -/
theorem QModel.iterate_update_one (how : Resort) {m : QModel} {total : Nat} {rest : List Nat} (h : m.cum = total :: rest)
    (k : Nat) (hk : total + 8 * k ≤ qtLimit) :
    (QModel.update how 1)^[k] m = { m with cum := (total + 8 * k) :: rest } := by
  induction k with
  | zero => simp [← h]
  | succ k ih =>
    rw [Function.iterate_succ_apply', ih (by omega), QModel.update_bump] <;> rw [cumBump_one]
    · rfl
    · exact hk

/-- The decode that passes the threshold (R211). -/
theorem QModel.update_one_halve {how : Resort} {m : QModel} {total : Nat} {rest : List Nat} (h : m.cum = total :: rest)
    (ht : qtLimit < total + 8) (hr : 2 ≤ m.reorder) (hne : rest ≠ [])
    (hrest : (cumHalve rest).headD 0 < (total + 8) / 2) :
    m.update how 1 = { m with cum := ((total + 8) / 2) :: cumHalve rest, reorder := m.reorder - 1 } := by
  have hbump : cumBump 1 m.cum = (total + 8) :: rest := by rw [h, cumBump_one]
  rw [QModel.update_halve (by rwa [hbump]) hr, hbump, cumHalve_cons _ hne, max_eq_left hrest]

/-- A new model of `n` symbols: a total of `n`, and other entries that halve to less than `2 n` (R201, R209). -/
theorem QModel.init_cum {cfg : Config} {n first : Nat} (h : (QModel.init cfg n first).Ok n first) :
    ∃ rest, (QModel.init cfg n first).cum = n :: rest ∧ rest ≠ [] ∧ (cumHalve rest).headD 0 < 2 * n := by
  obtain ⟨total, rest, hcum, hlen, hmem, -⟩ := h.cum_cons
  have hne : rest ≠ [] := List.ne_nil_of_mem hmem
  have htotal : total = n := by
    have hhead := congrArg (List.headD · 0) hcum
    simpa [QModel.init, List.range_succ_eq_map, eq_comm] using hhead
  have hfalling : Falling (total :: rest) := hcum ▸ h.decreasing
  have hlast := h.sentinel
  rw [hcum, List.getLast?_cons_of_ne_nil hne] at hlast
  have hhalved := cumHalve_headD_le hfalling.of_cons hlast
  have hfirst : rest.headD 0 < total := by
    cases rest with
    | nil => exact absurd rfl hne
    | cons d rest => exact List.rel_of_pairwise_cons hfalling List.mem_cons_self
  exact ⟨rest, by rw [hcum, htotal], hne, by omega⟩

/-- Settles O27: 467 bumps of the total, the halving of 3808, and 7 bumps; the other entries, halved below 128, never weigh
against it. -/
theorem scenarioB : Obligations.ScenarioB := by
  unfold Obligations.ScenarioB
  intro after
  obtain ⟨rest, hinit, hne, hrest⟩ := QModel.init_cum (QModel.init_ok (cfg := defaultParameters) (n := 64) (first := 0)
    (by decide) (by decide) (by decide) (by decide))
  have before : ∀ k ≤ 467, after k = { QModel.init defaultParameters 64 0 with cum := (64 + 8 * k) :: rest } :=
    fun k hk => QModel.iterate_update_one .stable hinit k (by simp only [qtLimit]; omega)
  have halved : after 468 =
      { QModel.init defaultParameters 64 0 with cum := 1904 :: cumHalve rest, reorder := 3 } := by
    have hstep : after 468 = (after 467).update .stable 1 := Function.iterate_succ_apply' ..
    rw [hstep, before 467 le_rfl]
    exact QModel.update_one_halve (total := 3800) rfl (by decide) (show 2 ≤ 4 by decide) hne (by omega)
  refine ⟨fun k hk => by rw [before k hk]; exact ⟨rfl, rfl⟩, fun k h1 h2 => ?_⟩
  obtain ⟨j, rfl⟩ := Nat.exists_eq_add_of_le' h1
  have hafter : after (j + 468) = (QModel.update .stable 1)^[j] (after 468) := Function.iterate_add_apply ..
  rw [hafter, halved, QModel.iterate_update_one .stable rfl j (by simp only [qtLimit]; omega), Nat.add_sub_cancel]
  exact ⟨rfl, rfl⟩

end Sys2Proof.Machine
end

section
/-! PROOF. The slice of a good model that the code register selects, and the narrowing to it (43_quantum.md R205, R206). -/

namespace Sys2Proof.Machine

/-- Of falling values a later one is not above an earlier one. -/
theorem Falling.getD_le {l : List Nat} (h : Falling l) {i j : Nat} (hij : i ≤ j) (hj : j < l.length) :
    l.getD j 0 ≤ l.getD i 0 := by
  rw [List.getD_eq_getElem _ _ hj, List.getD_eq_getElem _ _ (hij.trans_lt hj)]
  obtain rfl | hlt := hij.eq_or_lt
  · exact le_rfl
  · exact (List.pairwise_iff_getElem.1 h i j _ hj hlt).le

/-- The slices of falling values do not overlap (R205). -/
theorem Falling.slice_unique {l : List Nat} (h : Falling l) {freq i j : Nat} (hi : i < l.length) (hj : j < l.length)
    (hlo : l.getD i 0 ≤ freq) (hhi : freq < l.getD (i - 1) 0) (hlo' : l.getD j 0 ≤ freq) (hhi' : freq < l.getD (j - 1) 0) :
    j = i := by
  rcases Nat.lt_trichotomy j i with hlt | heq | hlt
  · have := h.getD_le (i := j) (j := i - 1) (by omega) (by omega)
    omega
  · exact heq
  · have := h.getD_le (i := i) (j := j - 1) (by omega) (by omega)
    omega

/-- Narrowing takes the slice's share of the range, within the old range: the formulas do not wrap (R206). -/
theorem QtCtx.narrow_within {x : QtCtx} (h : x.L.toNat ≤ x.H.toNat) {hi lo total : Nat} (hlt : lo < hi) (hle : hi ≤ total) :
    (x.narrow hi lo total).L.toNat = x.L.toNat + lo * x.range / total ∧
    (x.narrow hi lo total).H.toNat = x.L.toNat + hi * x.range / total - 1 ∧
    (x.narrow hi lo total).H.toNat ≤ x.H.toNat := by
  have hHlt := x.H.isLt
  have hr : x.range = x.H.toNat - x.L.toNat + 1 := rfl
  have hmost : hi * x.range / total ≤ x.range := Nat.div_le_of_le_mul (Nat.mul_le_mul_right _ hle)
  have hpart : lo * x.range / total < x.range := by
    rw [Nat.div_lt_iff_lt_mul (by omega), Nat.mul_comm x.range]
    exact Nat.mul_lt_mul_of_pos_right (by omega) (by omega)
  simp only [QtCtx.narrow, BitVec.toNat_ofNat]
  rw [Nat.mod_eq_of_lt (by omega), Nat.mod_eq_of_lt (by omega)]
  omega

/-- Settles O28: the hit index ends the slice, no other slice holds the frequency, and its shares lie around the code. -/
theorem narrowingKeepsTheCode : Obligations.NarrowingKeepsTheCode := by
  intro n first m x h hLC hCH total freq
  have hordered : x.Ordered := ⟨hLC, hCH⟩
  have hlen := h.cumLength
  obtain ⟨t, rest, hcum, -, -, ht⟩ := h.cum_cons
  have htotal : 0 < total := by
    show 0 < m.cum.getD 0 0
    rwa [hcum]
  have hlt : freq < total := hordered.freq_lt htotal
  obtain ⟨i, hhit, h1, hn⟩ := h.hit freq
  obtain ⟨-, -, hlo, hhi⟩ := h.hit_slice hhit (by rwa [List.headD_eq_getD])
  have hmost : m.cum.getD (i - 1) 0 ≤ total := Falling.getD_le h.decreasing (Nat.zero_le _) (by omega)
  obtain ⟨hL, hH, hHle⟩ := x.narrow_within (hLC.trans hCH) (hlo.trans_lt hhi) hmost
  obtain ⟨hyL, hyH⟩ := hordered.narrow htotal hlo hhi hmost
  exact ⟨i, h1, hn, hhit, hlo, hhi, fun j _ hj => Falling.slice_unique h.decreasing (by omega) (by omega) hlo hhi,
    hL, hH, rfl, hL ▸ Nat.le_add_right .., hyL, hyH, hHle⟩

end Sys2Proof.Machine
end

section
/-! PROOF. A Quantum literal (43_quantum.md R212, R220, R221). -/

namespace Sys2Proof.Machine

/-- Settles O32: a literal that leaves bytes to produce, and the last one, after which Extract reads written bytes. -/
theorem quantumLiteralIsEmitted : Obligations.QuantumLiteralIsEmitted := by
  refine ⟨fun s c x b here htogo i hi => ?_, fun s c x b hm hs here htogo i hi => ?_⟩
  · rw [exec_qtLiteral hi, qtLiteral_at here (by omega)]
    exact qtContinue_more (show x.togo - 1 ≠ 0 by omega)
  · obtain ⟨hwin, hcall⟩ := (qtWindowInv_iff hm.2.1).1 hs
    have hin := hcall c .tokens x here
    have hproducing : x.Producing s.outLen := ⟨hwin x (List.mem_of_getElem? here.2), hin.fits, hin.produced⟩
    intro y
    have hy : x.emit b = y := by rw [QtCtx.emit, htogo]; rfl
    rw [exec_qtLiteral hi, qtLiteral_at here (by omega), hy]
    exact qtContinue_done (hy ▸ hproducing.emit b) rfl

end Sys2Proof.Machine
end

section
/-! PROOF. The three Quantum commands (45_host_commands.md R262, R264, 43_quantum.md R201 to R204). -/

namespace Sys2Proof.Machine

/-- Dropping the bytes from `cap` on leaves the bytes below it (R262). -/
theorem memLookup_filter_lt (m : Memory) {a cap : Nat} (ha : a < cap) :
    memLookup a (m.filter fun e => e.1 < cap) = memLookup a m := by
  induction m with
  | nil => rfl
  | cons e m ih =>
    obtain ⟨k, v⟩ := e
    by_cases hk : k < cap
    · rw [List.filter_cons_of_pos (by simpa using hk), memLookup, memLookup, ih]
    · rw [List.filter_cons_of_neg (by simpa using hk), memLookup, if_neg (by omega), ih]

theorem memRead_filter_lt (sp : Space) (m : Memory) {a cap : Nat} (ha : a < cap) :
    memRead sp (m.filter fun e => e.1 < cap) a = memRead sp m a := by
  rw [memRead, memRead, memLookup_filter_lt m ha]

/-- The nine models after a restart (R201). -/
theorem QtCtx.restart_model (x : QtCtx) (cfg : Config) (i : QModelId) : (x.restart cfg).model i = initModel cfg x.wbits i := by
  cases i <;> rfl

theorem execQtInit_accepts {s : State} {c : Nat} {w level : BitVec 8} (hr : s.run = .idle) (hlow : 10 ≤ w.toNat)
    (hhigh : w.toNat ≤ 21) (hc : c ≤ s.qt.length)
    (hnew : c < s.qt.length ∨ s.cfg.nCtx = none ∨ ∃ most, s.cfg.nCtx = some most ∧ s.qt.length < most) :
    execQtInit c w level s =
      .next { s with qt := putContext s.qt c ((s.qt.getD c QtCtx.blank).setup s.cfg w.toNat (level.setWidth 4)) }.finish := by
  have hlimit : ¬(c = s.qt.length ∧ mayCreate s.cfg s.qt.length = false) := fun ⟨heq, hmay⟩ => by
    rw [mayCreate_of (hnew.resolve_left (by omega))] at hmay
    cases hmay
  rw [execQtInit, whenIdle_at hr, if_neg (by omega), if_neg (by simp only [qtWbitsMin, qtWbitsMax]; omega), if_neg hlimit]

theorem execQtInit_refuses {s : State} {c : Nat} {w : BitVec 8} (level : BitVec 8) (hr : s.run = .idle)
    (hc : c ≤ s.qt.length) (hw : w.toNat < 10 ∨ 21 < w.toNat) :
    execQtInit c w level s = .next (s.endWith .unsupportedWindowSize) := by
  rw [execQtInit, whenIdle_at hr, if_neg (by omega), if_pos (by simp only [qtWbitsMin, qtWbitsMax]; exact hw)]

/-- Settles O36: the context is set up from the old one or from the blank one; other window bits write STATUS alone. -/
theorem qtInitSetsUpOrRefuses : Obligations.QtInitSetsUpOrRefuses := by
  refine ⟨fun s c w level hr hlow hhigh hc hnew => ?_, fun s c w level hr hc hw => ?_⟩
  · refine ⟨_, execQtInit_accepts hr hlow hhigh hc hnew, getElem?_putContext_self _ hc, rfl, rfl, BitVec.toNat_setWidth ..,
      rfl, rfl, rfl, rfl, QtCtx.restart_model _ s.cfg, fun old hold => ?_⟩
    rw [List.getD_eq_getElem?_getD, hold]
    exact ⟨rfl, rfl, rfl, fun _ a ha => memRead_filter_lt .qtwin old.win.cells ha⟩
  · exact ⟨_, execQtInit_refuses level hr hc hw, rfl, rfl, rfl, rfl, rfl⟩

/-- Settles O37: the restart, field by field. -/
theorem qtResetRestarts : Obligations.QtResetRestarts := by
  intro s c x hr hx m
  show execQtReset c s = _
  rw [execQtReset, whenIdle_at hr, hx]
  rfl

/-- With nothing to produce and nothing asked for, the call ends with an empty OUT (R220). -/
theorem qtContinue_empty {s : State} {c : Nat} {x : QtCtx} (htogo : x.togo = 0) (hlen : s.outLen = 0) (hout : s.out = []) :
    qtContinue s c x = .next (s.setQt c x).finish := by
  have hsame : { s.setQt c x with out := [] } = s.setQt c x := by rw [← hout]; rfl
  rw [qtContinue, if_pos htogo, hlen, ← hsame]
  rfl

/-- Settles O38: the two entry checks, then the coder start of a fresh context, or the tokens of a started one. -/
theorem qtDecodeChecksThenReads : Obligations.QtDecodeChecksThenReads := by
  intro s c x inp n hr hx s1 y
  show execQtDecode c inp n s = _
  rw [execQtDecode, whenIdle_at hr, hx]
  dsimp only
  by_cases hfault : x.fault = true
  · rw [if_pos hfault, if_pos (.inl hfault)]
    rfl
  by_cases hfits : x.wsize < n
  · rw [if_neg hfault, if_pos hfits, if_pos (.inr hfits)]
    rfl
  rw [if_neg hfault, if_neg hfits, if_neg (not_or.2 ⟨hfault, hfits⟩)]
  by_cases hstarted : x.started = true
  · rw [if_pos hstarted, if_neg (by simp [hstarted])]
    by_cases hn : n = 0
    · rw [if_pos hn]
      exact qtContinue_empty (s := s1) (x := y) hn hn rfl
    · rw [if_neg hn]
      exact qtContinue_more (s := s1) (x := y) hn
  · rw [if_neg hstarted, if_pos (by simpa using hstarted)]
    rfl

end Sys2Proof.Machine
end

section
/-! PROOF. The byte-serial decoder, token by token (44_lzszdd.md R244 to R247): a flag byte fetched ahead changes no byte it gives,
a literal is one byte of it, and a reference as many as the table copy reads. -/

namespace Sys2Proof.Machine

/-! ## Fetching a token (R243, R244, R247) -/

/-- The stream cursor `n` bytes further. -/
def LzCtx.past (x : LzCtx) (n : Nat) : LzCtx := { x with inPos := x.inPos + n }

/-- StartRef: the reference begins (R246). -/
def LzCtx.startRef (cfg : Config) (x : LzCtx) (off : BitVec 12) (lenfield : BitVec 4) : LzCtx :=
  { x with spos := off.toNat, slen := refLength cfg lenfield }

/-- The reference of two bytes, fetched and begun (R246, R247). -/
def LzCtx.beginRef (cfg : Config) (x : LzCtx) (b1 b2 : Byte) : LzCtx :=
  (x.shiftFlags.past 2).startRef cfg (refOffset b1 b2) (refLenField b2)

theorem lzGetByte_none {inp : List Byte} {x : LzCtx} (h : inp[x.inPos]? = none) :
    lzGetByte inp x = .err .truncatedInput x := by rw [lzGetByte, h]

section
variable {inp : List Byte} {x : LzCtx} (hs : x.slen = 0)
include hs

theorem decodeLz_spent (hf : x.fcnt = 0) :
    decodeLz inp x = (lzGetByte inp x).bind fun b y => .ok (.flags b) y := by
  rw [decodeLz, if_neg (not_not.2 hs), if_pos hf]

theorem decodeLz_covered_literal (hf : x.fcnt ≠ 0) (hlit : x.nextIsLiteral = true) :
    decodeLz inp x = (lzGetByte inp x.shiftFlags).bind fun b y => .ok (.lzlit b) y := by
  rw [decodeLz, if_neg (not_not.2 hs), if_neg hf, if_pos hlit]

theorem decodeLz_covered_reference (hf : x.fcnt ≠ 0) (href : x.nextIsLiteral = false) :
    decodeLz inp x = (lzGetByte inp x.shiftFlags).bind fun b1 y =>
      (lzGetByte inp y).bind fun b2 z => .ok (.lzref (refOffset b1 b2) (refLenField b2)) z := by
  rw [decodeLz, if_neg (not_not.2 hs), if_neg hf, if_neg (by simp [href])]

/-- What the fetch of an `LZ_DECODE` finds where no reference is in progress: no byte, a flag byte, a literal or a
reference. -/
theorem decodeLz_cases (inp : List Byte) :
    (∃ y, decodeLz inp x = .err .truncatedInput y) ∨
    (∃ b, x.fcnt = 0 ∧ inp[x.inPos]? = some b ∧ decodeLz inp x = .ok (.flags b) (x.past 1)) ∨
    (∃ b, x.fcnt ≠ 0 ∧ x.nextIsLiteral = true ∧ inp[x.inPos]? = some b ∧
      decodeLz inp x = .ok (.lzlit b) (x.shiftFlags.past 1)) ∨
    ∃ b1 b2, x.fcnt ≠ 0 ∧ x.nextIsLiteral = false ∧ inp[x.inPos]? = some b1 ∧ inp[x.inPos + 1]? = some b2 ∧
      decodeLz inp x = .ok (.lzref (refOffset b1 b2) (refLenField b2)) (x.shiftFlags.past 2) := by
  by_cases hf : x.fcnt = 0
  · rw [decodeLz_spent hs hf]
    cases hb : inp[x.inPos]? with
    | none => exact .inl ⟨x, by rw [lzGetByte_none hb]; rfl⟩
    | some b => exact .inr (.inl ⟨b, hf, rfl, by rw [lzGetByte_at hb]; rfl⟩)
  cases hlit : x.nextIsLiteral with
  | true =>
    rw [decodeLz_covered_literal hs hf hlit]
    cases hb : inp[x.inPos]? with
    | none => exact .inl ⟨x.shiftFlags, by rw [lzGetByte_none (x := x.shiftFlags) hb]; rfl⟩
    | some b => exact .inr (.inr (.inl ⟨b, hf, rfl, rfl, by rw [lzGetByte_at (x := x.shiftFlags) hb]; rfl⟩))
  | false =>
    rw [decodeLz_covered_reference hs hf hlit]
    cases hb1 : inp[x.inPos]? with
    | none => exact .inl ⟨x.shiftFlags, by rw [lzGetByte_none (x := x.shiftFlags) hb1]; rfl⟩
    | some b1 =>
      rw [lzGetByte_at (x := x.shiftFlags) hb1, Got.bind]
      cases hb2 : inp[x.inPos + 1]? with
      | none => exact .inl ⟨x.shiftFlags.past 1, by rw [lzGetByte_none hb2]; rfl⟩
      | some b2 =>
        refine .inr (.inr (.inr ⟨b1, b2, hf, rfl, rfl, rfl, ?_⟩))
        rw [lzGetByte_at (x := { x.shiftFlags with inPos := x.shiftFlags.inPos + 1 }) hb2]
        rfl

end

/-! ## NextByte, by the token that is due (R247) -/

theorem lzNextByte_copying (cfg : Config) (inp : List Byte) {y : LzCtx} (hs : y.slen ≠ 0) :
    lzNextByte cfg inp y = .ok (y.refByte cfg).1 (y.refByte cfg).2 := if_pos hs

section
variable {inp : List Byte} {y : LzCtx} (hs : y.slen = 0)
include hs

/-- A flag byte that is due may be fetched before. -/
theorem lzNextByte_loaded (cfg : Config) {b : Byte} (hf : y.fcnt = 0) (hb : inp[y.inPos]? = some b) :
    lzNextByte cfg inp y = lzNextByte cfg inp ((y.past 1).loadFlags b) := by
  rw [lzNextByte, lzNextByte, if_neg (not_not.2 hs), if_neg (show ¬((y.past 1).loadFlags b).slen ≠ 0 from not_not.2 hs),
    if_pos hf, if_neg (by simp), lzGetByte_at hb]
  rfl

theorem lzNextByte_literal (cfg : Config) {b : Byte} (hf : y.fcnt ≠ 0) (hlit : y.nextIsLiteral = true)
    (hb : inp[y.inPos]? = some b) : lzNextByte cfg inp y = .ok b ((y.shiftFlags.past 1).put cfg b) := by
  rw [lzNextByte, if_neg (not_not.2 hs), if_neg hf, Got.bind, if_pos hlit, lzGetByte_at (x := y.shiftFlags) hb]
  rfl

/-- A reference that is due may be started before (R246: it has at least one byte). -/
theorem lzNextByte_reference {cfg : Config} (hbias : 1 ≤ cfg.lzLenBias) {b1 b2 : Byte} (hf : y.fcnt ≠ 0)
    (href : y.nextIsLiteral = false) (hb1 : inp[y.inPos]? = some b1) (hb2 : inp[y.inPos + 1]? = some b2) :
    lzNextByte cfg inp y = lzNextByte cfg inp (y.beginRef cfg b1 b2) := by
  have hlen : (y.beginRef cfg b1 b2).slen ≠ 0 := by
    show (refLenField b2).toNat + cfg.lzLenBias ≠ 0
    omega
  rw [lzNextByte_copying cfg inp hlen, lzNextByte, if_neg (not_not.2 hs), if_neg hf, Got.bind, if_neg (by simp [href]),
    lzGetByte_at (x := y.shiftFlags) hb1, Got.bind,
    lzGetByte_at (x := { y.shiftFlags with inPos := y.shiftFlags.inPos + 1 }) hb2]
  rfl

end

/-! ## Runs of NextByte -/

theorem lzBytesFrom_length {cfg : Config} {inp : List Byte} {n : Nat} {x y : LzCtx} {bs : List Byte}
    (h : lzBytesFrom cfg inp n x = some (y, bs)) : bs.length = n := by
  induction n generalizing x bs with
  | zero => cases h; rfl
  | succ n ih =>
    rw [lzBytesFrom] at h
    split at h
    · split at h
      · next hrest => cases h; rw [List.length_cons, ih hrest]
      · cases h
    · cases h

theorem lzBytesFrom_append {cfg : Config} {inp : List Byte} {n m : Nat} {x y z : LzCtx} {as bs : List Byte}
    (h : lzBytesFrom cfg inp n x = some (y, as)) (h' : lzBytesFrom cfg inp m y = some (z, bs)) :
    lzBytesFrom cfg inp (n + m) x = some (z, as ++ bs) := by
  induction n generalizing x as with
  | zero => cases h; rwa [Nat.zero_add]
  | succ n ih =>
    rw [lzBytesFrom] at h
    split at h
    · next b v hbyte =>
      split at h
      · next w cs hrest =>
        cases h
        rw [Nat.succ_add, lzBytesFrom, hbyte]
        dsimp only
        rw [ih hrest]
        rfl
      · cases h
    · cases h

/-- A run of at least one byte depends on the first NextByte alone. -/
theorem lzBytesFrom_congr {cfg : Config} {inp : List Byte} {n : Nat} {x y : LzCtx} (hn : 1 ≤ n)
    (h : lzNextByte cfg inp x = lzNextByte cfg inp y) : lzBytesFrom cfg inp n x = lzBytesFrom cfg inp n y := by
  obtain ⟨n, rfl⟩ := Nat.exists_eq_add_of_le' hn
  rw [lzBytesFrom, lzBytesFrom, h]

/-! ## Contexts that agree (R251) -/

/-- The registers NextByte reads, the others as in a fresh context. -/
def LzCtx.core (x : LzCtx) : LzCtx :=
  { LzCtx.fresh with tab := x.tab, cur := x.cur, flags := x.flags, fcnt := x.fcnt, spos := x.spos, slen := x.slen,
                     real := x.real, inPos := x.inPos }

/-- Two contexts agree when every register NextByte reads is the same, maybe after a flag byte that is due in `y`. -/
theorem LzCtx.agrees_iff {inp : List Byte} {x y : LzCtx} :
    x.agrees inp y ↔ x.core = y.core ∨
      (y.fcnt = 0 ∧ x.slen = 0 ∧ inp[y.inPos]? = some x.flags ∧ x.core = ((y.past 1).loadFlags x.flags).core) := by
  simp only [agrees, core, past, loadFlags, mk.injEq, true_and, and_true]
  grind

/-- The registers that say which token is due. -/
theorem LzCtx.due_of_core {x y : LzCtx} (h : x.core = y.core) :
    x.slen = y.slen ∧ x.fcnt = y.fcnt ∧ x.nextIsLiteral = y.nextIsLiteral ∧ x.inPos = y.inPos :=
  ⟨(congrArg LzCtx.slen h :), (congrArg LzCtx.fcnt h :), (congrArg LzCtx.nextIsLiteral h :), (congrArg LzCtx.inPos h :)⟩

theorem LzCtx.agrees_of_core {inp : List Byte} {x y : LzCtx} (h : x.core = y.core) : x.agrees inp y :=
  LzCtx.agrees_iff.2 (.inl h)

/-- No flag byte is ahead of a reference in progress. -/
theorem LzCtx.agrees.core_of_copying {inp : List Byte} {x y : LzCtx} (h : x.agrees inp y) (hs : x.slen ≠ 0) :
    x.core = y.core :=
  (LzCtx.agrees_iff.1 h).resolve_right fun ⟨_, h0, _⟩ => hs h0

/-- A flag byte that `x` has fetched ahead changes no byte that NextByte gives from `y`. -/
theorem LzCtx.agrees.nextByte {inp : List Byte} {x y : LzCtx} (h : x.agrees inp y) (cfg : Config) :
    ∃ v, x.core = v.core ∧ lzNextByte cfg inp y = lzNextByte cfg inp v := by
  obtain hcore | ⟨hf, hs, hb, hcore⟩ := LzCtx.agrees_iff.1 h
  · exact ⟨y, hcore, rfl⟩
  · have hsy : y.slen = 0 := (congrArg LzCtx.slen hcore).symm.trans hs
    exact ⟨_, hcore, lzNextByte_loaded hsy cfg hf hb⟩

/-- From every context that agrees with `x` the byte-serial decode gives `bs`, and then it agrees with `z`. -/
def LzCtx.Gives (cfg : Config) (inp : List Byte) (x : LzCtx) (bs : List Byte) (z : LzCtx) : Prop :=
  ∀ y, x.agrees inp y → ∃ v, lzBytesFrom cfg inp bs.length y = some (v, bs) ∧ z.agrees inp v

/-- The bytes the table copy reads are those of NextByte (R246, R247). -/
theorem LzCtx.gives_lzRefBytes (cfg : Config) (inp : List Byte) {n : Nat} {x : LzCtx} (hn : n ≤ x.slen) :
    x.Gives cfg inp (lzRefBytes cfg n x) (lzCopy cfg n x).1 := by
  induction n generalizing x with
  | zero => exact fun y h => ⟨y, rfl, h⟩
  | succ n ih =>
    intro y h
    have hcore := h.core_of_copying (by omega)
    obtain ⟨hslen, -, -, -⟩ := LzCtx.due_of_core hcore
    have hs : y.slen ≠ 0 := by omega
    have hbyte : (x.refByte cfg).1 = (y.refByte cfg).1 := (congrArg (fun w => (LzCtx.refByte cfg w).1) hcore :)
    have hnext : (x.refByte cfg).2.core = (y.refByte cfg).2.core :=
      (congrArg (fun w => (LzCtx.refByte cfg w).2) hcore :)
    obtain ⟨v, hrest, hv⟩ := ih (x := (x.refByte cfg).2) (by rw [LzCtx.refByte_slen]; omega) _ (LzCtx.agrees_of_core hnext)
    refine ⟨v, ?_, hv⟩
    rw [lzRefBytes, List.length_cons, lzBytesFrom, lzNextByte_copying cfg inp hs, hbyte]
    dsimp only
    rw [hrest]

section
variable {inp : List Byte} {x : LzCtx} (hs : x.slen = 0) (hf : x.fcnt ≠ 0)
include hs hf

/-- A literal is one byte of the decode (R245). -/
theorem LzCtx.gives_literal (cfg : Config) {b : Byte} (hlit : x.nextIsLiteral = true) (hb : inp[x.inPos]? = some b) :
    x.Gives cfg inp [b] ((x.shiftFlags.past 1).put cfg b) := fun y h => by
  obtain ⟨v, hcore, hnext⟩ := h.nextByte cfg
  obtain ⟨hslen, hfcnt, hkind, hpos⟩ := LzCtx.due_of_core hcore
  rw [hslen] at hs
  rw [hfcnt] at hf
  rw [hkind] at hlit
  rw [hpos] at hb
  refine ⟨(v.shiftFlags.past 1).put cfg b, ?_,
    LzCtx.agrees_of_core (congrArg (fun w => (w.shiftFlags.past 1).put cfg b) hcore :)⟩
  rw [List.length_singleton, lzBytesFrom, hnext, lzNextByte_literal hs cfg hf hlit hb]
  rfl

/-- A reference is as many bytes of the decode as are copied, and the rest is left over (R246). -/
theorem LzCtx.gives_reference {cfg : Config} (hbias : 1 ≤ cfg.lzLenBias) {b1 b2 : Byte} {n : Nat} (h1 : 1 ≤ n)
    (hn : n ≤ refLength cfg (refLenField b2)) (href : x.nextIsLiteral = false) (hb1 : inp[x.inPos]? = some b1)
    (hb2 : inp[x.inPos + 1]? = some b2) :
    x.Gives cfg inp (lzRefBytes cfg n (x.beginRef cfg b1 b2))
      (lzCopy cfg n (x.beginRef cfg b1 b2)).1 := fun y h => by
  obtain ⟨v, hcore, hnext⟩ := h.nextByte cfg
  obtain ⟨hslen, hfcnt, hkind, hpos⟩ := LzCtx.due_of_core hcore
  rw [hslen] at hs
  rw [hfcnt] at hf
  rw [hkind] at href
  rw [hpos] at hb1 hb2
  have hstart : (x.beginRef cfg b1 b2).core = (v.beginRef cfg b1 b2).core :=
    (congrArg (fun w => w.beginRef cfg b1 b2) hcore :)
  rw [lzBytesFrom_congr (by rwa [lzRefBytes_length])
    (hnext.trans (lzNextByte_reference hs hbias hf href hb1 hb2))]
  exact LzCtx.gives_lzRefBytes cfg inp hn _ (LzCtx.agrees_of_core hstart)

end

/-! ## Where a context stands in the decode of its payload (R251) -/

/-- The context stands where the uninterrupted decode of `inp` has given the bytes `D`. -/
def LzCtx.Decoded (cfg : Config) (inp : List Byte) (x : LzCtx) (D : List Byte) : Prop :=
  ∃ y, lzOutput cfg inp x.real = some (y, D) ∧ x.agrees inp y

theorem LzCtx.Decoded.length {cfg : Config} {inp D : List Byte} {x : LzCtx} (h : x.Decoded cfg inp D) :
    D.length = x.real := by
  obtain ⟨y, hout, -⟩ := h
  exact lzBytesFrom_length hout

theorem LzCtx.Decoded.append {cfg : Config} {inp D bs : List Byte} {x z : LzCtx} (h : x.Decoded cfg inp D)
    (hgives : x.Gives cfg inp bs z) (hreal : z.real = x.real + bs.length) : z.Decoded cfg inp (D ++ bs) := by
  obtain ⟨y, hout, hy⟩ := h
  obtain ⟨v, hbs, hv⟩ := hgives y hy
  exact ⟨v, by rw [hreal]; exact lzBytesFrom_append hout hbs, hv⟩

/-- A flag byte moves a context no further in the decode (R244). -/
theorem LzCtx.Decoded.flags {cfg : Config} {inp D : List Byte} {x : LzCtx} {b : Byte} (h : x.Decoded cfg inp D)
    (hs : x.slen = 0) (hf : x.fcnt = 0) (hb : inp[x.inPos]? = some b) :
    ((x.past 1).loadFlags b).Decoded cfg inp D := by
  obtain ⟨y, hout, hy⟩ := h
  refine ⟨y, hout, LzCtx.agrees_iff.2 (.inr ?_)⟩
  obtain hcore | ⟨-, -, -, hcore⟩ := LzCtx.agrees_iff.1 hy
  · obtain ⟨-, hfcnt, -, hpos⟩ := LzCtx.due_of_core hcore
    exact ⟨hfcnt.symm.trans hf, hs, by rwa [← hpos], (congrArg (fun w => (w.past 1).loadFlags b) hcore :)⟩
  · obtain ⟨-, hfcnt, -, -⟩ := LzCtx.due_of_core hcore
    exact absurd (hf.symm.trans hfcnt) (by simp)

/-- A context at the start of the replay has decoded nothing (R248). -/
theorem LzCtx.decoded_of_start (cfg : Config) (inp : List Byte) {x : LzCtx} (h : x.core = LzCtx.fresh) :
    x.Decoded cfg inp [] := by
  have hreal : x.real = 0 := (congrArg LzCtx.real h :)
  exact ⟨LzCtx.fresh, by rw [hreal]; rfl, LzCtx.agrees_of_core h⟩

/-- A context without a fault that has seen no payload, or this one, stands in its decode. -/
theorem LzCtx.replays.decoded {cfg : Config} {inp : List Byte} {x : LzCtx} (h : x.replays cfg) (hsound : x.fault = false)
    (hpay : x.payload = none ∨ x.payload = some inp) : ∃ D, x.Decoded cfg inp D := by
  have h := h hsound
  obtain hpay | hpay := hpay <;> rw [hpay] at h
  · refine ⟨[], LzCtx.decoded_of_start cfg inp ((LzCtx.agrees_iff.1 h).resolve_right ?_)⟩
    rintro ⟨-, -, hb, -⟩
    cases hb
  · obtain ⟨y, D, hout, hy⟩ := h
    exact ⟨D, y, hout, hy⟩

theorem LzCtx.replays_of_decoded {cfg : Config} {inp D : List Byte} {x : LzCtx} (h : x.Decoded cfg inp D)
    (hpay : x.payload = some inp) : x.replays cfg := fun _ => by
  obtain ⟨y, hout, hy⟩ := h
  rw [hpay]
  exact ⟨y, D, hout, hy⟩

theorem LzCtx.replays_of_fault {cfg : Config} {x : LzCtx} (h : x.fault = true) : x.replays cfg := fun hsound => by
  rw [h] at hsound
  cases hsound

/-- A context at the start of the replay stands in the decode of every payload (R248). -/
theorem LzCtx.replays_of_start (cfg : Config) {x : LzCtx} (h : x.core = LzCtx.fresh) : x.replays cfg := by
  cases hpay : x.payload with
  | some inp => exact LzCtx.replays_of_decoded (LzCtx.decoded_of_start cfg inp h) hpay
  | none =>
    intro _
    rw [hpay]
    exact LzCtx.agrees_of_core h

end Sys2Proof.Machine
end

section
/-! PROOF. An `LZ_DECODE` against the byte-serial decoder (44_lzszdd.md R247 to R251): what each step of it gives, that the
contexts stay where the decode of their payload is, what OUT holds at the end, and that it ends. -/

namespace Sys2Proof.Machine

/-! ## What an LZ_DECODE does next -/

/-- From the registers `x` of the `LZ_DECODE` in progress the decode gives `bs` and leaves `z`: no further than the end
position, and with no reference left over before it (R247, R249). -/
structure LzCtx.Runs (s : State) (x : LzCtx) (bs : List Byte) (z : LzCtx) : Prop where
  gives : x.Gives s.cfg s.inp bs z
  real : z.real = x.real + bs.length
  within : z.real ≤ lzEnd s x
  used : z.real < lzEnd s x → z.slen = 0
  want : z.want = x.want
  fault : z.fault = x.fault
  payload : z.payload = x.payload

/-- How an `LZ_DECODE` goes on after the bytes `bs`: delivered are those at or after `want`, and no position passes the last one
(R245, R249, U6). -/
def lzDeliver (s : State) (c : Nat) (x : LzCtx) (bs : List Byte) (z : LzCtx) : Result :=
  if lzPositionLimit ≤ z.real then .refused .lzPositionOverflow
  else lzContinue (s.emit (bs.drop (x.want - x.real))) c z

/-- Within the 32-bit positions an `LZ_DECODE` ends exactly at its end position (R249). -/
theorem lzDeliver_eq {s : State} (c : Nat) {x z : LzCtx} (hwant : z.want = x.want) (hle : z.real ≤ lzEnd s x)
    (hpos : z.real < lzPositionLimit) (bs : List Byte) :
    lzDeliver s c x bs z =
      .next (if z.real = lzEnd s x
        then ((s.emit (bs.drop (x.want - x.real))).setLz c { z with want := z.real }).finish
        else ((s.emit (bs.drop (x.want - x.real))).setLz c z).setRun (.lz c)) := by
  have hend : lzEnd (s.emit (bs.drop (x.want - x.real))) z = lzEnd s x := by rw [lzEnd, hwant]; rfl
  rw [lzDeliver, if_neg (Nat.not_le.2 hpos)]
  obtain ⟨hge, he⟩ | ⟨hlt, he⟩ := lzContinue_cases (s.emit (bs.drop (x.want - x.real))) c z <;> rw [he]
  · rw [if_pos (hle.antisymm (hend ▸ hge))]
  · rw [if_neg (hend ▸ hlt).ne]

/-- How many bytes of the reference in progress the `LZ_DECODE` needs (R249). -/
def lzNeeded (s : State) (x : LzCtx) : Nat := min x.slen (lzEnd s x - x.real)

theorem lzRunReference_eq (s : State) (c : Nat) (x : LzCtx) :
    lzRunReference s c x =
      lzDeliver s c x (lzRefBytes s.cfg (lzNeeded s x) x) (lzCopy s.cfg (lzNeeded s x) x).1 := by
  obtain ⟨hreal, -⟩ := lzCopy_counters s.cfg (lzNeeded s x) x
  rw [lzDeliver, hreal, ← lzCopy_delivered]
  rfl

/-- Copying what is needed of the reference in `y` is a run from `x`, where `y` is `x` with the reference begun: it stops at the
reference's end or at the end position. -/
theorem LzCtx.runs_of_copy {s : State} {x y : LzCtx} (hreal : y.real = x.real) (hwant : y.want = x.want)
    (hfault : y.fault = x.fault) (hpay : y.payload = x.payload) (hle : x.real ≤ lzEnd s x)
    (hgives : x.Gives s.cfg s.inp (lzRefBytes s.cfg (lzNeeded s y) y) (lzCopy s.cfg (lzNeeded s y) y).1) :
    x.Runs s (lzRefBytes s.cfg (lzNeeded s y) y) (lzCopy s.cfg (lzNeeded s y) y).1 := by
  obtain ⟨hreal', hslen, hwant', hfault', -⟩ := lzCopy_counters s.cfg (lzNeeded s y) y
  obtain ⟨-, -, -, -, -, hpay'⟩ := lzCopy_keeps s.cfg (lzNeeded s y) y
  have hend : lzEnd s y = lzEnd s x := by rw [lzEnd, lzEnd, hwant]
  have hn : lzNeeded s y = min y.slen (lzEnd s x - x.real) := by rw [lzNeeded, hend, hreal]
  refine ⟨hgives, by rw [lzRefBytes_length]; omega, by omega, fun hlt => by omega, hwant'.trans hwant, hfault'.trans hfault,
    hpay'.trans hpay⟩

theorem LzCtx.runs_leftOver {s : State} {x : LzCtx} (hle : x.real ≤ lzEnd s x) :
    x.Runs s (lzRefBytes s.cfg (lzNeeded s x) x) (lzCopy s.cfg (lzNeeded s x) x).1 :=
  LzCtx.runs_of_copy rfl rfl rfl rfl hle (LzCtx.gives_lzRefBytes _ _ (Nat.min_le_left ..))

/-- The fetch moves no register that says how the `LZ_DECODE` goes on (R243, R244). -/
theorem lzDeliver_fetched {s : State} {c : Nat} {x y : LzCtx} (hwant : y.want = x.want) (hreal : y.real = x.real)
    (v : LzCtx) (bs : List Byte) (z : LzCtx) : lzDeliver (s.setLz c v) c y bs z = lzDeliver s c x bs z := by
  have hset : ∀ bs w, ((s.setLz c v).emit bs).setLz c w = (s.emit bs).setLz c w := fun bs w =>
    State.setLz_setLz (s.emit bs) c v w
  rw [lzDeliver, lzDeliver, lzContinue, lzContinue, hset, hset, hwant, hreal]
  rfl

/-- What a step of an `LZ_DECODE` on context `c` with the registers `x` does: an error of the fetch, a flag byte, or a token of
at least one byte (R243, R244, R247). -/
inductive LzTurn (s : State) (c : Nat) (x : LzCtx) : Result → Prop where
  | fails (k : ErrKind) (y : LzCtx) : LzTurn s c x (.next ((s.setLz c { y with fault := true }).spoilOut.endWith k))
  | flags (b : Byte) (spent : x.fcnt = 0) (found : s.inp[x.inPos]? = some b) :
      LzTurn s c x (.next (s.setLz c ((x.past 1).loadFlags b)))
  | token (bs : List Byte) (z : LzCtx) (nonempty : 1 ≤ bs.length) (runs : x.Runs s bs z) : LzTurn s c x (lzDeliver s c x bs z)

/-! ### The elements, where the fetch has left its cursor -/

theorem exec_flags_at {s : State} {c : Nat} {x : LzCtx} (here : LzAt s c x) (hf : x.fcnt = 0) (b : Byte) :
    exec (.flags b) s = .next (s.setLz c (x.loadFlags b)) :=
  (withLz_at here.1 here.2 _).trans (if_neg (not_not.2 hf))

/-- A literal is delivered at or after `want` (R245). -/
theorem drop_singleton (b : Byte) (want real : Nat) : [b].drop (want - real) = if want ≤ real then [b] else [] := by
  split
  · next h => rw [Nat.sub_eq_zero_of_le h, List.drop_zero]
  · next h => exact List.drop_eq_nil_of_le (by rw [List.length_singleton]; omega)

theorem exec_lzlit_at {s : State} {c : Nat} {x : LzCtx} (here : LzAt s c x) (hlt : x.real < lzEnd s x) (b : Byte) :
    exec (.lzlit b) s = lzDeliver s c x [b] (x.put s.cfg b) := by
  rw [lzDeliver, drop_singleton]
  exact (withLz_at here.1 here.2 _).trans (whereWanted_of_lt hlt _)

theorem exec_lzref_at {s : State} {c : Nat} {x : LzCtx} (here : LzAt s c x) (hlt : x.real < lzEnd s x) (off : BitVec 12)
    (lenfield : BitVec 4) : exec (.lzref off lenfield) s = lzRunReference s c (x.startRef s.cfg off lenfield) :=
  (withLz_at here.1 here.2 _).trans (whereWanted_of_lt hlt _)

section
variable {s : State} {c : Nat} {x : LzCtx} (here : LzAt s c x)
include here

theorem step_lz_ok {i : Instr} {y : LzCtx} (h : decodeLz s.inp x = .ok i y) : step s = exec i (s.setLz c y) :=
  step_of_instr (by rw [fetch_lz here, h]; rfl)

theorem step_lz_err {k : ErrKind} {y : LzCtx} (h : decodeLz s.inp x = .err k y) :
    step s = .next ((s.setLz c { y with fault := true }).spoilOut.endWith k) := by
  rw [step_of_error (by rw [fetch_lz here, h]; rfl), State.raise_setLz here.1]

/-- A step of an `LZ_DECODE` that still needs bytes. -/
theorem step_lzTurn (hbias : 1 ≤ s.cfg.lzLenBias) (hs : x.slen = 0) (hlt : x.real < lzEnd s x) : LzTurn s c x (step s) := by
  obtain ⟨y, hd⟩ | ⟨b, hf, hb, hd⟩ | ⟨b, hf, hlit, hb, hd⟩ | ⟨b1, b2, hf, href, hb1, hb2, hd⟩ := decodeLz_cases hs s.inp
  · rw [step_lz_err here hd]
    exact .fails _ y
  · rw [step_lz_ok here hd, exec_flags_at (here.setLz (x.past 1)) hf, State.setLz_setLz]
    exact .flags b hf hb
  · have hstep : step s = lzDeliver s c x [b] ((x.shiftFlags.past 1).put s.cfg b) := by
      rw [step_lz_ok here hd, exec_lzlit_at (here.setLz (x.shiftFlags.past 1)) hlt]
      exact lzDeliver_fetched rfl rfl _ _ _
    rw [hstep]
    exact .token [b] _ le_rfl ⟨LzCtx.gives_literal hs hf s.cfg hlit hb, rfl, hlt, fun _ => hs, rfl, rfl, rfl⟩
  · have hstep : step s = lzDeliver s c x
        (lzRefBytes s.cfg (lzNeeded s (x.beginRef s.cfg b1 b2)) (x.beginRef s.cfg b1 b2))
        (lzCopy s.cfg (lzNeeded s (x.beginRef s.cfg b1 b2)) (x.beginRef s.cfg b1 b2)).1 := by
      rw [step_lz_ok here hd, exec_lzref_at (here.setLz (x.shiftFlags.past 2)) hlt, lzRunReference_eq]
      exact lzDeliver_fetched rfl rfl _ _ _
    have hneeded : 1 ≤ lzNeeded s (x.beginRef s.cfg b1 b2) :=
      Nat.le_min.2 ⟨hbias.trans (Nat.le_add_left ..), Nat.sub_pos_of_lt hlt⟩
    rw [hstep]
    exact .token _ _ (by rwa [lzRefBytes_length]) (LzCtx.runs_of_copy rfl rfl rfl rfl hlt.le
      (LzCtx.gives_reference hs hf hbias hneeded (Nat.min_le_left ..) href hb1 hb2))

end

/-! ## The invariant of an LZ_DECODE in progress -/

/-- The registers of the `LZ_DECODE` in progress stand where the decode of IN has given `D`, and OUT holds `D` from `want` on
(R249, R251). -/
structure LzCtx.InCall (s : State) (x : LzCtx) (D : List Byte) : Prop where
  sound : x.fault = false
  payload : x.payload = some s.inp
  decoded : x.Decoded s.cfg s.inp D
  delivered : s.out = D.drop x.want

theorem LzInv.at_call {s : State} {c : Nat} {x : LzCtx} (h : LzInv s) (here : LzAt s c x) :
    x.slen = 0 ∧ x.real < lzEnd s x ∧ ∃ D, x.InCall s D := by
  obtain ⟨-, hreplays, hrun⟩ := h
  obtain ⟨hsound, hpay, hs, hlt, hout⟩ := hrun c x here.1 here.2
  obtain ⟨D, hdec⟩ := (hreplays x (List.mem_of_getElem? here.2)).decoded hsound (.inr hpay)
  obtain ⟨y, hD, -⟩ := id hdec
  exact ⟨hs, hlt, D, hsound, hpay, hdec, hout y D hD⟩

/-- The bytes of a run are delivered from `want` on (R249). -/
theorem LzCtx.InCall.run {s : State} {x z : LzCtx} {D bs : List Byte} (h : x.InCall s D) (hruns : x.Runs s bs z) :
    z.InCall (s.emit (bs.drop (x.want - x.real))) (D ++ bs) where
  sound := hruns.fault.trans h.sound
  payload := hruns.payload.trans h.payload
  decoded := h.decoded.append hruns.gives hruns.real
  delivered := by
    rw [State.emit_out, h.delivered, hruns.want, List.drop_append, h.decoded.length]

/-- The contexts stay good where one of them is written with one that stands in its decode. -/
theorem LzInv.of_written {s t : State} {c : Nat} {z : LzCtx} (hbias : 1 ≤ s.cfg.lzLenBias)
    (hreplays : ∀ x ∈ s.lz, x.replays s.cfg) (hz : z.replays s.cfg) (hcfg : t.cfg = s.cfg) (hlz : t.lz = s.lz.set c z)
    (hrun : ∀ d x, LzAt t d x → x.slen = 0 ∧ x.real < lzEnd t x ∧ ∃ D, x.InCall t D) : LzInv t := by
  refine ⟨by rwa [hcfg], by rw [hcfg, hlz]; exact forall_mem_set hreplays c hz, fun d x hr hx => ?_⟩
  obtain ⟨hs, hlt, D, hcall⟩ := hrun d x ⟨hr, hx⟩
  refine ⟨hcall.sound, hcall.payload, hs, hlt, fun y E hE => ?_⟩
  obtain ⟨v, hD, -⟩ := hcall.decoded
  cases hD.symm.trans hE
  exact hcall.delivered

/-- The registers at the place that was written. -/
theorem getElem?_set_eq_some {α : Type} {l : List α} {c : Nat} {x y : α} (h : (l.set c x)[c]? = some y) : y = x := by
  obtain ⟨hc, he⟩ := List.getElem?_eq_some_iff.1 h
  rw [List.getElem_set_self] at he
  exact he.symm

/-- An `LZ_DECODE` that goes on keeps the contexts where their decodes are. -/
theorem LzInv.of_goesOn {s : State} {c : Nat} {z : LzCtx} {D : List Byte} (hbias : 1 ≤ s.cfg.lzLenBias)
    (hreplays : ∀ x ∈ s.lz, x.replays s.cfg) (hcall : z.InCall s D) (hs : z.slen = 0) (hlt : z.real < lzEnd s z) :
    LzInv ((s.setLz c z).setRun (.lz c)) := by
  refine LzInv.of_written hbias hreplays (LzCtx.replays_of_decoded hcall.decoded hcall.payload) rfl rfl fun d x hx => ?_
  obtain ⟨hr, hx⟩ := hx
  obtain rfl : c = d := Run.lz.inj hr
  obtain rfl : x = z := getElem?_set_eq_some hx
  exact ⟨hs, hlt, D, hcall.sound, hcall.payload, hcall.decoded, hcall.delivered⟩

/-- No `LZ_DECODE` is in progress after a command has ended. -/
theorem LzInv.of_ended {s t : State} {c : Nat} {z : LzCtx} (hbias : 1 ≤ s.cfg.lzLenBias)
    (hreplays : ∀ x ∈ s.lz, x.replays s.cfg) (hz : z.replays s.cfg) (hcfg : t.cfg = s.cfg) (hlz : t.lz = s.lz.set c z)
    (hidle : t.run = .idle) : LzInv t :=
  LzInv.of_written hbias hreplays hz hcfg hlz fun _ _ here => nomatch hidle.symm.trans here.1

/-- How an `LZ_DECODE` ends or goes on after a run of the decode (R249). -/
theorem LzCtx.Runs.deliver_cases {s : State} {x z : LzCtx} {bs : List Byte} (h : x.Runs s bs z) (c : Nat) :
    (lzPositionLimit ≤ z.real ∧ lzDeliver s c x bs z = .refused .lzPositionOverflow) ∨
    (z.real = lzEnd s x ∧ lzDeliver s c x bs z =
      .next ((s.emit (bs.drop (x.want - x.real))).setLz c { z with want := z.real }).finish) ∨
    (z.real < lzEnd s x ∧ lzDeliver s c x bs z =
      .next (((s.emit (bs.drop (x.want - x.real))).setLz c z).setRun (.lz c))) := by
  by_cases hpos : lzPositionLimit ≤ z.real
  · exact .inl ⟨hpos, if_pos hpos⟩
  rw [lzDeliver_eq c h.want h.within (Nat.not_le.1 hpos) bs]
  obtain hend | hlt := h.within.eq_or_lt
  · exact .inr (.inl ⟨hend, by rw [if_pos hend]⟩)
  · exact .inr (.inr ⟨hlt, by rw [if_neg hlt.ne]⟩)

/-- After a run of the decode the contexts stand where their decodes are. -/
theorem LzCtx.InCall.deliver_inv {s t : State} {c : Nat} {x z : LzCtx} {D bs : List Byte} (hcall : x.InCall s D)
    (hruns : x.Runs s bs z) (hbias : 1 ≤ s.cfg.lzLenBias) (hreplays : ∀ x ∈ s.lz, x.replays s.cfg)
    (h : lzDeliver s c x bs z = .next t) : LzInv t := by
  have hafter := hcall.run hruns
  obtain ⟨-, he⟩ | ⟨-, he⟩ | ⟨hlt, he⟩ := hruns.deliver_cases c <;> rw [he] at h <;> cases h
  · exact LzInv.of_ended hbias hreplays
      (LzCtx.replays_of_decoded (x := { z with want := z.real }) hafter.decoded hafter.payload) rfl rfl rfl
  · exact LzInv.of_goesOn (s := s.emit _) hbias hreplays hafter (hruns.used hlt)
      (by rw [lzEnd, hruns.want]; exact hlt)

/-- Where a run of the decode ends the `LZ_DECODE`, OUT holds the bytes it was asked for (R251). -/
theorem LzCtx.InCall.deliver_output {s t : State} {c : Nat} {x z : LzCtx} {D bs : List Byte} (hcall : x.InCall s D)
    (hruns : x.Runs s bs z) (h : lzDeliver s c x bs z = .next t) (hidle : t.run = .idle) :
    ∃ y D, lzOutput s.cfg s.inp (x.want + s.outLen) = some (y, D) ∧ t.out = D.drop x.want ∧ t.out.length = s.outLen := by
  have hafter := hcall.run hruns
  obtain ⟨-, he⟩ | ⟨hend, he⟩ | ⟨-, he⟩ := hruns.deliver_cases c <;> rw [he] at h <;> cases h
  · obtain ⟨y, hout, -⟩ := id hafter.decoded
    have hlength := hafter.decoded.length
    have hdrop := hruns.want ▸ hafter.delivered
    rw [hend, lzEnd] at hout hlength
    refine ⟨y, D ++ bs, hout, hdrop, ?_⟩
    rw [State.finish_out, State.setLz_out, hdrop, List.length_drop, hlength, Nat.add_sub_cancel_left]
  · cases hidle

/-! ## The entry of an LZ_DECODE -/

/-- The registers an LZ_DECODE of `inp` begins with: a backward seek starts the replay over (R248, R249). -/
def LzCtx.entered (inp : List Byte) (x : LzCtx) : LzCtx :=
  { (if x.want < x.real then x.replayReset else x) with payload := some inp }

/-- An LZ_DECODE begins at or before its target (R249). -/
theorem LzCtx.entered_position (x : LzCtx) (inp : List Byte) :
    (x.entered inp).real ≤ x.want ∧ (x.entered inp).want = x.want := by
  unfold LzCtx.entered
  split
  · exact ⟨Nat.zero_le _, rfl⟩
  · next hback => exact ⟨Nat.not_lt.1 hback, rfl⟩

section
variable {s : State} {c n : Nat} {x : LzCtx} {inp : List Byte} (hr : s.run = .idle) (hx : s.lz[c]? = some x)
include hr hx

theorem exec_lzDecode_faulted (hfault : x.fault = true) :
    exec (.lzDecode c inp n) s = .next ((s.openCall inp n).reject .corruptData) := by
  refine (whenIdle_at hr _).trans ?_
  rw [hx]
  exact if_pos hfault

theorem exec_lzDecode_sound (hsound : x.fault = false) :
    exec (.lzDecode c inp n) s =
      if x.accepts inp then lzRunReference (s.openCall inp n) c (x.entered inp) else .refused .lzPayloadChanged := by
  refine (whenIdle_at hr _).trans ?_
  rw [hx]
  dsimp only
  rw [if_neg (by simp [hsound])]
  cases x.accepts inp <;> rfl

end

/-- The entry of an LZ_DECODE of the context's payload stands in the decode, and has delivered nothing (R249, R251). -/
theorem LzCtx.replays.entered {s : State} {x : LzCtx} {inp : List Byte} (h : x.replays s.cfg) (hsound : x.fault = false)
    (haccepts : x.accepts inp = true) (n : Nat) : ∃ D, (x.entered inp).InCall (s.openCall inp n) D := by
  have hentered : (x.entered inp).fault = false ∧ ∃ D, (x.entered inp).Decoded s.cfg inp D := by
    unfold LzCtx.entered
    split
    · exact ⟨hsound, [], LzCtx.decoded_of_start s.cfg inp rfl⟩
    · exact ⟨hsound, h.decoded hsound ((LzCtx.accepts_iff x inp).1 haccepts)⟩
  obtain ⟨hfault, D, hdec⟩ := hentered
  obtain ⟨hreal, hwant⟩ := x.entered_position inp
  exact ⟨D, hfault, rfl, hdec, (List.drop_eq_nil_of_le (by rw [hdec.length, hwant]; exact hreal)).symm⟩

/-- An LZ_DECODE that starts is rejected, or begins with a run of the decode from its entry (R249, R291). -/
theorem exec_lzDecode_next {s t : State} {c n : Nat} {x : LzCtx} {inp : List Byte} (hr : s.run = .idle)
    (hx : s.lz[c]? = some x) (hreplays : x.replays s.cfg) (h : exec (.lzDecode c inp n) s = .next t) :
    t = (s.openCall inp n).reject .corruptData ∨
    ∃ y bs z D, y.want = x.want ∧ y.InCall (s.openCall inp n) D ∧ y.Runs (s.openCall inp n) bs z ∧
      lzDeliver (s.openCall inp n) c y bs z = .next t := by
  cases hfault : x.fault with
  | true =>
    rw [exec_lzDecode_faulted hr hx hfault] at h
    cases h
    exact .inl rfl
  | false =>
    rw [exec_lzDecode_sound hr hx hfault] at h
    split at h
    · next haccepts =>
      obtain ⟨D, hcall⟩ := hreplays.entered hfault haccepts n
      obtain ⟨hreal, hwant⟩ := x.entered_position inp
      have hle : (x.entered inp).real ≤ lzEnd (s.openCall inp n) (x.entered inp) := by
        rw [lzEnd, hwant]
        exact hreal.trans (Nat.le_add_right ..)
      rw [lzRunReference_eq] at h
      exact .inr ⟨_, _, _, D, hwant, hcall, LzCtx.runs_leftOver hle, h⟩
    · cases h

/-! ## Every step -/

theorem MzEffect.leaves_lz {s t : State} {c : Nat} {p : MzPhase} {x : MzCtx} (h : MzEffect s c p x t) :
    t.lz = s.lz ∧ ∀ d, t.run ≠ .lz d := by
  cases h <;> exact ⟨rfl, nofun⟩

theorem QtEffect.leaves_lz {s t : State} {c : Nat} {p : QtPhase} {x : QtCtx} (h : QtEffect s c p x t) :
    t.lz = s.lz ∧ ∀ d, t.run ≠ .lz d := by
  cases h <;> exact ⟨rfl, nofun⟩

/-- The next step of an idle machine executes the first command in its queue. -/
theorem step_command {s : State} {cmd : HostCmd} {rest : List HostCmd} (hr : s.run = .idle)
    (hp : s.pending = cmd :: rest) : step s = exec (decodeCmd cmd) { s with pending := rest } := by
  obtain ⟨-, hstep, -⟩ := stepRunsTheFetchedElement
  exact hstep s cmd rest hr hp

/-- A command leaves every LZ context where its decode is. -/
theorem LzInv.command {s t : State} {cmd : HostCmd} {rest : List HostCmd} (h : LzInv s) (hr : s.run = .idle)
    (hp : s.pending = cmd :: rest) (hstep : step s = .next t) (effect : CmdEffect { s with pending := rest } cmd t) :
    LzInv t := by
  obtain ⟨hbias, hreplays, -⟩ := id h
  cases effect with
  | lzReset c x found =>
    exact LzInv.of_ended hbias hreplays (LzCtx.replays_of_start s.cfg rfl) rfl rfl rfl
  | lzSeek c pos x found =>
    exact LzInv.of_ended (s := s) (z := { x with want := pos.toNat }) hbias hreplays
      (hreplays x (List.mem_of_getElem? found)) rfl rfl rfl
  | lzResumed c inp n x _ found sound runs =>
    rw [step_command hr hp] at hstep
    obtain rfl | ⟨y, bs, z, D, -, hcall, hruns, hdeliver⟩ :=
      exec_lzDecode_next (s := { s with pending := rest }) hr found (hreplays x (List.mem_of_getElem? found)) hstep
    · exact h.of_kept rfl rfl nofun
    · exact hcall.deliver_inv hruns hbias hreplays hdeliver
  | _ => exact h.of_kept rfl rfl nofun

/-- A step of an `LZ_DECODE` leaves every LZ context where its decode is. -/
theorem LzInv.lz_step {s t : State} {c : Nat} {x : LzCtx} (h : LzInv s) (here : LzAt s c x) (hstep : step s = .next t) :
    LzInv t := by
  obtain ⟨hbias, hreplays, -⟩ := id h
  obtain ⟨hs, hlt, D, hcall⟩ := h.at_call here
  have hturn := step_lzTurn here hbias hs hlt
  rw [hstep] at hturn
  generalize hres : Host.Outcome.next t = r at hturn
  cases hturn with
  | fails k y =>
    cases hres
    exact LzInv.of_ended hbias hreplays (LzCtx.replays_of_fault rfl) rfl rfl rfl
  | flags b spent found =>
    cases hres
    rw [← State.setRun_self (s := s.setLz c _) here.1]
    exact LzInv.of_goesOn hbias hreplays ⟨hcall.sound, hcall.payload, hcall.decoded.flags hs spent found, hcall.delivered⟩
      hs hlt
  | token bs z nonempty runs => exact hcall.deliver_inv runs hbias hreplays hres.symm

/-- Settles O54: by the command in progress; the LZ elements and LZ_DECODE are runs of the decode. -/
theorem stepKeepsTheReplayInvariant : Obligations.StepKeepsTheReplayInvariant := by
  intro s t h hstep
  obtain ⟨hbias, hreplays, -⟩ := id h
  cases step_effect hstep with
  | idle => exact h
  | command cmd rest _ hr hp effect => exact h.command hr hp hstep effect
  | mz c p x _ here runs => exact h.of_kept runs.within.cfg runs.leaves_lz.1 runs.leaves_lz.2
  | qt c p x y i _ here fetched runs => exact h.of_kept runs.within.cfg runs.leaves_lz.1 runs.leaves_lz.2
  | qtFails => exact h.of_kept rfl rfl nofun
  | lz c x _ here runs => exact h.lz_step here hstep
  | lzFails k c x y here moves => exact h.lz_step here hstep
  | lzHdr c last len here next =>
    exact ⟨hbias, forall_mem_putContext hreplays c (LzCtx.replays_of_start s.cfg rfl), nofun⟩
  | lzHdrFails => exact h.of_kept rfl rfl nofun

/-- Settles O56: both for a step of the `LZ_DECODE` and for one that ends at its entry, the last bytes are a run of the
decode that stops at the end position. -/
theorem lzDecodeDeliversTheReplayedBytes : Obligations.LzDecodeDeliversTheReplayedBytes := by
  refine ⟨fun s t c x h here hstep hidle hok => ?_, fun s t c x inp n h hstarts hx hstep hidle hok => ?_⟩
  · obtain ⟨hs, hlt, D, hcall⟩ := h.at_call here
    obtain ⟨hbias, -⟩ := h
    have hturn := step_lzTurn here hbias hs hlt
    rw [hstep] at hturn
    generalize hres : Host.Outcome.next t = r at hturn
    cases hturn with
    | fails k y =>
      cases hres
      exact absurd hok k.code_ne_zero
    | flags b spent found =>
      cases hres
      exact nomatch here.1.symm.trans hidle
    | token bs z nonempty runs => exact hcall.deliver_output runs hres.symm hidle
  · obtain ⟨hr, hhead⟩ := hstarts
    obtain ⟨rest, hp⟩ := List.head?_eq_some_iff.1 hhead
    rw [step_command hr hp] at hstep
    obtain ⟨-, hreplays, -⟩ := h
    obtain rfl | ⟨y, bs, z, D, hwant, hcall, hruns, hdeliver⟩ :=
      exec_lzDecode_next (s := { s with pending := rest }) hr hx (hreplays x (List.mem_of_getElem? hx)) hstep
    · exact absurd hok (ErrKind.code_ne_zero .corruptData)
    · rw [← hwant]
      exact hcall.deliver_output hruns hdeliver hidle

/-! ## The steps left -/

/-- How many steps an `LZ_DECODE` takes at most: two per byte it has to decode, and one less when a flag byte covers the next
token (R244, R249). -/
def LzCtx.stepsLeft (s : State) (x : LzCtx) : Nat := 2 * (lzEnd s x - x.real) - if x.fcnt = 0 then 0 else 1

/-- An `LZ_DECODE` on context `c` that stays within the 32-bit positions, where the contexts stand in their decodes, and that has
`n` steps left. -/
def LzLeft (c : Nat) (s : State) (n : Nat) : Prop :=
  LzInv s ∧ ∃ x, LzAt s c x ∧ lzEnd s x < lzPositionLimit ∧ x.stepsLeft s = n

/-- The steps left fall with each step until the command is over, and a command in progress has one left. -/
theorem LzLeft.falls {c n : Nat} {s : State} (h : LzLeft c s n) :
    0 < n ∧ ∃ t, step s = .next t ∧ (t.run = .idle ∨ ∃ m < n, LzLeft c t m) := by
  obtain ⟨hinv, x, here, hlimit, rfl⟩ := h
  obtain ⟨hs, hlt, -⟩ := hinv.at_call here
  obtain ⟨hbias, -⟩ := id hinv
  have hkept : ∀ t, step s = .next t → LzInv t := fun t => stepKeepsTheReplayInvariant s t hinv
  refine ⟨by unfold LzCtx.stepsLeft; split <;> omega, ?_⟩
  have hturn := step_lzTurn here hbias hs hlt
  generalize step s = r at hturn hkept
  cases hturn with
  | fails k y => exact ⟨_, rfl, .inl rfl⟩
  | flags b spent found =>
    refine ⟨_, rfl, .inr ⟨_, ?_, hkept _ rfl, _, here.setLz _, hlimit, rfl⟩⟩
    show 2 * (lzEnd s x - x.real) - 1 < x.stepsLeft s
    rw [LzCtx.stepsLeft, if_pos spent]
    omega
  | token bs z nonempty runs =>
    obtain ⟨hpos, -⟩ | ⟨-, he⟩ | ⟨hgoes, he⟩ := runs.deliver_cases c
    · have := runs.within
      omega
    · exact ⟨_, he, .inl rfl⟩
    · have hend : lzEnd (((s.emit (bs.drop (x.want - x.real))).setLz c z).setRun (.lz c)) z = lzEnd s x := by
        rw [lzEnd, runs.want]; rfl
      refine ⟨_, he, .inr ⟨_, ?_, hkept _ he, z, ⟨rfl, (here.setLz z).2⟩, hend.trans_lt hlimit, rfl⟩⟩
      have := runs.real
      unfold LzCtx.stepsLeft
      rw [hend]
      split <;> split <;> omega

/-- Settles O59: a flag byte and a token of at least one byte take two steps. -/
theorem lzDecodeEnds : Obligations.LzDecodeEnds := by
  intro s c x h here hlimit
  obtain ⟨-, -, -, -, hinv⟩ := h
  exact endsWithin_mono (endsWithin_of_falling (fun _ _ => LzLeft.falls) ⟨hinv, x, here, hlimit, rfl⟩) (Nat.sub_le ..)

end Sys2Proof.Machine
end

section
/-! PROOF. The LZ elements one by one, the bytes that are missing, and the three commands on an LZ context (44_lzszdd.md R243 to
R250, 45_host_commands.md R267). -/

namespace Sys2Proof.Machine

/-! ## A byte that is missing (R243, R290) -/

section
variable {s : State} {c : Nat} {x : LzCtx} (here : LzAt s c x) (hs : x.slen = 0)
include here hs

theorem step_lz_noFlags (hf : x.fcnt = 0) (hend : s.inp.length ≤ x.inPos) :
    step s = .next ((s.setLz c { x with fault := true }).spoilOut.endWith .truncatedInput) :=
  step_lz_err here (by rw [decodeLz_spent hs hf, lzGetByte_none (List.getElem?_eq_none hend)]; rfl)

theorem step_lz_noToken (hf : x.fcnt ≠ 0) (hend : s.inp.length ≤ x.inPos) :
    step s = .next ((s.setLz c { x.shiftFlags with fault := true }).spoilOut.endWith .truncatedInput) := by
  have hnone : lzGetByte s.inp x.shiftFlags = .err .truncatedInput x.shiftFlags :=
    lzGetByte_none (List.getElem?_eq_none hend)
  refine step_lz_err here ?_
  cases hlit : x.nextIsLiteral with
  | true => rw [decodeLz_covered_literal hs hf hlit, hnone]; rfl
  | false => rw [decodeLz_covered_reference hs hf hlit, hnone]; rfl

theorem step_lz_halfReference (hf : x.fcnt ≠ 0) (href : x.nextIsLiteral = false) (hlast : s.inp.length = x.inPos + 1) :
    step s = .next ((s.setLz c { x.shiftFlags.past 1 with fault := true }).spoilOut.endWith .truncatedInput) := by
  have hfirst : ∃ b, s.inp[x.inPos]? = some b := ⟨_, List.getElem?_eq_getElem (by omega)⟩
  obtain ⟨b, hb⟩ := hfirst
  have hnone : lzGetByte s.inp (x.shiftFlags.past 1) = .err .truncatedInput (x.shiftFlags.past 1) :=
    lzGetByte_none (List.getElem?_eq_none hlast.le)
  refine step_lz_err here ?_
  rw [decodeLz_covered_reference hs hf href, lzGetByte_at (x := x.shiftFlags) hb]
  show (lzGetByte s.inp (x.shiftFlags.past 1)).bind _ = _
  rw [hnone]
  rfl

end

/-! ## A reference as far as it is needed (R246, R249) -/

/-- Within the 32-bit positions a reference is copied to its end or to the end position. -/
theorem lzRunReference_at {s : State} (c : Nat) {x : LzCtx} (hle : x.real ≤ lzEnd s x) (hpos : lzEnd s x < lzPositionLimit) :
    lzRunReference s c x =
      .next (if x.real + lzNeeded s x = lzEnd s x
        then ((s.emit (lzCopy s.cfg (lzNeeded s x) x).2).setLz c
          { (lzCopy s.cfg (lzNeeded s x) x).1 with want := x.real + lzNeeded s x }).finish
        else ((s.emit (lzCopy s.cfg (lzNeeded s x) x).2).setLz c (lzCopy s.cfg (lzNeeded s x) x).1).setRun (.lz c)) := by
  have hruns := LzCtx.runs_leftOver hle
  have hreal := hruns.real
  rw [lzRefBytes_length] at hreal
  rw [lzRunReference_eq, lzDeliver_eq c hruns.want hruns.within (hruns.within.trans_lt hpos), ← lzCopy_delivered, ← hreal]

/-- Settles O34: a flag byte, a literal, a reference, and each byte that may be missing. -/
theorem lzTokensAreExecuted : Obligations.LzTokensAreExecuted := by
  refine ⟨fun s c x b here hf => exec_flags_at here hf b, fun s c x b here hlt hpos => ?_,
    fun s c x off lenfield here hlt hpos => ?_, fun s c x here hs hf hend => step_lz_noFlags here hs hf hend,
    fun s c x here hs hf hend => step_lz_noToken here hs hf hend,
    fun s c x here hs hf href hlast => step_lz_halfReference here hs hf href hlast⟩
  · rw [exec_lzlit_at here hlt, lzDeliver_eq c (x.put_want s.cfg b) hlt hpos, drop_singleton]
    rfl
  · rw [exec_lzref_at here hlt, lzRunReference_at c (x := x.startRef s.cfg off lenfield) hlt.le hpos]
    rfl

/-! ## Commands -/

/-- Settles O40: the replay reset, register by register. -/
theorem lzResetReplays : Obligations.LzResetReplays := by
  intro s c x hr hx
  refine ⟨{ x.replayReset with want := 0, fault := false }, (whenIdle_at hr _).trans ?_, fun a => rfl, rfl, rfl, rfl, rfl, rfl,
    rfl, rfl, rfl, rfl, rfl, rfl, rfl⟩
  rw [hx]

/-- Settles O41: the one register that is written. -/
theorem lzSeekRecordsTheTarget : Obligations.LzSeekRecordsTheTarget := by
  intro s c x pos hr hx
  refine (whenIdle_at hr _).trans ?_
  rw [hx]

/-- Settles O42: the entry check, then what is left of a reference, from the registers the command begins with. -/
theorem lzDecodeChecksThenReads : Obligations.LzDecodeChecksThenReads := by
  intro s c x inp n hr hx
  refine ⟨fun hfault => exec_lzDecode_faulted hr hx hfault, fun hsound hpay hpos => ?_⟩
  obtain ⟨hreal, hwant⟩ := x.entered_position inp
  have hend : lzEnd (s.openCall inp n) (x.entered inp) = x.want + n := by rw [lzEnd, hwant]; rfl
  have hrun := lzRunReference_at (s := s.openCall inp n) c (x := x.entered inp)
    (by rw [hend]; exact hreal.trans (Nat.le_add_right ..)) (by rw [hend]; exact hpos)
  rw [exec_lzDecode_sound hr hx hsound, if_pos ((LzCtx.accepts_iff x inp).2 hpay), hrun, lzNeeded, hend]
  rfl

end Sys2Proof.Machine
end

section
/-! PROOF. Every `MZ_DECODE` ends (42_mszip.md R171 to R190, 70_reset_and_hazards.md R331). IN is finite, and BRL delivers zeros
past its end: the two headers of a block take bits as long as the zeros have not begun, and from zeros they are those of a
stored block whose two lengths are no complements. Between headers each step produces a byte or comes nearer to the end of
its block. -/

namespace Sys2Proof.Machine

/-! ## Zeros to come (R131, R132) -/

/-- Nothing is set above the held bits (R22), and from bit `n` on BRL delivers only zeros. -/
def Brl.ZerosFrom (inp : List Byte) (n : Nat) (r : Brl) : Prop :=
  r.acc < 2 ^ r.nbits ∧ ∀ i, n ≤ i → r.streamBit inp i = false

theorem Brl.ZerosFrom.mono {inp : List Byte} {n m : Nat} {r : Brl} (h : r.ZerosFrom inp n) (hnm : n ≤ m) :
    r.ZerosFrom inp m := ⟨h.1, fun i hi => h.2 i (hnm.trans hi)⟩

/-- IN ends, so from some bit on a reader at the start of a call finds zeros. -/
theorem Brl.start_zerosFrom (inp : List Byte) (off : Nat) : (Brl.start off).ZerosFrom inp (8 * inp.length) := by
  refine ⟨Nat.one_pos, fun i hi => ?_⟩
  have hpast : inp.length ≤ off + i / 8 := by omega
  simp [Brl.streamBit, Brl.start, lsbBit, List.getElem?_eq_none hpast]

/-- A byte that is zero wherever the stream is brings in no bit, whatever the width of the accumulator. -/
theorem Brl.ZerosFrom.push {cfg : Config} {inp : List Byte} {n off : Nat} {r : Brl} {b : Byte} (h : r.ZerosFrom inp n)
    (hb : ∀ k, k < 8 → b.getLsbD k = lsbBit inp r.inOff k) (hoff : ∀ k, lsbBit inp off k = lsbBit inp r.inOff (k + 8)) :
    (({ r with inOff := off }).push cfg b).ZerosFrom inp n := by
  obtain ⟨hacc, hzeros⟩ := h
  constructor
  · rw [push_acc, push_nbits]
    have hheld : r.acc < 2 ^ (r.nbits + 8) := hacc.trans_le (Nat.pow_le_pow_right (by decide) (Nat.le_add_right _ 8))
    refine (Nat.mod_le _ _).trans_lt (Nat.or_lt_two_pow hheld ?_)
    rw [Nat.shiftLeft_eq, Nat.add_comm, Nat.pow_add]
    exact Nat.mul_lt_mul_of_pos_right b.isLt (Nat.two_pow_pos _)
  · intro i hi
    have hbit := hzeros i hi
    simp only [streamBit, push_nbits, push_acc, push_inOff, Nat.testBit_mod_two_pow, Nat.testBit_lor,
      Nat.testBit_shiftLeft] at hbit ⊢
    by_cases hheld : i < r.nbits
    · rw [if_pos hheld] at hbit
      simp [hbit, show i < r.nbits + 8 by omega, show ¬r.nbits ≤ i by omega]
    · rw [if_neg hheld] at hbit
      by_cases hnew : i < r.nbits + 8
      · have hbyte : b.toNat.testBit (i - r.nbits) = false := (hb _ (by omega)).trans hbit
        have habove : r.acc.testBit i = false :=
          Nat.testBit_lt_two_pow (hacc.trans_le (Nat.pow_le_pow_right (by decide) (by omega)))
        simp [hnew, hbyte, habove]
      · rw [if_neg hnew, hoff, show i - (r.nbits + 8) + 8 = i - r.nbits by omega, hbit]

/-- One fetch (R131). -/
theorem Brl.ZerosFrom.fetchByte {inp : List Byte} {n : Nat} {r : Brl} (h : r.ZerosFrom inp n) (cfg : Config) :
    (r.fetchByte cfg inp).ZerosFrom inp n := by
  unfold Brl.fetchByte
  cases hb : inp[r.inOff]? with
  | some b => exact h.push (fun k hk => (lsbBit_first hb hk).symm) fun k => (lsbBit_add_eight inp r.inOff k).symm
  | none =>
    have hpast := lsbBit_past (List.getElem?_eq_none_iff.1 hb)
    exact h.push (r := r) (off := r.inOff) (fun k _ => by rw [hpast]; simp) fun k => by rw [hpast, hpast]

/-- `need(n)` (R131) fetches enough bits, and changes no bit of the stream to a one. -/
theorem Brl.ZerosFrom.needLoop {inp : List Byte} {n : Nat} {r : Brl} (h : r.ZerosFrom inp n) (cfg : Config) (k fuel : Nat) :
    (Brl.needLoop cfg inp k fuel r).ZerosFrom inp n ∧
      (k ≤ r.nbits + 8 * fuel → k ≤ (Brl.needLoop cfg inp k fuel r).nbits) := by
  induction fuel generalizing r with
  | zero => exact ⟨h, id⟩
  | succ fuel ih =>
    rw [Brl.needLoop]
    split
    · obtain ⟨hzeros, henough⟩ := ih (h.fetchByte cfg)
      have hbits : (r.fetchByte cfg inp).nbits = r.nbits + 8 := by unfold Brl.fetchByte; split <;> rfl
      exact ⟨hzeros, fun _ => henough (by omega)⟩
    · exact ⟨h, fun _ => by omega⟩

theorem Brl.ZerosFrom.need {inp : List Byte} {n : Nat} {r : Brl} (h : r.ZerosFrom inp n) (cfg : Config) (k : Nat) :
    (r.need cfg inp k).ZerosFrom inp n ∧ k ≤ (r.need cfg inp k).nbits := by
  obtain ⟨hzeros, henough⟩ := h.needLoop cfg k k
  exact ⟨hzeros, henough (by omega)⟩

/-- Held bits that are dropped come off the distance to the zeros (R132). -/
theorem Brl.ZerosFrom.drop {inp : List Byte} {n : Nat} {r : Brl} (h : r.ZerosFrom inp n) (k : Nat) :
    (r.drop k).ZerosFrom inp (n - min k r.nbits) := by
  obtain ⟨hacc, hzeros⟩ := h
  constructor
  · show r.acc >>> k < 2 ^ (r.nbits - k)
    rw [Nat.shiftRight_eq_div_pow, Nat.div_lt_iff_lt_mul (Nat.two_pow_pos k), ← Nat.pow_add]
    exact hacc.trans_le (Nat.pow_le_pow_right (by decide) (by omega))
  · intro i hi
    have hbit := hzeros (min k r.nbits + i) (by omega)
    simp only [streamBit, Brl.drop, Nat.testBit_shiftRight] at hbit ⊢
    split
    · rwa [if_pos (by omega), Nat.min_eq_left (by omega)] at hbit
    · rwa [if_neg (by omega), show min k r.nbits + i - r.nbits = i - (r.nbits - k) by omega] at hbit

theorem Brl.ZerosFrom.readBits {inp : List Byte} {n : Nat} {r : Brl} (h : r.ZerosFrom inp n) (cfg : Config) (k : Nat) :
    (r.readBits cfg inp k).2.ZerosFrom inp (n - k) := by
  obtain ⟨hzeros, henough⟩ := h.need cfg k
  have := hzeros.drop k
  rwa [Nat.min_eq_left henough] at this

/-- A reader that only finds zeros reads zero (R132). -/
theorem Brl.ZerosFrom.readBits_zero {inp : List Byte} {r : Brl} (h : r.ZerosFrom inp 0) (cfg : Config) (k : Nat) :
    (r.readBits cfg inp k).1 = 0 := by
  obtain ⟨⟨hacc, hzeros⟩, -⟩ := h.need cfg k
  have hnone : (r.need cfg inp k).acc = 0 := Nat.eq_of_testBit_eq fun i => by
    rw [Nat.zero_testBit]
    by_cases hi : i < (r.need cfg inp k).nbits
    · simpa [streamBit, hi] using hzeros i (Nat.zero_le i)
    · exact Nat.testBit_lt_two_pow (hacc.trans_le (Nat.pow_le_pow_right (by decide) (by omega)))
  show (r.need cfg inp k).acc % 2 ^ k = 0
  rw [hnone, Nat.zero_mod]

theorem Brl.ZerosFrom.readMany {inp : List Byte} {n : Nat} {r : Brl} (h : r.ZerosFrom inp n) (cfg : Config) (k count : Nat) :
    (Brl.readMany cfg inp k count r).2.ZerosFrom inp n := by
  induction count generalizing r with
  | zero => exact h
  | succ count ih => exact ih ((h.readBits cfg k).mono (Nat.sub_le n k))

/-! ## What the fetch of an MSZIP element gives -/

theorem hufWalk_zerosFrom {inp : List Byte} {n : Nat} (cfg : Config) (arena : List (List HufEntry)) (fuel t w : Nat) {r : Brl}
    (h : r.ZerosFrom inp n) : (hufWalk cfg inp arena fuel t w r).Yields (fun _ => Brl.ZerosFrom inp n) fun _ => True := by
  induction fuel generalizing t w r with
  | zero => trivial
  | succ fuel ih =>
    have dropped : ∀ b, ((r.need cfg inp w).drop b).ZerosFrom inp n := fun b =>
      ((h.need cfg w).1.drop b).mono (Nat.sub_le _ _)
    simp only [hufWalk]
    split
    · exact dropped _
    · exact ih _ _ (dropped _)
    · trivial

/-- Whatever the table holds, HufDecode does not move away from the zeros (R160). -/
theorem hufDecode_zerosFrom {inp : List Byte} {n : Nat} (cfg : Config) (t : HufTable) {r : Brl} (h : r.ZerosFrom inp n) :
    (hufDecode cfg inp t r).Yields (fun _ => Brl.ZerosFrom inp n) fun _ => True := by
  unfold hufDecode
  split
  · trivial
  · exact hufWalk_zerosFrom cfg _ _ _ _ h

/-- As many bits as the fetch at `p` takes at least, where the end of the call rests on it: those of the two headers of a
block (R92, R94). -/
def MzPhase.bitsTaken : MzPhase → Nat
  | .header => 3
  | .storedHdr => 32
  | _ => 0

/-- What a header read from zeros can only be: that of a stored block, and two lengths of zero (R92, R94). -/
def MzPhase.readsBlank (p : MzPhase) (i : Instr) : Prop :=
  match p with
  | .header => ∃ f, i = .blkStored f
  | .storedHdr => i = .storedHdr 0 0
  | _ => True

/-- What the fetch at `p` gives, where the reader has `n` bits to the zeros: an element that is due, and the reader as many
bits nearer to them. -/
structure MzPhase.Fetches (inp : List Byte) (n : Nat) (p : MzPhase) (i : Instr) (r : Brl) : Prop where
  takes : p.takes i
  zeros : r.ZerosFrom inp (n - p.bitsTaken)
  blank : n = 0 → p.readsBlank i

section
variable {inp : List Byte} {n : Nat} {r : Brl} (cfg : Config) (h : r.ZerosFrom inp n)
include h

theorem decodeHeader_fetches :
    (decodeHeader cfg inp r).Yields (MzPhase.Fetches inp n .header) fun _ => True := by
  have hf := h.readBits cfg 1
  have ht := hf.readBits cfg 2
  have hblank : n = 0 → ((r.readBits cfg inp 1).2.readBits cfg inp 2).1 = 0 := fun hn =>
    (show Brl.ZerosFrom inp 0 _ by simpa [hn] using hf).readBits_zero cfg 2
  rw [Nat.sub_sub] at ht
  simp only [decodeHeader]
  split
  · exact ⟨⟨_, .inl rfl⟩, ht, fun _ => ⟨_, rfl⟩⟩
  · next h1 => exact ⟨⟨_, .inr (.inl rfl)⟩, ht, fun hn => absurd ((hblank hn).symm.trans h1) nofun⟩
  · next h2 => exact ⟨⟨_, .inr (.inr (.inl rfl))⟩, ht, fun hn => absurd ((hblank hn).symm.trans h2) nofun⟩
  · next h0 _ _ => exact ⟨⟨_, .inr (.inr (.inr rfl))⟩, ht, fun hn => absurd (hblank hn) h0⟩

theorem decodeStoredHdr_fetches :
    (decodeStoredHdr cfg inp r).Yields (MzPhase.Fetches inp n .storedHdr) fun _ => True := by
  have ha : r.align.ZerosFrom inp n := (h.drop _).mono (Nat.sub_le _ _)
  have hlen := ha.readBits cfg 16
  have hnlen := hlen.readBits cfg 16
  rw [Nat.sub_sub] at hnlen
  refine ⟨⟨_, _, rfl⟩, hnlen, fun hn => ?_⟩
  subst hn
  exact congrArg₂ (fun a b => Instr.storedHdr (BitVec.ofNat 16 a) (BitVec.ofNat 16 b)) (ha.readBits_zero cfg 16)
    (hlen.readBits_zero cfg 16)

theorem decodeDynHdr_fetches :
    (decodeDynHdr cfg inp r).Yields (MzPhase.Fetches inp n .dynHdr) fun _ => True := by
  have hcounts := (((h.readBits cfg 5).readBits cfg 5).readBits cfg 4).mono (by omega : n - 5 - 5 - 4 ≤ n)
  exact ⟨⟨_, _, _, _, rfl⟩, hcounts.readMany cfg 3 _, fun _ => trivial⟩

theorem decodeCodeLen_fetches (tc : HufTable) :
    (decodeCodeLen cfg inp tc r).Yields (MzPhase.Fetches inp n .codeLens) fun _ => True := by
  refine (hufDecode_zerosFrom cfg tc h).bind fun s r1 hr1 => ?_
  have hextra : ∀ k, (r1.readBits cfg inp k).2.ZerosFrom inp n := fun k => (hr1.readBits cfg k).mono (Nat.sub_le n k)
  split
  · exact ⟨.inl ⟨_, rfl⟩, hr1, fun _ => trivial⟩
  · split
    · dsimp only
      split
      · exact ⟨.inr ⟨_, .inl rfl⟩, hextra _, fun _ => trivial⟩
      · exact ⟨.inr ⟨_, .inr (.inl rfl)⟩, hextra _, fun _ => trivial⟩
      · exact ⟨.inr ⟨_, .inr (.inr rfl)⟩, hextra _, fun _ => trivial⟩
    · trivial

theorem decodeSymbol_fetches (tl : HufTable) :
    (decodeSymbol cfg inp tl r).Yields (MzPhase.Fetches inp n .symbols) fun _ => True := by
  refine (hufDecode_zerosFrom cfg tl h).bind fun s r1 hr1 => ?_
  split
  · exact ⟨.inr (.inl ⟨_, rfl⟩), hr1, fun _ => trivial⟩
  · split
    · exact ⟨.inl rfl, hr1, fun _ => trivial⟩
    · split
      · next base extra _ =>
        exact ⟨.inr (.inr (.inl ⟨_, rfl⟩)), (hr1.readBits cfg extra).mono (Nat.sub_le n extra), fun _ => trivial⟩
      · split
        · exact ⟨.inr (.inr (.inr ⟨_, rfl⟩)), hr1, fun _ => trivial⟩
        · trivial

theorem decodeDistance_fetches (td : HufTable) (len : Nat) :
    (decodeDistance cfg inp td r).Yields (MzPhase.Fetches inp n (.distance len)) fun _ => True := by
  refine (hufDecode_zerosFrom cfg td h).bind fun d r1 hr1 => ?_
  split
  · next base extra _ =>
    exact ⟨.inl ⟨_, rfl⟩, (hr1.readBits cfg extra).mono (Nat.sub_le n extra), fun _ => trivial⟩
  · split
    · exact ⟨.inr ⟨_, rfl⟩, hr1, fun _ => trivial⟩
    · trivial

end

theorem decodeMz_fetches {inp : List Byte} {n : Nat} (cfg : Config) (p : MzPhase) {x : MzCtx} (h : x.br.ZerosFrom inp n) :
    (decodeMz cfg inp p x).Yields (p.Fetches inp n) fun _ => True := by
  cases p with
  | sig =>
    simp only [decodeMz, decodeSig]
    split
    · exact ⟨rfl, h, fun _ => trivial⟩
    · trivial
  | header => exact decodeHeader_fetches cfg h
  | storedHdr => exact decodeStoredHdr_fetches cfg h
  | raw left => exact ⟨⟨_, rfl⟩, (h.readBits cfg 8).mono (Nat.sub_le n 8), fun _ => trivial⟩
  | dynHdr => exact decodeDynHdr_fetches cfg h
  | codeLens => exact decodeCodeLen_fetches cfg h x.tc
  | symbols => exact decodeSymbol_fetches cfg h x.tl
  | distance len => exact decodeDistance_fetches cfg h x.td len

/-! ## What is left of a call -/

/-- Steps that always lead down end the command. -/
theorem endsWithin_of_descent {α : Type} [Preorder α] [WellFoundedLT α] {left : State → α → Prop}
    (turn : ∀ s a, left s a → ∃ t, step s = .next t ∧ (t.run = .idle ∨ ∃ b < a, left t b)) {s : State} {a : α}
    (h : left s a) : ∃ n, endsWithin n s := by
  induction a using WellFoundedLT.induction generalizing s with
  | _ a ih =>
    obtain ⟨t, hstep, hnext⟩ := turn s a h
    obtain hidle | ⟨b, hb, hleft⟩ := hnext
    · exact ⟨1, endsWithin_of_step hstep (endsWithin_of_idle hidle 0)⟩
    · obtain ⟨n, hn⟩ := ih b hb hleft
      exact ⟨n + 1, endsWithin_of_step hstep hn⟩

/-- How far `p` is from the next header or the next byte of output: the header of a dynamic block comes before its code
lengths, at most as many as R95 declares, they before its symbols, and those before the header after the block. The other
elements produce a byte, or end the call where they are read from zeros. -/
def MzPhase.rank (p : MzPhase) (x : MzCtx) : Nat :=
  match p with
  | .dynHdr => mzNlitMax + mzNdistMax + 4
  | .codeLens => x.nl + x.nd - x.ll.length + 3
  | .symbols => 2
  | .header => 1
  | _ => 0

/-- What is left where the reader has `n` bits to the zeros: these bits, then the room in the output, then the way to the next
header or byte. -/
def mzLeft (n : Nat) (p : MzPhase) (x : MzCtx) : ℕ ×ₗ ℕ ×ₗ ℕ := toLex (n, toLex (x.room, p.rank x))

theorem mzLeft_lt_iff {n m : Nat} {p q : MzPhase} {x y : MzCtx} :
    mzLeft m q y < mzLeft n p x ↔ m < n ∨ m = n ∧ (y.room < x.room ∨ y.room = x.room ∧ q.rank y < p.rank x) := by
  simp only [mzLeft, Prod.Lex.toLex_lt_toLex]

/-- Past the signature, and with a match of at least one byte where its distance is due (R97). -/
def MzPhase.Underway (p : MzPhase) : Prop :=
  match p with
  | .sig => False
  | .distance len => 1 ≤ len
  | _ => True

/-- An `MZ_DECODE` on context `c` is past the signature, stands at `p`, and has `n` bits to the zeros. -/
structure MzStands (c n : Nat) (p : MzPhase) (x : MzCtx) (s : State) : Prop where
  here : MzAt s c p x
  underway : p.Underway
  zeros : x.br.ZerosFrom s.inp n

/-- After a step the `MZ_DECODE` on context `c` is over, or less than `a` is left of it. -/
def MzNearer (c : Nat) (a : ℕ ×ₗ ℕ ×ₗ ℕ) (t : State) : Prop :=
  t.run = .idle ∨ ∃ n p x, MzStands c n p x t ∧ mzLeft n p x < a

theorem MzNearer.of_at {t : State} {c n : Nat} {p : MzPhase} {x : MzCtx} {a : ℕ ×ₗ ℕ ×ₗ ℕ} (here : MzAt t c p x)
    (hp : p.Underway) (hz : x.br.ZerosFrom t.inp n) (hlt : mzLeft n p x < a) : MzNearer c a t :=
  .inr ⟨n, p, x, ⟨here, hp, hz⟩, hlt⟩

/-- Where the command goes on at `p` with the registers `x`. -/
theorem MzAt.goesOn {s : State} {c : Nat} {q : MzPhase} {y : MzCtx} (h : MzAt s c q y) (p : MzPhase) (x : MzCtx) :
    MzAt ((s.setMz c x).setRun (.mz c p)) c p x := ⟨rfl, (h.setMz x).2⟩

theorem afterBlock_nearer {s : State} {c n : Nat} {p : MzPhase} {x y : MzCtx} {a : ℕ ×ₗ ℕ ×ₗ ℕ} (here : MzAt s c p x)
    (hz : y.br.ZerosFrom s.inp n) (hlt : mzLeft n .header y < a) : MzNearer c a (afterBlock s c y) := by
  unfold afterBlock
  split
  · exact .of_at (here.goesOn .header y) trivial hz hlt
  · split <;> exact .inl rfl

/-! ## The elements -/

section
variable {s : State} {c n : Nat} {x : MzCtx} {i : Instr}

/-- A block header takes bits that may be no zeros, or is that of a stored block (R92, R171). -/
theorem exec_header_nearer (here : MzAt s c .header x) (hf : MzPhase.Fetches s.inp n .header i x.br) :
    ∃ t, exec i s = .next t ∧ MzNearer c (mzLeft n .header x) t := by
  obtain ⟨-, stored, ⟨tl, td, -, -, fixed⟩, dynamic, reserved⟩ := sigAndBlockHeadersDispatch
  obtain ⟨htakes, hz, hblank⟩ := hf
  obtain rfl | hn := Nat.eq_zero_or_pos n
  · obtain ⟨f, rfl⟩ := hblank rfl
    exact ⟨_, stored s c x f here, .of_at (here.goesOn _ _) trivial hz
      (mzLeft_lt_iff.2 (.inr ⟨rfl, .inr ⟨rfl, Nat.one_pos⟩⟩))⟩
  · have fewer : ∀ q y, mzLeft (n - 3) q y < mzLeft n .header x := fun q y => mzLeft_lt_iff.2 (.inl (by omega))
    obtain ⟨f, rfl | rfl | rfl | rfl⟩ := htakes
    · exact ⟨_, stored s c x f here, .of_at (here.goesOn _ _) trivial hz (fewer _ _)⟩
    · exact ⟨_, fixed s c x f here, .of_at (here.goesOn _ _) trivial hz (fewer _ _)⟩
    · exact ⟨_, dynamic s c x f here, .of_at (here.goesOn _ _) trivial hz (fewer _ _)⟩
    · exact ⟨_, reserved s c x f here, .inl rfl⟩

/-- The lengths of a stored block take bits that may be no zeros, or fail the complement check (R94, R174). -/
theorem exec_storedHdr_nearer (here : MzAt s c .storedHdr x) (hf : MzPhase.Fetches s.inp n .storedHdr i x.br) :
    ∃ t, exec i s = .next t ∧ MzNearer c (mzLeft n .storedHdr x) t := by
  obtain ⟨htakes, hz, hblank⟩ := hf
  obtain rfl | hn := Nat.eq_zero_or_pos n
  · obtain rfl := hblank rfl
    refine ⟨_, storedBlockElements.1 s c x 0 0 here, ?_⟩
    rw [if_pos (by decide)]
    exact .inl rfl
  · have fewer : ∀ q, mzLeft (n - 32) q x < mzLeft n .storedHdr x := fun q => mzLeft_lt_iff.2 (.inl (by omega))
    obtain ⟨len, nlen, rfl⟩ := htakes
    refine ⟨_, storedBlockElements.1 s c x len nlen here, ?_⟩
    split
    · exact .inl rfl
    · split
      · exact .inl rfl
      · split
        · exact afterBlock_nearer here hz (fewer _)
        · exact .of_at ⟨rfl, here.2⟩ trivial hz (fewer _)

/-- The header of a dynamic block declares at most 320 code lengths, which are due then (R95, R180). -/
theorem exec_dynHdr_nearer (here : MzAt s c .dynHdr x) (hf : MzPhase.Fetches s.inp n .dynHdr i x.br) :
    ∃ t, exec i s = .next t ∧ MzNearer c (mzLeft n .dynHdr x) t := by
  obtain ⟨⟨hlit, hdist, hclen, clen, rfl⟩, hz, -⟩ := hf
  obtain ⟨built, empty, refused⟩ := dynamicHeaderBuildsTheCodeLengthTable.2 s c x hlit hdist hclen clen here
  cases hb : hufBuild ((clArray clen).map BitVec.toNat) s.cfg.mzClRoot false with
  | none => exact ⟨_, refused hb, .inl rfl⟩
  | some tc =>
    cases he : tc.empty with
    | true => exact ⟨_, empty tc hb he, .inl rfl⟩
    | false =>
      refine ⟨_, built tc hb he, .of_at (here.goesOn _ _) trivial hz (mzLeft_lt_iff.2 (.inr ⟨rfl, .inr ⟨rfl, ?_⟩⟩))⟩
      have := hlit.isLt
      have := hdist.isLt
      simp only [MzPhase.rank, mzNlitMax, mzNdistMax, List.length_nil]
      omega

/-- Every code-length element appends at least one length (R96). -/
theorem lengthRun_of_takes (hi : MzPhase.codeLens.takes i) (hwf : i.wf = true) (x : MzCtx) :
    ∃ v j prev, lengthRun x i = some (v, j, prev) ∧ 1 ≤ j := by
  obtain ⟨v, rfl⟩ | ⟨rep, rfl | rfl | rfl⟩ := hi
  · exact ⟨_, _, _, rfl, le_rfl⟩
  all_goals
    simp only [Instr.wf, Bool.and_eq_true, decide_eq_true_eq] at hwf
    exact ⟨_, _, _, rfl, by omega⟩

/-- A code length is one less to come; after the last one the symbols follow (R182, R184). -/
theorem exec_codeLens_nearer (here : MzAt s c .codeLens x) (hf : MzPhase.Fetches s.inp n .codeLens i x.br)
    (hwf : i.wf = true) : ∃ t, exec i s = .next t ∧ MzNearer c (mzLeft n .codeLens x) t := by
  obtain ⟨htakes, hz, -⟩ := hf
  obtain ⟨v, j, prev, hrun, hj⟩ := lengthRun_of_takes htakes hwf x
  rw [exec_lengthRun here hrun]
  obtain ⟨-, he⟩ | ⟨hmore, he⟩ | ⟨-, he⟩ := mzGrowLengths_cases s c { x with prev := prev } v j
  · exact ⟨_, he, .inl (State.raise_run _ _)⟩
  · refine ⟨_, he, .of_at (here.setMz _) trivial hz (mzLeft_lt_iff.2 (.inr ⟨rfl, .inr ⟨rfl, ?_⟩⟩))⟩
    simp only [MzPhase.rank, List.length_append, List.length_replicate] at hmore ⊢
    omega
  · rw [he]
    obtain ⟨-, he⟩ | ⟨tl, -, ⟨-, he⟩ | ⟨td, -, -, he⟩⟩ := mzBuildTables_cases s c _
    · exact ⟨_, he, .inl (State.raise_run _ _)⟩
    · exact ⟨_, he, .inl (State.raise_run _ _)⟩
    · exact ⟨_, he, .of_at (here.goesOn _ _) trivial hz
        (mzLeft_lt_iff.2 (.inr ⟨rfl, .inr ⟨rfl, show 2 < _ + 3 by omega⟩⟩))⟩

/-- A raw byte takes room (R174). -/
theorem exec_raw_nearer {left : Nat} (hs : MzInv s) (here : MzAt s c (.raw left) x)
    (hf : MzPhase.Fetches s.inp n (.raw left) i x.br) : ∃ t, exec i s = .next t ∧ MzNearer c (mzLeft n (.raw left) x) t := by
  obtain ⟨⟨b, rfl⟩, hz, -⟩ := hf
  obtain ⟨hleft, hroom, -⟩ : (MzPhase.raw left).ok s x := hs.2 c _ x here.1 here.2
  rw [MzCtx.room] at hroom
  refine ⟨_, storedBlockElements.2 s c x left b here hleft (by omega), ?_⟩
  have less : ∀ q y, y.outLen = x.outLen → y.produced = x.produced + 1 → mzLeft n q y < mzLeft n (.raw left) x :=
    fun q y hlen hprod => mzLeft_lt_iff.2 (.inr ⟨rfl, .inl (by rw [MzCtx.room, MzCtx.room, hlen, hprod]; omega)⟩)
  split
  · exact afterBlock_nearer (s := s.emit [b]) here hz (less _ _ rfl rfl)
  · exact .of_at (MzAt.goesOn (s := s.emit [b]) here _ _) trivial hz (less _ _ rfl rfl)

/-- A literal takes room, the end of the block and a match lead on (R186, R187). -/
theorem exec_symbols_nearer (hs : MzInv s) (here : MzAt s c .symbols x) (hf : MzPhase.Fetches s.inp n .symbols i x.br)
    (hwf : i.wf = true) : ∃ t, exec i s = .next t ∧ MzNearer c (mzLeft n .symbols x) t := by
  obtain ⟨literal, eob, mtch, reserved, -⟩ := symbolElements
  obtain ⟨htakes, hz, -⟩ := hf
  obtain ⟨-, hfits, -⟩ := hs.1 x (List.mem_of_getElem? here.2)
  obtain rfl | ⟨b, rfl⟩ | ⟨len, rfl⟩ | ⟨sym, rfl⟩ := htakes
  · exact ⟨_, eob s c x here, afterBlock_nearer here hz (mzLeft_lt_iff.2 (.inr ⟨rfl, .inr ⟨rfl, Nat.one_lt_two⟩⟩))⟩
  · by_cases hfull : x.produced = x.outLen
    · obtain ⟨t, hexec, -, hidle, -⟩ := literalWhenFullIsCorruptData s c x b here hfull
      exact ⟨t, hexec, .inl hidle⟩
    · refine ⟨_, literal s c x b here hfull, .of_at (MzAt.setMz (s := s.emit [b]) here _) trivial hz
        (mzLeft_lt_iff.2 (.inr ⟨rfl, .inl ?_⟩))⟩
      simp only [MzCtx.room]
      omega
  · have hlen : 3 ≤ len := by
      simp only [Instr.wf, Bool.and_eq_true, decide_eq_true_eq] at hwf
      obtain ⟨hlow, -⟩ := hwf
      exact hlow
    exact ⟨_, mtch s c x len here, .of_at ⟨rfl, here.2⟩ (show 1 ≤ len by omega) hz
      (mzLeft_lt_iff.2 (.inr ⟨rfl, .inr ⟨rfl, Nat.two_pos⟩⟩))⟩
  · exact ⟨_, reserved s c x sym here, .inl rfl⟩

/-- A match takes room as far as its length, which is at least 1, or is rejected (R187). -/
theorem exec_distance_nearer {len : Nat} (hm : MemoryInv s) (hs : MzInv s) (here : MzAt s c (.distance len) x)
    (hlen : 1 ≤ len) (hf : MzPhase.Fetches s.inp n (.distance len) i x.br) :
    ∃ t, exec i s = .next t ∧ MzNearer c (mzLeft n (.distance len) x) t := by
  obtain ⟨copied, rejected⟩ := matchIsCopiedOrRejected
  obtain ⟨-, -, -, -, reserved⟩ := symbolElements
  obtain ⟨⟨d, rfl⟩ | ⟨sym, rfl⟩, hz, -⟩ := hf
  · by_cases hbad : d = 0 ∨ x.win.valid < d ∨ x.outLen - x.produced < len
    · exact ⟨_, rejected s c x len d here hbad, .inl rfl⟩
    · obtain ⟨w, bs, -, -, hexec⟩ := copied s c x len d hm hs here (by omega) (by omega) (by omega)
      refine ⟨_, hexec, .of_at (MzAt.goesOn (s := s.emit bs) here _ _) trivial hz (mzLeft_lt_iff.2 (.inr ⟨rfl, .inl ?_⟩))⟩
      simp only [MzCtx.room]
      omega
  · exact ⟨_, reserved s c x len sym here, .inl rfl⟩

/-- Every element past the signature brings an `MZ_DECODE` nearer to its end. -/
theorem exec_mz_nearer {p : MzPhase} (hm : MemoryInv s) (hs : MzInv s) (here : MzAt s c p x) (hp : p.Underway)
    (hf : p.Fetches s.inp n i x.br) (hwf : i.wf = true) : ∃ t, exec i s = .next t ∧ MzNearer c (mzLeft n p x) t := by
  cases p with
  | sig => exact hp.elim
  | header => exact exec_header_nearer here hf
  | storedHdr => exact exec_storedHdr_nearer here hf
  | raw left => exact exec_raw_nearer hs here hf
  | dynHdr => exact exec_dynHdr_nearer here hf
  | codeLens => exact exec_codeLens_nearer here hf hwf
  | symbols => exact exec_symbols_nearer hs here hf hwf
  | distance len => exact exec_distance_nearer hm hs here hp hf

end

/-! ## The steps -/

/-- The fetch moves a reader, of which the invariants of the windows and of OUT say nothing (R24). -/
theorem MzAt.fetch_keeps {s : State} {c : Nat} {p : MzPhase} {x : MzCtx} (here : MzAt s c p x) (r : Brl)
    (hm : MemoryInv s) (hs : MzInv s) :
    MemoryInv (s.setMz c { x with br := r }) ∧ MzInv (s.setMz c { x with br := r }) := by
  obtain ⟨hmz, hqt, hlz⟩ := hm
  obtain ⟨hok, hrun⟩ := hs
  have hx := List.mem_of_getElem? here.2
  refine ⟨⟨fun y hy => ?_, hqt, hlz⟩, fun y hy => ?_, fun d q y hr hy => ?_⟩
  · obtain hy | rfl := List.mem_or_eq_of_mem_set hy
    · exact hmz y hy
    · exact hmz x hx
  · obtain hy | rfl := List.mem_or_eq_of_mem_set hy
    · exact hok y hy
    · exact hok x hx
  · obtain ⟨rfl, rfl, rfl⟩ := (here.setMz { x with br := r }).unique ⟨hr, hy⟩
    have := hrun _ _ x here.1 here.2
    cases q <;> exact this

/-- A step past the signature brings an `MZ_DECODE` nearer to its end, and an error of its fetch ends it. -/
theorem MzStands.step_nearer {s : State} {c n : Nat} {p : MzPhase} {x : MzCtx} (h : MzStands c n p x s) (hm : MemoryInv s)
    (hs : MzInv s) : ∃ t, step s = .next t ∧ MzNearer c (mzLeft n p x) t := by
  obtain ⟨here, hp, hz⟩ := h
  have hfetch := fetch_mz here
  have hgives := decodeMz_fetches s.cfg p hz
  cases hd : decodeMz s.cfg s.inp p x with
  | bug f => exact absurd hd (hgives.not_bug f)
  | err k r =>
    rw [hd] at hfetch
    exact ⟨_, step_of_error hfetch, .inl (State.raise_run _ k)⟩
  | ok i r =>
    rw [hd] at hfetch
    rw [step_of_instr hfetch]
    obtain ⟨hm', hs'⟩ := here.fetch_keeps r hm hs
    have hwf := (decodeMz_wf s.cfg s.inp p x).of_ok hd
    exact exec_mz_nearer (x := { x with br := r }) hm' hs' (here.setMz _) hp (hgives.of_ok hd) hwf

/-- A good state with an `MZ_DECODE` on context `c` in progress, past the signature, of which `a` is left. -/
def MzLeft (c : Nat) (s : State) (a : ℕ ×ₗ ℕ ×ₗ ℕ) : Prop :=
  MemoryInv s ∧ MzInv s ∧ ∃ n p x, MzStands c n p x s ∧ mzLeft n p x = a

/-- What is left becomes less with each step until the command is over. -/
theorem MzLeft.falls {c : Nat} {s : State} {a : ℕ ×ₗ ℕ ×ₗ ℕ} (h : MzLeft c s a) :
    ∃ t, step s = .next t ∧ (t.run = .idle ∨ ∃ b < a, MzLeft c t b) := by
  obtain ⟨hm, hs, n, p, x, hstands, rfl⟩ := h
  obtain ⟨t, hstep, hnearer⟩ := hstands.step_nearer hm hs
  exact ⟨t, hstep, hnearer.imp_right fun ⟨m, q, y, hy, hlt⟩ => ⟨_, hlt, stepKeepsMemoryForm s t hm hstep,
    stepKeepsTheMszipInvariant s t hm hs hstep, m, q, y, hy, rfl⟩⟩

/-- The signature opens the call: past it a new reader has the bits of IN to the zeros (R170). An input without it ends. -/
theorem step_sig {s : State} {c : Nat} {x : MzCtx} (here : MzAt s c .sig x) :
    ∃ t, step s = .next t ∧ (t.run = .idle ∨ ∃ y, MzStands c (8 * t.inp.length) .header y t) := by
  obtain ⟨⟨opens, fails⟩, -⟩ := sigAndBlockHeadersDispatch
  by_cases hsig : s.inp.take 2 = mzSig
  · have hfetch : fetch s = .instr .sig s := by
      rw [fetch_mz here, decodeMz, decodeSig, if_pos hsig]
      exact congrArg (Fetched.instr .sig) (State.setMz_self here.2)
    exact ⟨_, (step_of_instr hfetch).trans (opens s c x here),
      .inr ⟨_, here.goesOn _ _, trivial, Brl.start_zerosFrom s.inp 2⟩⟩
  · exact ⟨_, fails s c x here hsig, .inl rfl⟩

/-- Settles O60: past the signature every step leaves less of the bits of IN, of the room, or of the way to the next header
or byte. -/
theorem mzDecodeEnds : Obligations.MzDecodeEnds := by
  intro s c x hinv here
  obtain ⟨hm, hs, -⟩ := hinv
  obtain ⟨t, hstep, hidle | ⟨y, hy⟩⟩ := step_sig here
  · exact ⟨1, endsWithin_of_step hstep (endsWithin_of_idle hidle 0)⟩
  · have hleft : MzLeft c t _ :=
      ⟨stepKeepsMemoryForm s t hm hstep, stepKeepsTheMszipInvariant s t hm hs hstep, _, _, y, hy, rfl⟩
    obtain ⟨n, hn⟩ := endsWithin_of_descent (fun _ _ => MzLeft.falls) hleft
    exact ⟨n + 1, endsWithin_of_step hstep hn⟩

end Sys2Proof.Machine
end
